-- ==== Sys2Proof/Word.lean ====
section
/-! DEFINITION. The two units of data of the ZD-410: a byte and a sector.

Every other quantity of the reference is a number with a stated range, held as a natural number. -/

namespace Sys2Proof

/-- One byte of a link frame or of a sector record (chapter 11). -/
abbrev Byte := BitVec 8

/-- One sector of 1,024 bytes (00_scope.md, Storage units), first byte first. -/
abbrev Sector := List Byte

end Sys2Proof
end

