-- ==== Sys2Proof/Syntax.lean ====
section
/-! DEFINITION. The commands of the ZD-410: one constructor of `Instr` for each row of the opcode table,
with the operands its frame, event or message carries.

Numbers that a frame carries are natural numbers; the bounds of their fields stand in `WellFormed`.
Numbers of things that a line or a timer names by itself (drives, contexts, filings) are `Fin`. -/

namespace Sys2Proof

/-- The body of a FETCH frame (R78, R185): delivery kind, certified flag, requested priority, range count,
account, instrument and the four range places, each a first and a last page. -/
structure FetchBody where
  kind : Nat
  certified : Bool
  priority : Nat
  rangeCount : Nat
  account : Nat
  instrument : Nat
  places : List (Nat × Nat)
  deriving DecidableEq, Repr, Inhabited

/-- The body of a PAGE frame (R103, R185). -/
structure PageBody where
  page : Nat
  format : Nat
  sectors : Nat
  offset : Nat
  data : List Sector
  deriving DecidableEq, Repr, Inhabited

/-- The two forms of LOAD-SIDE (R18, R184): removal, or the values of a record. `state` is the code of R184. -/
inductive SideLoad where
  | remove (side : Nat)
  | store (side serial state dataHigh written : Nat) (skips : List Nat) (spoiled : Nat) (incomplete : Bool)
  deriving DecidableEq, Repr, Inhabited

/-- The figures of one fee class in a schedule (R125, R145): rates for the four format classes, threshold,
deed fee, certification fee, minimum and cap. -/
structure ClassFigures where
  normal : List Nat
  bulk : List Nat
  threshold : Nat
  deedFee : Nat
  certFee : Nat
  minimum : Nat
  cap : Nat
  deriving DecidableEq, Repr, Inhabited

/-- The seven parameters of SET-PARAMS in the order of R163, each given or omitted. -/
structure ParamValues where
  idleUnmount : Option Nat
  holdLimit : Option Nat
  gatherIdle : Option Nat
  quietDelay : Option Nat
  quietDuration : Option Nat
  channelStall : Option Nat
  filingPriority : Option Nat
  deriving DecidableEq, Repr, Inhabited

/-- The rights of a requester (R158). -/
structure Rights where
  copy : Bool
  view : Bool
  file : Bool
  deriving DecidableEq, Repr, Inhabited

/-- A result message of a drive (R25), with the sector it carries. -/
inductive DriveResult where
  | ok
  | blank (sector : Nat)
  | mediaError (sector : Nat)
  | verifyFailed (sector : Nat)
  | notReady
  | noCartridge
  deriving DecidableEq, Repr, Inhabited

/-- What an INVENTORY reports of a home slot (R38). -/
inductive SlotFinding where
  | occupied
  | empty
  | unknown
  deriving DecidableEq, Repr, Inhabited

/-- The commands. `r` is the requester id and `t` the tag of the frame's header. -/
inductive Instr where
  /-- POWER_ON_RESET (R170). -/
  | powerOnReset
  /-- MEMORY_CHECK_DONE (R170): the first staging frame that failed, or none. -/
  | memoryCheckDone (failed : Option Nat)
  /-- FRAME_ADMISSION (R152): all bytes of the frame, check bytes included. -/
  | frameAdmission (bytes : List Byte)
  /-- LINK_DOWN (R155). -/
  | linkDown
  /-- LINK_UP (R155). -/
  | linkUp
  /-- FRAME_SENT (R156). -/
  | frameSent
  /-- FETCH (R79). -/
  | fetch (r t : Nat) (body : FetchBody)
  /-- HOLD (R89). -/
  | hold (r t : Nat)
  /-- RESUME (R90). -/
  | resume (r t : Nat)
  /-- CANCEL (R93). -/
  | cancel (r t : Nat)
  /-- FILE_OPEN (R102). -/
  | fileOpen (r t : Nat)
  /-- PAGE (R103). -/
  | page (r t : Nat) (body : PageBody)
  /-- FILE_END (R105). -/
  | fileEnd (r t : Nat) (count : Nat)
  /-- FILE_ABORT (R106). -/
  | fileAbort (r t : Nat)
  /-- BIND (R160). -/
  | bind (r t : Nat)
  /-- SET_STATE (R162): the target's code and the ABORT flag. -/
  | setState (r t : Nat) (target : Nat) (abort : Bool)
  /-- SET_PARAMS (R163). -/
  | setParams (r t : Nat) (values : ParamValues)
  /-- LOAD_REQUESTER (R158). -/
  | loadRequester (r t : Nat) (id : Nat) (rights : Rights) (maxPriority contextLimit : Nat)
  /-- DROP_REQUESTER (R159). -/
  | dropRequester (r t : Nat) (id : Nat)
  /-- LOAD_SIDE (R18). -/
  | loadSide (r t : Nat) (load : SideLoad)
  /-- LOAD_RANGE (R60). -/
  | loadRange (r t : Nat) (first last side : Nat) (openFlag : Bool)
  /-- CLEAR_RANGES (R60). -/
  | clearRanges (r t : Nat)
  /-- SET_NEXT_INSTRUMENT (R123). -/
  | setNextInstrument (r t : Nat) (value : Nat)
  /-- LOAD_ACCOUNT (R139): number, class, credit limit, requested state's code, RESET-TALLY. -/
  | loadAccount (r t : Nat) (number cls limit state : Nat) (resetTally : Bool)
  /-- SET_ACCOUNT_STATE (R141). -/
  | setAccountState (r t : Nat) (number state : Nat)
  /-- CLOSE_ACCOUNT (R142). -/
  | closeAccount (r t : Nat) (number : Nat)
  /-- LOAD_SCHEDULE (R147): effective fee day and the figures of the eight classes. -/
  | loadSchedule (r t : Nat) (effective : Nat) (figures : List ClassFigures)
  /-- DAY_CLOSE (R148). -/
  | dayClose (r t : Nat) (day : Nat)
  /-- DRIVE_OFFLINE (R35). -/
  | driveOffline (r t : Nat) (drive : Nat)
  /-- DRIVE_RETRY (R36). -/
  | driveRetry (r t : Nat) (drive : Nat)
  /-- CLEAR_PICKER (R42). -/
  | clearPicker (r t : Nat)
  /-- FILING_RESUME (R121). -/
  | filingResume (r t : Nat)
  /-- RESTART (R183). -/
  | restart (r t : Nat)
  /-- CLEAR_FAULT (R171). -/
  | clearFault (r t : Nat)
  /-- QUERY_STATUS (R167). -/
  | queryStatus (r t : Nat)
  /-- QUERY_ACCOUNT (R150). -/
  | queryAccount (r t : Nat) (number : Nat)
  /-- QUERY_SIDE (R167). -/
  | querySide (r t : Nat) (side : Nat)
  /-- QUERY_DRIVE (R20). -/
  | queryDrive (r t : Nat) (drive : Nat)
  /-- QUERY_CONTEXTS (R75). -/
  | queryContexts (r t : Nat)
  /-- QUERY_FILINGS (R123). -/
  | queryFilings (r t : Nat)
  /-- QUERY_SCHEDULES (R150). -/
  | querySchedules (r t : Nat)
  /-- DRIVE_WAITING_TO_SEND (R19). -/
  | driveWaitingToSend (d : Fin 4)
  /-- DATA_BLOCK (R24): the sector offered. -/
  | dataBlock (d : Fin 4) (data : Sector)
  /-- RESULT (R25). -/
  | result (d : Fin 4) (res : DriveResult)
  /-- CHANNEL_STALL (R22). -/
  | channelStall (d : Fin 4)
  /-- TAKEN_FROM_SLOT (R39). -/
  | takenFromSlot
  /-- EMPTY_SLOT (R40). -/
  | emptySlot
  /-- INSERTED (R39). -/
  | inserted
  /-- EJECTED (R39). -/
  | ejected
  /-- PLACED (R39). -/
  | placed
  /-- MOTION_DONE (R39). -/
  | motionDone
  /-- OCCUPANCY (R43): the 64 slot findings. -/
  | occupancy (findings : List SlotFinding)
  /-- PICKER_FAULT (R41). -/
  | pickerFault
  /-- HOLD_BEGUN (R57). -/
  | holdBegun
  /-- HOLD_ENDED (R57). -/
  | holdEnded
  /-- IDLE_TIMER_EXPIRY (R55). -/
  | idleTimerExpiry (d : Fin 4)
  /-- HOLD_TIMER_EXPIRY (R91). -/
  | holdTimerExpiry (c : Fin 16)
  /-- GATHER_IDLE_EXPIRY (R107). -/
  | gatherIdleExpiry (f : Fin 8)
  deriving DecidableEq, Repr

/-- An admitted frame as the inbound buffer holds it (R154): the request it spells, or a MANAGE frame whose
request code is unknown or whose length does not fit its code (R160 check 4, R185). -/
inductive Request where
  | known (i : Instr)
  | unknown (r t code : Nat)
  deriving DecidableEq, Repr

end Sys2Proof
end

