-- ==== Sys2Proof/Decode.lean ====
section
/-! DEFINITION. Reading bytes: byte order, the CRC of a link frame, and the request an inbound frame spells
(chapter 11). The opcode table gives its rows no bits, so `decodeTableWord` answers none for every word. -/

namespace Sys2Proof

/-- `n` in `w` bytes, most significant first (R184). -/
def bigEndian : Nat → Nat → List Byte
  | 0, _ => []
  | w + 1, n => BitVec.ofNat 8 (n / 256 ^ w) :: bigEndian w n

/-- The number that bytes spell, most significant first (R184). -/
def bigEndianValue (bs : List Byte) : Nat := bs.foldl (fun v b => v * 256 + b.toNat) 0

/-- The number in the `w` bytes from byte `at_` on. -/
def fieldAt (bs : List Byte) (at_ w : Nat) : Nat := bigEndianValue ((bs.drop at_).take w)

/-- A flag byte: any value but 0 is set (R184). -/
def flagAt (bs : List Byte) (at_ : Nat) : Bool := fieldAt bs at_ 1 != 0

/-- Cuts a list into pieces of `n`; the last one may be short. The first argument bounds the pieces. -/
def chunks (fuel n : Nat) (bs : List Byte) : List (List Byte) :=
  match fuel with
  | 0 => []
  | k + 1 => if bs.isEmpty then [] else bs.take n :: chunks k n (bs.drop n)

/-- One bit of the CRC register of R185: generator x^16 + x^12 + x^5 + 1. -/
def crcBit (reg : BitVec 16) (bit : Bool) : BitVec 16 :=
  if (reg.msb ^^ bit) then (reg <<< 1) ^^^ 0x1021#16 else reg <<< 1

/-- One byte of the CRC, most significant bit first (R185). -/
def crcByte (reg : BitVec 16) (b : Byte) : BitVec 16 :=
  [7, 6, 5, 4, 3, 2, 1, 0].foldl (fun r i => crcBit r (b.getLsbD i)) reg

/-- The CRC-16 of a frame's header and body, preset to 65,535 (R185). -/
def crc16 (bs : List Byte) : BitVec 16 := bs.foldl crcByte 0xFFFF#16

/-- The body of a FETCH (R185). -/
def readFetch (body : List Byte) : FetchBody :=
  { kind := fieldAt body 0 1, certified := flagAt body 1, priority := fieldAt body 2 1
    rangeCount := fieldAt body 3 1, account := fieldAt body 4 4, instrument := fieldAt body 8 4
    places := [12, 14, 16, 18].map fun i => (fieldAt body i 1, fieldAt body (i + 1) 1) }

/-- The body of a PAGE (R185). -/
def readPage (body : List Byte) : PageBody :=
  { page := fieldAt body 0 1, format := fieldAt body 1 1, sectors := fieldAt body 2 1
    offset := fieldAt body 3 1, data := chunks 8 1024 (body.drop 4) }

/-- The operands of SET-PARAMS behind the presence mask, in order, with the bytes left over (R184). -/
def readOptional (mask : Nat) : Nat → List Nat → List Byte → List (Option Nat) × List Byte
  | _, [], bs => ([], bs)
  | i, w :: ws, bs =>
    if mask.testBit i then
      let (vs, rest) := readOptional mask (i + 1) ws (bs.drop w)
      (some (fieldAt bs 0 w) :: vs, rest)
    else
      let (vs, rest) := readOptional mask (i + 1) ws bs
      (none :: vs, rest)

/-- The widths of the seven parameters (R184, R163). -/
def paramWidths : List Nat := [4, 4, 4, 4, 4, 4, 1]

/-- How many bytes the parameters named by a mask take. Bit 7 of the mask names none and is ignored (log 57). -/
def paramBytes (mask : Nat) : Nat :=
  ((paramWidths.zipIdx).filter fun p => mask.testBit p.2).foldl (fun n p => n + p.1) 0

/-- The parameters of SET-PARAMS. -/
def readParams (ops : List Byte) : ParamValues :=
  let vs := (readOptional (fieldAt ops 0 1) 0 paramWidths (ops.drop 1)).1
  let v := fun i => (vs.getD i none)
  { idleUnmount := v 0, holdLimit := v 1, gatherIdle := v 2, quietDelay := v 3
    quietDuration := v 4, channelStall := v 5, filingPriority := v 6 }

/-- The figures of one class, 30 bytes: four normal rates, four bulk rates, T, D, C, M, X (R145). -/
def readFigures (bs : List Byte) : ClassFigures :=
  { normal := [0, 2, 4, 6].map fun i => fieldAt bs i 2
    bulk := [8, 10, 12, 14].map fun i => fieldAt bs i 2
    threshold := fieldAt bs 16 2, deedFee := fieldAt bs 18 3, certFee := fieldAt bs 21 3
    minimum := fieldAt bs 24 3, cap := fieldAt bs 27 3 }

/-- The operands of LOAD-SIDE (R18, R184). -/
def readSide (ops : List Byte) : SideLoad :=
  if flagAt ops 1 then .remove (fieldAt ops 0 1)
  else
    let n := fieldAt ops 13 1
    let skips := (List.range n).map fun i => fieldAt ops (14 + 2 * i) 2
    .store (fieldAt ops 0 1) (fieldAt ops 2 4) (fieldAt ops 6 1) (fieldAt ops 7 4) (fieldAt ops 11 2)
      skips (fieldAt ops (14 + 2 * n) 4) (flagAt ops (18 + 2 * n))

/-- A set of rights in one byte: bit 0 COPY, bit 1 VIEW, bit 2 FILE (R158; DESIGN CHOICE, log 9). Bits 3 to 7 are not
looked at (DESIGN CHOICE, log 48). -/
def readRights (b : Nat) : Rights :=
  { copy := b.testBit 0, view := b.testBit 1, file := b.testBit 2 }

/-- How many operand bytes a management request carries, by its code and its own bytes (R184, R185);
none for an unknown code (11.3). -/
def operandLength (code : Nat) (ops : List Byte) : Option Nat :=
  match code with
  | 1 => some 0
  | 2 => some 2
  | 3 => some (1 + paramBytes (fieldAt ops 0 1))
  | 4 => some 4
  | 5 => some 1
  | 6 => some (if flagAt ops 1 then 2 else 19 + 2 * fieldAt ops 13 1)
  | 7 => some 10
  | 8 => some 0
  | 9 => some 4
  | 10 => some 13
  | 11 => some 5
  | 12 => some 4
  | 13 => some 242
  | 14 => some 2
  | 15 => some 1
  | 16 => some 1
  | 17 => some 0
  | 18 => some 0
  | 19 => some 0
  | 20 => some 0
  | 21 => some 0
  | 22 => some 4
  | 23 => some 1
  | 24 => some 1
  | 25 => some 0
  | 26 => some 0
  | 27 => some 0
  | _ => none

/-- The management request of a known code whose operands have their full length (11.3). -/
def readManage (r t code : Nat) (ops : List Byte) : Request :=
  match code with
  | 1 => .known (.bind r t)
  | 2 => .known (.setState r t (fieldAt ops 0 1) (flagAt ops 1))
  | 3 => .known (.setParams r t (readParams ops))
  | 4 => .known (.loadRequester r t (fieldAt ops 0 1) (readRights (fieldAt ops 1 1)) (fieldAt ops 2 1) (fieldAt ops 3 1))
  | 5 => .known (.dropRequester r t (fieldAt ops 0 1))
  | 6 => .known (.loadSide r t (readSide ops))
  | 7 => .known (.loadRange r t (fieldAt ops 0 4) (fieldAt ops 4 4) (fieldAt ops 8 1) (flagAt ops 9))
  | 8 => .known (.clearRanges r t)
  | 9 => .known (.setNextInstrument r t (fieldAt ops 0 4))
  | 10 => .known (.loadAccount r t (fieldAt ops 0 4) (fieldAt ops 4 1) (fieldAt ops 5 6) (fieldAt ops 11 1) (flagAt ops 12))
  | 11 => .known (.setAccountState r t (fieldAt ops 0 4) (fieldAt ops 4 1))
  | 12 => .known (.closeAccount r t (fieldAt ops 0 4))
  | 13 => .known (.loadSchedule r t (fieldAt ops 0 2) ((chunks 8 30 (ops.drop 2)).map readFigures))
  | 14 => .known (.dayClose r t (fieldAt ops 0 2))
  | 15 => .known (.driveOffline r t (fieldAt ops 0 1))
  | 16 => .known (.driveRetry r t (fieldAt ops 0 1))
  | 17 => .known (.clearPicker r t)
  | 18 => .known (.filingResume r t)
  | 19 => .known (.restart r t)
  | 20 => .known (.clearFault r t)
  | 21 => .known (.queryStatus r t)
  | 22 => .known (.queryAccount r t (fieldAt ops 0 4))
  | 23 => .known (.querySide r t (fieldAt ops 0 1))
  | 24 => .known (.queryDrive r t (fieldAt ops 0 1))
  | 25 => .known (.queryContexts r t)
  | 26 => .known (.queryFilings r t)
  | 27 => .known (.querySchedules r t)
  | _ => .unknown r t code

/-- The request of a MANAGE body (R160 check 4, R185). -/
def readManageBody (r t : Nat) (body : List Byte) : Request :=
  let code := fieldAt body 0 1
  let ops := body.drop 1
  if operandLength code ops = some ops.length then readManage r t code ops else .unknown r t code

/-- Whether a kind admits a body of this length (R185). Kinds other than 1-9 admit none. -/
def bodyLengthAllowed (kind n : Nat) : Bool :=
  match kind with
  | 1 => n == 20
  | 2 | 3 | 4 | 5 | 8 => n == 0
  | 6 => (1 ≤ (n - 4) / 1024 && (n - 4) / 1024 ≤ 8) && n == 4 + 1024 * ((n - 4) / 1024)
  | 7 => n == 1
  | 9 => 1 ≤ n && n ≤ 1024
  | _ => false

/-- The request an admissible frame spells. -/
def readRequest (kind r t : Nat) (body : List Byte) : Request :=
  match kind with
  | 1 => .known (.fetch r t (readFetch body))
  | 2 => .known (.hold r t)
  | 3 => .known (.resume r t)
  | 4 => .known (.cancel r t)
  | 5 => .known (.fileOpen r t)
  | 6 => .known (.page r t (readPage body))
  | 7 => .known (.fileEnd r t (fieldAt body 0 1))
  | 8 => .known (.fileAbort r t)
  | _ => readManageBody r t body

/-- The checks of R152 on the bytes of an inbound frame, and the request it spells when it passes them:
check bytes, inbound kind, requester id up to 31, a body length its kind allows. -/
def readFrame (bytes : List Byte) : Option Request :=
  let n := bytes.length
  let covered := bytes.take (n - 2)
  let bodyLength := fieldAt bytes 4 2
  let kind := fieldAt bytes 0 1
  let r := fieldAt bytes 1 1
  if 8 ≤ n ∧ bodyLength + 8 = n ∧ (crc16 covered).toNat = fieldAt bytes (n - 2) 2
      ∧ bodyLengthAllowed kind bodyLength = true ∧ r ≤ 31 then
    some (readRequest kind r (fieldAt bytes 2 2) (covered.drop 6))
  else none

/-- The command that a word spells by the table's bits. No row of the table has bits. -/
def decodeTableWord (_nbits _w : Nat) : Option Instr := none

end Sys2Proof
end

