-- ==== Sys2Proof/Config.lean ====
section
/-! DEFINITION. The fixed figures of the ZD-410 and the values the reference leaves open. -/

namespace Sys2Proof.Config

/-- Sides 0-127 (00_scope.md, Numbering of things). -/
def sideCount : Nat := 128
/-- The highest sector of a side (R1). -/
def topSector : Nat := 299999
/-- Bytes of a sector (R1). -/
def sectorBytes : Nat := 1024
/-- Index entries of an index sector (R5). -/
def entriesPerSector : Nat := 64
/-- Most entries of a skip list (R6). -/
def skipLimit : Nat := 8
/-- Sectors of the guard at an attempt start (R9). -/
def guardSectors : Nat := 16
/-- Drives D0-D3. -/
def driveCount : Nat := 4
/-- Home slots 0-63. -/
def slotCount : Nat := 64
/-- Request contexts C0-C15 (R75). -/
def contextCount : Nat := 16
/-- Filing records F0-F7 (R101). -/
def filingCount : Nat := 8
/-- Requester positions (R158). -/
def requesterCount : Nat := 32
/-- Frames of a context's stream buffer (R77). -/
def streamFrames : Nat := 32
/-- The filing share of the staging pool (R104). -/
def filingShare : Nat := 3552
/-- All staging frames (R104). -/
def poolFrames : Nat := 4096
/-- Range entries (R59). -/
def rangeLimit : Nat := 512
/-- Index cache entries (R65). -/
def cacheLimit : Nat := 32
/-- Pending index entries (R63). -/
def pendingLimit : Nat := 128
/-- Places of the inbound buffer (R154). -/
def inboundLimit : Nat := 16
/-- Places of the outbound control list (R153). -/
def controlLimit : Nat := 64
/-- Account records (R137). -/
def accountLimit : Nat := 1024
/-- The highest instrument number. -/
def topInstrument : Nat := 99999999
/-- The ceiling of an account's charged total, in cents (R134). -/
def chargedCeiling : Nat := 999999999999
/-- The ceiling of day pages and day deeds (R126, R133). -/
def dayCeiling : Nat := 16777215
/-- The ceiling of day cents (R133). -/
def dayCentsCeiling : Nat := 4294967295
/-- The ceiling of a 16-bit count (R152, R155). -/
def countCeiling : Nat := 65535
/-- The modulus of a check value (R186). -/
def checkModulus : Nat := 4294967291

/-- FREE VALUE. What the part writes for a number that does not fit the width chapter 11 gives its field
(a time of more than 32 bits): the reference states no result there.
The first argument is the width in bytes, the second the number. DESIGN CHOICE (log 10). -/
opaque wideField : Nat → Nat → Nat

/-- FREE VALUE. The rate, bulk or normal, of a page whose directory item carries a format class above 3: R70 does not
check the class, a schedule holds rates for four classes (R125), and the reference states no price there. It lies in
the range of a rate. The arguments are the figures of the fee class, whether the bulk rate is asked, and the format
class. DESIGN CHOICE (log 46). -/
opaque rateBeyond : ClassFigures → Bool → Nat → BitVec 16

/-- FREE VALUE. The position read for an index sector whose 299,999 − j − s (R7) falls below 0: R60 accepts a loaded range
of more instruments than a side's index has places for, and the reference gives no position there. The arguments are j
and s. DESIGN CHOICE (log 60). -/
opaque positionBeyond : Nat → Nat → BitVec 32

end Sys2Proof.Config
end

