-- ==== Sys2Proof/Machine/State.lean ====
section
/-! DEFINITION. The state of the ZD-410: every record, table, queue, buffer, counter, flag and timer the
reference gives the part, and its power-on reset values. Plain data throughout. -/

namespace Sys2Proof.Machine

/-- No event of the reference stops the part with a fault: every command has a next state. There is no constructor. -/
inductive Fault where
  deriving DecidableEq, Repr

/-- Why a command has no meaning. Raised by no arm of `exec` of this model; safe. -/
inductive Refusal where
  /-- A command not modelled, by its mnemonic. Safe: the model stops where the part goes on. -/
  | notModelled (mnemonic : String)
  deriving DecidableEq, Repr

/-- A running timer: when it started and the limit it started with, in milliseconds. -/
structure Timer where
  start : Nat
  limit : Nat
  deriving DecidableEq, Repr, Inhabited

/-! ### Codes and outcomes -/

/-- Reasons of refusals, codes 1-35 in this order (11.3). -/
inductive Reason where
  | notServing | noRight | duplicateTag | requesterLimit | busy | noAccount | accountStopped | notFound
  | unavailable | badValue | noContext | noFiling | duplicatePage | order | poolFull | empty | incomplete
  | inProgress | notBound | bound | notManager | wrongState | inUse | overlap | tableFull | noSlot
  | noRequester | noFault | noSchedule | noFeeDay | noSides | rangeSide | twoOpen | openRange | noNext
  deriving DecidableEq, Repr, Inhabited

/-- Outcomes of a context (R96), codes 0-7 in this order (11.3). -/
inductive Ending where
  | complete | cancelled | abandoned | pageFailed | locateFailed | sideLost | unavailable | restart
  deriving DecidableEq, Repr, Inhabited

/-- Causes of a FILE-FAILED (R122), codes 0-4 in this order (11.3). -/
inductive FileCause where
  | aborted | expired | writeFailed | drainAbort | restart
  deriving DecidableEq, Repr, Inhabited

/-! ### Service states -/

/-- The service state (R169), in the order of its codes (R184). -/
inductive Service where
  | startup | standby | opening | serving | draining | quiescent | fault
  deriving DecidableEq, Repr, Inhabited

/-- The drain mode (R169). -/
inductive DrainMode where
  | plain | abort | restart
  deriving DecidableEq, Repr, Inhabited

/-- The start-up finding (R169). -/
inductive StartFinding where
  | none
  | memory (frame : Nat)
  | picker
  deriving DecidableEq, Repr, Inhabited

/-- The last recovery finding (R169, R179, R183). -/
inductive RecoveryFinding where
  | none
  | unreachable (side : Nat)
  | pendingOverflow (side : Nat)
  | rangeAhead (side : Nat)
  | restart
  deriving DecidableEq, Repr, Inhabited

/-- The cause of a change of service state (R162). -/
inductive ChangeCause where
  | setState | restart | openingEnd | drainEnd | startUp
  deriving DecidableEq, Repr, Inhabited

/-- The state of the staging memory check (R170). -/
inductive MemoryCheck where
  | running | passed | failed
  deriving DecidableEq, Repr, Inhabited

/-! ### The library -/

/-- Side states (R13), in the order of their codes (R184). -/
inductive SideState where
  | blank | opened | filled | suspect | missing | mismatch | stuck
  deriving DecidableEq, Repr, Inhabited

/-- Where a cartridge is (R11). -/
inductive Location where
  | home
  | picker
  | drive (d : Nat)
  deriving DecidableEq, Repr, Inhabited

/-- A side record (R11). The index low mark is computed from it (R7). -/
structure SideRecord where
  serial : Nat
  state : SideState
  prior : Option SideState
  location : Location
  dataHigh : Nat
  written : Nat
  skips : List Nat
  spoiled : Nat
  incomplete : Bool
  deriving DecidableEq, Repr, Inhabited

/-- Drive states (R28), in the order of their codes (R184). -/
inductive DriveState where
  | empty | loading | checking | ready | active | unloading | fault | offline | occupiedUnknown
  deriving DecidableEq, Repr, Inhabited

/-- Fault causes of a drive (R28). -/
inductive DriveCause where
  | channel | drive | label
  deriving DecidableEq, Repr, Inhabited

/-- Channel states (R20). -/
inductive ChannelState where
  | idle | offering | awaiting
  deriving DecidableEq, Repr, Inhabited

/-- The six drive commands (R24). -/
inductive DriveOp where
  | label | read | erase | write | verify | ejectPrep
  deriving DecidableEq, Repr, Inhabited

/-- Who placed a command (R31): a context for a page read or for a locate's read, the recovery walk, the filing
engine, the library unit, or a probe. `discarded` is a walk read whose recovery has stopped: its result is discarded
(R183). -/
inductive Issuer where
  | page (c : Nat)
  | locate (c : Nat)
  | recovery
  | discarded
  | filing
  | library
  | probe
  deriving DecidableEq, Repr, Inhabited

/-- An entry of a drive's command queue (R31). `data` holds the staging frames of a WRITE; `have_` counts the
sectors of a page READ, from its first, already delivered by an earlier issue (R27); it is 0 for any other command. -/
structure QueueEntry where
  issuer : Issuer
  op : DriveOp
  first : Nat
  count : Nat
  data : List Sector
  priority : Nat
  age : Nat
  retries : Nat
  notReady : Nat
  have_ : Nat
  deriving DecidableEq, Repr, Inhabited

/-- The command offered or in flight on a channel (R24): whether its command message has been transferred, the
data blocks transferred since, and the blocks kept for a label, locate or recovery read. -/
structure Current where
  entry : QueueEntry
  sent : Bool
  blocks : Nat
  got : List Sector
  deriving DecidableEq, Repr, Inhabited

/-- A drive: its record (R28), its incoming waiters (R54), its channel (R20, R22) and its queue (R31-R33). -/
structure Drive where
  state : DriveState
  cartridge : Option Nat
  face : Option Nat
  cause : Option DriveCause
  offlinePending : Bool
  lastReady : Nat
  lastGranted : Option Nat
  idle : Option Timer
  idleHeld : Bool
  attached : List Nat
  incoming : List Nat
  incomingMarker : Bool
  channel : ChannelState
  waitTake : Bool
  waitSend : Bool
  stall : Option Timer
  queue : List QueueEntry
  owed : Option QueueEntry
  current : Option Current
  lastWasPass : Bool
  deriving DecidableEq, Repr, Inhabited

/-- Motions of the picker (R39). -/
inductive MotionKind where
  | mount | unmount | turn | inventory | home
  deriving DecidableEq, Repr, Inhabited

/-- Events of the picker line (R39, R40). -/
inductive PickerEvent where
  | taken | emptySlot | inserted | ejected | placed | done | occupancy
  deriving DecidableEq, Repr, Inhabited

/-- Picker states (R38). -/
inductive PickerState where
  | parked | moving | fault
  deriving DecidableEq, Repr, Inhabited

/-- The motion of a MOVING picker (R38). `order` is the order served while it stands in the mount queue, and `served`
the side by which that order is named from the grant to the end of the motion. `started` is clear while the motion waits
for an EJECT-PREP (R53). -/
structure Motion where
  kind : MotionKind
  order : Option Nat
  served : Option Nat
  cartridge : Option Nat
  drive : Option Nat
  face : Option Nat
  last : Option PickerEvent
  started : Bool
  deriving DecidableEq, Repr, Inhabited

/-- The picker record (R38), and whether an INVENTORY is owed (R43). -/
structure Picker where
  state : PickerState
  motion : Option Motion
  second : Option Motion
  held : Option Nat
  occupancy : List SlotFinding
  inventoryOwed : Bool
  deriving DecidableEq, Repr, Inhabited

/-- The kind of an order in the mount queue: a mount of a side (R44), or an unmount of a drive, firm or idle (R45). -/
inductive OrderKind where
  | mount (side : Nat)
  | unmount (drive : Nat) (firm : Bool)
  deriving DecidableEq, Repr, Inhabited

/-- An order of the mount queue (R44, R45). `id` is the model's own name for it. -/
structure Order where
  id : Nat
  kind : OrderKind
  waiters : List Nat
  marker : Bool
  priority : Nat
  age : Nat
  forced : Option Nat
  inService : Bool
  target : Option Nat
  deriving DecidableEq, Repr, Inhabited

/-- A quiet hold window (R56). -/
structure Window where
  start : Nat
  stop : Nat
  deriving DecidableEq, Repr, Inhabited

/-- The library unit but for the drives (chapter 3, R11). -/
structure Lib where
  sides : List (Option SideRecord)
  picker : Picker
  orders : List Order
  nextOrder : Nat
  windows : List Window
  deriving DecidableEq, Repr, Inhabited

/-! ### The locator -/

/-- A range entry (R59). -/
structure RangeEntry where
  first : Nat
  last : Nat
  side : Nat
  openFlag : Bool
  deriving DecidableEq, Repr, Inhabited

/-- An index entry, or an index slot as read, with its marker byte (R5, 11.4). -/
structure IndexEntry where
  marker : Nat
  instrument : Nat
  address : Nat
  body : Nat
  pages : Nat
  check : Nat
  deriving DecidableEq, Repr, Inhabited

/-- A cached index sector (R65). -/
structure CacheEntry where
  side : Nat
  j : Nat
  entries : List IndexEntry
  deriving DecidableEq, Repr, Inhabited

/-- A pending index entry (R63). -/
structure PendingEntry where
  side : Nat
  k : Nat
  entry : IndexEntry
  deriving DecidableEq, Repr, Inhabited

/-- The locator (chapter 4). The cache is kept most recent first. -/
structure Loc where
  ranges : List RangeEntry
  cache : List CacheEntry
  entries : List PendingEntry
  deriving DecidableEq, Repr, Inhabited

/-- The step of a locate (R67). -/
inductive LocateStep where
  | entry | indexRead | directoryRead
  deriving DecidableEq, Repr, Inhabited

/-- A locate record (R67). -/
structure Locate where
  side : Nat
  k : Nat
  j : Nat
  slot : Nat
  step : LocateStep
  entry : Option IndexEntry
  deriving DecidableEq, Repr, Inhabited

/-! ### Contexts -/

/-- An item of a page list: format class, offset from the directory, sector count (R3). -/
structure PageItem where
  format : Nat
  offset : Nat
  sectors : Nat
  deriving DecidableEq, Repr, Inhabited

/-- A resolved directory: its sector address and its page list (R70, R75). -/
structure Directory where
  address : Nat
  pages : List PageItem
  deriving DecidableEq, Repr, Inhabited

/-- Context states (R75). -/
inductive CtxState where
  | free | mountWait | locating | streaming | ending
  deriving DecidableEq, Repr, Inhabited

/-- The kind of a delivery (R75). -/
inductive Delivery where
  | copy | view
  deriving DecidableEq, Repr, Inhabited

/-- Whether a read of a context is outstanding (R75). `offered` is a read taken from the queue whose command message the
drive has not yet taken: it is not yet in flight (R24), and no longer in the queue (log 22). -/
inductive ReadStatus where
  | none | queued | offered | inFlight
  deriving DecidableEq, Repr, Inhabited

/-- A request context (R75, R77). `selection` is as requested, `chosen` the pages selected by R83.
`holding` is the run of sectors held, oldest first; `filling` counts filling frames; the rest of 32 are free.
`readStart` is where the queued page read begins (R94); `doneSent` says the DONE was handed over (R98). -/
structure Context where
  state : CtxState
  requester : Nat
  tag : Nat
  kind : Delivery
  certified : Bool
  account : Nat
  feeClass : Nat
  generation : Option Nat
  priority : Nat
  instrument : Nat
  side : Nat
  k : Nat
  selection : List (Nat × Nat)
  directory : Option Directory
  chosen : List Nat
  nextRead : Option (Nat × Nat)
  nextPage : Option Nat
  nextSend : Nat
  primed : Bool
  delivered : Nat
  subtotal : Nat
  heldByHold : Bool
  heldByLink : Bool
  timer : Option Timer
  parked : Bool
  read : ReadStatus
  readStart : Option (Nat × Nat)
  outcome : Option Ending
  holding : List Sector
  filling : Nat
  locate : Option Locate
  doneSent : Bool
  deriving DecidableEq, Repr, Inhabited

/-! ### The filing engine -/

/-- A page item of a filing being gathered (R101). -/
structure FilingPage where
  format : Nat
  sectors : Nat
  received : Nat
  deriving DecidableEq, Repr, Inhabited

/-- Filing states (R101). -/
inductive FilingState where
  | free | gathering | queued | writing
  deriving DecidableEq, Repr, Inhabited

/-- A filing record (R101). -/
structure Filing where
  state : FilingState
  requester : Nat
  tag : Nat
  pages : List FilingPage
  frames : List Sector
  body : Option Nat
  timer : Option Timer
  attempts : Nat
  extentStart : Option Nat
  tentative : Option Nat
  deriving DecidableEq, Repr, Inhabited

/-- Halt causes (R100, R121). -/
inductive Halt where
  | noMedia | rangeFull | pendingFull | numbersExhausted | driveFault
  deriving DecidableEq, Repr, Inhabited

/-- Activities of the filing engine (R100). -/
inductive Activity where
  | idle | mounting | attempt | flush | closing | opening
  deriving DecidableEq, Repr, Inhabited

/-- The condition of the current pass (R100). -/
inductive PassState where
  | withheld | queued | inFlight
  deriving DecidableEq, Repr, Inhabited

/-- The current pass (R100), with its number in its sequence of passes (R111, R118, R120). -/
structure Pass where
  number : Nat
  op : DriveOp
  first : Nat
  count : Nat
  state : PassState
  disturbed : Bool
  deriving DecidableEq, Repr, Inhabited

/-- What a placed filing marker is for (R108, R175). -/
inductive MountFor where
  | attempt | flush | close | opening | walk
  deriving DecidableEq, Repr, Inhabited

/-- The filing engine (R100). `working` holds the working frames in use: the directory and then the trailer of an
attempt, one index sector, or one label (R104). `flushed` holds the entries of the index sector being written. -/
structure Fil where
  nNext : Option Nat
  halt : Option Halt
  activity : Activity
  opening : Option Nat
  closeOwed : Option SideState
  hold : Bool
  pass : Option Pass
  queue : List Nat
  records : List Filing
  mountFor : Option MountFor
  working : List Sector
  flushed : List IndexEntry
  deriving DecidableEq, Repr, Inhabited

/-! ### Recovery -/

/-- Where the walk of one side stands (R175-R178). -/
inductive WalkPhase where
  | mounting
  | catchUp
  | startEntry
  | directory
  | trailer (body pages : Nat)
  | closing
  deriving DecidableEq, Repr, Inhabited

/-- The walk of one side (R177). `mark0` is the data high mark its record held when the walk began. -/
structure Walk where
  side : Nat
  phase : WalkPhase
  p : Nat
  k : Nat
  mark0 : Nat
  deriving DecidableEq, Repr, Inhabited

/-- The phase of OPENING (R174, R175). -/
inductive RecoveryPhase where
  | none | identifying | walking
  deriving DecidableEq, Repr, Inhabited

/-- The recovery (R174-R179). `matched` holds the drives matched by a label read, each with its cartridge. -/
structure Recovery where
  phase : RecoveryPhase
  openAtEntry : Option Nat
  matched : List (Nat × Nat)
  left : List Nat
  walk : Option Walk
  markerBack : Bool
  walked : Nat
  added : Nat
  deriving DecidableEq, Repr, Inhabited

/-! ### The tally unit -/

/-- Account states (R137). -/
inductive AccountState where
  | opened | stopped
  deriving DecidableEq, Repr, Inhabited

/-- An account record (R137). -/
structure Account where
  number : Nat
  cls : Nat
  state : AccountState
  limit : Nat
  charged : Nat
  residue : Nat
  dayPages : Nat
  dayCents : Nat
  dayDeeds : Nat
  prevPages : Nat
  prevCents : Nat
  prevDeeds : Nat
  inFlight : Nat
  deriving DecidableEq, Repr, Inhabited

/-- Roles of a schedule slot (R145). -/
inductive Role where
  | empty | active | waiting | retired
  deriving DecidableEq, Repr, Inhabited

/-- A schedule slot (R145). The role `waiting` is PENDING. -/
structure Slot where
  role : Role
  generation : Nat
  effective : Nat
  refs : Nat
  figures : List ClassFigures
  deriving DecidableEq, Repr, Inhabited

/-- The tally unit (chapter 8). Accounts stand in ascending order of number. -/
structure Tal where
  slots : List Slot
  nextGeneration : Nat
  accounts : List Account
  feeDay : Nat
  deriving DecidableEq, Repr, Inhabited

/-! ### The request link and the management unit -/

/-- Why an account stopped (R144). -/
inductive StopCause where
  | limit | ceiling
  deriving DecidableEq, Repr, Inhabited

/-- The details of a notice, one constructor for each kind (R166). -/
inductive NoticeDetails where
  | accountStopped (account : Nat) (cause : StopCause) (charged limit : Nat)
  | sideOpened (side serial : Nat)
  | sideClosed (side : Nat) (state : SideState) (dataHigh written skips spoiled : Nat) (incomplete : Bool)
  | filingHalted (cause : Halt) (side : Option Nat)
  | driveFault (drive : Nat) (cause : DriveCause) (side : Option Nat)
  | pickerFault (motion : Option MotionKind) (cartridge drive : Option Nat) (last : Option PickerEvent) (held : Bool)
  | scheduleActivated (generation day : Nat)
  | stateChanged (old new : Service) (cause : ChangeCause)
  | recoveryDone (walked added : Nat) (nNext : Option Nat) (finding : RecoveryFinding)
  deriving DecidableEq, Repr, Inhabited

/-- A pending notice (R166). `seq` is its place in the order of creation. -/
structure Notice where
  details : NoticeDetails
  repeats : Nat
  raised : Nat
  seq : Nat
  deriving DecidableEq, Repr, Inhabited

/-- The body of an outbound frame (11.2). -/
inductive OutBody where
  | run (page offset format sectors : Nat) (data : List Sector)
  | done (outcome : Ending) (pages charge cents : Nat) (generation : Option Nat)
  | refused (reason : Reason) (kind : Nat)
  | filed (instrument side day : Nat)
  | fileFailed (cause : FileCause) (side : Option Nat) (attempts : Nat)
  | reply (code : Nat) (reason : Option Reason) (data : List Byte)
  | notice (details : NoticeDetails) (repeats raised : Nat)
  deriving DecidableEq, Repr, Inhabited

/-- An outbound frame: the requester addressed, the tag, the body. -/
structure OutFrame where
  requester : Nat
  tag : Nat
  body : OutBody
  deriving DecidableEq, Repr, Inhabited

/-- A frame of the outbound control list with its place in the order of creation (R153). -/
structure ControlFrame where
  seq : Nat
  frame : OutFrame
  deriving DecidableEq, Repr, Inhabited

/-- The link state (R155). -/
inductive LinkState where
  | up | down
  deriving DecidableEq, Repr, Inhabited

/-- The request link interface (chapter 9). -/
structure Rli where
  inbound : List Request
  control : List ControlFrame
  transmitter : Option OutFrame
  notices : List Notice
  errors : Nat
  downs : Nat
  link : LinkState
  lastServed : Nat
  deriving DecidableEq, Repr

/-- The parameters in force, in the order of R163, in milliseconds. -/
structure Params where
  idleUnmount : Nat
  holdLimit : Nat
  gatherIdle : Nat
  quietDelay : Nat
  quietDuration : Nat
  channelStall : Nat
  filingPriority : Nat
  deriving DecidableEq, Repr, Inhabited

/-- A requester record (R158). -/
structure Requester where
  rights : Rights
  maxPriority : Nat
  contextLimit : Nat
  deriving DecidableEq, Repr, Inhabited

/-- The management requests that answer late (R153, R160, R171). -/
inductive LateKind where
  | setState
  | restart
  | driveRetry (d : Nat)
  | clearPicker
  | clearFault
  deriving DecidableEq, Repr, Inhabited

/-- A management request awaiting its reply. -/
structure Late where
  kind : LateKind
  requester : Nat
  tag : Nat
  deriving DecidableEq, Repr, Inhabited

/-- The management unit (chapter 9, R169). -/
structure Mu where
  manager : Option Nat
  requesters : List (Option Requester)
  params : Params
  service : Service
  drain : Option DrainMode
  startFinding : StartFinding
  recoveryFinding : RecoveryFinding
  late : List Late
  deriving DecidableEq, Repr, Inhabited

/-- Marks used inside one step: an event of R49 calls the picker arbiter, an event of R109 calls the readiness
test. Both are clear between steps (log 6). -/
structure Todo where
  arbiter : Bool
  readiness : Bool
  deriving DecidableEq, Repr, Inhabited

/-- The state of the part and its command queue. -/
structure State where
  pending : List Instr
  now : Nat
  seq : Nat
  todo : Todo
  rli : Rli
  mu : Mu
  memory : MemoryCheck
  lib : Lib
  drives : List Drive
  loc : Loc
  ctx : List Context
  fil : Fil
  recovery : Recovery
  tal : Tal
  deriving DecidableEq, Repr

/-! ### Power-on reset values -/

/-- A FREE context (R99). -/
def Context.reset : Context :=
  { state := .free, requester := 0, tag := 0, kind := .copy, certified := false, account := 0, feeClass := 0
    generation := none, priority := 0, instrument := 0, side := 0, k := 0, selection := [], directory := none
    chosen := [], nextRead := none, nextPage := none, nextSend := 0, primed := false, delivered := 0
    subtotal := 0, heldByHold := false, heldByLink := false, timer := none, parked := false, read := .none
    readStart := none, outcome := none, holding := [], filling := 0, locate := none, doneSent := false }

/-- A FREE filing record (R124). -/
def Filing.reset : Filing :=
  { state := .free, requester := 0, tag := 0, pages := [], frames := [], body := none, timer := none
    attempts := 0, extentStart := none, tentative := none }

/-- A drive at power-on reset (R37). Its state is set by the start-up probe; until then the model holds OFFLINE
(DESIGN CHOICE, log 4), and last ready time 0 (DESIGN CHOICE, log 5). -/
def Drive.reset : Drive :=
  { state := .offline, cartridge := none, face := none, cause := none, offlinePending := false, lastReady := 0
    lastGranted := none, idle := none, idleHeld := false, attached := [], incoming := [], incomingMarker := false
    channel := .idle, waitTake := false, waitSend := false, stall := none, queue := [], owed := none
    current := none, lastWasPass := false }

/-- An EMPTY schedule slot (R151). -/
def Slot.reset : Slot := { role := .empty, generation := 0, effective := 0, refs := 0, figures := [] }

/-- The parameters' defaults (R163). -/
def Params.reset : Params :=
  { idleUnmount := 60000, holdLimit := 120000, gatherIdle := 900000, quietDelay := 40, quietDuration := 300
    channelStall := 10000, filingPriority := 1 }

/-- The picker at power-on reset (R58). -/
def Picker.reset : Picker :=
  { state := .parked, motion := none, second := none, held := none
    occupancy := List.replicate 64 .unknown, inventoryOwed := false }

/-- The library unit at power-on reset (R17, R58). -/
def Lib.reset : Lib :=
  { sides := List.replicate 128 none, picker := Picker.reset, orders := [], nextOrder := 0, windows := [] }

/-- The filing engine at power-on reset (R124). -/
def Fil.reset : Fil :=
  { nNext := none, halt := none, activity := .idle, opening := none, closeOwed := none, hold := false
    pass := none, queue := [], records := List.replicate 8 Filing.reset, mountFor := none, working := []
    flushed := [] }

/-- No recovery in progress. -/
def Recovery.reset : Recovery :=
  { phase := .none, openAtEntry := none, matched := [], left := [], walk := none, markerBack := false
    walked := 0, added := 0 }

/-- The tally unit at power-on reset (R151). -/
def Tal.reset : Tal :=
  { slots := List.replicate 3 Slot.reset, nextGeneration := 1, accounts := [], feeDay := 0 }

/-- The request link interface at power-on reset, the link state being the line's (R168). -/
def Rli.reset (link : LinkState) : Rli :=
  { inbound := [], control := [], transmitter := none, notices := [], errors := 0, downs := 0, link := link
    lastServed := 15 }

/-- The management unit at power-on reset (R168, R169). -/
def Mu.reset : Mu :=
  { manager := none, requesters := List.replicate 32 none, params := Params.reset, service := .startup
    drain := none, startFinding := .none, recoveryFinding := .none, late := [] }

/-- Every block at its power-on values, the command queue as given (R170). -/
def State.powerOn (link : LinkState) (pending : List Instr) : State :=
  { pending := pending, now := 0, seq := 0, todo := { arbiter := false, readiness := false }
    rli := Rli.reset link, mu := Mu.reset, memory := .running, lib := Lib.reset
    drives := List.replicate 4 Drive.reset, loc := { ranges := [], cache := [], entries := [] }
    ctx := List.replicate 16 Context.reset, fil := Fil.reset, recovery := Recovery.reset, tal := Tal.reset }

/-- The part right after power-on reset, with an empty command queue. The line is UP (DESIGN CHOICE, log 3). -/
def State.reset : State := State.powerOn .up []

end Sys2Proof.Machine
end

