-- ==== Sys2Proof/Machine/Ops.lean ====
section
/-! DEFINITION. The named operations over the tables of State: reading and changing one record, the arithmetic of
positions on a side, and the conditions several blocks read. -/

namespace Sys2Proof.Machine

/-! ### One record of a table -/

/-- Drive `d`. -/
def State.drive (s : State) (d : Nat) : Drive := s.drives.getD d Drive.reset

/-- Changes drive `d`. -/
def State.modDrive (s : State) (d : Nat) (f : Drive → Drive) : State := { s with drives := s.drives.modify d f }

/-- Context `c`. -/
def State.context (s : State) (c : Nat) : Context := s.ctx.getD c Context.reset

/-- Changes context `c`. -/
def State.modContext (s : State) (c : Nat) (f : Context → Context) : State := { s with ctx := s.ctx.modify c f }

/-- Filing record `f`. -/
def State.filing (s : State) (f : Nat) : Filing := s.fil.records.getD f Filing.reset

/-- Changes filing record `f`. -/
def State.modFiling (s : State) (f : Nat) (g : Filing → Filing) : State :=
  { s with fil.records := s.fil.records.modify f g }

/-- The record of a side, if its position holds one (R11). -/
def State.side (s : State) (n : Nat) : Option SideRecord := s.lib.sides.getD n none

/-- Changes the record of a side where there is one. -/
def State.modSide (s : State) (n : Nat) (f : SideRecord → SideRecord) : State :=
  { s with lib.sides := s.lib.sides.modify n (Option.map f) }

/-- Writes a position of the side table. -/
def State.putSide (s : State) (n : Nat) (r : Option SideRecord) : State :=
  { s with lib.sides := s.lib.sides.set n r }

/-- Changes the picker record. -/
def State.modPicker (s : State) (f : Picker → Picker) : State := { s with lib.picker := f s.lib.picker }

/-- The requester record of an id (R158). -/
def State.requester (s : State) (id : Nat) : Option Requester := s.mu.requesters.getD id none

/-- The account record of a number (R137). -/
def State.account (s : State) (n : Nat) : Option Account := s.tal.accounts.find? (·.number == n)

/-- Changes the account of a number. -/
def State.modAccount (s : State) (n : Nat) (f : Account → Account) : State :=
  { s with tal.accounts := s.tal.accounts.map fun a => if a.number = n then f a else a }

/-- Marks that an event of R49 has come about. -/
def State.callArbiter (s : State) : State := { s with todo.arbiter := true }

/-- Marks that an event of R109 has come about. -/
def State.callReadiness (s : State) : State := { s with todo.readiness := true }

/-- Time has come at least to `t`: a timer event is taken at its limit (log 7). -/
def State.reach (s : State) (t : Nat) : State := { s with now := max s.now t }

/-! ### Cartridges and sides -/

/-- The home slot of a side's cartridge: side = 2 × slot + face. -/
def slotOf (side : Nat) : Nat := side / 2

/-- The face of a side. -/
def faceOf (side : Nat) : Nat := side % 2

/-- The sibling face. -/
def siblingOf (side : Nat) : Nat := if side % 2 = 0 then side + 1 else side - 1

/-- The side of a cartridge's face. -/
def sideOf (slot face : Nat) : Nat := 2 * slot + face

/-- Changes the present records of both faces of a cartridge. -/
def State.modCartridge (s : State) (slot : Nat) (f : SideRecord → SideRecord) : State :=
  (s.modSide (sideOf slot 0) f).modSide (sideOf slot 1) f

/-- The cartridge moves: both present records take its location (R12). -/
def State.locate (s : State) (slot : Nat) (l : Location) : State :=
  s.modCartridge slot fun r => { r with location := l }

/-- The mounted side of a drive (R28). -/
def Drive.mounted (d : Drive) : Option Nat :=
  match d.cartridge, d.face with
  | some c, some f => some (sideOf c f)
  | _, _ => none

/-- The drive in which a side is mounted. -/
def State.driveMounting (s : State) (side : Nat) : Option Nat :=
  (List.range 4).find? fun d => (s.drive d).mounted == some side

/-- The index low mark (R7). -/
def SideRecord.indexLow (r : SideRecord) : Nat := Config.topSector - r.written - r.skips.length

/-- The position of index sector `j` (R7): 299,999 − j − s, with s the skip entries not above j. Where j + s passes 299,999,
as a loaded range of very many instruments lets it (R60, R68), the position is open (log 60). -/
def SideRecord.indexPosition (r : SideRecord) (j : Nat) : Nat :=
  let skipped := (r.skips.filter (· ≤ j)).length
  if j + skipped ≤ Config.topSector then Config.topSector - j - skipped else (Config.positionBeyond j skipped).toNat

/-- Pending entries of a side (R63). -/
def State.pendingOf (s : State) (side : Nat) : List PendingEntry := s.loc.entries.filter (·.side == side)

/-- The open range (R59). -/
def State.openRange (s : State) : Option RangeEntry := s.loc.ranges.find? (·.openFlag)

/-- The OPEN side of the filing engine: the side of the open range, also while its record is STUCK, MISSING or
MISMATCH (R109 step 2, R61; log 24). -/
def State.openSide (s : State) : Option Nat := s.openRange.map (·.side)

/-- The range entry naming a side (R59). Where a side opened while a loaded entry named it has two, it is the later one,
in which its commits are counted (log 43). -/
def State.rangeOf (s : State) (side : Nat) : Option RangeEntry := s.loc.ranges.reverse.find? (·.side == side)

/-- Changes the last entry naming a side. -/
def changeLast (side : Nat) (f : RangeEntry → RangeEntry) : List RangeEntry → List RangeEntry
  | [] => []
  | r :: rs => if r.side = side ∧ rs.all (·.side ≠ side) = true then f r :: rs else r :: changeLast side f rs

/-- Changes the range entry naming a side. -/
def State.modRange (s : State) (side : Nat) (f : RangeEntry → RangeEntry) : State :=
  { s with loc.ranges := changeLast side f s.loc.ranges }

/-- Changes the open range (R61). -/
def State.modOpenRange (s : State) (f : RangeEntry → RangeEntry) : State :=
  { s with loc.ranges := s.loc.ranges.map fun r => if r.openFlag then f r else r }

/-- A drive state in which a cartridge cannot be reached (R46 case 1, R120, R121). -/
def DriveState.unreachable : DriveState → Bool
  | .fault | .offline | .occupiedUnknown => true
  | .empty | .loading | .checking | .ready | .active | .unloading => false

/-- A side state in which no work is done on the side (R13). -/
def SideState.barred : SideState → Bool
  | .missing | .mismatch | .stuck => true
  | .blank | .opened | .filled | .suspect => false

/-- Whether a record's cartridge is in a drive in FAULT, OFFLINE or OCCUPIED-UNKNOWN. -/
def State.inBadDrive (s : State) (r : SideRecord) : Bool :=
  match r.location with
  | .drive d => (s.drive d).state.unreachable
  | .home | .picker => false

/-- A side that cannot be used: no record, MISSING, MISMATCH or STUCK, or its cartridge in a drive that cannot be
reached (R46 case 1). -/
def State.sideUnusable (s : State) (side : Nat) : Bool :=
  match s.side side with
  | none => true
  | some r => r.state.barred || s.inBadDrive r

/-- A drive in which work can be placed on its mounted side (R31). -/
def DriveState.serving : DriveState → Bool
  | .ready | .active => true
  | .empty | .loading | .checking | .unloading | .fault | .offline | .occupiedUnknown => false

/-- The drive in which a side is mounted READY or ACTIVE (R46 case 2, R108). -/
def State.mountedReady (s : State) (side : Nat) : Option Nat :=
  (List.range 4).find? fun d => (s.drive d).mounted == some side && (s.drive d).state.serving

/-- A drive has work (R30). -/
def Drive.hasWork (d : Drive) : Bool :=
  !d.attached.isEmpty || !d.queue.isEmpty || d.current.isSome || d.owed.isSome

/-! ### The filing engine, as others see it -/

/-- Filings are queued or writing (R108). -/
def State.filingsWaiting (s : State) : Bool := !s.fil.queue.isEmpty

/-- A drive holds the OPEN side or the opening side (R50, R120). -/
def State.holdsOpen (s : State) (d : Nat) : Bool :=
  match (s.drive d).mounted with
  | none => false
  | some n => s.openSide == some n || s.fil.opening == some n

/-- The side on which a filing sequence is in progress (R33, R100). -/
def State.sequenceSide (s : State) : Option Nat :=
  match s.fil.activity with
  | .attempt | .flush | .closing => s.openSide
  | .opening => s.fil.opening
  | .idle | .mounting => none

/-- A filing sequence is in progress on a drive (R33). -/
def State.sequenceOn (s : State) (d : Nat) : Bool :=
  match s.sequenceSide with
  | none => false
  | some n => (s.drive d).mounted == some n

/-- A drive holds the OPEN side while filings are queued or writing, or the opening side (R30, R50, R51, R120). -/
def State.holdsWanted (s : State) (d : Nat) : Bool :=
  match (s.drive d).mounted with
  | none => false
  | some n => (s.openSide == some n && s.filingsWaiting) || s.fil.opening == some n

/-- A READY drive does not start its idle timer: it is kept for filing (R30, R52, R120), or the part is in QUIESCENT (R182,
log 59). -/
def State.keptFromIdle (s : State) (d : Nat) : Bool :=
  s.holdsWanted d || s.sequenceOn d || s.mu.service == .quiescent

/-- The part is ending its filing work: a drain with ABORT or RESTART (R124). -/
def State.stopping (s : State) : Bool :=
  match s.mu.drain with
  | some .abort | some .restart => true
  | some .plain | none => false

/-! ### Contexts and frames -/

/-- A live context (R76). -/
def CtxState.live : CtxState → Bool
  | .mountWait | .locating | .streaming => true
  | .free | .ending => false

/-- An active context (R76). -/
def CtxState.active : CtxState → Bool
  | .free => false
  | .mountWait | .locating | .streaming | .ending => true

/-- Free frames of a stream buffer (R77). -/
def Context.freeFrames (c : Context) : Nat := Config.streamFrames - c.filling - c.holding.length

/-- A context is held (R75). -/
def Context.held (c : Context) : Bool := c.heldByHold || c.heldByLink

/-- The numbers of the contexts that meet a condition. -/
def State.contextsWhere (s : State) (p : Context → Bool) : List Nat :=
  (List.range 16).filter fun c => p (s.context c)

/-- Active contexts of a requester. -/
def State.activeOf (s : State) (r : Nat) : Nat :=
  (s.contextsWhere fun c => c.state.active && c.requester == r).length

/-- The live context of a requester and tag (R89, R90, R93). -/
def State.liveContext (s : State) (r t : Nat) : Option Nat :=
  (List.range 16).find? fun c =>
    (s.context c).state.live && (s.context c).requester == r && (s.context c).tag == t

/-- The filing of a requester and tag in a state that meets a condition. -/
def State.filingOf (s : State) (p : FilingState → Bool) (r t : Nat) : Option Nat :=
  (List.range 8).find? fun f =>
    p (s.filing f).state && (s.filing f).requester == r && (s.filing f).tag == t

/-- Frames held by filings (R104). -/
def State.filingFrames (s : State) : Nat := s.fil.records.foldl (fun n f => n + f.frames.length) 0

/-- Frames held by contexts (R77, R104). -/
def State.contextFrames (s : State) : Nat := Config.streamFrames * (s.contextsWhere (·.state.active)).length

/-- A read of the recovery walk, also one whose result will be discarded (R175, R183). -/
def Issuer.ofWalk (i : Issuer) : Bool := i == .recovery || i == .discarded

/-- Reads of the recovery walk queued, owed again or in flight, each with a working frame (R104, R175). -/
def Drive.walkReads (d : Drive) : Nat :=
  (d.queue.filter (·.issuer.ofWalk)).length + (d.owed.toList.filter (·.issuer.ofWalk)).length
    + (d.current.toList.filter (·.entry.issuer.ofWalk)).length

/-- Frames in working use (R104). -/
def State.workingFrames (s : State) : Nat :=
  s.fil.working.length + s.drives.foldl (fun n d => n + d.walkReads) 0

/-- Frames free in the pool (R104): all frames less those held by contexts, by filings and by working use. -/
def State.freePool (s : State) : Nat :=
  Config.poolFrames - s.contextFrames - s.filingFrames - s.workingFrames

/-- Reservations held against the outbound control list (R153; log 31): a place for each live context, each filing
in use, each frame in the list and each request that answers late. -/
def State.reservations (s : State) : Nat :=
  (s.contextsWhere (·.state.live)).length + ((List.range 8).filter fun f => (s.filing f).state != .free).length
    + s.rli.control.length + s.mu.late.length

end Sys2Proof.Machine
end

