-- ==== Sys2Proof/Machine/Operands.lean ====
section
/-! DEFINITION. The bytes of what the part sends: numbers at their widths, codes, outbound frames (chapter 11). -/

namespace Sys2Proof.Machine

/-! ### Numbers and codes -/

/-- A number in a field of `w` bytes (R184). One that does not fit is a free value (log 10). -/
def number (w n : Nat) : List Byte := if n < 256 ^ w then bigEndian w n else bigEndian w (Config.wideField w n)

/-- A flag (R184). -/
def flagByte (b : Bool) : List Byte := number 1 (if b then 1 else 0)

/-- A field whose value may be absent, with the absent value 0 (R184). -/
def optionalNumber (w : Nat) (o : Option Nat) : List Byte := number w (o.getD 0)

/-- A side that may be absent: 255 (R184). -/
def optionalSide (o : Option Nat) : List Byte := number 1 (o.getD 255)

/-- The reason codes of 11.3. -/
def Reason.code : Reason → Nat
  | .notServing => 1 | .noRight => 2 | .duplicateTag => 3 | .requesterLimit => 4 | .busy => 5 | .noAccount => 6
  | .accountStopped => 7 | .notFound => 8 | .unavailable => 9 | .badValue => 10 | .noContext => 11
  | .noFiling => 12 | .duplicatePage => 13 | .order => 14 | .poolFull => 15 | .empty => 16 | .incomplete => 17
  | .inProgress => 18 | .notBound => 19 | .bound => 20 | .notManager => 21 | .wrongState => 22 | .inUse => 23
  | .overlap => 24 | .tableFull => 25 | .noSlot => 26 | .noRequester => 27 | .noFault => 28 | .noSchedule => 29
  | .noFeeDay => 30 | .noSides => 31 | .rangeSide => 32 | .twoOpen => 33 | .openRange => 34 | .noNext => 35

/-- The outcome codes of 11.3. -/
def Ending.code : Ending → Nat
  | .complete => 0 | .cancelled => 1 | .abandoned => 2 | .pageFailed => 3 | .locateFailed => 4 | .sideLost => 5
  | .unavailable => 6 | .restart => 7

/-- The FILE-FAILED causes of 11.3. -/
def FileCause.code : FileCause → Nat
  | .aborted => 0 | .expired => 1 | .writeFailed => 2 | .drainAbort => 3 | .restart => 4

/-- The service states in the order of R169. -/
def Service.code : Service → Nat
  | .startup => 0 | .standby => 1 | .opening => 2 | .serving => 3 | .draining => 4 | .quiescent => 5 | .fault => 6

/-- The service state of a code. -/
def serviceOfCode (n : Nat) : Option Service :=
  [Service.startup, .standby, .opening, .serving, .draining, .quiescent, .fault][n]?

/-- The drain modes in the order of R169, absent 0. -/
def DrainMode.code : DrainMode → Nat
  | .plain => 0 | .abort => 1 | .restart => 2

/-- The start-up findings in the order of R169, with the frame number of MEMORY. -/
def StartFinding.bytes : StartFinding → List Byte
  | .none => number 1 0 ++ number 2 0
  | .memory f => number 1 1 ++ number 2 f
  | .picker => number 1 2 ++ number 2 0

/-- The recovery findings in the order of R179 and R169, with their side. -/
def RecoveryFinding.bytes : RecoveryFinding → List Byte
  | .none => number 1 0 ++ optionalSide Option.none
  | .unreachable n => number 1 1 ++ number 1 n
  | .pendingOverflow n => number 1 2 ++ number 1 n
  | .rangeAhead n => number 1 3 ++ number 1 n
  | .restart => number 1 4 ++ optionalSide Option.none

/-- The causes of STATE-CHANGED in the order of R162. -/
def ChangeCause.code : ChangeCause → Nat
  | .setState => 0 | .restart => 1 | .openingEnd => 2 | .drainEnd => 3 | .startUp => 4

/-- The side states in the order of R184. -/
def SideState.code : SideState → Nat
  | .blank => 0 | .opened => 1 | .filled => 2 | .suspect => 3 | .missing => 4 | .mismatch => 5 | .stuck => 6

/-- The side state LOAD-SIDE may give: BLANK, OPEN, FILLED or SUSPECT (R18). -/
def loadableState (n : Nat) : Option SideState := [SideState.blank, .opened, .filled, .suspect][n]?

/-- The drive states in the order of R28. -/
def DriveState.code : DriveState → Nat
  | .empty => 0 | .loading => 1 | .checking => 2 | .ready => 3 | .active => 4 | .unloading => 5 | .fault => 6
  | .offline => 7 | .occupiedUnknown => 8

/-- The fault causes in the order of R28. -/
def DriveCause.code : DriveCause → Nat
  | .channel => 0 | .drive => 1 | .label => 2

/-- The channel states in the order of R20. -/
def ChannelState.code : ChannelState → Nat
  | .idle => 0 | .offering => 1 | .awaiting => 2

/-- The drive commands in the order of R24. -/
def DriveOp.code : DriveOp → Nat
  | .label => 0 | .read => 1 | .erase => 2 | .write => 3 | .verify => 4 | .ejectPrep => 5

/-- The picker states in the order of R38. -/
def PickerState.code : PickerState → Nat
  | .parked => 0 | .moving => 1 | .fault => 2

/-- The motions in the order of R38. -/
def MotionKind.code : MotionKind → Nat
  | .mount => 0 | .unmount => 1 | .turn => 2 | .inventory => 3 | .home => 4

/-- The picker events in the order in which the table of R39 first gives them. -/
def PickerEvent.code : PickerEvent → Nat
  | .taken => 0 | .emptySlot => 1 | .inserted => 2 | .done => 3 | .ejected => 4 | .placed => 5 | .occupancy => 6

/-- The slot findings in the order of R38. -/
def slotFindingCode : SlotFinding → Nat
  | .occupied => 0 | .empty => 1 | .unknown => 2

/-- The halt causes in the order of R100, `none` first. -/
def haltCode : Option Halt → Nat
  | none => 0
  | some .noMedia => 1 | some .rangeFull => 2 | some .pendingFull => 3 | some .numbersExhausted => 4
  | some .driveFault => 5

/-- The activities in the order of R100. -/
def Activity.code : Activity → Nat
  | .idle => 0 | .mounting => 1 | .attempt => 2 | .flush => 3 | .closing => 4 | .opening => 5

/-- The pass conditions in the order of R100. -/
def PassState.code : PassState → Nat
  | .withheld => 0 | .queued => 1 | .inFlight => 2

/-- The context states in the order of R75. -/
def CtxState.code : CtxState → Nat
  | .free => 0 | .mountWait => 1 | .locating => 2 | .streaming => 3 | .ending => 4

/-- COPY 0, VIEW 1 (11.2). -/
def Delivery.code : Delivery → Nat
  | .copy => 0 | .view => 1

/-- Read outstanding in the order of R75. A read that is offered is not yet in flight (R24), so it is reported queued
(log 22). -/
def ReadStatus.code : ReadStatus → Nat
  | .none => 0 | .queued => 1 | .offered => 1 | .inFlight => 2

/-- The locate steps in the order of R67. -/
def LocateStep.code : LocateStep → Nat
  | .entry => 0 | .indexRead => 1 | .directoryRead => 2

/-- The filing states in the order of R101. -/
def FilingState.code : FilingState → Nat
  | .free => 0 | .gathering => 1 | .queued => 2 | .writing => 3

/-- The slot roles in the order of R145. -/
def Role.code : Role → Nat
  | .empty => 0 | .active => 1 | .waiting => 2 | .retired => 3

/-- The account states in the order of R137. -/
def AccountState.code : AccountState → Nat
  | .opened => 0 | .stopped => 1

/-- The account state of a code (R139). -/
def accountStateOfCode (n : Nat) : Option AccountState := [AccountState.opened, .stopped][n]?

/-- The stop causes in the order of R144. -/
def StopCause.code : StopCause → Nat
  | .limit => 0 | .ceiling => 1

/-- UP 0, DOWN 1 (R155). -/
def LinkState.code : LinkState → Nat
  | .up => 0 | .down => 1

/-! ### Notices and outbound frames -/

/-- The notice kinds, codes 1-9 (11.3). -/
def NoticeDetails.kind : NoticeDetails → Nat
  | .accountStopped .. => 1 | .sideOpened .. => 2 | .sideClosed .. => 3 | .filingHalted .. => 4
  | .driveFault .. => 5 | .pickerFault .. => 6 | .scheduleActivated .. => 7 | .stateChanged .. => 8
  | .recoveryDone .. => 9

/-- The details of a notice in the order of the notice set table (R166, R184). -/
def NoticeDetails.bytes : NoticeDetails → List Byte
  | .accountStopped a c ch l => number 4 a ++ number 1 c.code ++ number 6 ch ++ number 6 l
  | .sideOpened n serial => number 1 n ++ number 4 serial
  | .sideClosed n st h w k sp inc =>
    number 1 n ++ number 1 st.code ++ number 4 h ++ number 2 w ++ number 2 k ++ number 4 sp ++ flagByte inc
  | .filingHalted c n => number 1 (haltCode (some c)) ++ optionalSide n
  | .driveFault d c n => number 1 d ++ number 1 c.code ++ optionalSide n
  | .pickerFault m c d e h =>
    optionalNumber 1 (m.map (·.code)) ++ optionalNumber 1 c ++ optionalNumber 1 d
      ++ optionalNumber 1 (e.map (·.code)) ++ flagByte h
  | .scheduleActivated g d => number 2 g ++ number 2 d
  | .stateChanged o n c => number 1 o.code ++ number 1 n.code ++ number 1 c.code
  | .recoveryDone w a n f => number 2 w ++ number 2 a ++ optionalNumber 4 n ++ f.bytes

/-- The kind code of an outbound frame (11.3). -/
def OutBody.kind : OutBody → Nat
  | .reply .. => 9 | .run .. => 16 | .done .. => 17 | .refused .. => 18 | .filed .. => 19 | .fileFailed .. => 20
  | .notice .. => 21

/-- The body bytes of an outbound frame (11.2). -/
def OutBody.bytes : OutBody → List Byte
  | .run page offset format sectors data =>
    number 1 page ++ number 1 offset ++ number 1 format ++ number 1 sectors ++ data.flatten
  | .done o p q c g => number 1 o.code ++ number 1 p ++ number 4 q ++ number 4 c ++ optionalNumber 2 g
  | .refused reason kind => number 1 reason.code ++ number 1 kind
  | .filed i n d => number 4 i ++ number 1 n ++ number 2 d
  | .fileFailed c n a => number 1 c.code ++ optionalSide n ++ number 1 a
  | .reply code reason data =>
    number 1 code ++ flagByte reason.isSome ++ optionalNumber 1 (reason.map (·.code)) ++ data
  | .notice d r t => number 1 d.kind ++ number 1 r ++ number 4 t ++ d.bytes

/-- A frame on the line: header, body and check bytes (R185). -/
def OutFrame.bytes (f : OutFrame) : List Byte :=
  let covered := number 1 f.body.kind ++ number 1 f.requester ++ number 2 f.tag
    ++ number 2 f.body.bytes.length ++ f.body.bytes
  covered ++ number 2 (crc16 covered).toNat

end Sys2Proof.Machine
end

