-- ==== Sys2Proof/Machine/Link.lean ====
section
/-! DEFINITION. Composing outbound frames and raising notices (R153, R157, R166). -/

namespace Sys2Proof.Machine

/-- A frame joins the outbound control list at the moment it is composed (R153). -/
def compose (r t : Nat) (body : OutBody) (s : State) : State :=
  { s with
    rli.control := s.rli.control ++ [{ seq := s.seq, frame := { requester := r, tag := t, body := body } }]
    seq := s.seq + 1 }

/-- A REFUSED for an inbound frame of a kind (11.2). -/
def refuse (r t : Nat) (reason : Reason) (kind : Nat) (s : State) : State := compose r t (.refused reason kind) s

/-- An ACCEPTED MANAGE reply with its data (11.2). -/
def accept (r t code : Nat) (data : List Byte) (s : State) : State := compose r t (.reply code none data) s

/-- A REFUSED MANAGE reply (11.2). -/
def reject (r t code : Nat) (reason : Reason) (s : State) : State := compose r t (.reply code (some reason) []) s

/-- A pending notice takes the latest details and its repeat count rises, held at 255 (R166). -/
def Notice.again (d : NoticeDetails) (n : Notice) : Notice :=
  { n with details := d, repeats := min 255 (n.repeats + 1) }

/-- Raises a notice (R166): nothing without a manager, a repeat when its kind is pending, a new pending notice
otherwise. -/
def raise_ (d : NoticeDetails) (s : State) : State :=
  if s.mu.manager.isNone then s
  else if s.rli.notices.any (·.details.kind == d.kind) then
    { s with rli.notices := s.rli.notices.map fun n => if n.details.kind = d.kind then n.again d else n }
  else
    { s with
      rli.notices := s.rli.notices ++ [{ details := d, repeats := 0, raised := s.now, seq := s.seq }]
      seq := s.seq + 1 }

/-- Answers every late request that meets a condition with an ACCEPTED reply and removes it (R153). -/
def answerLate (which : LateKind → Bool) (code : LateKind → Nat) (data : LateKind → List Byte) (s : State) : State :=
  let due := s.mu.late.filter fun l => which l.kind
  due.foldl (fun s l => accept l.requester l.tag (code l.kind) (data l.kind) s)
    { s with mu.late := s.mu.late.filter fun l => !which l.kind }

/-- A management request awaits its late reply (R153). -/
def awaitReply (kind : LateKind) (r t : Nat) (s : State) : State :=
  { s with mu.late := s.mu.late ++ [{ kind := kind, requester := r, tag := t }] }

end Sys2Proof.Machine
end

