-- ==== Sys2Proof/Machine/Mounts.lean ====
section
/-! DEFINITION. The mount queue: orders, their waiters and the filing marker (R44-R48). -/

namespace Sys2Proof.Machine

/-! ### Priorities -/

/-- The greatest of a list of priorities. -/
def greatest (ps : List Nat) : Nat := ps.foldl max 0

/-- The priority of an order: the greatest among its context waiters, with the filing marker counted as the filing mount
priority; 0 for an unmount order (R44, R45). -/
def State.priorityOf (s : State) (o : Order) : Nat :=
  match o.kind with
  | .unmount _ _ => 0
  | .mount _ =>
    max (greatest (o.waiters.map fun c => (s.context c).priority)) (if o.marker then s.mu.params.filingPriority else 0)

/-- Recomputes the priority of every order (R44). A rise of a WAITING order calls the arbiter (R49). -/
def reprioritise (s : State) : State :=
  let s1 := { s with lib.orders := s.lib.orders.map fun o => { o with priority := s.priorityOf o } }
  if s.lib.orders.any fun o => !o.inService && o.priority < s.priorityOf o then s1.callArbiter else s1

/-! ### Finding orders -/

/-- The mount order of a side (R44). -/
def State.orderFor (s : State) (side : Nat) : Option Order := s.lib.orders.find? (·.kind == .mount side)

/-- The order of an id. -/
def State.orderOf (s : State) (id : Nat) : Option Order := s.lib.orders.find? (·.id == id)

/-- An unmount order of a drive. -/
def Order.unmounts (d : Nat) (o : Order) : Bool :=
  match o.kind with
  | .unmount d' _ => d' == d
  | .mount _ => false

/-- An idle unmount order still WAITING for a drive. -/
def Order.idleWaiting (d : Nat) (o : Order) : Bool := o.kind == .unmount d false && !o.inService

/-- An IN-SERVICE order targets a drive. -/
def State.targeted (s : State) (d : Nat) : Bool := s.lib.orders.any fun o => o.inService && o.target == some d

/-- The forced drive of a new order: the drive in which the sibling face is loaded (R44, R51). An order for the face that is
itself loaded in an UNLOADING drive has none until the cartridge rests (log 65). -/
def State.forcedFor (s : State) (side : Nat) : Option Nat :=
  (List.range 4).find? fun d => (s.drive d).mounted == some (siblingOf side)

/-! ### Making, joining and leaving orders -/

/-- Adds an order and calls the arbiter (R49). -/
def addOrder (o : Order) (s : State) : State :=
  (reprioritise { s with
    lib.orders := s.lib.orders ++ [{ o with id := s.lib.nextOrder }]
    lib.nextOrder := s.lib.nextOrder + 1 }).callArbiter

/-- A new WAITING mount order (R44, R46 case 6). -/
def newMount (side : Nat) (waiters : List Nat) (marker : Bool) (forced : Option Nat) (s : State) : State :=
  addOrder { id := 0, kind := .mount side, waiters := waiters, marker := marker, priority := 0, age := s.now
             forced := forced, inService := false, target := none } s

/-- An unmount order for a drive (R45). A firm order replaces an idle one; a drive that has an unmount order of its
own kind, or a firm one, gets none. -/
def newUnmount (d : Nat) (firm : Bool) (s : State) : State :=
  let s1 := if firm then { s with lib.orders := s.lib.orders.filter fun o => !o.idleWaiting d } else s
  if s1.lib.orders.any (·.unmounts d) then s1
  else
    addOrder { id := 0, kind := .unmount d firm, waiters := [], marker := false, priority := 0, age := s.now
               forced := none, inService := false, target := none } s1

/-- Removes the order of an id. -/
def removeOrder (id : Nat) (s : State) : State := { s with lib.orders := s.lib.orders.filter (·.id != id) }

/-- Changes the order of an id. -/
def modOrder (id : Nat) (f : Order → Order) (s : State) : State :=
  { s with lib.orders := s.lib.orders.map fun o => if o.id = id then f o else o }

/-- A WAITING mount order with no waiter and no marker left (R47). -/
def Order.abandoned (o : Order) : Bool :=
  match o.kind with
  | .mount _ => !o.inService && o.waiters.isEmpty && !o.marker
  | .unmount _ _ => false

/-- Mount orders left with no waiter and no marker leave the queue (R41). -/
def dropAbandoned (s : State) : State := { s with lib.orders := s.lib.orders.filter fun o => !o.abandoned }

/-- A context leaves the order or the incoming waiters it is in (R47). -/
def leaveOrders (c : Nat) (s : State) : State :=
  reprioritise { s with
    lib.orders := (s.lib.orders.map fun o => { o with waiters := o.waiters.filter (· != c) }).filter fun o => !o.abandoned
    drives := s.drives.map fun d => { d with incoming := d.incoming.filter (· != c) } }

/-- Withdraws WAITING idle unmount orders of a drive (R46 case 2, R47). -/
def withdrawIdle (d : Nat) (s : State) : State :=
  { s with lib.orders := s.lib.orders.filter fun o => !o.idleWaiting d }

/-! ### The filing marker -/

/-- The filing engine withdraws its marker (R47, R108). -/
def withdrawMarker (s : State) : State :=
  let s1 := reprioritise { s with
    lib.orders := (s.lib.orders.map fun o => { o with marker := false }).filter fun o => !o.abandoned
    drives := s.drives.map fun d => { d with incomingMarker := false }
    fil.mountFor := none }
  if s1.fil.activity = .mounting then { s1 with fil.activity := .idle } else s1

/-- The marker is returned to the filing engine (R48, R54, R108): the readiness test is made again, an opening side is
given up, a recovery walk ends. -/
def returnMarker (s : State) : State :=
  match s.fil.mountFor with
  | none => s
  | some .walk =>
    { s with recovery.markerBack := true, fil.mountFor := none, fil.activity := .idle }
  | some .opening =>
    ({ s with fil.opening := none, fil.mountFor := none, fil.activity := .idle } : State).callReadiness
  | some .attempt | some .flush | some .close =>
    ({ s with fil.mountFor := none, fil.activity := .idle } : State).callReadiness

/-! ### A need for a side -/

/-- The library unit's answer to a need (R46). -/
inductive Answer where
  | unavailable
  | mounted (d : Nat)
  | incoming (d : Nat)
  | order (id : Nat)
  | fresh
  deriving DecidableEq, Repr

/-- Whether a side is mounted in a drive in LOADING or CHECKING, and which (R46 case 3). -/
def State.arriving (s : State) (side : Nat) : Option Nat :=
  (List.range 4).find? fun d =>
    (s.drive d).mounted == some side && ((s.drive d).state == .loading || (s.drive d).state == .checking)

/-- The answer of R46 to a context (`forContext`) or to the filing engine. -/
def State.answerNeed (s : State) (side : Nat) (forContext : Bool) : Answer :=
  if s.sideUnusable side then .unavailable
  else match s.mountedReady side with
  | some d => .mounted d
  | none => match s.arriving side with
    | some d =>
      if forContext && (s.drive d).state == .loading && s.lib.picker.state == .fault then .unavailable else .incoming d
    | none =>
      if forContext && s.lib.picker.state == .fault then .unavailable
      else match s.orderFor side with
      | some o => .order o.id
      | none => .fresh

end Sys2Proof.Machine
end

