-- ==== Sys2Proof/Machine/Records.lean ====
section
/-! DEFINITION. The sector records the part writes on a side and reads back: label, directory, commit trailer and
index sector, with their check values (R2-R5, R184, R186, 11.4). -/

namespace Sys2Proof.Machine

/-- The check value over the covered bytes of a record of a kind (R186). -/
def checkValue (kind : Nat) (bs : List Byte) : Nat :=
  bs.foldl (fun v b => (v * 257 + b.toNat) % Config.checkModulus) kind

/-- A record with its check value, filled with 0 to a whole sector (R184, R186). -/
def sealRecord (kind : Nat) (covered : List Byte) : Sector :=
  let bs := covered ++ number 4 (checkValue kind covered)
  bs ++ List.replicate (Config.sectorBytes - bs.length) 0

/-- Whether the check value of a record read back is valid: its first byte holds the kind, and its check field equals
the value computed over the `n` covered bytes (R186). -/
def checkHolds (kind n : Nat) (d : Sector) : Bool :=
  fieldAt d 0 1 == kind && fieldAt d n 4 == checkValue kind (d.take n)

/-! ### Label -/

/-- The label of a side (R2, 11.4). -/
def labelSector (serial face : Nat) : Sector :=
  sealRecord 1 (number 1 1 ++ number 1 face ++ number 4 serial)

/-- The serial and face of a label read back with a valid check value. -/
def readLabel (d : Sector) : Option (Nat × Nat) :=
  if checkHolds 1 6 d then some (fieldAt d 2 4, fieldAt d 1 1) else none

/-! ### Directory -/

/-- The page list of a body: page 1 at offset 1, each later page behind the one before it (R3). The argument is the
offset of the first page of the list. -/
def layPages : Nat → List FilingPage → List PageItem
  | _, [] => []
  | o, p :: ps => { format := p.format, offset := o, sectors := p.sectors } :: layPages (o + p.sectors) ps

/-- The body sector count e of a page list (R3). -/
def bodySectors (pages : List FilingPage) : Nat := 1 + (pages.map (·.sectors)).sum

/-- The bytes of a place of the page list (11.4). -/
def PageItem.bytes (p : PageItem) : List Byte := number 1 p.format ++ number 2 p.offset ++ number 1 p.sectors

/-- A directory (R3, 11.4). -/
def directorySector (day serial body : Nat) (pages : List PageItem) : Sector :=
  let list := pages.flatMap PageItem.bytes
  sealRecord 2 (number 1 2 ++ number 1 pages.length ++ number 2 day ++ number 4 serial ++ number 2 body
    ++ list ++ List.replicate (960 - list.length) 0)

/-- The fields of a directory read back with a valid check value: page count, serial, body sectors, page list. -/
structure DirectoryRead where
  pages : Nat
  serial : Nat
  body : Nat
  list : List PageItem
  deriving DecidableEq, Repr

/-- Reads a directory. The page list has 240 places (11.4): a page count above it finds no further item (log 55). -/
def readDirectory (d : Sector) : Option DirectoryRead :=
  if checkHolds 2 970 d then
    let n := fieldAt d 1 1
    some { pages := n, serial := fieldAt d 4 4, body := fieldAt d 8 2
           list := (List.range (min n 240)).map fun i =>
             { format := fieldAt d (10 + 4 * i) 1, offset := fieldAt d (11 + 4 * i) 2
               sectors := fieldAt d (13 + 4 * i) 1 } }
  else none

/-- The page list runs from offset 1 without a gap and ends at `body` (R70): the argument is the offset the next page
must have. -/
def pagesRun : Nat → Nat → List PageItem → Bool
  | at_, body, [] => at_ == body
  | at_, body, p :: ps => p.offset == at_ && pagesRun (at_ + p.sectors) body ps

/-! ### Commit trailer -/

/-- A commit trailer (R4, 11.4). -/
def trailerSector (instrument address day body : Nat) : Sector :=
  sealRecord 3 (number 1 3 ++ number 4 instrument ++ number 4 address ++ number 2 day ++ number 2 body)

/-- The instrument of a good trailer read at sector `address + body` of an extent whose directory at `address` has
`body` sectors (R4). -/
def goodTrailer (d : Sector) (address body : Nat) : Option Nat :=
  if checkHolds 3 13 d && fieldAt d 5 4 + fieldAt d 11 2 == address + body && fieldAt d 11 2 == body then
    some (fieldAt d 1 4)
  else none

/-! ### Index entries -/

/-- The covered bytes of an index entry (11.4). -/
def IndexEntry.covered (e : IndexEntry) : List Byte :=
  number 1 e.marker ++ number 4 e.instrument ++ number 4 e.address ++ number 2 e.body ++ number 1 e.pages

/-- The bytes of an index slot (11.4). -/
def IndexEntry.bytes (e : IndexEntry) : List Byte := e.covered ++ number 4 e.check

/-- A used index entry with its check value (R5, R186). -/
def makeEntry (instrument address body pages : Nat) : IndexEntry :=
  let e : IndexEntry :=
    { marker := 4, instrument := instrument, address := address, body := body, pages := pages, check := 0 }
  { e with check := checkValue 4 e.covered }

/-- An empty index slot: sixteen bytes of 0 (R186). -/
def emptySlot : IndexEntry := { marker := 0, instrument := 0, address := 0, body := 0, pages := 0, check := 0 }

/-- The check value of a used slot is valid (R186). -/
def IndexEntry.valid (e : IndexEntry) : Bool := e.marker == 4 && e.check == checkValue 4 e.covered

/-- The 64 slots of an index sector holding these entries from slot 0 on (R5, R186). -/
def fillSlots (es : List IndexEntry) : List IndexEntry := es ++ List.replicate (64 - es.length) emptySlot

/-- An index sector (11.4). -/
def indexSector (slots : List IndexEntry) : Sector := slots.flatMap IndexEntry.bytes

/-- The slot of an index sector read back. -/
def readSlot (d : Sector) (i : Nat) : IndexEntry :=
  { marker := fieldAt d (16 * i) 1, instrument := fieldAt d (16 * i + 1) 4, address := fieldAt d (16 * i + 5) 4
    body := fieldAt d (16 * i + 9) 2, pages := fieldAt d (16 * i + 11) 1, check := fieldAt d (16 * i + 12) 4 }

/-- The 64 slots of an index sector read back. -/
def readIndex (d : Sector) : List IndexEntry := (List.range 64).map (readSlot d)

/-- The used slots form one run from slot 0 with no used slot behind an empty one, and every used slot has a valid check
value (R176, R186): the number of used slots. None when a slot is neither empty nor a valid used one, or out of the run. -/
def usedRun : List IndexEntry → Option Nat
  | [] => some 0
  | e :: es =>
    if e.valid then (usedRun es).map (· + 1)
    else if e.marker == 0 && es.all (·.marker == 0) then some 0
    else none

/-- The checks of R69 on an index entry taken for `instrument` on a side whose data high mark is `dataHigh`. -/
def entryPasses (e : IndexEntry) (instrument dataHigh : Nat) : Bool :=
  e.marker != 0 && e.valid && e.instrument == instrument && (1 ≤ e.pages && e.pages ≤ 240)
    && (2 ≤ e.body && e.body ≤ 23041) && (1 ≤ e.address && e.address + e.body < dataHigh)

/-- The checks of R70 on a directory read for an index entry on a side of this serial: the page list holds one item for each
page counted (log 55). -/
def directoryPasses (d : DirectoryRead) (e : IndexEntry) (serial : Nat) : Bool :=
  d.serial == serial && d.body == e.body && 1 ≤ d.pages && d.pages == e.pages && d.list.length == d.pages
    && pagesRun 1 d.body d.list

end Sys2Proof.Machine
end

