-- ==== Sys2Proof/Machine/Tally.lean ====
section
/-! DEFINITION. The fee arithmetic and the records it reads and writes (chapters 7 and 8). -/

namespace Sys2Proof.Machine

/-! ### Prices -/

/-- The slot that holds a generation (R146). -/
def State.slotOfGeneration (s : State) (g : Nat) : Option Slot :=
  s.tal.slots.find? fun x => x.role != .empty && x.generation == g

/-- The figures a delivery is priced by: its class in the schedule of its generation (R125). -/
def State.figures (s : State) (generation : Option Nat) (cls : Nat) : ClassFigures :=
  match generation with
  | none => default
  | some g => match s.slotOfGeneration g with
    | none => default
    | some x => x.figures.getD cls default

/-- The count a COPY page makes (R126 step 1, R127). -/
def countMade (n : Nat) : Nat := min (n + 1) Config.dayCeiling

/-- The rate of a page that makes count `n'` (R126 step 3). A format class that has no rate is priced at a free value
(log 46). -/
def pagePrice (f : ClassFigures) (format n' : Nat) : Nat :=
  if f.threshold ≠ 0 ∧ n' > f.threshold then f.bulk.getD format (Config.rateBeyond f true format).toNat
  else f.normal.getD format (Config.rateBeyond f false format).toNat

/-! ### The deed charge -/

/-- The deed charge before certification: deed fee, cap, minimum (R130 steps 1 to 3). -/
def cappedCharge (f : ClassFigures) (subtotal : Nat) : Nat :=
  let t1 := f.deedFee + subtotal
  let t2 := if f.cap ≠ 0 ∧ t1 > f.cap then f.cap else t1
  max t2 f.minimum

/-- The deed charge Q (R129, R130). -/
def deedCharge (f : ClassFigures) (kind : Delivery) (pages subtotal : Nat) (certified : Bool) (outcome : Ending) : Nat :=
  if kind = .view ∨ pages = 0 then 0
  else cappedCharge f subtotal + (if certified = true ∧ outcome = .complete then f.certFee else 0)

/-! ### Postings -/

/-- The cents of a posting (R132 steps 1, 2). -/
def centsPosted (a : Account) (q : Nat) : Nat := (q + a.residue) / 10

/-- The figures a posting writes (R132, R133, R134). -/
def postFigures (a : Account) (q : Nat) : Account :=
  { a with
    residue := (q + a.residue) % 10
    charged := min (a.charged + centsPosted a q) Config.chargedCeiling
    dayCents := min (a.dayCents + centsPosted a q) Config.dayCentsCeiling
    dayDeeds := min (a.dayDeeds + 1) Config.dayCeiling }

/-- Why an account is over its bounds, if it is (R144). -/
def overBounds (a : Account) : Option StopCause :=
  if Config.chargedCeiling ≤ a.charged then some .ceiling
  else if a.limit ≠ 0 ∧ a.limit ≤ a.charged then some .limit
  else none

/-- The stop test: an OPEN account over its bounds becomes STOPPED (R144). -/
def stopTest (a : Account) : Account :=
  if a.state = .opened ∧ (overBounds a).isSome then { a with state := .stopped } else a

/-- The notice of the stop test, when it stops the account (R144). -/
def stopNotice (a : Account) : Option NoticeDetails :=
  if a.state = .opened then (overBounds a).map fun c => .accountStopped a.number c a.charged a.limit else none

/-- Posts a deed charge to an account (R143). -/
def post (number q : Nat) (s : State) : State :=
  match s.account number with
  | none => s
  | some a =>
    let s1 := s.modAccount number fun a => stopTest (postFigures a q)
    match stopNotice (postFigures a q) with
    | none => s1
    | some d => raise_ d s1

/-- The cents a posting to an account hands back (R143 step 3). -/
def State.centsFor (s : State) (number q : Nat) : Nat :=
  match s.account number with
  | none => 0
  | some a => centsPosted a q

/-! ### Schedule references -/

/-- The slot takes a reference (R146). -/
def takeReference (g : Nat) (s : State) : State :=
  { s with tal.slots := s.tal.slots.map fun x =>
      if x.role ≠ .empty ∧ x.generation = g then { x with refs := x.refs + 1 } else x }

/-- A slot loses a reference; a RETIRED slot whose count reaches 0 becomes EMPTY (R146). -/
def Slot.release (x : Slot) : Slot :=
  if x.role = .retired ∧ x.refs ≤ 1 then Slot.reset else { x with refs := x.refs - 1 }

/-- The reference of a generation is released (R97 step 5, R146). -/
def releaseReference (g : Option Nat) (s : State) : State :=
  match g with
  | none => s
  | some g => { s with tal.slots := s.tal.slots.map fun x =>
      if x.role ≠ .empty ∧ x.generation = g then x.release else x }

/-- The ACTIVE slot (R145). -/
def State.activeSlot (s : State) : Option Slot := s.tal.slots.find? (·.role == .active)

/-! ### The open test, the day close and the switch -/

/-- The open test (R140) on the figures as the request has left them. -/
def openTest (asked : AccountState) (a : Account) : AccountState :=
  match asked with
  | .stopped => .stopped
  | .opened =>
    if (a.limit = 0 ∨ a.charged < a.limit) ∧ a.charged < Config.chargedCeiling then .opened else .stopped

/-- An account's day figures move to the previous day (R148 step 1). -/
def closeDay (a : Account) : Account :=
  { a with
    prevPages := a.dayPages, prevCents := a.dayCents, prevDeeds := a.dayDeeds
    dayPages := 0, dayCents := 0, dayDeeds := 0 }

/-- A PENDING slot is due at a fee day (R149). -/
def State.switchDue (s : State) (day : Nat) : Bool :=
  s.tal.slots.any fun x => x.role == .waiting && x.effective ≤ day

/-- What a switch does to a slot (R149). -/
def Slot.switched (x : Slot) : Slot :=
  match x.role with
  | .active => if 0 < x.refs then { x with role := .retired } else Slot.reset
  | .waiting => { x with role := .active }
  | .empty => x
  | .retired => x

/-- The schedule switch (R149). -/
def switchSchedule (s : State) : State :=
  let s1 := { s with tal.slots := s.tal.slots.map Slot.switched }
  match s1.activeSlot with
  | none => s1
  | some x => raise_ (.scheduleActivated x.generation s1.tal.feeDay) s1

/-- The generation after `g`, passing over the values held by slots (R145). The first argument bounds the values passed. -/
def generationAfter (held : List Nat) : Nat → Nat → Nat
  | 0, g => if g = 65535 then 1 else g + 1
  | n + 1, g =>
    let g1 := if g = 65535 then 1 else g + 1
    if g1 ∈ held then generationAfter held n g1 else g1

end Sys2Proof.Machine
end

