-- ==== Sys2Proof/Machine/Contexts.lean ====
section
/-! DEFINITION. Request contexts: holds, reads and frames, priming and RUNs, endings, parking (chapter 5). -/

namespace Sys2Proof.Machine

/-! ### Holds -/

/-- A hold cause is set; the timer starts when there was none (R91). -/
def Context.hold (now limit : Nat) (byLink : Bool) (c : Context) : Context :=
  { c with
    heldByHold := c.heldByHold || !byLink
    heldByLink := c.heldByLink || byLink
    timer := if c.held then c.timer else some { start := now, limit := limit } }

/-- A hold cause is removed; the timer stops when none is left (R90, R91, R92). -/
def Context.unhold (byLink : Bool) (c : Context) : Context :=
  let c1 := { c with heldByHold := c.heldByHold && byLink, heldByLink := c.heldByLink && !byLink }
  { c1 with timer := if c1.held then c.timer else none }

/-! ### Where the context stands in its pages -/

/-- The item of a page in a resolved directory (R70). -/
def Context.item (c : Context) (page : Nat) : PageItem :=
  match c.directory with
  | none => default
  | some d => d.pages.getD (page - 1) default

/-- Sectors of the next page to deliver that the buffer holds (R77, R86). -/
def Context.holdingOfPage (c : Context) : Nat :=
  match c.nextPage with
  | none => 0
  | some p => min c.holding.length ((c.item p).sectors - c.nextSend)

/-- The next page to deliver is wholly read, or at least sixteen of its sectors are holding (R86). -/
def Context.ready (c : Context) : Bool :=
  match c.nextPage with
  | none => false
  | some p => c.nextSend + c.holdingOfPage == (c.item p).sectors || 16 ≤ c.holdingOfPage

/-- Primed is set when the page is ready, and stays set (R86). -/
def Context.prime (c : Context) : Context := { c with primed := c.primed || c.ready }

/-- A candidate for the outbound arbiter (R87). -/
def Context.candidate (c : Context) : Bool :=
  c.state == .streaming && !c.held && c.primed && 1 ≤ c.holdingOfPage

/-- The pages of a selection, clamped against the page count (R83), in ascending order. -/
def clampSelection (selection : List (Nat × Nat)) (pages : Nat) : List Nat :=
  ((List.range pages).map (· + 1)).filter fun p =>
    selection.isEmpty || selection.any fun r => r.1 ≤ p && p ≤ r.2

/-- Sectors from offset `off` of the first page of a list of selected pages to the end of the longest run of consecutive
pages that begins there (R84). -/
def runSectors (sectors : Nat → Nat) : List Nat → Nat → Nat
  | [], _ => 0
  | [p], off => sectors p - off
  | p :: q :: ps, off => sectors p - off + (if q = p + 1 then runSectors sectors (q :: ps) 0 else 0)

/-- The next sector to read `n` sectors after offset `off` of the first of the selected pages (R84). -/
def advanceRead (sectors : Nat → Nat) : List Nat → Nat → Nat → Option (Nat × Nat)
  | [], _, _ => none
  | p :: ps, off, n =>
    if off + n < sectors p then some (p, off + n) else advanceRead sectors ps 0 (off + n - sectors p)

/-- The selected pages from a page on. -/
def Context.pagesFrom (c : Context) (p : Nat) : List Nat := c.chosen.filter (p ≤ ·)

/-- The page read that R84 places: its place in the pages, its first sector and its count; none when the context is not
STREAMING, has a read outstanding, has read all, or has too few free frames. -/
def Context.pageRead (c : Context) : Option ((Nat × Nat) × Nat × Nat) :=
  match c.state, c.read, c.nextRead, c.directory with
  | .streaming, .none, some (p, off), some dir =>
    let remaining := runSectors (fun q => (c.item q).sectors) (c.pagesFrom p) off
    if min 16 remaining ≤ c.freeFrames then
      some ((p, off), dir.address + (c.item p).offset + off, min (min 16 c.freeFrames) remaining)
    else none
  | _, _, _, _ => none

/-! ### Reads on the drives -/

/-- The drive a context is attached to (R30). -/
def State.attachedTo (s : State) (c : Nat) : Option Nat :=
  (List.range 4).find? fun d => c ∈ (s.drive d).attached

/-- An entry was placed for a context. -/
def Issuer.ofContext (c : Nat) (i : Issuer) : Bool := i == .page c || i == .locate c

/-- Places a command at the tail of a drive's queue (R31). -/
def pushCommand (d : Nat) (e : QueueEntry) (s : State) : State :=
  s.modDrive d fun x => { x with queue := x.queue ++ [e] }

/-- A new queue entry, placed now (R31). -/
def newEntry (s : State) (i : Issuer) (op : DriveOp) (first count priority : Nat) (data : List Sector) : QueueEntry :=
  { issuer := i, op := op, first := first, count := count, data := data, priority := priority, age := s.now
    retries := 0, notReady := 0, have_ := 0 }

/-- The queued reads of a context leave every drive queue (R31). -/
def dropReads (c : Nat) (s : State) : State :=
  { s with drives := s.drives.map fun d => { d with queue := d.queue.filter fun e => !e.issuer.ofContext c } }

/-- A context leaves the drive it is attached to (R30). -/
def detach (c : Nat) (s : State) : State :=
  { s with drives := s.drives.map fun d => { d with attached := d.attached.filter (· != c) } }

/-- The placing test of R84 for a context, and the read it places. -/
def placePageRead (c : Nat) (s : State) : State :=
  match s.attachedTo c, (s.context c).pageRead with
  | some d, some (place, first, n) =>
    let x := s.context c
    let s1 := pushCommand d (newEntry s (.page c) .read first n x.priority []) s
    s1.modContext c fun x =>
      { x with
        read := .queued, readStart := some place, filling := x.filling + n
        nextRead := advanceRead (fun q => (x.item q).sectors) (x.pagesFrom place.1) place.2 n }
  | _, _ => s

/-! ### Endings -/

/-- The outcome is set, the state becomes ENDING, holds and parking are cleared (R97 step 1). -/
def Context.close (o : Ending) (c : Context) : Context :=
  { c with
    state := .ending, outcome := some o, timer := none, heldByHold := false, heldByLink := false, parked := false }

/-- A read has left the queue for the channel: it runs to its result, whatever becomes of its context (R31, R93; log
22). -/
def ReadStatus.issued : ReadStatus → Bool
  | .offered | .inFlight => true
  | .none | .queued => false

/-- Holding sectors are discarded; frames of a read that has been issued stay filling (R97 steps 2, 3). -/
def Context.discard (c : Context) : Context :=
  { c with
    locate := none, holding := []
    filling := if c.read.issued then c.filling else 0
    read := if c.read.issued then c.read else .none }

/-- The deed charge of a context that ends (R129, R130). -/
def State.chargeOf (s : State) (x : Context) (o : Ending) : Nat :=
  deedCharge (s.figures x.generation x.feeClass) x.kind x.delivered x.subtotal x.certified o

/-- A delivery whose charge is posted: a COPY with pages delivered (R97 step 4), also where its charge is 0 (log 67). -/
def Context.posts (x : Context) : Bool := x.kind == .copy && 1 ≤ x.delivered

/-- Steps 4 to 6 of R97: charge and posting, release of the schedule, DONE. -/
def settleCharge (x : Context) (o : Ending) (s : State) : State :=
  let q := s.chargeOf x o
  let cents := if x.posts then s.centsFor x.account q else 0
  let s1 := if x.posts then post x.account q s else s
  compose x.requester x.tag (.done o x.delivered q cents x.generation) (releaseReference x.generation s1)

/-- The ending of a live context (R97). A context that is not live is left as it is (R96). -/
def endContext (c : Nat) (o : Ending) (s : State) : State :=
  if (s.context c).state.live then
    let s1 := s.modContext c (Context.close o)
    let s2 := (leaveOrders c (detach c (dropReads c s1))).modContext c Context.discard
    settleCharge (s.context c) o s2
  else s

/-- Several contexts end, in order. -/
def endContexts (cs : List Nat) (o : Ending) (s : State) : State := cs.foldl (fun s c => endContext c o s) s

/-- A context in ENDING becomes FREE when its DONE has been handed over and no read of it is in flight (R98). -/
def freeContext (c : Nat) (s : State) : State :=
  let x := s.context c
  if x.state = .ending ∧ x.doneSent = true ∧ x.read = .none then
    (s.modAccount x.account fun a => { a with inFlight := a.inFlight - 1 }).modContext c fun _ => Context.reset
  else s

/-! ### RUNs -/

/-- The RUN a context forms when the arbiter chooses it (R87). -/
def Context.runBody (x : Context) : OutBody :=
  match x.nextPage with
  | none => .run 0 0 0 0 []
  | some p =>
    let n := min 8 x.holdingOfPage
    .run p x.nextSend (if x.nextSend = 0 then (x.item p).format else 0)
      (if x.nextSend = 0 then (x.item p).sectors else 0) (x.holding.take n)

/-- What hand-over does to the buffer (R87). -/
def Context.afterRun (x : Context) : Context :=
  let n := min 8 x.holdingOfPage
  { x with holding := x.holding.drop n, nextSend := x.nextSend + n }

/-- The page to deliver has been handed over whole (R88). -/
def Context.pageDone (x : Context) : Bool :=
  match x.nextPage with
  | none => false
  | some p => (x.item p).sectors ≤ x.nextSend

/-- The context's part of a page completion: pages delivered, subtotal, next page, priming (R88, R86). -/
def Context.completePage (price : Nat) (x : Context) : Context :=
  let next := match x.nextPage with
    | none => none
    | some p => x.chosen.find? (p < ·)
  ({ x with
    delivered := x.delivered + 1, subtotal := x.subtotal + price, nextPage := next, nextSend := 0
    primed := false } : Context).prime

/-- The price of the page a COPY completes (R126). -/
def State.priceOfPage (s : State) (x : Context) : Nat :=
  match x.kind, s.account x.account with
  | .copy, some a =>
    pagePrice (s.figures x.generation x.feeClass) (x.item (x.nextPage.getD 0)).format (countMade a.dayPages)
  | _, _ => 0

/-- The page completion event (R88, R126, R127). -/
def completePage (c : Nat) (s : State) : State :=
  let x := s.context c
  let s1 := (s.modContext c (Context.completePage (s.priceOfPage x)))
  let s2 := if x.kind = .copy then s1.modAccount x.account fun a => { a with dayPages := countMade a.dayPages } else s1
  if (s2.context c).nextPage.isNone then endContext c .complete s2 else s2

/-- A RUN is handed to the link: it enters the transmitter, its frames become free, and it may complete its page
(R87, R88, R156, R157). -/
def handRun (c : Nat) (s : State) : State :=
  let x := s.context c
  let s1 := { s with
    rli.transmitter := some { requester := x.requester, tag := x.tag, body := x.runBody }
    rli.lastServed := c }
  let s2 := s1.modContext c Context.afterRun
  if (s2.context c).pageDone then completePage c s2 else s2

/-! ### Outbound choice -/

/-- Candidates in the cyclic order that follows the context last served (R157). -/
def State.candidates (s : State) : List Nat :=
  ((List.range 16).map fun i => (s.rli.lastServed + 1 + i) % 16).filter fun c => (s.context c).candidate

/-- The context the arbiter chooses: the first of the highest priority in cyclic order (R157). -/
def State.chosenRun (s : State) : Option Nat :=
  let top := greatest (s.candidates.map fun c => (s.context c).priority)
  s.candidates.find? fun c => (s.context c).priority == top

/-- The pending notice raised first (R157, R166). -/
def State.oldestNotice (s : State) : Option Notice :=
  s.rli.notices.find? fun n => s.rli.notices.all fun m => n.seq ≤ m.seq

/-- What the outbound arbiter chooses (R157). -/
inductive Choice where
  | control (f : ControlFrame)
  | notice (n : Notice)
  | run (c : Nat)
  deriving DecidableEq, Repr

/-- The choice of the outbound arbiter, made while the transmitter is free and the link UP (R155, R157). -/
def State.choice (s : State) : Option Choice :=
  if s.rli.transmitter.isSome ∨ s.rli.link = .down then none
  else match s.rli.control.head?, s.oldestNotice with
  | some f, none => some (.control f)
  | some f, some n => if f.seq ≤ n.seq then some (.control f) else some (.notice n)
  | none, some n => some (.notice n)
  | none, none => s.chosenRun.map .run

/-- The DONE of a context is handed over (R98, R156). -/
def markDone (r t : Nat) (s : State) : State :=
  match (List.range 16).find? fun c =>
      (s.context c).state == .ending && (s.context c).requester == r && (s.context c).tag == t with
  | none => s
  | some c => s.modContext c fun x => { x with doneSent := true }

/-- A control frame is handed to the link (R153, R156). -/
def handControl (f : ControlFrame) (s : State) : State :=
  let s1 := { s with rli.control := s.rli.control.drop 1, rli.transmitter := some f.frame }
  match f.frame.body with
  | .done .. => markDone f.frame.requester f.frame.tag s1
  | _ => s1

/-- A notice is handed to the link, addressed to the manager (R166). -/
def handNotice (n : Notice) (s : State) : State :=
  { s with
    rli.notices := s.rli.notices.filter fun m => m.details.kind != n.details.kind
    rli.transmitter := some
      { requester := s.mu.manager.getD 0, tag := 0, body := .notice n.details n.repeats n.raised } }

/-- The outbound arbiter chooses, and the frame chosen is handed to the link (R156, R157). -/
def transmit (s : State) : State :=
  match s.choice with
  | none => s
  | some (.control f) => handControl f s
  | some (.notice n) => handNotice n s
  | some (.run c) => handRun c s

/-! ### Parking -/

/-- A context is parked (R94): a queued page read is handed back and its first sector is the next to read again; a queued
locate read is handed back; a read in flight runs on. -/
def Context.park (x : Context) : Context :=
  if x.read = .queued then
    { x with
      parked := true, read := .none, filling := 0, readStart := none
      nextRead := match x.readStart with
        | some r => some r
        | none => x.nextRead }
  else { x with parked := true }

/-- The contexts attached to a victim drive are parked and leave it (R53, R94). -/
def parkAll (d : Nat) (s : State) : State :=
  let cs := (s.drive d).attached
  let s1 := cs.foldl (fun s c => (dropReads c s).modContext c Context.park) s
  s1.modDrive d fun x => { x with attached := [] }

end Sys2Proof.Machine
end

