-- ==== Sys2Proof/Machine/Faults.lean ====
section
/-! DEFINITION. What goes out of service and what follows: filing halts and lost attempts, sides that turn STUCK,
MISSING or MISMATCH, drive faults (R15, R34, R48, R116, R118, R120, R121). -/

namespace Sys2Proof.Machine

/-! ### Filings -/

/-- The cause of FILE-FAILED while the part ends its filing work (R124, R181, R183). -/
def State.stopCause (s : State) : FileCause :=
  match s.mu.drain with
  | some .restart => .restart
  | _ => .drainAbort

/-- FILE-FAILED for a filing record (R122). Side and attempt count are carried for WRITE-FAILED alone. -/
def fileFailed (f : Nat) (cause : FileCause) (s : State) : State :=
  let x := s.filing f
  compose x.requester x.tag
    (.fileFailed cause (if cause = .writeFailed then s.openSide else none) (if cause = .writeFailed then 3 else 0)) s

/-- A filing leaves the queue and its record becomes FREE with its frames returned (R106, R108, R115, R117).
An emptied queue calls the arbiter (R49). -/
def freeFiling (f : Nat) (s : State) : State :=
  let s1 := { (s.modFiling f fun _ => Filing.reset) with fil.queue := s.fil.queue.filter (· != f) }
  if s.fil.queue.isEmpty ∨ !s1.fil.queue.isEmpty then s1 else s1.callArbiter

/-- A filing is discarded with FILE-FAILED (R106, R107, R124). -/
def discardFiling (f : Nat) (cause : FileCause) (s : State) : State := freeFiling f (fileFailed f cause s)

/-! ### Halts -/

/-- A halt is set (R121): the notice is raised unless this cause is held already (log 25), and the marker is withdrawn.
The marker of a recovery walk stays: a halt stops filing work, which the walk is not (log 35). -/
def setHalt (h : Halt) (s : State) : State :=
  let s1 := if s.fil.halt = some h then s
    else raise_ (.filingHalted h (if h = .driveFault then s.openSide else none)) { s with fil.halt := some h }
  if s1.fil.mountFor = some .walk then s1 else withdrawMarker s1

/-- The lowest-numbered side that may be opened: BLANK, its cartridge not in a drive that cannot be reached (R120). -/
def State.blankSide (s : State) : Option Nat :=
  (List.range 128).find? fun n => match s.side n with
    | none => false
    | some r => r.state == .blank && !s.inBadDrive r

/-- The condition of a halt cause (R121). -/
def State.haltHolds (s : State) : Halt → Bool
  | .noMedia => s.openSide.isNone && s.blankSide.isNone
  | .rangeFull => s.openSide.isNone && s.loc.ranges.length == Config.rangeLimit
  | .pendingFull => Config.pendingLimit ≤ s.loc.entries.length
  | .numbersExhausted => s.fil.nNext.any (Config.topInstrument < ·)
  | .driveFault => s.openSide.any s.sideUnusable

/-- The re-test of the halt (R121): a halt whose condition no longer holds is cleared, and the readiness test is made. -/
def retestHalt (s : State) : State :=
  match s.fil.halt with
  | none => s
  | some h => if s.haltHolds h then s else ({ s with fil.halt := none } : State).callReadiness

/-! ### A lost attempt, flush, close or opening -/

/-- The extent of an attempt is spoiled (R114 steps 1, 2). -/
def spoilExtent (f : Nat) (s : State) : State :=
  let e := ((s.filing f).body.getD 0)
  let s1 := match s.openSide with
    | none => s
    | some n => s.modSide n fun r => { r with spoiled := r.spoiled + e + 1 }
  { (s1.modFiling f fun x => { x with extentStart := none, tentative := none }) with fil.working := [] }

/-- An index write has failed at the index low mark: a skip entry is appended, or, with eight entries already,
index-incomplete is set (R6, R118). -/
def SideRecord.skip (r : SideRecord) : SideRecord :=
  if r.skips.length < Config.skipLimit then { r with skips := r.skips ++ [r.written] } else { r with incomplete := true }

/-- The filing engine leaves its passes: no current pass, no working frame, activity IDLE. -/
def leaveSequence (s : State) : State :=
  { s with fil.pass := none, fil.working := [], fil.flushed := [], fil.activity := .idle }

/-- A filing sequence on a drive ends (R33): the engine leaves its passes, and the arbiter is called (R49). -/
def endSequence (s : State) : State := (leaveSequence s).callArbiter

/-- A pass of a flush, at or behind its ERASE on the drive (R118). -/
def Pass.eraseIssued (p : Pass) : Bool := 2 ≤ p.number || p.state == .inFlight

/-- The OPEN side's index write is given up (R118, R119): the skip, and at a ninth failure a close to SUSPECT owed. -/
def giveUpIndex (n : Nat) (s : State) : State :=
  let s1 := s.modSide n SideRecord.skip
  if (s1.side n).any (·.incomplete) then { s1 with fil.closeOwed := some .suspect } else s1

/-- The index write that a lost drive leaves behind (R118, R119): the position is given up when its ERASE had been issued.
A ninth failure of a close turns the state owed to SUSPECT (log 50); that of a full flush leaves the close to the
readiness test behind the halt (R118). -/
def loseIndex (s : State) : State :=
  match s.openSide with
  | none => s
  | some n =>
    if s.fil.pass.any Pass.eraseIssued then
      if s.fil.activity = .closing then giveUpIndex n s else s.modSide n SideRecord.skip
    else s

/-- The side of the filing sequence is lost with its drive (R116, R118, R119, R120). -/
def filingLost (s : State) : State :=
  match s.fil.activity, s.fil.queue.head? with
  | .attempt, some f =>
    let s1 := endSequence (spoilExtent f s)
    if s.stopping then discardFiling f s.stopCause s1
    else setHalt .driveFault (s1.modFiling f fun x => { x with state := .queued })
  | .attempt, none => endSequence s
  | .flush, _ | .closing, _ => setHalt .driveFault (endSequence (loseIndex s))
  | .opening, _ => (endSequence { s with fil.opening := none }).callReadiness
  | .idle, _ | .mounting, _ => s

/-! ### Sides out of service -/

/-- Every cache entry of a side is dropped (R66). -/
def dropCache (n : Nat) (s : State) : State := { s with loc.cache := s.loc.cache.filter (·.side != n) }

/-- A motion that serves an order has started (R48: its cartridge is moving). -/
def State.motionStarted (s : State) (id : Nat) : Bool :=
  s.lib.picker.motion.any fun m => m.order == some id && m.started

/-- An order is removed unserved: its waiters end UNAVAILABLE, its marker is returned (R40, R48). -/
def dropOrder (o : Order) (s : State) : State :=
  let s1 := endContexts o.waiters .unavailable (removeOrder o.id s)
  if o.marker then returnMarker s1 else s1

/-- The mount order of a side that can no longer be served is removed (R48). -/
def removeMount (n : Nat) (s : State) : State :=
  match s.orderFor n with
  | none => s
  | some o => if o.inService ∧ s.motionStarted o.id = true then s else dropOrder o s

/-- What follows when a side has turned MISSING, MISMATCH or STUCK (R48, R66, R121). -/
def sideGone (n : Nat) (cached : Bool) (s : State) : State :=
  let s1 := removeMount n (if cached then dropCache n s else s)
  if s1.openSide = some n then setHalt .driveFault s1 else s1

/-- A face turns STUCK, once (R15). -/
def SideRecord.stick (r : SideRecord) : SideRecord :=
  if r.state = .stuck then r else { r with prior := some r.state, state := .stuck }

/-- A face returns to its prior state (R15). -/
def SideRecord.unstick (r : SideRecord) : SideRecord :=
  match r.prior with
  | none => r
  | some p => { r with state := p, prior := none }

/-- The present faces of a cartridge. -/
def State.faces (s : State) (slot : Nat) : List Nat :=
  [sideOf slot 0, sideOf slot 1].filter fun n => (s.side n).isSome

/-- The cartridge is out of service: each present record turns STUCK (R15). -/
def turnStuck (slot : Nat) (s : State) : State :=
  let turned := (s.faces slot).filter fun n => (s.side n).any (·.state != .stuck)
  turned.foldl (fun s n => sideGone n true s) (s.modCartridge slot SideRecord.stick)

/-- The cartridge returns: each face takes its prior state, which the arbiter is told of; the return of a side to OPEN
lets the halt be tested again (R15, R36, R42). -/
def returnCartridge (slot : Nat) (s : State) : State :=
  let back := (s.faces slot).any fun n => (s.side n).any (·.prior == some .opened)
  let s1 := (s.modCartridge slot SideRecord.unstick).callArbiter
  if back then retestHalt s1 else s1

/-- A side turns MISMATCH (R14). -/
def turnMismatch (n : Nat) (s : State) : State :=
  sideGone n true (s.modSide n fun r => { r with state := .mismatch, prior := none })

/-- A side turns MISSING (R14). -/
def turnMissing (n : Nat) (s : State) : State :=
  sideGone n false (s.modSide n fun r => { r with state := .missing, prior := none })

/-! ### Drive faults -/

/-- A read of a context has ended DRIVE-LOST (R34, R68, R85). -/
def lostRead (c : Nat) (s : State) : State :=
  endContext c .sideLost (s.modContext c fun x => { x with read := .none, filling := 0 })

/-- A command ends DRIVE-LOST: its context ends SIDE-LOST (R34). -/
def commandLost (e : QueueEntry) (s : State) : State :=
  match e.issuer with
  | .page c | .locate c => lostRead c s
  | .recovery | .discarded | .filing | .library | .probe => s

/-- The picker waited for an EJECT-PREP of this drive, which is lost: it returns to PARKED without a motion; a mount order
returns to WAITING, and leaves the queue when it has neither waiter nor marker (log 56); an unmount order is removed (R54). -/
def abandonMotion (d : Nat) (s : State) : State :=
  match s.lib.picker.motion with
  | none => s
  | some m =>
    if m.started ∨ m.drive ≠ some d then s
    else
      let s1 := s.modPicker fun p => { p with state := .parked, motion := none, second := none }
      let s2 := match m.order with
        | none => s1
        | some id => match s.orderOf id with
          | none => s1
          | some o => match o.kind with
            | .mount _ => dropAbandoned (modOrder id (fun o => { o with inService := false, target := none }) s1)
            | .unmount _ _ => removeOrder id s1
      s2.callArbiter

/-- The channel after a reset: IDLE, both flags dropped, no stall timer, nothing in flight (R23). -/
def Drive.resetChannel (x : Drive) : Drive :=
  { x with channel := .idle, waitTake := false, waitSend := false, stall := none, current := none }

/-- The drive record and queue after a fault (R34). -/
def Drive.failed (cause : DriveCause) (x : Drive) : Drive :=
  { x.resetChannel with
    state := .fault, cause := some cause, idle := none, idleHeld := false, attached := [], incoming := []
    incomingMarker := false, queue := [], owed := none }

/-- The commands a fault ends (R34): the one in flight first, a retry or reissue owed, and the queued ones in the order in
which they were placed (log 39). -/
def Drive.commands (x : Drive) : List QueueEntry :=
  (x.current.map (·.entry)).toList ++ x.owed.toList ++ x.queue

/-- The label finding of a DRIVE-RETRY reply, in the order of the table of R36 (log 9). -/
def retryReply (x : Drive) (finding : Nat) : List Byte :=
  number 1 x.state.code ++ optionalNumber 1 (x.cause.map (·.code)) ++ number 1 finding

/-- The reply of a DRIVE-RETRY is sent when its probe ends (R36). -/
def answerRetry (d finding : Nat) (s : State) : State :=
  answerLate (· == .driveRetry d) (fun _ => 16) (fun _ => retryReply (s.drive d) finding) s

/-- A drive goes to FAULT with cause CHANNEL or DRIVE (R34). The contexts of lost commands end first, then the attached ones
in the order of their attachment (log 44). -/
def driveFault (d : Nat) (cause : DriveCause) (s : State) : State :=
  let x := s.drive d
  let s1 := s.modDrive d (Drive.failed cause)
  let s2 := x.commands.foldl (fun s e => commandLost e s) s1
  let s3 := endContexts x.attached .sideLost s2
  let s4 := if s.sequenceOn d then filingLost s3 else s3
  let s5 := abandonMotion d s4
  let s6 := endContexts x.incoming .unavailable s5
  let s7 := if x.incomingMarker then returnMarker s6 else s6
  let s8 := match x.cartridge with
    | none => s7
    | some c => turnStuck c s7
  let s9 := { s8 with lib.orders := s8.lib.orders.filter fun o => !(o.unmounts d && !s8.motionStarted o.id) }
  let s10 := raise_ (.driveFault d cause x.mounted) s9
  if x.commands.any (·.issuer == .probe) then answerRetry d 0 s10 else s10

/-- The OPEN side's cartridge is in a drive. -/
def State.openSideIn (s : State) (d : Nat) : Bool :=
  (s.openSide.bind s.side).any fun r => r.location == .drive d

/-- The drive of the OPEN side has turned FAULT or OFFLINE: the halt DRIVE-FAULT is set (R121). -/
def haltIfOpenIn (d : Nat) (s : State) : State := if s.openSideIn d then setHalt .driveFault s else s

/-- The mount orders for the faces of the cartridge in a drive are removed: their forced drive is out of service (R48). -/
def removeForced (d : Nat) (s : State) : State :=
  match (s.drive d).cartridge with
  | none => s
  | some c => (s.faces c).foldl (fun s n => removeMount n s) s

/-- A drive goes to FAULT with cause LABEL (R29, R34): no side turns STUCK by it, and no order keeps it as its forced
drive (R48). -/
def labelFault (d : Nat) (mounted : Option Nat) (s : State) : State :=
  haltIfOpenIn d (removeForced d (raise_ (.driveFault d .label mounted)
    (s.modDrive d fun x => { x with state := .fault, cause := some .label, idle := none, idleHeld := false })))

end Sys2Proof.Machine
end

