-- ==== Sys2Proof/Machine/Flags.lean ====
section
/-! DEFINITION. The channel flags: which rendezvous an engine watches, what a drive's flag meets there, and which
command the dispatcher issues next (R20, R21, R32, R33). -/

namespace Sys2Proof.Machine

/-- A LABEL of a probe is queued, offered or in flight (R36). -/
def Drive.probing (x : Drive) : Bool :=
  x.queue.any (·.issuer == .probe) || x.owed.any (·.issuer == .probe) || x.current.any (·.entry.issuer == .probe)

/-- The engine watches its channel: not while the drive is OFFLINE or in FAULT, but for a probe (R21, R36). -/
def Drive.watching (x : Drive) : Bool :=
  match x.state with
  | .fault | .offline => x.probing
  | .empty | .loading | .checking | .ready | .active | .unloading | .occupiedUnknown => true

/-- What the drive's arrival at the rendezvous brings about (R20, R21). -/
inductive Meeting where
  | unwatched
  | transfer
  | desync
  deriving DecidableEq, Repr

/-- The drive raises drive-waiting-to-send (R20, R21). -/
def Drive.meetSend (x : Drive) : Meeting :=
  if !x.watching then .unwatched
  else match x.channel with
  | .offering => .transfer
  | .awaiting | .idle => .desync

/-- The drive raises drive-waiting-to-take (R20, R21). -/
def Drive.meetTake (x : Drive) : Meeting :=
  if !x.watching then .unwatched
  else match x.channel with
  | .awaiting => .transfer
  | .offering | .idle => .desync

/-- A pass of the filing engine (R31). -/
def DriveOp.isPass : DriveOp → Bool
  | .erase | .write | .verify => true
  | .label | .read | .ejectPrep => false

/-- The last kind issued after a command: a LABEL or EJECT-PREP leaves it as it was (R33 rule 2). -/
def DriveOp.issuedPass (op : DriveOp) (before : Bool) : Bool :=
  match op with
  | .erase | .write | .verify => true
  | .read => false
  | .label | .ejectPrep => before

/-- The entry of highest priority, and among equal priorities the oldest (R32). -/
def bestEntry (q : List QueueEntry) : Option QueueEntry :=
  q.find? fun e => q.all fun e' => e'.priority ≤ e.priority

/-- Placed by the library unit (R32 rule 2); the LABEL of a probe is one. -/
def QueueEntry.ofLibrary (e : QueueEntry) : Bool := e.issuer == .library || e.issuer == .probe

/-- The next command during a filing sequence, behind the retries, reissues and library commands (R33 rules 2 to 4). -/
def Drive.pickSequence (x : Drive) : Option QueueEntry :=
  let pass := x.queue.find? (·.issuer == .filing)
  let urgent := bestEntry (x.queue.filter fun e => e.issuer != .filing && 2 ≤ e.priority)
  match pass, urgent with
  | some p, some r => if x.lastWasPass then some r else some p
  | some p, none => some p
  | none, r => r

/-- The command the dispatcher issues next (R32, R33). -/
def Drive.pick (x : Drive) (sequence : Bool) : Option QueueEntry :=
  match x.owed with
  | some e => some e
  | none => match x.queue.find? QueueEntry.ofLibrary with
    | some e => some e
    | none => if sequence then x.pickSequence else bestEntry x.queue

end Sys2Proof.Machine
end

