-- ==== Sys2Proof/Machine/Channel.lean ====
section
/-! DEFINITION. The channel engines and the dispatcher: rendezvous, transfers, desync and stall, issuing commands,
retries and reissues (R19-R27, R31-R33, R36). -/

namespace Sys2Proof.Machine

/-! ### Rendezvous -/

/-- The engine arrives at a rendezvous and its stall timer starts with the limit in force (R20, R22). -/
def arriveAt (d : Nat) (c : ChannelState) (s : State) : State :=
  s.modDrive d fun x => { x with channel := c, stall := some { start := s.now, limit := s.mu.params.channelStall } }

/-- The rendezvous that follows a transfer of the command: a data block of a WRITE is offered, otherwise the engine
awaits the drive (R24). -/
def Current.after (c : Current) : ChannelState :=
  if c.entry.op = .write ∧ c.blocks < c.entry.count then .offering else .awaiting

/-- The drive takes what the engine offers: the command message, or a data block of a WRITE (R19, R24). -/
def Current.taken (c : Current) : Current :=
  if c.sent then { c with blocks := c.blocks + 1 } else { c with sent := true }

/-- The read status of a context passes from one value to the next (R75). -/
def Context.readPasses (old new : ReadStatus) (x : Context) : Context :=
  { x with read := if x.read = old then new else x.read }

/-- The read of an issuer passes from one status to the next. Only reads on behalf of a context have one (R75). -/
def readPasses (i : Issuer) (old new : ReadStatus) (s : State) : State :=
  match i with
  | .page c | .locate c => s.modContext c (Context.readPasses old new)
  | .recovery | .discarded | .filing | .library | .probe => s

/-- The transfer of a command message puts its command in flight (R24, R75). -/
def messageSent (c : Current) (s : State) : State :=
  if c.sent then s else readPasses c.entry.issuer .offered .inFlight s

/-- A transfer to the drive completes, and the engine arrives at the next rendezvous (R19, R20, R24). It does so in the
same event, so that no channel is IDLE while its command is in flight (log 38). -/
def offerTaken (d : Nat) (s : State) : State :=
  match (s.drive d).current with
  | none => s
  | some c =>
    arriveAt d c.taken.after
      ((messageSent c s).modDrive d fun x => { x with waitSend := false, current := some c.taken })

/-- A desync or a stall: the channel is reset and the drive goes to FAULT with cause CHANNEL (R21, R22, R23). -/
def channelFault (d : Nat) (s : State) : State := driveFault d .channel s

/-- The engine offers the command message; a flag that was up when it arrived is met at once (R20, R21). -/
def meetOffer (d : Nat) (s : State) : State :=
  let x := s.drive d
  if x.waitTake then channelFault d s else if x.waitSend then offerTaken d s else s

/-- The issuer learns that its command has left the queue. A pass is in flight from the offer of its command message
(R112); a read is from then on offered, and in flight when the message has been taken (R24, log 22). -/
def markIssued (e : QueueEntry) (s : State) : State :=
  match e.issuer with
  | .filing => { s with fil.pass := s.fil.pass.map fun p => { p with state := .inFlight } }
  | .page _ | .locate _ | .recovery | .discarded | .library | .probe => readPasses e.issuer .queued .offered s

/-- The dispatcher issues a command on a drive (R24, R32). -/
def issue (d : Nat) (e : QueueEntry) (s : State) : State :=
  let s1 := s.modDrive d fun x =>
    { x with
      queue := if x.owed.isSome then x.queue else x.queue.erase e
      owed := none
      current := some { entry := e, sent := false, blocks := 0, got := [] }
      lastWasPass := e.op.issuedPass x.lastWasPass }
  meetOffer d (arriveAt d .offering (markIssued e s1))

/-- The dispatcher's choice on a drive with no command in flight (R32, R33). -/
def dispatch (d : Nat) (s : State) : State :=
  let x := s.drive d
  if x.current.isSome then s
  else match x.pick (s.sequenceOn d) with
  | none => s
  | some e => issue d e s

/-- The dispatcher's choice on every drive. -/
def dispatchAll (s : State) : State := [0, 1, 2, 3].foldl (fun s d => dispatch d s) s

/-! ### Data blocks -/

/-- A data block of a page read reaches its context: its frame becomes holding (R24, R77, R85, R86). A context in
ENDING discards it. -/
def Context.takeBlock (data : Sector) (x : Context) : Context :=
  if x.state = .streaming then
    ({ x with holding := x.holding ++ [data], filling := x.filling - 1 } : Context).prime
  else { x with filling := x.filling - 1 }

/-- A block that its issuer takes: not one beyond the count (log 11), nor one a page read has already delivered before a
NOT-READY (log 12). -/
def Current.fresh (c : Current) : Bool := c.entry.have_ ≤ c.blocks && c.blocks < c.entry.count

/-- The command after a data block (R24): a page read counts the sectors delivered, any other read keeps the block until
its result. -/
def Current.receive (data : Sector) (c : Current) : Current :=
  if c.fresh then
    match c.entry.issuer with
    | .page _ => { c with blocks := c.blocks + 1, entry := { c.entry with have_ := c.blocks + 1 } }
    | _ => { c with blocks := c.blocks + 1, got := c.got ++ [data] }
  else { c with blocks := c.blocks + 1 }

/-- A data block taken by the engine (R24): it goes to the frame its issuer named, and the engine awaits the drive again. -/
def blockTaken (d : Nat) (data : Sector) (s : State) : State :=
  match (s.drive d).current with
  | none => s
  | some c =>
    let s1 := s.modDrive d fun x => { x with waitTake := false, current := some (c.receive data) }
    let s2 := match c.entry.issuer with
      | .page n => if c.fresh then s1.modContext n (Context.takeBlock data) else s1
      | _ => s1
    arriveAt d .awaiting s2

/-! ### Retries and reissues -/

/-- The retry of a READ from its bad sector (R26). It is a new READ: its not-ready count starts at 0 (R27, log 36). -/
def QueueEntry.retry (e : QueueEntry) (bad : Nat) : QueueEntry :=
  { e with
    first := bad, count := e.first + e.count - bad, retries := e.retries + 1, notReady := 0
    have_ := e.have_ - (bad - e.first) }

/-- The command on a drive ends: the channel is IDLE and nothing is in flight (R19, R22, R24). -/
def Drive.ended (x : Drive) : Drive :=
  { x with channel := .idle, stall := none, waitTake := false, current := none }

/-- What the dispatcher does with a result before any issuer sees it (R26, R27). -/
inductive Handled where
  | again (e : QueueEntry)
  | fault
  | deliver
  deriving DecidableEq, Repr

/-- Retry, reissue, drive fault, or delivery to the issuer (R26, R27). `empty_` says that NO-CARTRIDGE is a finding here:
on a probe, or at the label read of a drive with no cartridge (R27). -/
def handleResult (e : QueueEntry) (empty_ : Bool) (res : DriveResult) : Handled :=
  match res with
  | .notReady => if 3 ≤ e.notReady + 1 then .fault else .again { e with notReady := e.notReady + 1 }
  | .noCartridge => if empty_ then .deliver else .fault
  | .mediaError b => if e.op = .read ∧ e.retries + 1 < 3 then .again (e.retry b) else .deliver
  | .ok | .blank _ | .verifyFailed _ => .deliver

/-! ### Probes -/

/-- A probe: a channel reset followed by a LABEL (R36). -/
def startProbe (d : Nat) (s : State) : State :=
  pushCommand d (newEntry s .probe .label 0 1 0 [])
    (s.modDrive d fun x => { x.resetChannel with offlinePending := false })

/-- The library unit places a LABEL (R29, R39). -/
def placeLabel (d : Nat) (s : State) : State := pushCommand d (newEntry s .library .label 0 1 0 []) s

end Sys2Proof.Machine
end

