-- ==== Sys2Proof/Machine/Locator.lean ====
section
/-! DEFINITION. Locating a deed: the range lookup, the index cache, the locate of a context and the hand-over of its
directory (chapter 4, R83). -/

namespace Sys2Proof.Machine

/-! ### Range lookup -/

/-- The lookup of R62: the side and k of an instrument. -/
def State.lookup (s : State) (i : Nat) : Option (Nat × Nat) :=
  match s.loc.ranges.find? (fun r => r.first ≤ i && i ≤ r.last), s.fil.nNext with
  | some r, some n => if i < n then some (r.side, i - r.first) else none
  | _, _ => none

/-! ### Index cache -/

/-- The cached sector of a side and j (R65). -/
def State.cached (s : State) (side j : Nat) : Option CacheEntry :=
  s.loc.cache.find? fun e => e.side == side && e.j == j

/-- A cached sector moves to most recent (R65). -/
def touchCache (e : CacheEntry) (s : State) : State := { s with loc.cache := e :: s.loc.cache.erase e }

/-- A fill of the cache (R65): a sector already held keeps its contents and moves to most recent; a new one is added
there, the least recent being dropped when 32 are held. -/
def fillCache (side j : Nat) (entries : List IndexEntry) (s : State) : State :=
  match s.cached side j with
  | some e => touchCache e s
  | none =>
    { s with loc.cache :=
        { side := side, j := j, entries := entries } :: s.loc.cache.take (Config.cacheLimit - 1) }

/-! ### The locate -/

/-- A read of one sector is placed for the locate of a context (R68, R70). -/
def placeLocateRead (c first : Nat) (s : State) : State :=
  match s.attachedTo c with
  | none => s
  | some d =>
    (pushCommand d (newEntry s (.locate c) .read first 1 (s.context c).priority []) s).modContext c fun x =>
      { x with read := .queued, filling := 1 }

/-- The read a locate owes at its step is placed, if the context is attached and has none outstanding (R68, R70, R71). -/
def oweLocateRead (c : Nat) (s : State) : State :=
  let x := s.context c
  match x.read, x.locate, s.side x.side with
  | .none, some l, some r =>
    match l.step, l.entry with
    | .indexRead, _ => placeLocateRead c (r.indexPosition l.j) s
    | .directoryRead, some e => placeLocateRead c e.address s
    | _, _ => s
  | _, _, _ => s

/-- The index entry is found: the step becomes DIRECTORY-READ (R67). -/
def entryFound (c : Nat) (e : IndexEntry) (s : State) : State :=
  oweLocateRead c (s.modContext c fun x =>
    { x with locate := x.locate.map fun l => { l with entry := some e, step := .directoryRead } })

/-- The slot of an index sector is checked before use (R69). -/
def useSlot (c : Nat) (entries : List IndexEntry) (s : State) : State :=
  let x := s.context c
  match x.locate, s.side x.side with
  | some l, some r =>
    let e := entries.getD l.slot emptySlot
    if entryPasses e x.instrument r.dataHigh then entryFound c e s else endContext c .locateFailed s
  | _, _ => s

/-- ENTRY: the pending buffer, then the cache, then an index read (R67). -/
def locateEntry (c : Nat) (s : State) : State :=
  let x := s.context c
  match x.locate, s.side x.side with
  | some l, some r =>
    match s.loc.entries.find? fun p => p.side == l.side && p.k == l.k with
    | some p => entryFound c p.entry s
    | none =>
      match (if l.j < r.written then s.cached l.side l.j else none) with
      | some e => useSlot c e.entries (touchCache e s)
      | none =>
        oweLocateRead c (s.modContext c fun x =>
          { x with locate := x.locate.map fun l => { l with step := .indexRead } })
  | _, _ => s

/-- A new locate record (R67). -/
def newLocate (side k : Nat) : Locate :=
  { side := side, k := k, j := k / 64, slot := k % 64, step := .entry, entry := none }

/-- The locator begins the locate of an attached context (R67). -/
def beginLocate (c : Nat) (s : State) : State :=
  locateEntry c (s.modContext c fun x => { x with state := .locating, locate := some (newLocate x.side x.k) })

/-- A context attaches to a drive (R30): its locate begins, or goes on at its step, or its streaming goes on (R71, R82,
R95). -/
def attachContext (d c : Nat) (s : State) : State :=
  let s1 := (s.modDrive d fun x => { x with attached := x.attached ++ [c] }).modContext c fun x => { x with parked := false }
  let x := s1.context c
  match x.state, x.locate with
  | .mountWait, _ => beginLocate c s1
  | .locating, some l => if l.step = .entry then locateEntry c s1 else oweLocateRead c s1
  | _, _ => s1

/-! ### The hand-over of the directory -/

/-- The context takes its resolved directory and clamps its selection (R83). -/
def Context.resolve (dir : Directory) (x : Context) : Context :=
  let chosen := clampSelection x.selection dir.pages.length
  { x with
    locate := none, directory := some dir, chosen := chosen, state := .streaming
    nextRead := chosen.head?.map fun p => (p, 0)
    nextPage := chosen.head?, nextSend := 0, primed := false }

/-- The hand-over: an empty selection ends the context COMPLETE at once (R83). -/
def handDirectory (c : Nat) (dir : Directory) (s : State) : State :=
  if (clampSelection (s.context c).selection dir.pages.length).isEmpty then
    endContext c .complete (s.modContext c fun x => { x with directory := some dir, locate := none })
  else s.modContext c (Context.resolve dir)

/-- An index read has ended OK: fill of the cache when the sector counts as written, and check of the slot (R66, R68). -/
def indexReadOk (c : Nat) (l : Locate) (data : Sector) (s : State) : State :=
  let entries := readIndex data
  let s1 := if (s.side l.side).any (l.j < ·.written) then fillCache l.side l.j entries s else s
  useSlot c entries s1

/-- A directory read has ended OK: its checks, and the hand-over (R70). -/
def directoryReadOk (c : Nat) (l : Locate) (data : Sector) (s : State) : State :=
  match readDirectory data, l.entry, s.side l.side with
  | some d, some e, some r =>
    if directoryPasses d e r.serial then handDirectory c { address := e.address, pages := d.list } s
    else endContext c .locateFailed s
  | _, _, _ => endContext c .locateFailed s

/-- The result of a locate's read (R68, R70, R71). A context that is no longer locating takes nothing from it. -/
def locateResult (c : Nat) (res : DriveResult) (got : List Sector) (s : State) : State :=
  let s1 := s.modContext c fun x => { x with read := .none, filling := 0 }
  let x := s1.context c
  match x.state, x.locate, res with
  | .locating, some l, .ok =>
    match l.step with
    | .indexRead => indexReadOk c l (got.headD []) s1
    | .directoryRead => directoryReadOk c l (got.headD []) s1
    | .entry => s1
  | .locating, some _, _ => endContext c .locateFailed s1
  | _, _, _ => s1

/-- The result of a page read (R85). The placing test of R84 follows in the same event. -/
def pageResult (c : Nat) (res : DriveResult) (s : State) : State :=
  let s1 := s.modContext c fun x => { x with read := .none, filling := 0, readStart := none }
  match res with
  | .ok => s1
  | _ => endContext c .pageFailed s1

end Sys2Proof.Machine
end

