-- ==== Sys2Proof/Machine/Filing.lean ====
section
/-! DEFINITION. The filing engine: gathering, the readiness test, passes and quiet holds, attempts, commit, flushes, closing
and opening sides (chapter 6). -/

namespace Sys2Proof.Machine

/-! ### Passes -/

/-- The command of a pass by its number: each three passes are ERASE, WRITE, VERIFY (R111, R118, R120). -/
def passOp (n : Nat) : DriveOp :=
  match n % 3 with
  | 1 => .erase
  | 2 => .write
  | _ => .verify

/-- A pass not yet placed. -/
def newPass (n first count : Nat) : Pass :=
  { number := n, op := passOp n, first := first, count := count, state := .withheld, disturbed := false }

/-- Pass `n` of the sequence in progress (R111, R118, R119, R120): the extent and then its trailer position for an
attempt, the index low mark for a flush or a close, sector 0 for a label. -/
def State.passPlan (s : State) (n : Nat) : Option Pass :=
  match s.fil.activity with
  | .attempt => s.fil.queue.head?.map fun f =>
    let x := s.filing f
    if n ≤ 3 then newPass n (x.extentStart.getD 0) (x.body.getD 0)
    else newPass n (x.extentStart.getD 0 + x.body.getD 0) 1
  | .flush | .closing => (s.openSide.bind s.side).map fun r => newPass n r.indexLow 1
  | .opening => some (newPass n 0 1)
  | .idle | .mounting => none

/-- The staging frames a pass writes (R111, R118, R120). -/
def State.passData (s : State) (p : Pass) : List Sector :=
  if p.op ≠ .write then []
  else match s.fil.activity, s.fil.queue.head? with
  | .attempt, some f => if p.number = 2 then s.fil.working.take 1 ++ (s.filing f).frames else s.fil.working.drop 1
  | .attempt, none => []
  | _, _ => s.fil.working

/-- A pass is placed on the queue of the drive that holds the side; without such a drive it ends DRIVE-LOST on placing
(R31, R112, R116). -/
def queuePass (p : Pass) (s : State) : State :=
  match s.sequenceSide.bind s.mountedReady with
  | none => filingLost { s with fil.pass := some { p with state := .withheld } }
  | some d =>
    pushCommand d (newEntry s .filing p.op p.first p.count 0 (s.passData p))
      { s with fil.pass := some { p with state := .queued } }

/-- No pass begins (R112): a quiet hold is in force, or one begins at the present time, which its HOLD-BEGUN is still to
tell (R113, the result taken first; log 49). -/
def State.holdsPasses (s : State) : Bool := s.fil.hold || s.lib.windows.head?.any (·.start ≤ s.now)

/-- A pass that is due is placed, or WITHHELD while a quiet hold is in force (R112). -/
def placePass (n : Nat) (s : State) : State :=
  match s.passPlan n with
  | none => s
  | some p => if s.holdsPasses then { s with fil.pass := some p } else queuePass p s

/-! ### Quiet holds -/

/-- The passes of the filing engine leave every drive queue. -/
def dropPasses (s : State) : State :=
  { s with drives := s.drives.map fun d => { d with queue := d.queue.filter (·.issuer != .filing) } }

/-- HOLD-BEGUN at the filing engine (R112, R113). -/
def beginHold (s : State) : State :=
  let s1 : State := { s with fil.hold := true }
  match s.fil.pass with
  | none => s1
  | some p =>
    match p.state with
    | .queued => { dropPasses s1 with fil.pass := some { p with state := .withheld } }
    | .inFlight => if p.op = .verify then { s1 with fil.pass := some { p with disturbed := true } } else s1
    | .withheld => s1

/-- HOLD-ENDED at the filing engine (R112). -/
def endHold (s : State) : State :=
  let s1 : State := { s with fil.hold := false }
  match s.fil.pass with
  | none => s1
  | some p => if p.state = .withheld ∧ s1.holdsPasses = false then queuePass p s1 else s1

/-! ### Needs for a side -/

/-- The filing engine places its marker (R46, R108). -/
def placeMarker (side : Nat) (why : MountFor) (s : State) : State :=
  let s1 : State := { s with fil.activity := .mounting, fil.mountFor := some why }
  match s.answerNeed side false with
  | .unavailable | .mounted _ =>
    match why with
    | .walk => { s with recovery.markerBack := true }
    | .opening => ({ s with fil.opening := none } : State).callReadiness
    | .attempt | .flush | .close => setHalt .driveFault s
  | .incoming d => s1.modDrive d fun x => { x with incomingMarker := true }
  | .order id => reprioritise (modOrder id (fun o => { o with marker := true }) s1)
  | .fresh => newMount side [] true (s.forcedFor side) s1

/-- Work on a side: at once when it is mounted, behind a marker otherwise (R46 case 2, R108). -/
def withMount (side : Nat) (why : MountFor) (go : State → State) (s : State) : State :=
  match s.mountedReady side with
  | some d => go (withdrawIdle d s)
  | none => placeMarker side why s

/-! ### Starting an attempt, a flush, a label -/

/-- An attempt starts (R110): the filing becomes WRITING, the extent is reserved, the directory is built, the first pass
is due. -/
def startAttempt (f n : Nat) (s : State) : State :=
  match s.side n with
  | none => s
  | some r =>
    let x := s.filing f
    let e := x.body.getD 0
    let s1 := s.modFiling f fun x => { x with state := .writing, extentStart := some r.dataHigh }
    let s2 := s1.modSide n fun r => { r with dataHigh := r.dataHigh + e + 1 }
    placePass 1 { s2 with
      fil.activity := .attempt
      fil.working := [directorySector s.tal.feeDay r.serial e (layPages 1 x.pages)] }

/-- Pending entries of a side that index sector `j` holds (R118). -/
def State.entriesOf (s : State) (side j : Nat) : List IndexEntry :=
  ((s.pendingOf side).filter fun p => p.k / 64 == j).map (·.entry)

/-- A full or partial index sector of the OPEN side is built in a working frame and its first pass is due (R118, R119). A
close with 64 or more pending entries writes full sectors first (log 20). -/
def startFlush (act : Activity) (n : Nat) (s : State) : State :=
  match s.side n with
  | none => s
  | some r =>
    let slots := fillSlots (s.entriesOf n r.written)
    placePass 1 { s with fil.activity := act, fil.working := [indexSector slots], fil.flushed := slots }

/-- The label of the opening side is built in a working frame and its first pass is due (R120). -/
def startLabel (n : Nat) (s : State) : State :=
  match s.side n with
  | none => s
  | some r => placePass 1 { s with fil.activity := .opening, fil.working := [labelSector r.serial (faceOf n)] }

/-! ### Closing -/

/-- The details of SIDE-CLOSED (R14, R166). -/
def SideRecord.closedDetails (n : Nat) (r : SideRecord) : NoticeDetails :=
  .sideClosed n r.state r.dataHigh r.written r.skips.length r.spoiled r.incomplete

/-- A filing sequence is in progress on the OPEN side as its close ends (R33): its partial flush, or the sequence of the
head filing, which an attempt has begun and which goes on behind the close on another side (R114, log 61). -/
def State.closeEndsSequence (s : State) : Bool :=
  s.fil.activity == .closing || s.fil.queue.head?.any fun f => (s.filing f).state == .writing

/-- The close as one event (R119): the state owed, SIDE-CLOSED, the open flag, no close owed, CLOSING left. -/
def finishClose (n : Nat) (owed : SideState) (s : State) : State :=
  let s1 := s.modSide n fun r => { r with state := owed }
  let s2 := match s1.side n with
    | none => s1
    | some r => raise_ (r.closedDetails n) s1
  let s3 := s2.modOpenRange fun r => { r with openFlag := false }
  let s4 := leaveSequence { s3 with fil.closeOwed := none }
  if s.closeEndsSequence then s4.callArbiter else s4

/-- The close of R119 goes on: its partial flush when entries are pending and the side is not index-incomplete, the close
itself otherwise. The flag says that the readiness test is made again. -/
def continueClose (owed : SideState) (s : State) : State × Bool :=
  match s.openSide with
  | none => ({ s with fil.closeOwed := none }, true)
  | some n =>
    if (s.pendingOf n).isEmpty ∨ (s.side n).any (·.incomplete) then (finishClose n owed s, true)
    else (withMount n .close (startFlush .closing n) s, false)

/-! ### The readiness test -/

/-- The space test for a body of `e` sectors with `p` pending entries (R9). -/
def SideRecord.fits (r : SideRecord) (e p : Nat) : Bool :=
  r.dataHigh + e + 1 + Config.guardSectors + (p + 1 + 63) / 64 ≤ r.indexLow + 1

/-- Step 7 of the readiness test: a side is chosen for opening (R120). -/
def chooseSide (s : State) : State :=
  if Config.rangeLimit ≤ s.loc.ranges.length then setHalt .rangeFull s
  else match s.blankSide with
  | none => setHalt .noMedia s
  | some n => withMount n .opening (startLabel n) { s with fil.opening := some n }

/-- Steps 5 to 10 for the head filing (R109). -/
def serveHead (f : Nat) (s : State) : State × Bool :=
  if s.fil.nNext.any (Config.topInstrument < ·) then (setHalt .numbersExhausted s, false)
  else if Config.pendingLimit ≤ s.loc.entries.length then (setHalt .pendingFull s, false)
  else match s.openSide with
  | none => (chooseSide s, false)
  | some n =>
    match s.side n with
    | none => (s, false)
    | some r =>
      if r.fits ((s.filing f).body.getD 0) (s.pendingOf n).length then
        (withMount n .attempt (startAttempt f n) s, false)
      else ({ s with fil.closeOwed := some .filled }, true)

/-- Steps 2 to 4 and what follows them (R109). -/
def serveSide (s : State) : State × Bool :=
  let head := match s.fil.queue.head? with
    | none => (s, false)
    | some f => serveHead f s
  match s.openSide with
  | none => head
  | some n =>
    if s.sideUnusable n then (setHalt .driveFault s, false)
    else if (s.side n).any (·.incomplete) then ({ s with fil.closeOwed := some .suspect }, true)
    else if Config.entriesPerSector ≤ (s.pendingOf n).length then
      (withMount n .flush (startFlush .flush n) s, false)
    else head

/-- The readiness test once, from step 1 (R109). The flag says that it is made again. -/
def readinessOnce (s : State) : State × Bool :=
  match s.fil.closeOwed with
  | some owed => continueClose owed s
  | none => serveSide s

/-- The readiness test with what it repeats. A close or a decision to close leads back to step 1, at most once each. -/
def readinessTest : Nat → State → State
  | 0, s => s
  | n + 1, s => if (readinessOnce s).2 then readinessTest n (readinessOnce s).1 else (readinessOnce s).1

/-- The readiness test where an event of this step calls for it (R109). While the part ends its filing work, the opening
side and the close owed that remain are removed instead (R124); in OPENING only a close owed goes on (R178, log 35). -/
def runReadiness (s : State) : State :=
  if s.todo.readiness then
    let s1 : State := { s with todo.readiness := false }
    if s1.fil.activity ≠ .idle then s1
    else if s1.stopping then { s1 with fil.opening := none, fil.closeOwed := none }
    else if s1.mu.service = .opening then
      match s1.fil.closeOwed with
      | none => s1
      | some owed => (continueClose owed s1).1
    else if s1.fil.halt.isSome then s1
    else readinessTest 8 s1
  else s

/-- The library unit reports a side mounted (R54, R108): the work that needed the mount goes on. -/
def engineMounted (s : State) : State :=
  let s1 : State := { s with fil.mountFor := none, fil.activity := .idle }
  match s.fil.mountFor with
  | none => s
  | some .walk => s1
  | some .opening =>
    match s.fil.opening with
    | none => s1.callReadiness
    | some n => startLabel n s1
  | some .attempt | some .flush | some .close => s1.callReadiness

/-! ### Results of passes -/

/-- The commit fee day in a trailer (R4, 11.4). -/
def trailerDay (d : Sector) : Nat := fieldAt d 9 2

/-- A pending entry takes its place in the order of side and k (R63). -/
def insertPending (p : PendingEntry) : List PendingEntry → List PendingEntry
  | [] => [p]
  | q :: qs => if p.side < q.side ∨ (p.side = q.side ∧ p.k < q.k) then p :: q :: qs else q :: insertPending p qs

/-- The trailer is built and N_next becomes the tentative instrument (R111). -/
def buildTrailer (f : Nat) (s : State) : State :=
  let x := s.filing f
  let i := s.fil.nNext.getD 0
  { (s.modFiling f fun x => { x with tentative := some i }) with
    fil.working := s.fil.working ++
      [trailerSector i (x.extentStart.getD 0) s.tal.feeDay (x.body.getD 0)] }

/-- The commit, steps 1 to 5 of R117. -/
def commit (f n : Nat) (s : State) : State :=
  match s.side n with
  | none => s
  | some r =>
    let x := s.filing f
    let i := x.tentative.getD 0
    let p : PendingEntry :=
      { side := n, k := 64 * r.written + (s.pendingOf n).length
        entry := makeEntry i (x.extentStart.getD 0) (x.body.getD 0) x.pages.length }
    let s1 := s.modOpenRange fun r => { r with last := i }
    let s2 := { s1 with fil.nNext := s.fil.nNext.map (· + 1), loc.entries := insertPending p s.loc.entries }
    let s3 := compose x.requester x.tag (.filed i n (trailerDay (s.fil.working.getD 1 []))) s2
    { freeFiling f s3 with fil.working := [], fil.pass := none }

/-- What follows the commit: a flush when 64 entries are pending, the readiness test otherwise (R117 step 6); no flush
while the part ends its filing work (R124). -/
def afterCommit (n : Nat) (s : State) : State :=
  if Config.entriesPerSector ≤ (s.pendingOf n).length ∧ s.stopping = false then startFlush .flush n s
  else (endSequence s).callReadiness

/-- A partial flush follows when the OPEN side is closed (R119): entries are pending and the side is not index-incomplete. -/
def State.flushOwed (s : State) : Bool :=
  s.openSide.any fun n => !(s.pendingOf n).isEmpty && !(s.side n).any (·.incomplete)

/-- A counted failure of an attempt (R114, R115). The filing's sequence goes on over its next attempt, and over the flush of
the close that a third failure brings about; without such a flush the third failure ends it (R33, log 61). -/
def attemptFailed (f : Nat) (s : State) : State :=
  let s1 := (spoilExtent f s).modFiling f fun x => { x with attempts := x.attempts + 1 }
  if 3 ≤ (s1.filing f).attempts then
    let s2 := leaveSequence { freeFiling f (fileFailed f .writeFailed s1) with fil.closeOwed := some .suspect }
    (if s2.flushOwed then s2 else s2.callArbiter).callReadiness
  else (leaveSequence s1).callReadiness

/-- An attempt whose pass has ended while the part ends its filing work (R124). -/
def attemptStopped (f : Nat) (s : State) : State :=
  (endSequence (discardFiling f s.stopCause (spoilExtent f s))).callReadiness

/-- A counted OK of a pass of an attempt (R111). -/
def attemptOk (f : Nat) (p : Pass) (s : State) : State :=
  match s.openSide with
  | none => s
  | some n =>
    if p.number = 6 then afterCommit n (commit f n s)
    else if s.stopping then attemptStopped f s
    else if p.number = 3 then placePass 4 (buildTrailer f s)
    else placePass (p.number + 1) s

/-- An index sector has passed verify (R64, R118, R119): W rises, its entries leave, the cache is filled. -/
def indexWritten (n : Nat) (s : State) : State :=
  match s.side n with
  | none => s
  | some r =>
    let s1 := s.modSide n fun r => { r with written := r.written + 1 }
    fillCache n r.written s.fil.flushed
      { s1 with loc.entries := s.loc.entries.filter fun p => !(p.side == n && p.k / 64 == r.written) }

/-- The end of a flush or of a partial flush (R118, R119). -/
def flushOk (n : Nat) (s : State) : State :=
  let s1 := indexWritten n s
  match s.fil.activity with
  | .closing =>
    if (s1.pendingOf n).isEmpty then (finishClose n (s1.fil.closeOwed.getD .suspect) s1).callReadiness
    else startFlush .closing n s1
  | _ => (endSequence s1).callReadiness

/-- A counted failure of an index write (R118, R119): the same sector again at the new index low mark, or the end of the
flush at a ninth failure. -/
def flushFailed (n : Nat) (s : State) : State :=
  let s1 := giveUpIndex n s
  if (s1.side n).any (·.incomplete) then (endSequence s1).callReadiness else placePass 1 s1

/-- The opening succeeds (R120): the side turns OPEN with data high mark 1 and its range entry is appended (R61), also where
a loaded entry names the side (R68), which then has two (log 43).
The mark is the greater of 1 and the mark held, which on a BLANK side is 0 (R8, R18): no mark falls (R16). -/
def openingOk (n : Nat) (s : State) : State :=
  let s1 := s.modSide n fun r => { r with state := .opened, dataHigh := max 1 r.dataHigh }
  let s2 := match s1.side n with
    | none => s1
    | some r => raise_ (.sideOpened n r.serial) s1
  let i := s.fil.nNext.getD 0
  (endSequence { s2 with
    loc.ranges := s2.loc.ranges ++ [{ first := i, last := i - 1, side := n, openFlag := true }]
    fil.opening := none }).callReadiness

/-- The opening fails (R120): the side turns SUSPECT. It keeps the data high mark 0 and the W 0 of a BLANK side (R8, R18). -/
def openingFailed (n : Nat) (s : State) : State :=
  let s1 := s.modSide n fun r => { r with state := .suspect }
  (endSequence { s1 with fil.opening := none }).callReadiness

/-- A counted OK of a pass of an index write or a label write. -/
def seriesOk (p : Pass) (done : State → State) (s : State) : State :=
  if p.number = 3 then done s else placePass (p.number + 1) s

/-- The result of the current pass (R111, R113, R118, R119, R120, R124). A disturbed VERIFY does not count: it is placed
again, or, when its attempt is being ended, its attempt is spoiled. -/
def passResult (res : DriveResult) (s : State) : State :=
  match s.fil.pass with
  | none => s
  | some p =>
    match s.fil.activity, s.fil.queue.head?, s.openSide, s.fil.opening with
    | .attempt, some f, _, _ =>
      if p.disturbed then (if s.stopping then attemptStopped f s else placePass p.number s)
      else if res = .ok then attemptOk f p s
      else if s.stopping then attemptStopped f s
      else attemptFailed f s
    | .flush, _, some n, _ | .closing, _, some n, _ =>
      if p.disturbed then placePass p.number s
      else if res = .ok then seriesOk p (flushOk n) s
      else flushFailed n s
    | .opening, _, _, some n =>
      if p.disturbed then placePass p.number s
      else if res = .ok then seriesOk p (openingOk n) s
      else openingFailed n s
    | _, _, _, _ => s

/-! ### Gathering -/

/-- A started gather idle timer (R107). -/
def State.gatherTimer (s : State) : Timer := { start := s.now, limit := s.mu.params.gatherIdle }

/-- FILE-OPEN (R102). -/
def openFiling (r t : Nat) (s : State) : State :=
  if s.mu.service ≠ .serving then refuse r t .notServing 5 s
  else if !((s.requester r).any (·.rights.file)) then refuse r t .noRight 5 s
  else if (s.filingOf (· != .free) r t).isSome then refuse r t .duplicateTag 5 s
  else match (List.range 8).find? fun f => (s.filing f).state == .free with
  | none => refuse r t .busy 5 s
  | some f => s.modFiling f fun _ =>
    { Filing.reset with state := .gathering, requester := r, tag := t, timer := some s.gatherTimer }

/-- A page has all its sectors (R101). -/
def FilingPage.complete (p : FilingPage) : Bool := p.received == p.sectors

/-- The complete pages of a filing. -/
def Filing.completePages (x : Filing) : Nat := (x.pages.filter FilingPage.complete).length

/-- The next expected page and offset (R103). -/
def Filing.expected (x : Filing) : Nat × Nat :=
  match x.pages.getLast? with
  | none => (1, 0)
  | some p => if p.complete then (x.pages.length + 1, 0) else (x.pages.length, p.received)

/-- The order check of a PAGE (R103 check 4). -/
def Filing.inOrder (x : Filing) (b : PageBody) : Bool :=
  x.expected == (b.page, b.offset)
    && (b.offset == 0 || x.pages.getLast?.any fun p => p.format == b.format && p.sectors == b.sectors)

/-- The value check of a PAGE (R103 check 1). -/
def pageValid (b : PageBody) : Bool :=
  (1 ≤ b.page && b.page ≤ 240) && b.format ≤ 3 && (1 ≤ b.sectors && b.sectors ≤ 96)
    && b.offset + b.data.length ≤ b.sectors

/-- An accepted PAGE is placed in its filing (R103). -/
def Filing.takePage (b : PageBody) (timer : Timer) (x : Filing) : Filing :=
  let pages := if b.offset = 0 then x.pages ++ [{ format := b.format, sectors := b.sectors, received := 0 }] else x.pages
  { x with
    pages := pages.modify (pages.length - 1) fun p => { p with received := p.received + b.data.length }
    frames := x.frames ++ b.data
    timer := some timer }

/-- PAGE (R103, R104). -/
def filePage (r t : Nat) (b : PageBody) (s : State) : State :=
  if !pageValid b then refuse r t .badValue 6 s
  else match s.filingOf (· == .gathering) r t with
  | none => refuse r t .noFiling 6 s
  | some f =>
    let x := s.filing f
    if b.page ≤ x.completePages then refuse r t .duplicatePage 6 s
    else if !x.inOrder b then refuse r t .order 6 s
    else if Config.filingShare < s.filingFrames + b.data.length then refuse r t .poolFull 6 s
    else s.modFiling f (Filing.takePage b s.gatherTimer)

/-- FILE-END (R105). -/
def endFiling (r t count : Nat) (s : State) : State :=
  if 240 < count then refuse r t .badValue 7 s
  else match s.filingOf (· == .gathering) r t with
  | none => refuse r t .noFiling 7 s
  | some f =>
    let x := s.filing f
    if x.completePages = 0 then refuse r t .empty 7 s
    else if count ≠ x.completePages ∨ x.pages.length ≠ x.completePages then refuse r t .incomplete 7 s
    else
      let s1 := s.modFiling f fun x =>
        { x with state := .queued, timer := none, body := some (bodySectors x.pages) }
      let s2 := { s1 with fil.queue := s.fil.queue ++ [f] }
      if s.fil.queue.isEmpty then s2.callReadiness else s2

/-- The marker is withdrawn when the queue has become empty while a mount was awaited for an attempt alone (R106, R108). -/
def markerIfNeeded (s : State) : State :=
  if s.fil.queue.isEmpty ∧ s.fil.activity = .mounting ∧ s.fil.mountFor = some .attempt then withdrawMarker s else s

/-- FILE-ABORT (R106). -/
def abortFiling (r t : Nat) (s : State) : State :=
  match s.filingOf (· != .free) r t with
  | none => refuse r t .noFiling 8 s
  | some f =>
    if (s.filing f).state = .writing then refuse r t .inProgress 8 s
    else markerIfNeeded (discardFiling f .aborted s)

/-- The gather idle timer of a filing expires (R107). -/
def gatherExpired (f : Nat) (s : State) : State :=
  match (s.filing f).state, (s.filing f).timer with
  | .gathering, some t => discardFiling f .expired (s.reach (t.start + t.limit))
  | _, _ => s

/-! ### Ending the filing work -/

/-- An attempt has a pass in flight (R124). -/
def State.attemptInFlight (s : State) : Bool :=
  s.fil.activity == .attempt && s.fil.pass.any (·.state == .inFlight)

/-- RESTART or a drain with ABORT at the filing engine (R124). The drain mode is set before. An attempt with a pass in
flight goes on to that pass's result. The FILE-FAILEDs are composed in ascending order of the records (log 45). -/
def stopFiling (s : State) : State :=
  let kept : Option Nat := if s.attemptInFlight then s.fil.queue.head? else none
  let s1 := match s.fil.activity, s.fil.queue.head? with
    | .attempt, some f => if s.attemptInFlight then s else endSequence (spoilExtent f (dropPasses s))
    | _, _ => s
  let doomed := (List.range 8).filter fun f => (s1.filing f).state != .free && kept != some f
  (withdrawMarker (doomed.foldl (fun s f => discardFiling f s.stopCause s) s1)).callReadiness

end Sys2Proof.Machine
end

