-- ==== Sys2Proof/Machine/Arbiter.lean ====
section
/-! DEFINITION. The picker arbiter: eligible orders, targets, victims and grants (R49-R53). -/

namespace Sys2Proof.Machine

/-! ### Eligibility and targets -/

/-- A cartridge at a location is at rest: at home, or in a drive from which no grant is taking it (R44). -/
def State.atRest (s : State) (l : Location) : Bool :=
  match l with
  | .home => true
  | .picker => false
  | .drive d => (s.drive d).state != .unloading || !s.targeted d

/-- An EMPTY drive, the lowest number first (R50 kind 1). -/
def State.emptyTarget (s : State) : Option Nat := (List.range 4).find? fun d => (s.drive d).state == .empty

/-- A READY drive with no work that may lose its cartridge without preemption (R50, R51, R120). -/
def State.readyTarget (s : State) (d : Nat) : Bool :=
  (s.drive d).state == .ready && !(s.drive d).hasWork && !s.holdsWanted d

/-- A drive is the forced drive of an IN-SERVICE order (R50). -/
def State.forcedInService (s : State) (d : Nat) : Bool := s.lib.orders.any fun o => o.inService && o.forced == some d

/-- The first number of a list with the least key; the earlier number wins a tie. -/
def leastBy (key : Nat → Nat × Nat) (ds : List Nat) : Option Nat :=
  ds.find? fun d => ds.all fun d' =>
    (key d).1 < (key d').1 || ((key d).1 == (key d').1 && (key d).2 ≤ (key d').2)

/-- The least recently used READY drive with no work (R50 kind 2). -/
def State.usedLeast (s : State) : Option Nat :=
  leastBy (fun d => ((s.drive d).lastReady, 0))
    ((List.range 4).filter fun d => s.readyTarget d && !(s.drive d).offlinePending && !s.forcedInService d)

/-- A victim for an order of priority 3 (R52). -/
def State.victim (s : State) (d : Nat) : Bool :=
  (s.drive d).state.serving && (s.drive d).cartridge.isSome && !(s.drive d).offlinePending
    && (s.drive d).attached.all (fun c => (s.context c).priority ≤ 2) && !s.sequenceOn d

/-- The rank of a victim by its attached contexts: 0 with none, else one above the highest priority (R52). -/
def State.victimRank (s : State) (d : Nat) : Nat :=
  if (s.drive d).attached.isEmpty then 0 else greatest ((s.drive d).attached.map fun c => (s.context c).priority) + 1

/-- The rank of a drive by its last grant: never granted counts as earliest (R52). -/
def Drive.grantRank (x : Drive) : Nat :=
  match x.lastGranted with
  | none => 0
  | some t => t + 1

/-- The victim the arbiter prefers (R52). -/
def State.chosenVictim (s : State) : Option Nat :=
  leastBy (fun d => (s.victimRank d, (s.drive d).grantRank)) ((List.range 4).filter s.victim)

/-- The target of a mount order whose cartridge is at home (R50). -/
def State.freeTarget (s : State) (priority : Nat) : Option Nat :=
  match s.emptyTarget with
  | some d => some d
  | none => match s.usedLeast with
    | some d => some d
    | none => if priority = 3 then s.chosenVictim else none

/-- The target of a mount order, which exists just when the order is eligible (R50, R51). A forced drive may have offline
pending (log 15). -/
def State.targetOf (s : State) (o : Order) (side : Nat) : Option Nat :=
  match s.side side with
  | none => none
  | some r => match r.location with
    | .picker => none
    | .home => s.freeTarget o.priority
    | .drive d =>
      if o.forced = some d ∧ s.atRest r.location = true
          ∧ (s.readyTarget d = true ∨ (o.priority = 3 ∧ s.victim d = true)) then some d else none

/-- An unmount order is eligible (R50). -/
def State.unmountEligible (s : State) (d : Nat) : Bool :=
  let x := s.drive d
  (x.state.serving || x.state == .unloading || (x.state == .fault && x.cause == some .label))
    && x.cartridge.isSome && s.atRest (.drive d)

/-- An idle unmount order waits while a filing sequence is in progress on its drive: the drive is not subject to idle unmount
then (R52, log 58). -/
def State.idleBarred (s : State) (d : Nat) (firm : Bool) : Bool := !firm && s.sequenceOn d

/-- The target of an order: the drive it would be granted with, none while it is not eligible. -/
def State.target (s : State) (o : Order) : Option Nat :=
  if o.inService then none
  else match o.kind with
  | .mount n => s.targetOf o n
  | .unmount d firm => if s.unmountEligible d && !s.idleBarred d firm then some d else none

/-- The side by which an order is ranked (R49). -/
def State.orderSide (s : State) (o : Order) : Nat :=
  match o.kind with
  | .mount n => n
  | .unmount d _ => (s.drive d).mounted.getD 0

/-- The order in which the arbiter takes orders: priority, age, side (R49). -/
def State.ahead (s : State) (a b : Order) : Bool :=
  b.priority < a.priority
    || (a.priority == b.priority
      && (a.age < b.age || (a.age == b.age && s.orderSide a ≤ s.orderSide b)))

/-- The arbiter's choice: the first order that is eligible (R49). -/
def State.arbiterChoice (s : State) : Option Order :=
  let able := s.lib.orders.filter fun o => (s.target o).isSome
  able.find? fun o => able.all fun o' => s.ahead o o'

/-! ### Grants -/

/-- A drive is sent UNLOADING and the EJECT-PREP is placed (R29, R53), also where one of an earlier grant is still there (log
53). -/
def sendHome (d : Nat) (s : State) : State :=
  pushCommand d (newEntry s .library .ejectPrep 0 1 0 [])
    (s.modDrive d fun x => { x with state := .unloading, cause := none, idle := none, idleHeld := false })

/-- The contexts of a victim are parked and get a mount order for their side (R53, R94). -/
def preempt (d : Nat) (turn : Bool) (s : State) : State :=
  match (s.drive d).attached, (s.drive d).mounted with
  | c :: cs, some n => newMount n (c :: cs) false (if turn then some d else none) (parkAll d s)
  | _, _ => s

/-- A motion, for an order and the side that names it, or for none. -/
def motionFor (kind : MotionKind) (order served cartridge drive face : Option Nat) (started : Bool) : Motion :=
  { kind := kind, order := order, served := served, cartridge := cartridge, drive := drive, face := face, last := none
    started := started }

/-- The picker starts on a motion, with the motion that follows it (R38, R53). -/
def setMotion (m : Motion) (second : Option Motion) (s : State) : State :=
  s.modPicker fun p => { p with state := .moving, motion := some m, second := second }

/-- What a grant does to the order and to the target's record (R53). -/
def markGrant (o : Order) (d : Nat) (s : State) : State :=
  withdrawIdle d
    ((modOrder o.id (fun o => { o with inService := true, target := some d }) s).modDrive d fun x =>
      { x with lastGranted := some s.now })

/-- The grant of a mount order (R53). -/
def grantMount (o : Order) (side d : Nat) (s : State) : State :=
  let s1 := markGrant o d s
  let x := s.drive d
  let mount := motionFor .mount (some o.id) (some side) (some (slotOf side)) (some d) (some (faceOf side))
  if x.state = .empty then setMotion (mount true) none s1
  else if x.cartridge = some (slotOf side) then
    sendHome d (setMotion
      (motionFor .turn (some o.id) (some side) (some (slotOf side)) (some d) (some (faceOf side)) false) none
      (preempt d true s1))
  else
    sendHome d (setMotion (motionFor .unmount (some o.id) (some side) x.cartridge (some d) none false)
      (some (mount false)) (preempt d false s1))

/-- The work that a drive still holds when an unmount order takes its cartridge (log 14): attached contexts are parked as
at a preemption, a queued read of the recovery walk is lost to it, a queued pass ends DRIVE-LOST. -/
def clearWork (d : Nat) (s : State) : State :=
  let q := (s.drive d).queue
  let s1 := (preempt d false s).modDrive d fun x => { x with queue := x.queue.filter QueueEntry.ofLibrary }
  let s2 : State := if q.any (·.issuer == .recovery) then { s1 with recovery.markerBack := true } else s1
  if q.any (·.issuer == .filing) then filingLost s2 else s2

/-- The grant of an unmount order (R53). -/
def grantUnmount (o : Order) (d : Nat) (s : State) : State :=
  let x := s.drive d
  sendHome d (setMotion (motionFor .unmount (some o.id) x.mounted x.cartridge (some d) none false) none
    (clearWork d (markGrant o d s)))

/-- The arbiter grants an order (R53). -/
def grant (o : Order) (d : Nat) (s : State) : State :=
  match o.kind with
  | .mount n => grantMount o n d s
  | .unmount _ _ => grantUnmount o d s

/-- The arbiter makes its choice (R49). -/
def arbitrate (s : State) : State :=
  match s.arbiterChoice with
  | none => s
  | some o => match s.target o with
    | none => s
    | some d => grant o d s

/-- The picker while PARKED: an INVENTORY owed takes it before the arbiter chooses (R43, R49). -/
def pickerStep (s : State) : State :=
  let s1 : State := { s with todo.arbiter := false }
  if s.lib.picker.state ≠ .parked then s1
  else if s.lib.picker.inventoryOwed then
    (setMotion (motionFor .inventory none none none none none true) none s1).modPicker fun p => { p with inventoryOwed := false }
  else if s.todo.arbiter then arbitrate s1 else s1

end Sys2Proof.Machine
end

