-- ==== Sys2Proof/Machine/Picker.lean ====
section
/-! DEFINITION. The events of the picker line, the picker fault and the quiet hold windows (R38-R43, R54, R56, R57). -/

namespace Sys2Proof.Machine

/-! ### Quiet hold windows -/

/-- Two windows overlap or touch (R56). -/
def Window.touches (a b : Window) : Bool := a.start ≤ b.stop && b.start ≤ a.stop

/-- A window takes its place in time order. -/
def insertWindow (w : Window) : List Window → List Window
  | [] => [w]
  | v :: vs => if w.start < v.start then w :: v :: vs else v :: insertWindow w vs

/-- A new window joins the list: merged with every window it overlaps or touches, or added (R56). -/
def addWindow (w : Window) (ws : List Window) : List Window :=
  let near := ws.filter w.touches
  insertWindow
    { start := near.foldl (fun a v => min a v.start) w.start, stop := near.foldl (fun a v => max a v.stop) w.stop }
    (ws.filter fun v => !w.touches v)

/-- An INSERTED or EJECTED schedules a window with the parameters in force; a duration of 0 schedules none (R56). -/
def scheduleHold (s : State) : State :=
  let start := s.now + s.mu.params.quietDelay
  if s.mu.params.quietDuration = 0 then s
  else { s with lib.windows := addWindow { start := start, stop := start + s.mu.params.quietDuration } s.lib.windows }

/-- The time reaches the start of the first window (R57). -/
def holdBegins (s : State) : State :=
  match s.lib.windows with
  | [] => s
  | w :: _ => if s.fil.hold then s else beginHold (s.reach w.start)

/-- The time reaches the end of the window in force, which is removed (R57). -/
def holdEnds (s : State) : State :=
  match s.lib.windows with
  | [] => s
  | w :: ws => if s.fil.hold then endHold { s.reach w.stop with lib.windows := ws } else s

/-! ### What each motion expects -/

/-- The event a motion may report next (R39, R40). The HOME of start-up may report its PLACED without a recorded
cartridge. -/
def Motion.expects (m : Motion) (startup : Bool) (held : Option Nat) (e : PickerEvent) : Bool :=
  m.started && match m.kind, m.last with
    | .mount, none => e == .taken || e == .emptySlot
    | .mount, some .taken => e == .inserted
    | .mount, some .inserted => e == .done
    | .unmount, none => e == .ejected
    | .unmount, some .ejected => e == .placed
    | .unmount, some .placed => e == .done
    | .turn, none => e == .ejected
    | .turn, some .ejected => e == .inserted
    | .turn, some .inserted => e == .done
    | .inventory, none => e == .occupancy
    | .inventory, some .occupancy => e == .done
    | .home, none => (e == .placed && (startup || held.isSome)) || (e == .done && held.isNone)
    | .home, some .placed => e == .done
    | _, _ => false

/-- A cartridge comes to rest in a drive: the orders for the face that is not loaded take it as their forced drive (R51). -/
def restIn (d : Nat) (s : State) : State :=
  match (s.drive d).mounted with
  | none => s.callArbiter
  | some n =>
    ({ s with lib.orders := s.lib.orders.map fun o =>
        if o.kind = .mount (siblingOf n) then { o with forced := some d } else o } : State).callArbiter

/-- A cartridge comes to rest at home: the orders for its faces lose their forced drive (R51). The picker is MOVING, so
the arbiter makes no choice here (R49). -/
def restHome (slot : Nat) (s : State) : State :=
  { s with lib.orders := s.lib.orders.map fun o =>
      if o.kind = .mount (sideOf slot 0) ∨ o.kind = .mount (sideOf slot 1) then { o with forced := none } else o }

/-- The picker returns to PARKED (R38). -/
def park (s : State) : State :=
  (s.modPicker fun p => { p with state := .parked, motion := none, second := none }).callArbiter

/-! ### Late replies of picker work -/

/-- The CLEAR-PICKER reply: PARKED, or FAULT with the held cartridge (R42). -/
def pickerReply (s : State) : List Byte :=
  number 1 s.lib.picker.state.code ++ optionalNumber 1 s.lib.picker.held

/-- Slots found occupied. -/
def State.occupiedSlots (s : State) : Nat := (s.lib.picker.occupancy.filter (· == .occupied)).length

/-- The CLEAR-FAULT reply: picker state, finding, slots found occupied (R171). -/
def faultReply (s : State) : List Byte :=
  number 1 s.lib.picker.state.code ++ s.mu.startFinding.bytes ++ number 2 s.occupiedSlots

/-- HOME has ended: a CLEAR-PICKER is answered (R42). -/
def answerPicker (s : State) : State := answerLate (· == .clearPicker) (fun _ => 17) (fun _ => pickerReply s) s

/-- The last motion of a CLEAR-FAULT has ended: it is answered (R171). -/
def answerFault (s : State) : State := answerLate (· == .clearFault) (fun _ => 20) (fun _ => faultReply s) s

/-! ### The picker fault -/

/-- The cartridge of a mount order was not yet taken when its motion ended in a picker fault (R41): the gripper is empty, or
holds what an UNMOUNT has evicted for it. -/
def Motion.notTaken (m : Motion) (held : Bool) : Bool := !held || !(m.kind == .mount || m.kind == .turn)

/-- The order being served, at a picker fault (R41). A mount order whose cartridge is in the gripper is removed, also where
its faces were STUCK before. -/
def settleServed (m : Motion) (held : Bool) (s : State) : State :=
  match m.order with
  | none => s
  | some id => match s.orderOf id with
    | none => s
    | some o => match o.kind with
      | .mount _ =>
        if m.notTaken held then modOrder id (fun o => { o with inService := false, target := none }) s else dropOrder o s
      | .unmount _ _ =>
        if held then removeOrder id s else modOrder id (fun o => { o with inService := false, target := none }) s

/-- The drive whose unmount order was being served (R41). -/
def State.unmountServed (s : State) : Option Nat :=
  match (s.lib.picker.motion.bind (·.order)).bind s.orderOf with
  | none => none
  | some o => match o.kind with
    | .unmount d _ => some d
    | .mount _ => none

/-- Drives left UNLOADING with their cartridge get a firm unmount order, but for the drive whose own was being served (R41,
R45). -/
def sendUnloading (served : Option Nat) (s : State) : State :=
  ((List.range 4).filter fun d =>
      (s.drive d).state == .unloading && (s.drive d).cartridge.isSome && served != some d).foldl
    (fun s d => newUnmount d true s) s

/-- The contexts that wait for a mount order, or for a drive left in LOADING, at a picker fault (R41). They end in the order
of the mount queue, then of the drives (log 44). -/
def State.waitingAtFault (s : State) : List Nat :=
  (s.lib.orders.flatMap (·.waiters))
    ++ s.drives.flatMap fun x => if x.state == .loading then x.incoming else []

/-- The picker record at a fault (R41, R43). -/
def Picker.failed (p : Picker) : Picker :=
  { p with
    state := .fault, motion := none, second := none, inventoryOwed := false
    occupancy :=
      if p.motion.any fun m => m.kind == .inventory && m.last.isNone then List.replicate 64 .unknown else p.occupancy }

/-- The details of PICKER-FAULT (R41). The last event received is the last one the motion expected (log 42). -/
def Picker.details (p : Picker) : NoticeDetails :=
  match p.motion with
  | none => .pickerFault none p.held none none p.held.isSome
  | some m => .pickerFault (some m.kind) (if p.held.isSome then p.held else m.cartridge) m.drive m.last p.held.isSome

/-- The picker enters FAULT (R41, R42, R170, R171). -/
def pickerFaulted (s : State) : State :=
  let p := s.lib.picker
  let s1 := s.modPicker Picker.failed
  let s2 := match p.held with
    | none => s1
    | some c => turnStuck c s1
  let s3 := match p.motion with
    | none => s2
    | some m => settleServed m p.held.isSome s2
  let s4 := sendUnloading s.unmountServed s3
  let s5 := dropAbandoned (endContexts s4.waitingAtFault .unavailable s4)
  let s6 := (List.range 4).foldl (fun s d => if (s.drive d).state = .loading then restIn d s else s) s5
  let s7 := raise_ p.details s6
  let s8 : State := if s7.mu.service = .startup then { s7 with mu.startFinding := .picker } else s7
  answerFault (answerPicker s8)

/-! ### Events -/

/-- TAKEN-FROM-SLOT (R39). -/
def taken (m : Motion) (s : State) : State :=
  match m.cartridge with
  | none => s
  | some c => (s.modPicker fun p => { p with held := some c }).locate c .picker

/-- A slot found empty: its occupancy, and the records of its cartridge turn MISSING (R40). -/
def foundEmpty (c : Nat) (s : State) : State :=
  let s1 := s.modPicker fun p => { p with occupancy := p.occupancy.set c .empty }
  (s1.faces c).foldl (fun s n => turnMissing n s) s1

/-- EMPTY-SLOT (R40): the order being served is removed, also where no record names its side any more. -/
def slotEmpty (m : Motion) (s : State) : State :=
  let s1 := match m.cartridge with
    | none => park s
    | some c => foundEmpty c (park s)
  match m.order.bind s1.orderOf with
  | none => s1
  | some o => dropOrder o s1

/-- The order being served is handed to the drive (R54). -/
def handOrder (d : Nat) (m : Motion) (s : State) : State :=
  match m.order.bind s.orderOf with
  | none => s
  | some o =>
    (removeOrder o.id s).modDrive d fun x =>
      { x with incoming := x.incoming ++ o.waiters, incomingMarker := x.incomingMarker || o.marker }

/-- Incoming waiters that will not be served end UNAVAILABLE, and the marker is returned (R54). -/
def dismissIncoming (d : Nat) (s : State) : State :=
  let x := s.drive d
  let s1 := endContexts x.incoming .unavailable
    (s.modDrive d fun x => { x with incoming := [], incomingMarker := false })
  if x.incomingMarker then returnMarker s1 else s1

/-- INSERTED (R29, R39, R54). A drive that is no longer EMPTY keeps its state, and its waiters are dismissed (log 17); a WAITING
order for the other face stays in the queue (log 66). -/
def insertedInto (m : Motion) (s : State) : State :=
  match m.drive, m.cartridge with
  | some d, some c =>
    let s1 := (s.modPicker fun p => { p with held := none }).locate c (.drive d)
    let s2 := s1.modDrive d fun x =>
      { x with cartridge := some c, face := m.face, state := if x.state = .empty then .loading else x.state }
    let s3 := handOrder d m (scheduleHold s2)
    if (s3.drive d).state = .loading then s3 else haltIfOpenIn d (dismissIncoming d s3)
  | _, _ => s

/-- What EJECTED does to the drive (R29, R39). A drive that turns OFFLINE takes no commands and has its channel IDLE (R35). -/
def Drive.emptied (x : Drive) : Drive :=
  let x1 := { x with cartridge := none, face := none }
  if x.state = .unloading then
    if x.offlinePending then
      { x1.resetChannel with state := .offline, offlinePending := false, cause := none, queue := [], owed := none }
    else { x1 with state := .empty }
  else x1

/-- EJECTED (R29, R39). The picker is MOVING, so the drive that turns EMPTY brings no choice of the arbiter (R49). -/
def ejectedFrom (m : Motion) (s : State) : State :=
  match m.drive, m.cartridge with
  | some d, some c =>
    scheduleHold (((s.modPicker fun p => { p with held := some c }).locate c .picker).modDrive d Drive.emptied)
  | _, _ => s

/-- The unmount orders of drives that hold no cartridge leave the queue: the cartridge they asked for is home (R45). -/
def dropServedUnmounts (s : State) : State :=
  { s with lib.orders := s.lib.orders.filter fun o => (List.range 4).all fun d => !o.unmounts d || (s.drive d).cartridge.isSome }

/-- PLACED (R39, R42, R45). The PLACED of a HOME completes also the unmount order of the drive from which the motion of
another order had ejected the cartridge before the picker fault. -/
def placedHome (m : Motion) (s : State) : State :=
  match s.lib.picker.held with
  | none => s
  | some c =>
    let s1 := restHome c ((s.modPicker fun p => { p with held := none }).locate c .home)
    match m.kind, m.drive with
    | .home, _ => returnCartridge c (dropServedUnmounts s1)
    | _, some d => { s1 with lib.orders := s1.lib.orders.filter fun o => !o.unmounts d }
    | _, none => s1

/-- A drive in LOADING passes to CHECKING and its LABEL is placed; its cartridge is at rest (R29, R39). -/
def toChecking (d : Nat) (s : State) : State :=
  if (s.drive d).state = .loading then
    placeLabel d (restIn d (s.modDrive d fun x => { x with state := .checking }))
  else restIn d s

/-- The second motion of the grant, or PARKED (R39, R53). -/
def nextMotion (s : State) : State :=
  match s.lib.picker.second with
  | none => park s
  | some m => setMotion { m with started := true } none s

/-- DONE of a HOME: drives left in LOADING go on to CHECKING, the picker parks, the CLEAR-PICKER is answered (R42). -/
def homeDone (s : State) : State :=
  answerPicker (park ((List.range 4).foldl
    (fun s d => if (s.drive d).state = .loading then toChecking d s else s) s))

/-- DONE of an INVENTORY: the picker parks, a CLEAR-FAULT has reached its end (R43, R171). -/
def inventoryDone (s : State) : State :=
  let s1 := park s
  if s.mu.late.any (·.kind == .clearFault) then answerFault { s1 with mu.startFinding := .none } else s1

/-- DONE (R39). -/
def motionDone (m : Motion) (s : State) : State :=
  match m.kind with
  | .mount | .turn => match m.drive with
    | none => nextMotion s
    | some d => nextMotion (toChecking d s)
  | .unmount => nextMotion s
  | .inventory => inventoryDone s
  | .home => homeDone s

/-- OCCUPANCY (R43). -/
def takeOccupancy (findings : List SlotFinding) (_m : Motion) (s : State) : State :=
  s.modPicker fun p => { p with occupancy := findings }

/-- PICKER_FAULT (R38, R41): discarded in FAULT. -/
def pickerReportsFault (s : State) : State := if s.lib.picker.state = .fault then s else pickerFaulted s

/-- EJECT-PREP has ended OK: the first motion of the grant that waits for it starts (R53), also at the OK of one that an earlier
grant has left. The medium is then spun down, and a later EJECT-PREP leaves the drive's queue (log 53). -/
def ejectReady (d : Nat) (s : State) : State :=
  let go : Motion → Motion := fun m =>
    if m.drive = some d ∧ m.started = false then { m with started := true } else m
  (s.modPicker fun p => { p with motion := p.motion.map go }).modDrive d fun x =>
    { x with queue := x.queue.filter (·.op != .ejectPrep) }

/-- The HOME motion starts (R42, R170, R171). -/
def startHome (s : State) : State :=
  setMotion (motionFor .home none none s.lib.picker.held none none true) none s

end Sys2Proof.Machine
end

