-- ==== Sys2Proof/Machine/Service.lean ====
section
/-! DEFINITION. Changes of service state, the entry to STANDBY, the ending of work by ABORT and RESTART (R162, R169-R172,
R180-R183). -/

namespace Sys2Proof.Machine

/-- The service state changes and STATE-CHANGED is raised (R162, R169). -/
def changeService (new : Service) (cause : ChangeCause) (s : State) : State :=
  raise_ (.stateChanged s.mu.service new cause) { s with mu.service := new }

/-- A drive whose cartridge is sent home at the entry to STANDBY (R172). -/
def Drive.sendsHome (x : Drive) : Bool :=
  x.cartridge.isSome && (x.state.serving || (x.state == .fault && x.cause == some .label))

/-- An idle unmount order WAITING, also one that a picker fault has returned to WAITING (log 41). -/
def Order.idleAny (o : Order) : Bool :=
  match o.kind with
  | .unmount _ false => !o.inService
  | .unmount _ true | .mount _ => false

/-- A drive that a picker fault has left UNLOADING with its cartridge and its idle order WAITING again (R41). -/
def State.idleReturned (s : State) (d : Nat) : Bool :=
  (s.drive d).state == .unloading && (s.drive d).cartridge.isSome && s.lib.orders.any (·.idleWaiting d)

/-- The entry to STANDBY at the other blocks: the cache is emptied, idle orders are withdrawn, firm unmount orders made
(R58, R66, R172), also in place of a returned idle order (log 41). -/
def standbyEntry (s : State) : State :=
  let s1 : State := { s with
    loc.cache := []
    lib.orders := s.lib.orders.filter fun o => !o.idleAny }
  ((List.range 4).filter fun d => (s.drive d).sendsHome || s.idleReturned d).foldl (fun s d => newUnmount d true s) s1

/-- The part enters STANDBY (R172). -/
def enterStandby (cause : ChangeCause) (s : State) : State :=
  standbyEntry (changeService .standby cause { s with mu.drain := none })

/-- The idle timer of a READY drive is stopped, as that of a drive kept from it (R55, R182). -/
def Drive.stopIdle (x : Drive) : Drive :=
  if x.idle.isSome then { x with idle := none, idleHeld := true } else x

/-- The part enters QUIESCENT, in which no idle timer runs (R182), also for a drive that a DRIVE-RETRY has left READY in
STANDBY (log 59). -/
def enterQuiescent (s : State) : State :=
  changeService .quiescent .setState { s with drives := s.drives.map Drive.stopIdle }

/-- The data of a SET-STATE reply: the state entered, and the recovery finding when one is held (R162, R179, R183). -/
def stateReply (s : State) : List Byte :=
  number 1 s.mu.service.code
    ++ (if s.mu.recoveryFinding = .none then [] else s.mu.recoveryFinding.bytes)

/-- Every SET-STATE awaiting its reply is answered with the state entered (R162). -/
def answerState (s : State) : State := answerLate (· == .setState) (fun _ => 2) (fun _ => stateReply s) s

/-- A RESTART awaiting its reply is answered (R165, R168). -/
def answerRestart (s : State) : State := answerLate (· == .restart) (fun _ => 19) (fun _ => []) s

/-- The three conditions under which a drain ends (R180). -/
def State.drained (s : State) : Bool :=
  (s.contextsWhere (·.state.active)).isEmpty
    && s.fil.records.all (·.state == .free) && s.fil.activity == .idle

/-- The end of a drain (R180, R181, R183): STANDBY, and the replies that waited for it, the RESTART's last. -/
def drainEnd (s : State) : State :=
  if s.mu.service = .draining ∧ s.drained = true then
    let s1 : State := if s.stopping then { s with fil.opening := none, fil.closeOwed := none } else s
    answerRestart (answerState (enterStandby .drainEnd s1))
  else s

/-- The start-up steps have ended: the memory check has passed, the picker has parked or faulted, no probe runs (R170). -/
def State.startedUp (s : State) : Bool :=
  s.memory == .passed
    && (s.lib.picker.state == .fault || (s.lib.picker.state == .parked && !s.lib.picker.inventoryOwed))
    && s.drives.all fun x => !x.probing

/-- The end of start-up (R170). -/
def startUpEnd (s : State) : State :=
  if s.mu.service = .startup ∧ s.startedUp = true then enterStandby .startUp s else s

/-! ### Ending the work -/

/-- Every live context ends (R99), in ascending order of number (log 44). -/
def endAllContexts (o : Ending) (s : State) : State :=
  endContexts (s.contextsWhere (·.state.live)) o s

/-- A drain with ABORT: live contexts end ABANDONED, filings are discarded (R181). -/
def abortWork (s : State) : State :=
  stopFiling (endAllContexts .abandoned { s with mu.drain := some .abort })

/-- The mount queue, the incoming waiters and the motions at RESTART (R58). -/
def restartLibrary (s : State) : State :=
  { s with
    lib.orders := []
    drives := s.drives.map fun x => { x with incoming := [], incomingMarker := false }
    lib.picker.motion := s.lib.picker.motion.map fun m => { m with order := none, served := none }
    lib.picker.second := none }

/-- A walk read whose walk has stopped: its result will be discarded (R183). -/
def QueueEntry.forgotten (e : QueueEntry) : QueueEntry :=
  if e.issuer = .recovery then { e with issuer := .discarded } else e

/-- The reads of a walk that has stopped: a queued one leaves its queue, one in flight or owed again runs to its result,
which is discarded (R179, R183). -/
def Drive.forgetWalk (x : Drive) : Drive :=
  { x with
    queue := x.queue.filter (·.issuer != .recovery)
    owed := x.owed.map QueueEntry.forgotten
    current := x.current.map fun c => { c with entry := c.entry.forgotten } }

/-- The recovery stops at a RESTART taken in OPENING (R183). An INVENTORY owed to it is owed no more. -/
def stopRecovery (s : State) : State :=
  if s.mu.service = .opening then
    { s with
      recovery := Recovery.reset
      mu.recoveryFinding := .restart
      drives := s.drives.map Drive.forgetWalk
      lib.picker.inventoryOwed := s.mu.late.any (·.kind == .clearFault) }
  else s

/-- A filing sequence that R124 lets run to its end at RESTART. -/
def Activity.runsOn : Activity → Bool
  | .flush | .closing | .opening => true
  | .idle | .mounting | .attempt => false

/-- A queued command of the library unit that runs on through a RESTART: an EJECT-PREP for which the picker's motion waits
(R58), the LABEL of a drive in CHECKING (R58), the LABEL of a probe (R168). -/
def State.wantedAtRestart (s : State) (d : Nat) (e : QueueEntry) : Bool :=
  match e.issuer, e.op with
  | .probe, _ => true
  | .library, .label => (s.drive d).state == .checking
  | .library, .ejectPrep => s.lib.picker.motion.any fun m => !m.started && m.drive == some d
  | _, _ => false

/-- The queue of a drive at RESTART (R37): every command leaves it but the passes R124 lets run to their end; what runs on in
the library unit is placed anew (log 13). -/
def restartQueue (d : Nat) (s : State) : State :=
  let again := ((s.drive d).queue.filter (s.wantedAtRestart d)).map fun e => { e with age := s.now }
  s.modDrive d fun x => { x with queue := (x.queue.filter fun e => e.issuer == .filing && s.fil.activity.runsOn) ++ again }

/-- RESTART at every block (R183, R37, R58, R99, R124). -/
def restartWork (s : State) : State :=
  let s1 := stopRecovery s
  let s2 := changeService .draining .restart { s1 with mu.drain := some .restart }
  let s3 := stopFiling (restartLibrary (endAllContexts .restart s2))
  [0, 1, 2, 3].foldl (fun s d => restartQueue d s) s3

end Sys2Proof.Machine
end

