-- ==== Sys2Proof/Machine/Recovery.lean ====
section
/-! DEFINITION. OPENING: the identifications, the recovery walk and its end (R174-R179). -/

namespace Sys2Proof.Machine

/-! ### Entry and identification -/

/-- An OCCUPIED-UNKNOWN drive is taken to CHECKING and its LABEL is placed (R174). -/
def identify (d : Nat) (s : State) : State :=
  if (s.drive d).state = .occupiedUnknown then
    placeLabel d (s.modDrive d fun x => { x with state := .checking })
  else s

/-- The entry to OPENING (R174): the pending buffer is emptied, the finding cleared, label reads and the inventory begun. -/
def enterOpening (s : State) : State :=
  let opened : Option Nat := (List.range 128).find? fun n => (s.side n).any (·.state == .opened)
  let s1 := changeService .opening .setState { s with
    loc.entries := []
    mu.recoveryFinding := .none
    recovery := { Recovery.reset with phase := .identifying, openAtEntry := opened } }
  let s2 := s1.modPicker fun p => { p with inventoryOwed := p.inventoryOwed || p.state != .fault }
  [0, 1, 2, 3].foldl (fun s d => identify d s) s2

/-- Both identifications have ended (R174). -/
def State.identified (s : State) : Bool :=
  s.drives.all (fun x => !(x.state == .checking && x.cartridge.isNone))
    && !s.lib.picker.inventoryOwed && !(s.lib.picker.motion.any (·.kind == .inventory))

/-- A slot reads occupied, or empty, in the occupancy held. -/
def State.slotReads (s : State) (slot : Nat) (f : SlotFinding) : Bool := s.lib.picker.occupancy.getD slot .unknown == f

/-- The drive whose cartridge is in conflict names none any more, and its channel is reset: no command stays on it (log 52). -/
def Drive.disowned (x : Drive) : Drive :=
  { x.resetChannel with cartridge := none, face := none, queue := [], owed := none }

/-- The drive that still holds a cartridge in conflict goes to FAULT with cause LABEL and no cartridge (R174). A motion that
waits to take the cartridge is given up with its EJECT-PREP; one that has started goes on; a drive in FAULT stays as it is
(log 52). -/
def conflictDrive (d c : Nat) (s : State) : State :=
  let x := s.drive d
  if x.cartridge = some c ∧ x.state ≠ .fault then
    labelFault d x.mounted (withdrawIdle d ((abandonMotion d s).modDrive d Drive.disowned))
  else s

/-- A cartridge matched in a drive whose home slot reads occupied: its records turn MISMATCH, and the drive no longer names
it (R14, R174). -/
def slotConflict (d c : Nat) (s : State) : State :=
  if s.slotReads c .occupied then
    let s1 := conflictDrive d c s
    ((s1.faces c).filter fun n => !(s1.side n).any (·.state == .stuck)).foldl (fun s n => turnMismatch n s) s1
  else s

/-- Records at home whose slot reads empty turn MISSING (R43, R174). -/
def findMissing (s : State) : State :=
  ((List.range 128).filter fun n =>
      (s.side n).any fun r => r.location == .home && s.slotReads (slotOf n) .empty).foldl
    (fun s n => turnMissing n s) s

/-- The sides to be walked: the OPEN side first, then the index-incomplete sides in ascending order (R175). -/
def State.sidesToWalk (s : State) : List Nat :=
  s.recovery.openAtEntry.toList
    ++ (List.range 128).filter fun n =>
      (s.side n).any (·.incomplete) && s.recovery.openAtEntry != some n

/-- The findings are applied together and the walk begins (R174, R175). -/
def applyFindings (s : State) : State :=
  let s1 := findMissing (s.recovery.matched.foldl (fun s m => slotConflict m.1 m.2 s) s)
  { s1 with recovery.phase := .walking, recovery.left := s1.sidesToWalk }

/-! ### The end of the recovery -/

/-- RECOVERY-DONE (R179). -/
def recoveryNotice (f : RecoveryFinding) (s : State) : State :=
  raise_ (.recoveryDone s.recovery.walked s.recovery.added s.fil.nNext f) s

/-- The recovery ends with no finding (R179). -/
def recoveryDone (s : State) : State :=
  let s1 : State := match s.recovery.openAtEntry.bind s.rangeOf with
    | none => s
    | some r => { s with fil.nNext := some (r.last + 1) }
  let s2 := recoveryNotice .none (retestHalt s1)
  answerState (changeService .serving .openingEnd { s2 with recovery := Recovery.reset })

/-- The recovery ends with a finding (R179). Its marker is withdrawn, a close it still owes is dropped (log 21), and a read
still out is discarded when it ends (R175). -/
def recoveryFound (f : RecoveryFinding) (s : State) : State :=
  let s1 := recoveryNotice f { s with mu.recoveryFinding := f }
  let s2 := withdrawMarker { s1 with
    recovery := Recovery.reset, fil.closeOwed := none, drives := s1.drives.map Drive.forgetWalk }
  answerState (enterStandby .openingEnd s2)

/-! ### The walk of one side -/

/-- Changes the walk in progress. -/
def modWalk (f : Walk → Walk) (s : State) : State := { s with recovery.walk := s.recovery.walk.map f }

/-- A read of the walk at a sector of its side (R175). A drive that cannot take it loses it (R31). -/
def walkRead (n first : Nat) (s : State) : State :=
  match s.mountedReady n with
  | none => { s with recovery.markerBack := true }
  | some d => pushCommand d (newEntry s .recovery .read first 1 0 []) s

/-- The first instrument of the range of a side. -/
def State.rangeFirst (s : State) (n : Nat) : Nat := ((s.rangeOf n).map (·.first)).getD 0

/-- The last instrument of the range of a side. -/
def State.rangeLast (s : State) (n : Nat) : Nat := ((s.rangeOf n).map (·.last)).getD 0

/-- The position of index sector W is read (R176). -/
def readIndexPosition (n : Nat) (s : State) : State :=
  match s.side n with
  | none => s
  | some r => walkRead n r.indexLow (modWalk (fun w => { w with phase := .catchUp }) s)

/-- The range's last rises to a value above it (R176, R178). -/
def raiseLast (n last : Nat) (s : State) : State := s.modRange n fun r => { r with last := max r.last last }

/-- A side has been walked (R175). -/
def sideWalked (s : State) : State := { s with recovery.walk := none, recovery.walked := s.recovery.walked + 1 }

/-- What follows every ending of a directory walk (R178): the range's last of the side that was OPEN, and for an end BLANK
or GUARD the test for RANGE-AHEAD. -/
def walkEnded (n k : Nat) (complete : Bool) (s : State) : State :=
  let reached := s.rangeFirst n + k
  let s1 := if s.recovery.openAtEntry = some n then raiseLast n (reached - 1) s else s
  if complete = true ∧ reached < s1.rangeLast n + 1 then
    recoveryFound (.rangeAhead n) { s1 with recovery.walked := s1.recovery.walked + 1 }
  else sideWalked s1

/-- An end BLANK or GUARD at position `p` (R178). -/
def endComplete (n p k : Nat) (s : State) : State :=
  walkEnded n k true (s.modSide n fun r => { r with dataHigh := max p r.dataHigh })

/-- The data high mark after an end UNREADABLE or OUT-OF-SEQUENCE (R178). -/
def SideRecord.takeNoMore (r : SideRecord) : SideRecord := { r with dataHigh := max (r.indexLow - 16) r.dataHigh }

/-- An end UNREADABLE or OUT-OF-SEQUENCE (R178): a close to SUSPECT for the OPEN side. -/
def endBroken (n k : Nat) (s : State) : State :=
  if s.openSide = some n then
    (modWalk (fun w => { w with phase := .closing, k := k })
      { s with fil.closeOwed := some .suspect }).callReadiness
  else walkEnded n k false (s.modSide n SideRecord.takeNoMore)

/-- The position `p` with the number `k`: the tests before each read, and the read of a directory (R177). -/
def walkPosition (n p k : Nat) (s : State) : State :=
  match s.side n with
  | none => s
  | some r =>
    if r.indexLow < p + 19 then endComplete n p k s
    else if s.openSide ≠ some n ∧ s.rangeLast n < s.rangeFirst n + k then walkEnded n k false s
    else walkRead n p (modWalk (fun w => { w with phase := .directory, p := p, k := k }) s)

/-- The directory walk starts (R177): at sector 1, or behind the extent of the last written index entry. -/
def startDirectories (n : Nat) (s : State) : State :=
  match s.side n with
  | none => s
  | some r =>
    if r.written = 0 then walkPosition n 1 0 s
    else walkRead n (r.indexPosition (r.written - 1)) (modWalk (fun w => { w with phase := .startEntry }) s)

/-- An index sector is taken as written (R176): W rises and the cache is filled. -/
def takeIndex (n : Nat) (entries : List IndexEntry) (s : State) : State :=
  match s.side n with
  | none => s
  | some r => fillCache n r.written entries (s.modSide n fun r => { r with written := r.written + 1 })

/-- The catch-up has ended on a partial sector with `u` used slots: the side is closed without a directory walk
(R176). -/
def endPartial (n u : Nat) (s : State) : State :=
  if s.openSide = some n then
    let w := ((s.side n).map (·.written)).getD 0
    sideWalked (finishClose n .filled (raiseLast n (s.rangeFirst n + 64 * (w - 1) + u - 1) s))
  else sideWalked s

/-- Any other finding of the catch-up: the position is taken for a failed write (R176). -/
def indexUnusable (n : Nat) (s : State) : State :=
  let s1 := s.modSide n SideRecord.skip
  if (s.side n).any (·.skips.length < Config.skipLimit) then readIndexPosition n s1 else startDirectories n s1

/-- A sector read by the catch-up is a written index sector of this W: the number of used slots (R176). -/
def State.indexFinding (s : State) (n : Nat) (entries : List IndexEntry) : Option Nat :=
  match usedRun entries, s.side n with
  | some (u + 1), some r =>
    if (entries.getD 0 emptySlot).instrument = s.rangeFirst n + 64 * r.written then some (u + 1) else none
  | _, _ => none

/-- The result of a read of the catch-up (R176). -/
def catchUpResult (n : Nat) (res : DriveResult) (got : List Sector) (s : State) : State :=
  match res with
  | .blank _ => startDirectories n s
  | .ok =>
    let entries := readIndex (got.headD [])
    match s.indexFinding n entries with
    | none => indexUnusable n s
    | some u =>
      let s1 := takeIndex n entries s
      if u = 64 then readIndexPosition n s1 else endPartial n u s1
  | _ => indexUnusable n s

/-- The result of the read of the last written index entry (R177). -/
def startEntryResult (n : Nat) (res : DriveResult) (got : List Sector) (s : State) : State :=
  match s.side n with
  | none => s
  | some r =>
    let k := 64 * r.written
    let e := (readIndex (got.headD [])).getD 63 emptySlot
    if res = .ok ∧ entryPasses e (s.rangeFirst n + k - 1) r.dataHigh = true then
      walkPosition n (e.address + e.body + 1) k s
    else endBroken n k s

/-- A directory read by the walk that can be used (R177). -/
def readableDirectory (r : SideRecord) (p : Nat) (got : List Sector) : Option DirectoryRead :=
  match readDirectory (got.headD []) with
  | none => none
  | some d => if d.serial = r.serial ∧ 2 ≤ d.body ∧ d.body ≤ 23041 ∧ p + d.body < r.indexLow then some d else none

/-- The result of a directory read (R177). -/
def directoryResult (w : Walk) (res : DriveResult) (got : List Sector) (s : State) : State :=
  match s.side w.side, res with
  | none, _ => s
  | some _, .blank _ => endComplete w.side w.p w.k s
  | some r, .ok =>
    match readableDirectory r w.p got with
    | none => endBroken w.side w.k s
    | some d =>
      walkRead w.side (w.p + d.body) (modWalk (fun w => { w with phase := .trailer d.body d.pages }) s)
  | some _, _ => endBroken w.side w.k s

/-- A committed extent found by the walk gets its pending entry, or overflows the buffer (R175, R177). -/
def addFound (w : Walk) (instrument body pages : Nat) (s : State) : State :=
  if Config.pendingLimit ≤ s.loc.entries.length then recoveryFound (.pendingOverflow w.side) s
  else
    let p : PendingEntry := { side := w.side, k := w.k, entry := makeEntry instrument w.p body pages }
    walkPosition w.side (w.p + body + 1) (w.k + 1)
      { s with loc.entries := insertPending p s.loc.entries, recovery.added := s.recovery.added + 1 }

/-- A spoiled extent is stepped over, and counted when it starts at or above the mark held when the walk began (R177). -/
def stepOver (w : Walk) (body : Nat) (s : State) : State :=
  let s1 := if w.mark0 ≤ w.p then s.modSide w.side fun r => { r with spoiled := r.spoiled + body + 1 } else s
  walkPosition w.side (w.p + body + 1) w.k s1

/-- The result of a trailer read (R177). -/
def trailerResult (w : Walk) (body pages : Nat) (res : DriveResult) (got : List Sector) (s : State) : State :=
  match (if res = .ok then goodTrailer (got.headD []) w.p body else none) with
  | some i => if i = s.rangeFirst w.side + w.k then addFound w i body pages s else endBroken w.side w.k s
  | none => stepOver w body s

/-- The result of a read of the walk (R175-R177). A read that no walk waits for is discarded (R183). -/
def walkResult (res : DriveResult) (got : List Sector) (s : State) : State :=
  if s.mu.service ≠ .opening then s
  else match s.recovery.walk with
  | none => s
  | some w =>
    match w.phase with
    | .mounting | .closing => s
    | .catchUp => catchUpResult w.side res got s
    | .startEntry => startEntryResult w.side res got s
    | .directory => directoryResult w res got s
    | .trailer body pages => trailerResult w body pages res got s

/-! ### Steps of the recovery -/

/-- The side under walk cannot be walked (R175). -/
def State.walkUnreachable (s : State) (n : Nat) : Bool :=
  s.sideUnusable n || s.recovery.markerBack
    || (s.lib.picker.state == .fault
      && !((List.range 4).any fun d =>
        (s.drive d).mounted == some n && ((s.drive d).state.serving || (s.drive d).state == .checking)))
    || ((s.driveMounting n).isNone && s.drives.all fun x => x.state == .fault || x.state == .offline)

/-- The walk of the next side begins (R175). -/
def beginWalk (n : Nat) (rest : List Nat) (s : State) : State :=
  let mark := ((s.side n).map (·.dataHigh)).getD 0
  withMount n .walk id { s with
    recovery.left := rest
    recovery.walk := some { side := n, phase := .mounting, p := 0, k := 0, mark0 := mark } }

/-- The close owed by a walk has been made (R178). -/
def closeWalked (w : Walk) (s : State) : State :=
  walkEnded w.side w.k false (s.modSide w.side SideRecord.takeNoMore)

/-- A step of the walk in progress that no read's result brings (R175, R178). -/
def walkStep (w : Walk) (s : State) : State :=
  if s.walkUnreachable w.side then recoveryFound (.unreachable w.side) s
  else match w.phase with
  | .mounting => if (s.mountedReady w.side).isSome ∧ s.fil.mountFor ≠ some .walk then readIndexPosition w.side s else s
  | .closing => if s.fil.closeOwed = none ∧ s.fil.activity = .idle then closeWalked w s else s
  | .catchUp | .startEntry | .directory | .trailer _ _ => s

/-- A step of the recovery (R174-R179). -/
def recoveryStep (s : State) : State :=
  if s.mu.service ≠ .opening then s
  else match s.recovery.phase, s.recovery.walk, s.recovery.left with
  | .none, _, _ => s
  | .identifying, _, _ => if s.identified then applyFindings s else s
  | .walking, some w, _ => walkStep w s
  | .walking, none, [] => recoveryDone s
  | .walking, none, n :: rest => beginWalk n rest s

end Sys2Proof.Machine
end

