-- ==== Sys2Proof/Machine/Results.lean ====
section
/-! DEFINITION. Results of drive commands at their issuers: labels, probes, EJECT-PREP, and the delivery to the blocks
(R2, R25, R29, R36, R37, R54, R174). -/

namespace Sys2Proof.Machine

/-! ### Labels -/

/-- A drive enters READY (R30): the last ready time is set; the idle timer starts unless the drive is kept from it; the
arbiter is called (R49). -/
def enterReady (d : Nat) (s : State) : State :=
  let s1 := s.modDrive d fun x => { x with state := .ready, lastReady := s.now }
  let kept := s1.keptFromIdle d
  (s1.modDrive d fun x =>
    { x with
      idle := if kept then none else some { start := s.now, limit := s.mu.params.idleUnmount }
      idleHeld := kept }).callArbiter

/-- The label comparison of R2. A STUCK side is compared by the state it returns to (R15, R36). -/
def SideRecord.labelMatches (r : SideRecord) (face : Nat) (res : DriveResult) (got : List Sector) : Bool :=
  if r.prior.getD r.state = .blank then
    match res with
    | .blank _ => true
    | _ => false
  else res == .ok && readLabel (got.headD []) == some (r.serial, face)

/-- The comparison for the mounted side of a drive; a face without a record is taken to match (R36, log 30). -/
def State.labelGood (s : State) (side : Nat) (res : DriveResult) (got : List Sector) : Bool :=
  match s.side side with
  | none => true
  | some r => r.labelMatches (faceOf side) res got

/-- The label at mount matches (R29, R54): READY, or ACTIVE when waiters are present, which attach in order; the filing
engine is told. -/
def labelMatched (d : Nat) (s : State) : State :=
  let x := s.drive d
  let clear := s.modDrive d fun x => { x with incoming := [], incomingMarker := false }
  let s1 := if x.incoming.isEmpty ∧ x.incomingMarker = false then enterReady d clear
    else clear.modDrive d fun x => { x with state := .active }
  let s2 := x.incoming.foldl (fun s c => attachContext d c s) s1
  if x.incomingMarker then engineMounted s2 else s2

/-- The label at mount does not match (R29, R54): FAULT with cause LABEL, the side read turns MISMATCH, the waiters end. -/
def labelMismatched (d n : Nat) (s : State) : State :=
  dismissIncoming d (turnMismatch n (labelFault d (some n) s))

/-- The record a label read at OPENING matches in drive `d`: its location is not another drive (R174). Of several
records of that serial and face, which R18 does not refuse, it is the lowest-numbered one (log 62). -/
def State.matchRecord (s : State) (d : Nat) (res : DriveResult) (got : List Sector) : Option Nat :=
  match res, readLabel (got.headD []) with
  | .ok, some (serial, face) =>
    (List.range 128).find? fun n => (s.side n).any fun r =>
      r.serial == serial && faceOf n == face && (r.location == .drive d || r.location == .home || r.location == .picker)
  | _, _ => none

/-- The label read of an OCCUPIED-UNKNOWN drive has ended (R174), also when a RESTART has been taken while it was in flight
(log 13). -/
def identifyEnd (d : Nat) (res : DriveResult) (got : List Sector) (s : State) : State :=
  if res = .noCartridge then (s.modDrive d fun x => { x with state := .empty }).callArbiter
  else match s.matchRecord d res got with
  | none => labelFault d none s
  | some n =>
    let s1 := (s.modDrive d fun x => { x with cartridge := some (slotOf n), face := some (faceOf n) }).locate
      (slotOf n) (.drive d)
    enterReady d { s1 with recovery.matched := s1.recovery.matched ++ [(d, slotOf n)] }

/-- A LABEL of the library unit has ended on a drive in CHECKING. -/
def labelEnd (d : Nat) (res : DriveResult) (got : List Sector) (s : State) : State :=
  if (s.drive d).state ≠ .checking then s
  else match (s.drive d).mounted with
  | none => identifyEnd d res got s
  | some n => if s.labelGood n res got then labelMatched d s else labelMismatched d n s

/-! ### Probes -/

/-- The probe of a drive whose record names a cartridge has read a label that matches (R36). -/
def probeMatched (d c : Nat) (s : State) : State :=
  answerRetry d 3 (returnCartridge c (enterReady d (s.modDrive d fun x => { x with cause := none })))

/-- The probe has read a label that does not match (R36): the face read turns MISMATCH, the sibling returns. -/
def probeMismatched (d c n : Nat) (s : State) : State :=
  answerRetry d 4 (labelFault d (some n) (returnCartridge c (turnMismatch n s)))

/-- A drive takes a state that has no cause. -/
def settleDrive (d : Nat) (st : DriveState) (s : State) : State :=
  s.modDrive d fun x => { x with state := st, cause := none }

/-- A probe has ended (R36, R37). A drive that turns EMPTY calls the arbiter, one that turns OCCUPIED-UNKNOWN does not (R49).
Without an identified cartridge every result but NO-CARTRIDGE, a MEDIA-ERROR as well, finds the drive OCCUPIED-UNKNOWN
(log 63). The finding codes of the reply are the places of the table of R36 (log 9). -/
def probeEnd (d : Nat) (res : DriveResult) (got : List Sector) (s : State) : State :=
  match (s.drive d).cartridge, (s.drive d).mounted with
  | some c, some n =>
    if res = .noCartridge then answerRetry d 1 (driveFault d .drive s)
    else if s.labelGood n res got then probeMatched d c s
    else probeMismatched d c n s
  | _, _ =>
    if res = .noCartridge then answerRetry d 1 (settleDrive d .empty s).callArbiter
    else answerRetry d 2 (settleDrive d .occupiedUnknown s)

/-! ### Delivery -/

/-- A result of a LABEL or EJECT-PREP of the library unit. -/
def libraryResult (d : Nat) (op : DriveOp) (res : DriveResult) (got : List Sector) (s : State) : State :=
  match op with
  | .ejectPrep => if res = .ok then ejectReady d s else driveFault d .drive s
  | _ => labelEnd d res got s

/-- The result goes to the issuer of the command (R25). -/
def deliver (d : Nat) (e : QueueEntry) (res : DriveResult) (got : List Sector) (s : State) : State :=
  match e.issuer with
  | .page c => pageResult c res s
  | .locate c => locateResult c res got s
  | .recovery => walkResult res got s
  | .discarded => s
  | .filing => passResult res s
  | .library => libraryResult d e.op res got s
  | .probe => probeEnd d res got s

/-- NO-CARTRIDGE is a finding: on a probe, and at a label read of a drive whose record names no cartridge (R27). -/
def emptyFinding (x : Drive) (e : QueueEntry) : Bool :=
  e.issuer == .probe || (e.op == .label && x.cartridge.isNone)

/-- A result has been transferred: the command ends, and the dispatcher or the issuer acts on it (R25, R26, R27). -/
def resultTaken (d : Nat) (res : DriveResult) (s : State) : State :=
  match (s.drive d).current with
  | none => s
  | some c =>
    match handleResult c.entry (emptyFinding (s.drive d) c.entry) res with
    | .again e => s.modDrive d fun x => { x.ended with owed := some e }
    | .fault => driveFault d .drive s
    | .deliver => deliver d c.entry res c.got (s.modDrive d Drive.ended)

end Sys2Proof.Machine
end

