-- ==== Sys2Proof/Machine/Settle.lean ====
section
/-! DEFINITION. What one event brings about in the other blocks before it is over: the readiness test, the recovery, the
reads of contexts, endings, drive states, the picker, the dispatcher, the outbound arbiter
(95_what_each_step_holds.md; log 6). -/

namespace Sys2Proof.Machine

/-- A parked context that needs nothing more from its side withdraws from its order (R95). -/
def withdrawParked (c : Nat) (s : State) : State :=
  let x := s.context c
  if x.parked = true ∧ x.state = .streaming ∧ x.nextRead = none ∧ x.read = .none then leaveOrders c s else s

/-- One context's reads and its release (R84, R95, R98). -/
def serveContext (c : Nat) (s : State) : State :=
  if (s.context c).state = .free then s else freeContext c (placePageRead c (withdrawParked c s))

/-- A drive passes between READY and ACTIVE, and its idle timer starts and stops (R29, R30, R47). -/
def driveWork (d : Nat) (s : State) : State :=
  let x := s.drive d
  match x.state, x.hasWork with
  | .ready, true =>
    withdrawIdle d (s.modDrive d fun x => { x with state := .active, idle := none, idleHeld := false })
  | .active, false => enterReady d s
  | .ready, false =>
    if x.idleHeld = true ∧ s.keptFromIdle d = false then
      s.modDrive d fun x =>
        { x with idleHeld := false, idle := some { start := s.now, limit := s.mu.params.idleUnmount } }
    else s
  | _, _ => s

/-- One round of consequences. -/
def consequences (s : State) : State :=
  let s1 := recoveryStep (runReadiness s)
  let s2 := (List.range 16).foldl (fun s c => serveContext c s) s1
  let s3 := drainEnd (startUpEnd s2)
  let s4 := [0, 1, 2, 3].foldl (fun s d => driveWork d s) s3
  transmit (dispatchAll (pickerStep s4))

/-- The consequences of an event, in as many rounds as the longest chain the reference gives takes (log 6). -/
def settle (s : State) : State :=
  consequences (consequences (consequences (consequences (consequences (consequences s)))))

/-- An event of the picker line (R38, R39): discarded in FAULT, a FAULT while PARKED or when not expected, otherwise
recorded by the motion and applied to it. -/
def pickerEvent (e : PickerEvent) (act : Motion → State → State) (s : State) : State :=
  let p := s.lib.picker
  match p.state with
  | .fault => s
  | .parked => settle (pickerFaulted s)
  | .moving => match p.motion with
    | none => settle (pickerFaulted s)
    | some m =>
      if m.expects (s.mu.service == .startup) p.held e then
        act m (s.modPicker fun p => { p with motion := some { m with last := some e } })
      else settle (pickerFaulted s)

/-- INSERTED with what follows it: a drive in LOADING brings nothing about in other blocks; dismissed waiters do. -/
def insertedThen (m : Motion) (s : State) : State :=
  if m.drive.all fun d => ((insertedInto m s).drive d).state == .loading then insertedInto m s
  else settle (insertedInto m s)

/-- PLACED with what follows it: the return of a cartridge by HOME lets other blocks go on. -/
def placedThen (m : Motion) (s : State) : State :=
  if m.kind = .home then settle (placedHome m s) else placedHome m s

/-- The outbound arbiter's hand-over frees frames or a context, or ends a drain, so other blocks go on (R84, R98). -/
def State.handsWork (s : State) : Bool :=
  match s.choice with
  | some (.run _) => true
  | some (.control f) =>
    match f.frame.body with
    | .done .. => true
    | _ => false
  | some (.notice _) | none => false

/-- A frame has been composed: the outbound arbiter chooses (R157), and what its hand-over brings about follows. -/
def publish (s : State) : State := if s.handsWork then settle s else transmit s

end Sys2Proof.Machine
end

