-- ==== Sys2Proof/Machine/Requests.lean ====
section
/-! DEFINITION. Handing a request on to its block, and the requests of the context unit (R78-R80, R89-R93, R153, R154). -/

namespace Sys2Proof.Machine

/-! ### Hand-on -/

/-- The block of a request takes it when the request link interface hands it on (R154): at once when the inbound buffer is
empty, or when it is the oldest frame there, and fewer than 64 reservations are held. Otherwise the frame joins the
buffer, or stays in it, or is held off when 16 frames wait (log 2). The state of the link is not asked: the frame of a row
that is taken, or joins, while it is DOWN is one that R155 has not received (log 2). -/
def handOn (i : Instr) (act : State → State) (s : State) : State :=
  match s.rli.inbound with
  | [] =>
    if s.reservations < Config.controlLimit then act s else { s with rli.inbound := [.known i] }
  | q :: qs =>
    if q = .known i then
      if s.reservations < Config.controlLimit then act { s with rli.inbound := qs } else s
    else if s.rli.inbound.length < Config.inboundLimit then { s with rli.inbound := s.rli.inbound ++ [.known i] }
    else s

/-! ### FETCH -/

/-- The values of a FETCH body (R78). -/
def fetchValid (b : FetchBody) : Bool :=
  b.kind ≤ 1 && b.rangeCount ≤ 4 && (1 ≤ b.instrument && b.instrument ≤ Config.topInstrument)
    && (1 ≤ b.account && b.account ≤ 999999)
    && (b.places.take b.rangeCount).all fun p => (1 ≤ p.1 && p.1 ≤ 240) && p.1 ≤ p.2

/-- COPY or VIEW (11.2). -/
def fetchKind (b : FetchBody) : Delivery := if b.kind = 0 then .copy else .view

/-- The requester's right for a kind (R79 check 2). -/
def Requester.grants (x : Requester) (k : Delivery) : Bool :=
  match k with
  | .copy => x.rights.copy
  | .view => x.rights.view

/-- Checks 1 to 5 of R79, behind the values of R78. -/
def State.fetchBarred (s : State) (r t : Nat) (b : FetchBody) : Option Reason :=
  if !fetchValid b then some .badValue
  else if s.mu.service ≠ .serving then some .notServing
  else if !((s.requester r).any (·.grants (fetchKind b))) then some .noRight
  else if !(s.contextsWhere fun c => c.state.active && c.requester == r && c.tag == t).isEmpty then
    some .duplicateTag
  else if ((s.requester r).map (·.contextLimit)).getD 0 ≤ s.activeOf r then some .requesterLimit
  else if (s.contextsWhere (·.state == .free)).isEmpty then some .busy
  else none

/-- Checks 6 to 9 of R79. -/
def State.fetchRefusal (s : State) (r t : Nat) (b : FetchBody) : Option Reason :=
  match s.fetchBarred r t b with
  | some reason => some reason
  | none => match s.account b.account with
    | none => some .noAccount
    | some a =>
      if fetchKind b = .copy ∧ a.state = .stopped then some .accountStopped
      else match s.lookup b.instrument with
      | none => some .notFound
      | some (side, _) => if s.answerNeed side true = .unavailable then some .unavailable else none

/-- The fields of a context at acceptance (R80). -/
def State.newContext (s : State) (r t : Nat) (b : FetchBody) (side k : Nat) : Context :=
  { Context.reset with
    state := .mountWait, requester := r, tag := t, kind := fetchKind b, certified := b.certified
    account := b.account, feeClass := ((s.account b.account).map (·.cls)).getD 0
    generation := if fetchKind b = .copy then s.activeSlot.map (·.generation) else none
    priority := min b.priority (((s.requester r).map (·.maxPriority)).getD 0)
    instrument := b.instrument, side := side, k := k, selection := b.places.take b.rangeCount }

/-- The context's part, the schedule's, the account's and the link's at acceptance (R80, R92). -/
def takeContext (c : Nat) (x : Context) (s : State) : State :=
  let s1 := s.modContext c fun _ =>
    if s.rli.link = .down then x.hold s.now s.mu.params.holdLimit true else x
  let s2 := match x.generation with
    | none => s1
    | some g => takeReference g s1
  s2.modAccount x.account fun a => { a with inFlight := a.inFlight + 1 }

/-- The library unit's answer is applied to the context (R46, R80). -/
def applyAnswer (c side : Nat) (s : State) : State :=
  match s.answerNeed side true with
  | .unavailable => s
  | .mounted d => attachContext d c (withdrawIdle d s)
  | .incoming d => s.modDrive d fun x => { x with incoming := x.incoming ++ [c] }
  | .order id => reprioritise (modOrder id (fun o => { o with waiters := o.waiters ++ [c] }) s)
  | .fresh => newMount side [c] false (s.forcedFor side) s

/-- The lowest-numbered FREE context (R80). -/
def State.freeContextNumber (s : State) : Nat := ((s.contextsWhere (·.state == .free)).head?).getD 0

/-- An accepted FETCH (R80). -/
def acceptFetch (r t : Nat) (b : FetchBody) (s : State) : State :=
  match s.lookup b.instrument with
  | none => s
  | some (side, k) =>
    let c := s.freeContextNumber
    settle (applyAnswer c side (takeContext c (s.newContext r t b side k) s))

/-- FETCH at the context unit (R79, R80). -/
def fetchTaken (r t : Nat) (b : FetchBody) (s : State) : State :=
  match s.fetchRefusal r t b with
  | some reason => publish (refuse r t reason 1 s)
  | none => acceptFetch r t b s

/-! ### HOLD, RESUME, CANCEL -/

/-- HOLD at the context unit (R89, R91). -/
def holdTaken (r t : Nat) (s : State) : State :=
  match s.liveContext r t with
  | none => publish (refuse r t .noContext 2 s)
  | some c => s.modContext c fun x => x.hold s.now s.mu.params.holdLimit false

/-- RESUME at the context unit (R90). -/
def resumeTaken (r t : Nat) (s : State) : State :=
  match s.liveContext r t with
  | none => publish (refuse r t .noContext 3 s)
  | some c => settle (s.modContext c (Context.unhold false))

/-- CANCEL at the context unit (R93). -/
def cancelTaken (r t : Nat) (s : State) : State :=
  match s.liveContext r t with
  | none => publish (refuse r t .noContext 4 s)
  | some c => settle (endContext c .cancelled s)

/-- The hold timer of a context expires (R91). -/
def holdExpired (c : Nat) (s : State) : State :=
  match (s.context c).timer with
  | none => s
  | some t => if (s.context c).state.live then settle (endContext c .abandoned (s.reach (t.start + t.limit))) else s

/-! ### The line -/

/-- The cause LINK is set or removed on every live context (R92). -/
def linkHolds (f : Context → Context) (s : State) : State :=
  { s with ctx := s.ctx.map fun x => if x.state.live then f x else x }

/-- The line goes down (R92, R155). -/
def lineDown (s : State) : State :=
  if s.rli.link = .down then s
  else linkHolds (Context.hold s.now s.mu.params.holdLimit true)
    { s with rli.link := .down, rli.downs := min (s.rli.downs + 1) Config.countCeiling }

/-- The line comes up (R92, R155): the transmitter's frame is sent again before any choice. -/
def lineUp (s : State) : State :=
  if s.rli.link = .up then s else settle (linkHolds (Context.unhold true) { s with rli.link := .up })

/-- The transmitter finishes sending (R156, R157). With the link DOWN it keeps its frame (R155). -/
def frameFinished (s : State) : State :=
  if s.rli.link = .down ∨ s.rli.transmitter.isNone then s
  else settle { s with rli.transmitter := none }

/-- The checks of R152 on a frame whose last byte has arrived: discarded and counted, or admitted to the inbound buffer
(R154). No frame arrives while the link is DOWN, nor while 16 frames wait (logs 8, 27). -/
def admitFrame (bytes : List Byte) (s : State) : State :=
  if s.rli.link = .down ∨ Config.inboundLimit ≤ s.rli.inbound.length then s
  else match readFrame bytes with
  | none => { s with rli.errors := min (s.rli.errors + 1) Config.countCeiling }
  | some q => { s with rli.inbound := s.rli.inbound ++ [q] }

end Sys2Proof.Machine
end

