-- ==== Sys2Proof/Machine/Queries.lean ====
section
/-! DEFINITION. The data of the query replies and of the replies that carry a record (R11, R20, R44, R57, R73, R75, R123,
R137, R150, R167, R184; the layouts are DESIGN CHOICE, log 9). -/

namespace Sys2Proof.Machine

/-- A list of variable length: a one-byte count and its items (R184). -/
def counted {α : Type} (f : α → List Byte) (xs : List α) : List Byte := number 1 xs.length ++ xs.flatMap f

/-- The time left on a timer, 0 on one that does not run (R123). -/
def timerBytes (now : Nat) (t : Option Timer) : List Byte := optionalNumber 4 (t.map fun t => t.start + t.limit - now)

/-! ### Sides -/

/-- A location: home 0, picker 1, drive 2 with its number (R11). -/
def Location.bytes : Location → List Byte
  | .home => number 1 0 ++ number 1 0
  | .picker => number 1 1 ++ number 1 0
  | .drive d => number 1 2 ++ number 1 d

/-- The stored fields of a side record (R11). -/
def SideRecord.bytes (r : SideRecord) : List Byte :=
  number 4 r.serial ++ number 1 r.state.code ++ optionalNumber 1 (r.prior.map (·.code)) ++ r.location.bytes
    ++ number 4 r.dataHigh ++ number 2 r.written ++ counted (number 2) r.skips ++ number 4 r.spoiled
    ++ flagByte r.incomplete

/-- The range entry naming a side, or none (R73). -/
def rangeBytes (o : Option RangeEntry) : List Byte :=
  optionalNumber 4 (o.map (·.first)) ++ optionalNumber 4 (o.map (·.last)) ++ optionalSide (o.map (·.side))
    ++ flagByte (o.any (·.openFlag))

/-- The QUERY-SIDE reply (R11, R73, R167). An empty position has no record fields; a range entry and pending entries may name
it all the same (R60, R18). -/
def sideReply (n : Nat) (s : State) : List Byte :=
  let entries := s.pendingOf n
  number 1 n ++ flagByte (s.side n).isSome
    ++ (match s.side n with
      | none => []
      | some r => r.bytes ++ number 4 r.indexLow)
    ++ rangeBytes (s.rangeOf n) ++ number 2 entries.length ++ optionalNumber 4 (entries.head?.map (·.k))
    ++ optionalNumber 4 (entries.getLast?.map (·.k))

/-! ### Drives -/

/-- The issuer of a queue entry: page read 0, locate read 1, recovery 2 (also when its result will be discarded), filing 3,
library 4, probe 5, with the context. -/
def Issuer.bytes : Issuer → List Byte
  | .page c => number 1 0 ++ number 1 c
  | .locate c => number 1 1 ++ number 1 c
  | .recovery | .discarded => number 1 2 ++ number 1 0
  | .filing => number 1 3 ++ number 1 0
  | .library => number 1 4 ++ number 1 0
  | .probe => number 1 5 ++ number 1 0

/-- The operands of a command (R24). LABEL and EJECT-PREP have none: both are absent (R184). -/
def QueueEntry.operands (e : QueueEntry) : Option (Nat × Nat) :=
  match e.op with
  | .label | .ejectPrep => none
  | .read | .erase | .write | .verify => some (e.first, e.count)

/-- The staging frames named for the data of a command: those a READ is to fill, those a WRITE writes (R31). -/
def QueueEntry.frames (e : QueueEntry) : Nat :=
  match e.op with
  | .read => e.count
  | .write => e.data.length
  | .label | .ejectPrep | .erase | .verify => 0

/-- A queue entry (R31). Its staging frames are reported by their count: their numbers stand in no table (log 28). -/
def QueueEntry.bytes (e : QueueEntry) : List Byte :=
  e.issuer.bytes ++ number 1 e.op.code ++ optionalNumber 4 (e.operands.map (·.1))
    ++ optionalNumber 2 (e.operands.map (·.2)) ++ number 2 e.frames ++ number 1 e.priority ++ number 4 e.age

/-- The order in which the dispatcher would issue a queue if nothing more arrived (R20, R32, R33). The first argument bounds
the entries. -/
def issueOrder : Nat → Bool → Drive → List QueueEntry
  | 0, _, _ => []
  | n + 1, sequence, x =>
    match (match x.pick sequence with
      | some e => some e
      | none => x.pick false) with
    | none => []
    | some e =>
      e :: issueOrder n sequence
        { x with owed := none, queue := if x.owed.isSome then x.queue else x.queue.erase e
                 lastWasPass := e.op.issuedPass x.lastWasPass }

/-- The QUERY-DRIVE reply (R20, R28). -/
def driveReply (d : Nat) (s : State) : List Byte :=
  let x := s.drive d
  number 1 x.channel.code ++ flagByte x.waitTake ++ flagByte x.waitSend
    ++ optionalNumber 4 (x.stall.map fun t => s.now - t.start)
    ++ number 1 x.state.code ++ optionalNumber 1 x.cartridge ++ optionalNumber 1 x.face
    ++ optionalNumber 1 (x.cause.map (·.code)) ++ flagByte x.offlinePending ++ number 4 x.lastReady
    ++ optionalNumber 4 x.lastGranted ++ flagByte x.idle.isSome ++ counted (number 1) x.attached
    ++ counted QueueEntry.bytes (issueOrder (x.queue.length + 1) (s.sequenceOn d) x)

/-! ### Status -/

/-- The parameters in force (R163). -/
def Params.bytes (p : Params) : List Byte :=
  number 4 p.idleUnmount ++ number 4 p.holdLimit ++ number 4 p.gatherIdle ++ number 4 p.quietDelay
    ++ number 4 p.quietDuration ++ number 4 p.channelStall ++ number 1 p.filingPriority

/-- A motion of the picker record (R38); where there is none, each of its fields is absent (R184). The order served is named by its
side. -/
def motionBytes (m : Option Motion) : List Byte :=
  optionalNumber 1 (m.map (·.kind.code)) ++ optionalSide (m.bind (·.served))
    ++ optionalNumber 1 (m.bind (·.cartridge)) ++ optionalNumber 1 (m.bind (·.drive))
    ++ optionalNumber 1 (m.bind (·.face)) ++ optionalNumber 1 ((m.bind (·.last)).map (·.code))

/-- The picker record (R38). -/
def pickerBytes (s : State) : List Byte :=
  let p := s.lib.picker
  number 1 p.state.code ++ motionBytes p.motion ++ motionBytes p.second ++ optionalNumber 1 p.held
    ++ p.occupancy.flatMap fun f => number 1 (slotFindingCode f)

/-- An order of the mount queue (R44, R45): side or drive, kind (mount 0, idle 1, firm 2), and the rest. -/
def Order.bytes (o : Order) : List Byte :=
  (match o.kind with
    | .mount n => number 1 n ++ number 1 0
    | .unmount d false => number 1 d ++ number 1 1
    | .unmount d true => number 1 d ++ number 1 2)
    ++ number 1 o.priority ++ number 4 o.age ++ flagByte o.inService ++ optionalNumber 1 o.forced
    ++ optionalNumber 1 o.target ++ number 2 o.waiters.length ++ flagByte o.marker

/-- A window's start and end. -/
def Window.bytes (w : Window) : List Byte := number 4 w.start ++ number 4 w.stop

/-- The quiet hold (R57): whether one is in force, its end, and the windows still scheduled. -/
def quietBytes (s : State) : List Byte :=
  flagByte s.fil.hold
    ++ optionalNumber 4 (if s.fil.hold then s.lib.windows.head?.map (·.stop) else none)
    ++ counted Window.bytes (if s.fil.hold then s.lib.windows.drop 1 else s.lib.windows)

/-- The service state and its three companions (R169). -/
def serviceBytes (s : State) : List Byte :=
  number 1 s.mu.service.code ++ optionalNumber 1 (s.mu.drain.map (·.code)) ++ s.mu.startFinding.bytes
    ++ s.mu.recoveryFinding.bytes

/-- The request link's figures (R152-R155). The reservation of the query itself is counted (R167). -/
def linkBytes (s : State) : List Byte :=
  number 1 s.rli.link.code ++ number 2 s.rli.errors ++ number 2 s.rli.downs ++ number 2 s.rli.inbound.length
    ++ number 2 (s.reservations + 1) ++ number 2 s.rli.control.length

/-- The locator counts (R73). -/
def locatorBytes (s : State) : List Byte :=
  number 2 s.loc.ranges.length ++ optionalNumber 4 (s.openRange.map (·.first))
    ++ optionalNumber 4 (s.openRange.map (·.last)) ++ optionalSide (s.openRange.map (·.side))
    ++ number 2 s.loc.entries.length ++ number 2 s.loc.cache.length

/-- The filing figures of QUERY-STATUS (R123). -/
def filingFigures (s : State) : List Byte :=
  optionalNumber 4 s.fil.nNext ++ number 1 (haltCode s.fil.halt) ++ number 1 s.fil.activity.code
    ++ number 2 s.fil.queue.length

/-- The tally figures of QUERY-STATUS (R150). -/
def tallyFigures (s : State) : List Byte :=
  number 2 s.tal.feeDay ++ number 2 s.tal.accounts.length ++ optionalNumber 2 (s.activeSlot.map (·.generation))

/-- The byte of a set of rights (log 9). -/
def rightsByte (x : Rights) : List Byte :=
  number 1 ((if x.copy then 1 else 0) + (if x.view then 2 else 0) + (if x.file then 4 else 0))

/-- A requester record as stored (R158). -/
def requesterBytes (id : Nat) (x : Requester) : List Byte :=
  number 1 id ++ rightsByte x.rights ++ number 1 x.maxPriority ++ number 1 x.contextLimit

/-- The requester records present, in ascending order of id (R158, R167). -/
def State.requestersPresent (s : State) : List (Nat × Requester) :=
  (List.range 32).filterMap fun r => (s.requester r).map fun x => (r, x)

/-- The QUERY-STATUS reply, in the order of R167. -/
def statusReply (s : State) : List Byte :=
  serviceBytes s ++ optionalNumber 1 s.mu.manager ++ linkBytes s
    ++ counted (number 1) (s.rli.notices.map (·.details.kind)) ++ s.mu.params.bytes
    ++ counted (fun x => requesterBytes x.1 x.2) s.requestersPresent
    ++ number 2 (s.contextsWhere (·.state.active)).length
    ++ pickerBytes s ++ counted Order.bytes s.lib.orders ++ quietBytes s
    ++ s.drives.flatMap (fun x => number 1 x.state.code) ++ locatorBytes s ++ filingFigures s ++ tallyFigures s

/-! ### Contexts -/

/-- A place in the pages: page and sector offset, absent 0 (R75). -/
def placeBytes (p : Option (Nat × Nat)) : List Byte :=
  optionalNumber 1 (p.map (·.1)) ++ optionalNumber 1 (p.map (·.2))

/-- The locate record of a context: its fields, for a context in LOCATING alone (R73). -/
def locateBytes (l : Option Locate) : List Byte :=
  match l with
  | none => []
  | some l =>
    number 1 l.side ++ number 4 l.k ++ number 2 l.j ++ number 1 l.slot ++ number 1 l.step.code
      ++ flagByte l.entry.isSome

/-- An item of a page list (R75). -/
def itemBytes (p : PageItem) : List Byte := number 1 p.format ++ number 2 p.offset ++ number 1 p.sectors

/-- The hold causes: none, HOLD, LINK or both (R75). -/
def Context.causeCode (x : Context) : Nat := (if x.heldByHold then 1 else 0) + (if x.heldByLink then 2 else 0)

/-- A context in QUERY-CONTEXTS (R75), with the page list of its resolved directory or without it. -/
def contextBytes (s : State) (lists : Bool) (c : Nat) : List Byte :=
  let x := s.context c
  number 1 c ++ number 1 x.state.code ++ number 1 x.requester ++ number 2 x.tag ++ number 1 x.kind.code
    ++ flagByte x.certified ++ number 4 x.account ++ number 1 x.feeClass ++ optionalNumber 2 x.generation
    ++ number 1 x.priority ++ number 4 x.instrument ++ number 1 x.side ++ number 4 x.k
    ++ counted (fun p => number 1 p.1 ++ number 1 p.2) x.selection
    ++ counted itemBytes (if lists then (x.directory.map (·.pages)).getD [] else [])
    ++ placeBytes x.nextRead ++ optionalNumber 1 x.nextPage ++ number 1 x.nextSend ++ flagByte x.primed
    ++ number 1 x.delivered ++ number 4 x.subtotal ++ number 1 x.causeCode
    ++ flagByte x.timer.isSome ++ optionalNumber 4 (x.timer.map (·.start)) ++ flagByte x.parked
    ++ number 1 x.read.code ++ optionalNumber 1 (x.outcome.map (·.code))
    ++ number 2 x.freeFrames ++ number 2 x.filling ++ number 2 x.holding.length
    ++ locateBytes (if x.state = .locating then x.locate else none)

/-- The contexts in use, the first `n` of them with their page lists. -/
def contextsWith (n : Nat) (s : State) : List Byte :=
  let cs := s.contextsWhere (·.state.active)
  number 1 cs.length ++ (cs.take n).flatMap (contextBytes s true) ++ (cs.drop n).flatMap (contextBytes s false)

/-- The most data of a MANAGE reply: its body is at most 8,220 bytes, three of them before the data (R185, 11.2). -/
def replyRoom : Nat := 8217

/-- The QUERY-CONTEXTS reply (R75). As many contexts from the lowest number on carry their page lists as R185 leaves room
for; the others are reported without (log 51). -/
def contextsReply (s : State) : List Byte :=
  (((List.range 17).reverse.map fun n => contextsWith n s).find? fun bs => bs.length ≤ replyRoom).getD (contextsWith 0 s)

/-! ### Filings -/

/-- The current pass (R100); where there is none, each of its fields is absent (R184). -/
def passBytes (p : Option Pass) : List Byte :=
  optionalNumber 1 (p.map (·.op.code)) ++ optionalNumber 4 (p.map (·.first)) ++ optionalNumber 2 (p.map (·.count))
    ++ optionalNumber 1 (p.map (·.state.code)) ++ flagByte (p.any (·.disturbed))

/-- The place of a filing in the queue, from 1; 0 outside it. -/
def State.queuePlace (s : State) (f : Nat) : Nat :=
  match s.fil.queue.findIdx? (· == f) with
  | none => 0
  | some i => i + 1

/-- The page and the sectors received of a page begun and not complete (R123). -/
def Filing.begun (x : Filing) : Option (Nat × Nat) :=
  match x.pages.getLast? with
  | none => none
  | some p => if p.complete then none else some (x.pages.length, p.received)

/-- A filing record in QUERY-FILINGS (R123). -/
def filingBytes (s : State) (f : Nat) : List Byte :=
  let x := s.filing f
  number 1 f ++ number 1 x.state.code ++ number 1 x.requester ++ number 2 x.tag ++ number 1 x.completePages
    ++ placeBytes x.begun ++ number 2 x.frames.length ++ optionalNumber 2 x.body ++ number 1 x.attempts
    ++ optionalNumber 4 x.extentStart ++ optionalNumber 4 x.tentative ++ timerBytes s.now x.timer
    ++ number 1 (s.queuePlace f)

/-- The QUERY-FILINGS reply (R123). -/
def filingsReply (s : State) : List Byte :=
  optionalNumber 4 s.fil.nNext ++ number 1 (haltCode s.fil.halt) ++ number 1 s.fil.activity.code
    ++ optionalSide s.fil.opening ++ optionalNumber 1 (s.fil.closeOwed.map (·.code)) ++ flagByte s.fil.hold
    ++ passBytes s.fil.pass ++ counted (number 1) s.fil.queue
    ++ counted (filingBytes s) ((List.range 8).filter fun f => (s.filing f).state != .free)

/-! ### Tally -/

/-- The figures of an account that CLOSE-ACCOUNT reports, from its class on (R142). -/
def Account.figureBytes (a : Account) : List Byte :=
  Machine.number 1 a.cls ++ Machine.number 1 a.state.code ++ Machine.number 6 a.limit ++ Machine.number 6 a.charged ++ Machine.number 1 a.residue
    ++ Machine.number 3 a.dayPages ++ Machine.number 4 a.dayCents ++ Machine.number 3 a.dayDeeds
    ++ Machine.number 3 a.prevPages ++ Machine.number 4 a.prevCents ++ Machine.number 3 a.prevDeeds

/-- An account record, every field of R137. -/
def Account.bytes (a : Account) : List Byte := Machine.number 4 a.number ++ a.figureBytes ++ Machine.number 2 a.inFlight

/-- The figures of one class (R145). -/
def classBytes (c : ClassFigures) : List Byte :=
  c.normal.flatMap (number 2) ++ c.bulk.flatMap (number 2) ++ number 2 c.threshold ++ number 3 c.deedFee
    ++ number 3 c.certFee ++ number 3 c.minimum ++ number 3 c.cap

/-- A schedule slot; an EMPTY one is reported with its role alone (R150). -/
def Slot.bytes (x : Slot) : List Byte :=
  if x.role = .empty then number 1 x.role.code
  else number 1 x.role.code ++ number 2 x.generation ++ number 2 x.effective ++ number 2 x.refs
    ++ x.figures.flatMap classBytes

/-- The QUERY-SCHEDULES reply (R150). -/
def schedulesReply (s : State) : List Byte :=
  number 2 s.tal.feeDay ++ number 2 s.tal.nextGeneration ++ s.tal.slots.flatMap Slot.bytes

end Sys2Proof.Machine
end

