-- ==== Sys2Proof/Machine/Manage.lean ====
section
/-! DEFINITION. The management unit: the checks of a MANAGE frame and the effect and reply of each request (R18, R35, R60,
R123, R139-R150, R158-R165, R171, R173, R183). -/

namespace Sys2Proof.Machine

/-! ### The checks of R160 -/

/-- The working states (R161). -/
def Service.working : Service → Bool
  | .standby | .opening | .serving | .draining => true
  | .startup | .quiescent | .fault => false

/-- The service states in which a request of a code is accepted (R161). -/
def codeAccepted (code : Nat) (st : Service) : Bool :=
  match code with
  | 21 => true
  | 1 => st != .quiescent
  | 2 => st == .standby || st == .serving || st == .draining || st == .quiescent
  | 6 | 7 | 8 | 9 | 20 => st == .standby
  | 15 | 16 | 17 => st == .standby || st == .serving || st == .draining
  | 18 => st == .serving || st == .draining
  | _ => st.working

/-- The refusal of a BIND while a manager is bound: BOUND (R160 check 2), in QUIESCENT WRONG-STATE, as R161 and R182 name it
(log 54). -/
def State.bindRefusal (s : State) : Reason := if s.mu.service = .quiescent then .wrongState else .bound

/-- Checks 1 to 3 of R160, and check 6 for a BIND while a manager is bound. -/
def State.binding (s : State) (bind : Bool) (r : Nat) : Option Reason :=
  match s.mu.manager with
  | none => if bind then none else some .notBound
  | some m => if bind then some s.bindRefusal else if m = r then none else some .notManager

/-- The refusal of a known request, if any: the first failing check of R160. -/
def State.manageRefusal (s : State) (r t code : Nat) : Option Reason :=
  match s.binding (code == 1) r with
  | some reason => some reason
  | none =>
    if s.mu.late.any fun l => l.requester == r && l.tag == t then some .duplicateTag
    else if codeAccepted code s.mu.service then none else some .wrongState

/-- A management request: refused by the checks of R160, or given to what acts on it. -/
def manage (r t code : Nat) (act : State → State) (s : State) : State :=
  match s.manageRefusal r t code with
  | some reason => publish (reject r t code reason s)
  | none => act s

/-- A MANAGE frame whose request code is unknown or whose length does not fit (R160 check 4, R185). -/
def manageUnknown (r t code : Nat) (s : State) : State :=
  publish (reject r t code ((s.binding (code == 1) r).getD .badValue) s)

/-- A reply at once: REFUSED with a reason, or ACCEPTED with the effect and its data. -/
def answer (r t code : Nat) (refusal : Option Reason) (effect : State → State) (data : State → List Byte) (s : State) : State :=
  match refusal with
  | some reason => publish (reject r t code reason s)
  | none => publish (accept r t code (data (effect s)) (effect s))

/-- A request that answers late (R153): REFUSED at once, or its effect, with the reply still awaited. -/
def answerLater (r t code : Nat) (kind : LateKind) (refusal : Option Reason) (effect : State → State) (s : State) : State :=
  match refusal with
  | some reason => publish (reject r t code reason s)
  | none => settle (effect (awaitReply kind r t s))

/-! ### Binding, states, parameters, requesters -/

/-- BIND (R160). -/
def bindTaken (r t : Nat) (s : State) : State :=
  answer r t 1 none (fun s => { s with mu.manager := some r })
    (fun s => optionalNumber 1 s.mu.manager ++ number 1 s.mu.service.code) s

/-- Sides whose record is OPEN. -/
def State.openedSides (s : State) : List Nat := (List.range 128).filter fun n => (s.side n).any (·.state == .opened)

/-- Check 5 of R173. -/
def State.rangesHaveSides (s : State) : Bool :=
  s.loc.ranges.all (fun r => (s.side r.side).isSome)
    && (List.range 128).all fun n => !(s.side n).any (·.incomplete) || (s.rangeOf n).isSome

/-- Check 7 of R173. -/
def State.openAgrees (s : State) : Bool :=
  match s.openRange with
  | none => s.openedSides.isEmpty
  | some r => s.openedSides.contains r.side

/-- Check 8 of R173: N_next is set and above the last of every range entry. -/
def State.nextAbove (s : State) : Bool := s.fil.nNext.any fun n => s.loc.ranges.all fun r => r.last < n

/-- The SERVING entry checks in order (R173). -/
def State.servingRefusal (s : State) : Option Reason :=
  if s.mu.manager.isNone then some .notBound
  else if s.activeSlot.isNone then some .noSchedule
  else if s.tal.feeDay = 0 then some .noFeeDay
  else if s.lib.sides.all (·.isNone) then some .noSides
  else if !s.rangesHaveSides then some .rangeSide
  else if 1 < s.openedSides.length then some .twoOpen
  else if !s.openAgrees then some .openRange
  else if s.openedSides.isEmpty ∧ s.nextAbove = false then some .noNext
  else none

/-- A drain begins (R162, R180, R181). -/
def beginDrain (abort : Bool) (s : State) : State :=
  let s1 := changeService .draining .setState { s with mu.drain := some .plain }
  if abort then abortWork s1 else s1

/-- SET-STATE (R162). A code that names no service state is refused BAD-VALUE (log 9). -/
def setStateTaken (r t target : Nat) (abort : Bool) (s : State) : State :=
  match s.mu.service, serviceOfCode target with
  | .standby, some .serving => answerLater r t 2 .setState s.servingRefusal enterOpening s
  | .standby, some .quiescent => answer r t 2 none enterQuiescent (fun s => number 1 s.mu.service.code) s
  | .serving, some .standby => answerLater r t 2 .setState none (beginDrain abort) s
  | .draining, some .standby =>
    if abort = true ∧ s.mu.drain = some .plain then
      answerLater r t 2 .setState none (fun s => abortWork (changeService .draining .setState s)) s
    else publish (reject r t 2 .wrongState s)
  | .quiescent, some .standby =>
    settle (answer r t 2 none (enterStandby .setState) (fun s => number 1 s.mu.service.code) s)
  | .quiescent, none => publish (reject r t 2 .wrongState s)
  | _, none => publish (reject r t 2 .badValue s)
  | _, some _ => publish (reject r t 2 .wrongState s)

/-- A value given is clamped into its range and rounded down to its step; one not given stays (R163). -/
def takeParam (low high step held : Nat) (given : Option Nat) : Nat :=
  match given with
  | none => held
  | some v => min (max v low) high / step * step

/-- The parameters in force after a SET-PARAMS (R163). -/
def Params.taking (p : Params) (v : ParamValues) : Params :=
  { idleUnmount := takeParam 5000 600000 1000 p.idleUnmount v.idleUnmount
    holdLimit := takeParam 1000 600000 1000 p.holdLimit v.holdLimit
    gatherIdle := takeParam 60000 3600000 60000 p.gatherIdle v.gatherIdle
    quietDelay := takeParam 0 500 10 p.quietDelay v.quietDelay
    quietDuration := takeParam 0 2000 10 p.quietDuration v.quietDuration
    channelStall := takeParam 1000 60000 1000 p.channelStall v.channelStall
    filingPriority := takeParam 0 3 1 p.filingPriority v.filingPriority }

/-- SET-PARAMS (R163). The filing mount priority reaches the orders at once (R44). -/
def setParamsTaken (r t : Nat) (v : ParamValues) (s : State) : State :=
  settle (answer r t 3 none (fun s => reprioritise { s with mu.params := s.mu.params.taking v }) (fun s => s.mu.params.bytes) s)

/-- The refusals of LOAD-REQUESTER (R158). -/
def State.requesterRefusal (s : State) (id maxPriority limit : Nat) : Option Reason :=
  if 31 < id ∨ 3 < maxPriority ∨ limit = 0 ∨ 16 < limit then some .badValue
  else if limit < s.activeOf id then some .inUse
  else none

/-- LOAD-REQUESTER (R158). -/
def loadRequesterTaken (r t id : Nat) (x : Requester) (s : State) : State :=
  answer r t 4 (s.requesterRefusal id x.maxPriority x.contextLimit)
    (fun s => { s with mu.requesters := s.mu.requesters.set id (some x) }) (fun _ => requesterBytes id x) s

/-- The refusals of DROP-REQUESTER (R159). -/
def State.dropRefusal (s : State) (id : Nat) : Option Reason :=
  if 31 < id then some .badValue
  else if (s.requester id).isNone then some .noRequester
  else if 0 < s.activeOf id ∨ s.fil.records.any (fun x => x.state != .free && x.requester == id) = true then some .inUse
  else none

/-- DROP-REQUESTER (R159). -/
def dropRequesterTaken (r t id : Nat) (s : State) : State :=
  answer r t 5 (s.dropRefusal id) (fun s => { s with mu.requesters := s.mu.requesters.set id none }) (fun _ => []) s

/-! ### Tables -/

/-- No entry of a list is below the one before it. -/
def nonDecreasing : List Nat → Bool
  | [] => true
  | [_] => true
  | a :: b :: xs => a ≤ b && nonDecreasing (b :: xs)

/-- The checks of R18 on the values of a record. -/
def sideValuesGood (state : SideState) (dataHigh written : Nat) (skips : List Nat) (spoiled : Nat) (incomplete : Bool) : Bool :=
  if state = .blank then dataHigh == 0 && written == 0 && skips.isEmpty && spoiled == 0 && !incomplete
  else 1 ≤ dataHigh && written ≤ 4687 && skips.length ≤ Config.skipLimit && nonDecreasing skips
    && skips.all (· ≤ written) && dataHigh + 16 + written + skips.length ≤ Config.topSector + 1
    && spoiled ≤ dataHigh - 1

/-- The third check of R18 on one present record. -/
def State.replaceable (s : State) (n : Nat) : Bool :=
  match s.side n with
  | none => true
  | some r => r.state != .stuck && match r.location with
    | .home => true
    | .picker => false
    | .drive d => (s.drive d).cartridge.isNone

/-- The refusals of LOAD-SIDE (R18). -/
def State.sideRefusal (s : State) (l : SideLoad) : Option Reason :=
  let inUse (n : Nat) : Option Reason := if s.replaceable n && s.replaceable (siblingOf n) then none else some .inUse
  match l with
  | .remove n => if 127 < n then some .badValue else inUse n
  | .store n _ state h w skips sp inc =>
    match loadableState state with
    | none => some .badValue
    | some st => if 127 < n ∨ sideValuesGood st h w skips sp inc = false then some .badValue else inUse n

/-- The effect of LOAD-SIDE (R18). -/
def storeSide (l : SideLoad) (s : State) : State :=
  match l with
  | .remove n => s.putSide n none
  | .store n serial state h w skips sp inc =>
    s.putSide n (some
      { serial := serial, state := (loadableState state).getD .blank, prior := none
        location := ((s.side (siblingOf n)).map (·.location)).getD .home
        dataHigh := h, written := w, skips := skips, spoiled := sp, incomplete := inc })

/-- The side a LOAD-SIDE names. -/
def sideNamed : SideLoad → Nat
  | .remove n => n
  | .store n _ _ _ _ _ _ _ => n

/-- The data of a LOAD-SIDE reply: the side, the removal flag, the record as stored (R18). -/
def loadedReply (n : Nat) (s : State) : List Byte :=
  match s.side n with
  | none => number 1 n ++ flagByte true
  | some r => number 1 n ++ flagByte false ++ r.bytes

/-- LOAD-SIDE (R18). -/
def loadSideTaken (r t : Nat) (l : SideLoad) (s : State) : State :=
  answer r t 6 (s.sideRefusal l) (storeSide l) (loadedReply (sideNamed l)) s

/-- Two entries overlap: their spans share a number (R59). -/
def RangeEntry.overlaps (a b : RangeEntry) : Bool :=
  a.first ≤ a.last && b.first ≤ b.last && a.first ≤ b.last && b.first ≤ a.last

/-- The refusals of LOAD-RANGE (R60). -/
def State.rangeRefusal (s : State) (e : RangeEntry) : Option Reason :=
  if e.first = 0 ∨ Config.topInstrument < e.first ∨ e.last + 1 < e.first ∨ Config.topInstrument < e.last ∨ 127 < e.side then
    some .badValue
  else if s.loc.ranges.any e.overlaps then some .overlap
  else if (s.rangeOf e.side).isSome then some .badValue
  else if e.openFlag = true ∧ (s.openRange.isSome = true ∨ s.loc.ranges.any (fun x => e.first ≤ x.last) = true) then
    some .badValue
  else if e.openFlag = false ∧ s.openRange.any (fun o => o.first ≤ e.last) = true then some .badValue
  else if Config.rangeLimit ≤ s.loc.ranges.length then some .tableFull
  else none

/-- An entry takes its place in the order of first; among equal firsts the open range stands last (R59). -/
def insertRange (e : RangeEntry) : List RangeEntry → List RangeEntry
  | [] => [e]
  | x :: xs =>
    if e.first < x.first ∨ (e.first = x.first ∧ x.openFlag = true) then e :: x :: xs else x :: insertRange e xs

/-- LOAD-RANGE (R60). -/
def loadRangeTaken (r t : Nat) (e : RangeEntry) (s : State) : State :=
  answer r t 7 (s.rangeRefusal e) (fun s => { s with loc.ranges := insertRange e s.loc.ranges })
    (fun s => rangeBytes (some e) ++ number 2 s.loc.ranges.length) s

/-- CLEAR-RANGES (R60). The reply carries the number of entries removed. -/
def clearRangesTaken (r t : Nat) (s : State) : State :=
  answer r t 8 none (fun s => { s with loc.ranges := [] }) (fun _ => number 2 s.loc.ranges.length) s

/-- The refusals of SET-NEXT-INSTRUMENT (R165). -/
def State.nextRefusal (s : State) (v : Nat) : Option Reason :=
  if !s.openedSides.isEmpty then some .wrongState
  else if v = 0 ∨ Config.topInstrument < v ∨ s.loc.ranges.any (fun r => v ≤ r.last) = true then some .badValue
  else none

/-- SET-NEXT-INSTRUMENT (R123, R165). -/
def setNextTaken (r t v : Nat) (s : State) : State :=
  answer r t 9 (s.nextRefusal v) (fun s => { s with fil.nNext := some v }) (fun _ => number 4 v) s

/-! ### Accounts and schedules -/

/-- A fresh account record (R139 step 1). -/
def freshAccount (n : Nat) : Account :=
  { number := n, cls := 0, state := .opened, limit := 0, charged := 0, residue := 0, dayPages := 0, dayCents := 0
    dayDeeds := 0, prevPages := 0, prevCents := 0, prevDeeds := 0, inFlight := 0 }

/-- Steps 2 to 4 of R139 on a record. -/
def Account.load (cls limit : Nat) (asked : AccountState) (reset : Bool) (a : Account) : Account :=
  let a1 : Account :=
    { a with cls := cls, limit := limit, charged := if reset then 0 else a.charged, residue := if reset then 0 else a.residue }
  { a1 with state := openTest asked a1 }

/-- The account table in ascending order of number: a record takes its place. -/
def insertAccount (a : Account) : List Account → List Account
  | [] => [a]
  | b :: bs => if a.number < b.number then a :: b :: bs else b :: insertAccount a bs

/-- The refusals of LOAD-ACCOUNT (R139). -/
def State.accountRefusal (s : State) (n cls limit : Nat) (asked : Option AccountState) : Option Reason :=
  if n = 0 ∨ 999999 < n ∨ 7 < cls ∨ Config.chargedCeiling < limit ∨ asked = none then some .badValue
  else if (s.account n).isNone ∧ Config.accountLimit ≤ s.tal.accounts.length then some .tableFull
  else none

/-- The effect of LOAD-ACCOUNT (R139). -/
def storeAccount (n cls limit : Nat) (asked : AccountState) (reset : Bool) (s : State) : State :=
  match s.account n with
  | none => { s with tal.accounts := insertAccount ((freshAccount n).load cls limit asked reset) s.tal.accounts }
  | some _ => s.modAccount n (Account.load cls limit asked reset)

/-- The record of an account, every field of R137. -/
def accountReply (n : Nat) (s : State) : List Byte :=
  match s.account n with
  | none => []
  | some a => a.bytes

/-- LOAD-ACCOUNT (R139). -/
def loadAccountTaken (r t n cls limit state : Nat) (reset : Bool) (s : State) : State :=
  let created := (s.account n).isNone
  answer r t 10 (s.accountRefusal n cls limit (accountStateOfCode state))
    (storeAccount n cls limit ((accountStateOfCode state).getD .opened) reset)
    (fun s => accountReply n s ++ flagByte created) s

/-- The refusals of SET-ACCOUNT-STATE (R141, R165). A number without a record is found before a state that is none of the two
(log 47). -/
def State.accountStateRefusal (s : State) (n : Nat) (asked : Option AccountState) : Option Reason :=
  if n = 0 ∨ 999999 < n then some .badValue
  else if (s.account n).isNone then some .noAccount
  else if asked = none then some .badValue
  else none

/-- The state that resulted, charged and limit (R141). -/
def accountStateReply (n : Nat) (s : State) : List Byte :=
  match s.account n with
  | none => []
  | some a => number 1 a.state.code ++ number 6 a.charged ++ number 6 a.limit

/-- SET-ACCOUNT-STATE (R141). -/
def setAccountStateTaken (r t n state : Nat) (s : State) : State :=
  let asked := (accountStateOfCode state).getD .opened
  answer r t 11 (s.accountStateRefusal n (accountStateOfCode state))
    (fun s => s.modAccount n fun a => { a with state := openTest asked a }) (accountStateReply n) s

/-- The refusals of CLOSE-ACCOUNT (R142, R165). -/
def State.closeRefusal (s : State) (n : Nat) : Option Reason :=
  if n = 0 ∨ 999999 < n then some .badValue
  else match s.account n with
  | none => some .noAccount
  | some a => if 0 < a.inFlight then some .inUse else none

/-- The final figures of an account (R142). -/
def finalReply (n : Nat) (s : State) : List Byte :=
  match s.account n with
  | none => []
  | some a => a.figureBytes

/-- CLOSE-ACCOUNT (R142). -/
def closeAccountTaken (r t n : Nat) (s : State) : State :=
  answer r t 12 (s.closeRefusal n) (fun s => { s with tal.accounts := s.tal.accounts.filter (·.number != n) })
    (fun _ => finalReply n s) s

/-- The ranges of one class's figures (R125, R147). -/
def figuresGood (c : ClassFigures) : Bool :=
  c.normal.all (· ≤ 65535) && c.bulk.all (· ≤ 65535) && c.threshold ≤ 65535 && c.deedFee ≤ 16777215
    && c.certFee ≤ 16777215 && c.minimum ≤ 16777215 && c.cap ≤ 16777215

/-- The slot a LOAD-SCHEDULE writes: the PENDING slot, else the lowest EMPTY one (R147). -/
def State.scheduleSlot (s : State) : Option Nat :=
  match s.tal.slots.findIdx? (·.role == .waiting) with
  | some i => some i
  | none => s.tal.slots.findIdx? (·.role == .empty)

/-- The refusals of LOAD-SCHEDULE (R147). -/
def State.scheduleRefusal (s : State) (effective : Nat) (figures : List ClassFigures) : Option Reason :=
  if effective = 0 ∨ 65535 < effective ∨ figures.all figuresGood = false then some .badValue
  else if s.scheduleSlot.isNone then some .noSlot
  else none

/-- The effect of LOAD-SCHEDULE (R145, R147). -/
def storeSchedule (effective : Nat) (figures : List ClassFigures) (s : State) : State :=
  match s.scheduleSlot with
  | none => s
  | some i =>
    let g := s.tal.nextGeneration
    let first := s.activeSlot.isNone
    let slot : Slot :=
      { role := if first then .active else .waiting, generation := g, effective := effective, refs := 0, figures := figures }
    let slots := s.tal.slots.set i slot
    let held := (slots.filter (·.role != .empty)).map (·.generation)
    let s1 : State := { s with tal.slots := slots, tal.nextGeneration := generationAfter held 3 g }
    if first then raise_ (.scheduleActivated g s.tal.feeDay) s1 else s1

/-- LOAD-SCHEDULE (R147): the reply carries slot, generation and role. -/
def loadScheduleTaken (r t effective : Nat) (figures : List ClassFigures) (s : State) : State :=
  answer r t 13 (s.scheduleRefusal effective figures) (storeSchedule effective figures)
    (fun _ => optionalNumber 1 s.scheduleSlot ++ number 2 s.tal.nextGeneration
      ++ number 1 (if s.activeSlot.isNone then Role.active else Role.waiting).code) s

/-- The refusals of DAY-CLOSE (R148). -/
def State.dayRefusal (s : State) (day : Nat) : Option Reason :=
  if day = 0 ∨ 65535 < day ∨ day ≤ s.tal.feeDay then some .badValue else none

/-- The effect of DAY-CLOSE (R148, R149). -/
def turnDay (day : Nat) (s : State) : State :=
  let s1 : State := { s with tal.accounts := s.tal.accounts.map closeDay, tal.feeDay := day }
  if s.switchDue day then switchSchedule s1 else s1

/-- DAY-CLOSE (R148). -/
def dayCloseTaken (r t day : Nat) (s : State) : State :=
  answer r t 14 (s.dayRefusal day) (turnDay day)
    (fun s' => number 2 s'.tal.feeDay ++ flagByte (s.switchDue day) ++ optionalNumber 2 (s'.activeSlot.map (·.generation))) s

/-! ### Drives, picker, filing, faults -/

/-- The refusals of DRIVE-OFFLINE (R164). -/
def State.offlineRefusal (s : State) (d : Nat) : Option Reason :=
  let x := s.drive d
  if 3 < d then some .badValue
  else if x.attached ≠ [] ∨ x.incoming ≠ [] ∨ x.incomingMarker = true
      ∨ (s.holdsOpen d = true ∧ (s.filingsWaiting = true ∨ s.fil.activity ≠ .idle)) then some .inUse
  else if x.state = .loading ∨ x.state = .checking ∨ x.state = .unloading ∨ s.targeted d = true then some .busy
  else if x.state = .occupiedUnknown then some .wrongState
  else none

/-- A drive taken OFFLINE at once (R28, R35): nothing is pending any more, and the fault cause stays with a cartridge, or with
the cause LABEL (log 40). -/
def Drive.offlineNow (x : Drive) : Drive :=
  { x with
    state := .offline, offlinePending := false
    cause := if x.cause = some .label ∨ x.cartridge.isSome = true then x.cause else none }

/-- The effect of DRIVE-OFFLINE (R35). -/
def takeOffline (d : Nat) (s : State) : State :=
  let x := s.drive d
  let sendHome := newUnmount d true (s.modDrive d fun x => { x with offlinePending := true })
  let atOnce := haltIfOpenIn d (s.modDrive d Drive.offlineNow)
  match x.state with
  | .empty => atOnce
  | .ready | .active => sendHome
  | .fault => if x.cause = some .label ∧ x.cartridge.isSome = true then sendHome else atOnce
  | .offline | .loading | .checking | .unloading | .occupiedUnknown => s

/-- DRIVE-OFFLINE (R164): the reply carries the drive state and offline pending. -/
def driveOfflineTaken (r t d : Nat) (s : State) : State :=
  settle (answer r t 15 (s.offlineRefusal d) (takeOffline d)
    (fun s => number 1 (s.drive d).state.code ++ flagByte (s.drive d).offlinePending) s)

/-- The refusals of DRIVE-RETRY (R164). -/
def State.retryRefusal (s : State) (d : Nat) : Option Reason :=
  let x := s.drive d
  if 3 < d then some .badValue
  else if x.state ≠ .offline ∧ (x.state ≠ .fault ∨ x.cause = some .label) then some .wrongState
  else if x.probing then some .busy
  else none

/-- DRIVE-RETRY (R36, R164). -/
def driveRetryTaken (r t d : Nat) (s : State) : State :=
  answerLater r t 16 (.driveRetry d) (s.retryRefusal d) (startProbe d) s

/-- CLEAR-PICKER (R42, R164). -/
def clearPickerTaken (r t : Nat) (s : State) : State :=
  answerLater r t 17 .clearPicker (if s.lib.picker.state = .fault then none else some .wrongState) startHome s

/-- FILING-RESUME (R121, R164): the re-test, the readiness test, and the halt cause that then stands. -/
def filingResumeTaken (r t : Nat) (s : State) : State :=
  settle (answer r t 18 none (fun s => runReadiness (retestHalt s)) (fun s => number 1 (haltCode s.fil.halt)) s)

/-- RESTART (R165, R183). -/
def restartTaken (r t : Nat) (s : State) : State :=
  answerLater r t 19 .restart (if s.mu.drain = some .restart then some .busy else none) restartWork s

/-- The refusals of CLEAR-FAULT (R165, R171). -/
def State.clearRefusal (s : State) : Option Reason :=
  if s.mu.startFinding ≠ .picker then some .noFault
  else if s.lib.picker.state = .moving then some .busy
  else none

/-- The motions of a CLEAR-FAULT (R171): HOME from FAULT, and an INVENTORY owed. -/
def clearFaultWork (s : State) : State :=
  (if s.lib.picker.state = .fault then startHome s else s).modPicker fun p => { p with inventoryOwed := true }

/-- CLEAR-FAULT (R171). -/
def clearFaultTaken (r t : Nat) (s : State) : State :=
  answerLater r t 20 .clearFault s.clearRefusal clearFaultWork s

/-! ### Queries -/

/-- A query (R167): its reply with the state as it stands. -/
def query (r t code : Nat) (refusal : Option Reason) (data : State → List Byte) (s : State) : State :=
  answer r t code refusal id data s

/-- The refusal of QUERY-ACCOUNT (R150, R165). -/
def State.accountQueryRefusal (s : State) (n : Nat) : Option Reason :=
  if n = 0 ∨ 999999 < n then some .badValue else if (s.account n).isNone then some .noAccount else none

end Sys2Proof.Machine
end

