-- ==== Sys2Proof/Machine/Commands.lean ====
section
/-! DEFINITION. The meaning of every command, one definition each. Request commands are handed on from the request link
(R154); the others are events of the drives, the picker, the line, the memory check and the timers. -/

namespace Sys2Proof.Machine

/-- The outcomes of this part's commands. -/
abbrev Out := Host.Outcome State Fault Refusal

/-! ### Part and link -/

/-- POWER_ON_RESET (R17, R23, R37, R58, R74, R99, R124, R151, R168, R170): every block takes its power-on values; the link
state is the line's, the waiting commands stay. -/
def execPowerOnReset (s : State) : Out := .next (State.powerOn s.rli.link s.pending)

/-- The start-up steps that follow a passed memory check (R170): HOME and INVENTORY, and the four probes. -/
def startUp (s : State) : State :=
  [0, 1, 2, 3].foldl (fun s d => startProbe d s)
    ((startHome { s with memory := .passed }).modPicker fun p => { p with inventoryOwed := true })

/-- MEMORY_CHECK_DONE (R170): FAULT with the finding MEMORY, or the start-up steps. Nothing once the check has ended (log 8). -/
def execMemoryCheckDone (failed : Option Nat) (s : State) : Out :=
  if s.memory ≠ .running ∨ s.mu.service ≠ .startup then .next s
  else match failed with
  | some f => .next (settle (changeService .fault .startUp { s with memory := .failed, mu.startFinding := .memory f }))
  | none => .next (settle (startUp s))

/-- FRAME_ADMISSION (R152). -/
def execFrameAdmission (bytes : List Byte) (s : State) : Out := .next (admitFrame bytes s)

/-- LINK_DOWN (R155). -/
def execLinkDown (s : State) : Out := .next (lineDown s)

/-- LINK_UP (R155). -/
def execLinkUp (s : State) : Out := .next (lineUp s)

/-- FRAME_SENT (R156). -/
def execFrameSent (s : State) : Out := .next (frameFinished s)

/-! ### Contexts -/

/-- FETCH (R78-R80). -/
def execFetch (r t : Nat) (b : FetchBody) (s : State) : Out := .next (handOn (.fetch r t b) (fetchTaken r t b) s)

/-- HOLD (R89). -/
def execHold (r t : Nat) (s : State) : Out := .next (handOn (.hold r t) (holdTaken r t) s)

/-- RESUME (R90). -/
def execResume (r t : Nat) (s : State) : Out := .next (handOn (.resume r t) (resumeTaken r t) s)

/-- CANCEL (R93). -/
def execCancel (r t : Nat) (s : State) : Out := .next (handOn (.cancel r t) (cancelTaken r t) s)

/-! ### Filings -/

/-- FILE_OPEN (R102). -/
def execFileOpen (r t : Nat) (s : State) : Out :=
  .next (handOn (.fileOpen r t) (fun s => publish (openFiling r t s)) s)

/-- PAGE (R103, R104). -/
def execPage (r t : Nat) (b : PageBody) (s : State) : Out :=
  .next (handOn (.page r t b) (fun s => publish (filePage r t b s)) s)

/-- FILE_END (R105). -/
def execFileEnd (r t count : Nat) (s : State) : Out :=
  .next (handOn (.fileEnd r t count) (fun s => settle (endFiling r t count s)) s)

/-- FILE_ABORT (R106). -/
def execFileAbort (r t : Nat) (s : State) : Out :=
  .next (handOn (.fileAbort r t) (fun s => settle (abortFiling r t s)) s)

/-! ### Management -/

/-- BIND (R160). -/
def execBind (r t : Nat) (s : State) : Out := .next (handOn (.bind r t) (manage r t 1 (bindTaken r t)) s)

/-- SET_STATE (R162). -/
def execSetState (r t target : Nat) (abort : Bool) (s : State) : Out :=
  .next (handOn (.setState r t target abort) (manage r t 2 (setStateTaken r t target abort)) s)

/-- SET_PARAMS (R163). -/
def execSetParams (r t : Nat) (v : ParamValues) (s : State) : Out :=
  .next (handOn (.setParams r t v) (manage r t 3 (setParamsTaken r t v)) s)

/-- LOAD_REQUESTER (R158). -/
def execLoadRequester (r t id : Nat) (rights : Rights) (maxPriority contextLimit : Nat) (s : State) : Out :=
  .next (handOn (.loadRequester r t id rights maxPriority contextLimit)
    (manage r t 4 (loadRequesterTaken r t id
      { rights := rights, maxPriority := maxPriority, contextLimit := contextLimit })) s)

/-- DROP_REQUESTER (R159). -/
def execDropRequester (r t id : Nat) (s : State) : Out :=
  .next (handOn (.dropRequester r t id) (manage r t 5 (dropRequesterTaken r t id)) s)

/-- LOAD_SIDE (R18). -/
def execLoadSide (r t : Nat) (l : SideLoad) (s : State) : Out :=
  .next (handOn (.loadSide r t l) (manage r t 6 (loadSideTaken r t l)) s)

/-- LOAD_RANGE (R60). -/
def execLoadRange (r t first last side : Nat) (openFlag : Bool) (s : State) : Out :=
  .next (handOn (.loadRange r t first last side openFlag)
    (manage r t 7 (loadRangeTaken r t { first := first, last := last, side := side, openFlag := openFlag })) s)

/-- CLEAR_RANGES (R60). -/
def execClearRanges (r t : Nat) (s : State) : Out :=
  .next (handOn (.clearRanges r t) (manage r t 8 (clearRangesTaken r t)) s)

/-- SET_NEXT_INSTRUMENT (R123, R165). -/
def execSetNextInstrument (r t value : Nat) (s : State) : Out :=
  .next (handOn (.setNextInstrument r t value) (manage r t 9 (setNextTaken r t value)) s)

/-- LOAD_ACCOUNT (R139). -/
def execLoadAccount (r t number cls limit state : Nat) (resetTally : Bool) (s : State) : Out :=
  .next (handOn (.loadAccount r t number cls limit state resetTally)
    (manage r t 10 (loadAccountTaken r t number cls limit state resetTally)) s)

/-- SET_ACCOUNT_STATE (R141). -/
def execSetAccountState (r t number state : Nat) (s : State) : Out :=
  .next (handOn (.setAccountState r t number state) (manage r t 11 (setAccountStateTaken r t number state)) s)

/-- CLOSE_ACCOUNT (R142). -/
def execCloseAccount (r t number : Nat) (s : State) : Out :=
  .next (handOn (.closeAccount r t number) (manage r t 12 (closeAccountTaken r t number)) s)

/-- LOAD_SCHEDULE (R147). -/
def execLoadSchedule (r t effective : Nat) (figures : List ClassFigures) (s : State) : Out :=
  .next (handOn (.loadSchedule r t effective figures) (manage r t 13 (loadScheduleTaken r t effective figures)) s)

/-- DAY_CLOSE (R148, R149). -/
def execDayClose (r t day : Nat) (s : State) : Out :=
  .next (handOn (.dayClose r t day) (manage r t 14 (dayCloseTaken r t day)) s)

/-- DRIVE_OFFLINE (R35, R164). -/
def execDriveOffline (r t drive : Nat) (s : State) : Out :=
  .next (handOn (.driveOffline r t drive) (manage r t 15 (driveOfflineTaken r t drive)) s)

/-- DRIVE_RETRY (R36, R164). -/
def execDriveRetry (r t drive : Nat) (s : State) : Out :=
  .next (handOn (.driveRetry r t drive) (manage r t 16 (driveRetryTaken r t drive)) s)

/-- CLEAR_PICKER (R42, R164). -/
def execClearPicker (r t : Nat) (s : State) : Out :=
  .next (handOn (.clearPicker r t) (manage r t 17 (clearPickerTaken r t)) s)

/-- FILING_RESUME (R121, R164). -/
def execFilingResume (r t : Nat) (s : State) : Out :=
  .next (handOn (.filingResume r t) (manage r t 18 (filingResumeTaken r t)) s)

/-- RESTART (R183). -/
def execRestart (r t : Nat) (s : State) : Out := .next (handOn (.restart r t) (manage r t 19 (restartTaken r t)) s)

/-- CLEAR_FAULT (R171). -/
def execClearFault (r t : Nat) (s : State) : Out :=
  .next (handOn (.clearFault r t) (manage r t 20 (clearFaultTaken r t)) s)

/-! ### Queries -/

/-- QUERY_STATUS (R167). -/
def execQueryStatus (r t : Nat) (s : State) : Out :=
  .next (handOn (.queryStatus r t) (manage r t 21 (query r t 21 none statusReply)) s)

/-- QUERY_ACCOUNT (R150). -/
def execQueryAccount (r t number : Nat) (s : State) : Out :=
  .next (handOn (.queryAccount r t number)
    (manage r t 22 fun s => query r t 22 (s.accountQueryRefusal number) (accountReply number) s) s)

/-- QUERY_SIDE (R11, R73, R167). -/
def execQuerySide (r t side : Nat) (s : State) : Out :=
  .next (handOn (.querySide r t side)
    (manage r t 23 (query r t 23 (if 127 < side then some .badValue else none) (sideReply side))) s)

/-- QUERY_DRIVE (R20, R167). -/
def execQueryDrive (r t drive : Nat) (s : State) : Out :=
  .next (handOn (.queryDrive r t drive)
    (manage r t 24 (query r t 24 (if 3 < drive then some .badValue else none) (driveReply drive))) s)

/-- QUERY_CONTEXTS (R75, R167). -/
def execQueryContexts (r t : Nat) (s : State) : Out :=
  .next (handOn (.queryContexts r t) (manage r t 25 (query r t 25 none contextsReply)) s)

/-- QUERY_FILINGS (R123, R167). -/
def execQueryFilings (r t : Nat) (s : State) : Out :=
  .next (handOn (.queryFilings r t) (manage r t 26 (query r t 26 none filingsReply)) s)

/-- QUERY_SCHEDULES (R150, R167). -/
def execQuerySchedules (r t : Nat) (s : State) : Out :=
  .next (handOn (.querySchedules r t) (manage r t 27 (query r t 27 none schedulesReply)) s)

/-! ### Drives -/

/-- DRIVE_WAITING_TO_SEND (R19, R20, R21): the transfer of what the engine offers, a desync, or a flag on an unwatched
channel, also for an arrival behind the reset of its stall (log 64). -/
def execDriveWaitingToSend (d : Fin 4) (s : State) : Out :=
  match (s.drive d).meetSend with
  | .unwatched => .next (s.modDrive d fun x => { x with waitSend := true })
  | .transfer => .next (offerTaken d s)
  | .desync => .next (settle (channelFault d s))

/-- DATA_BLOCK (R24): the engine takes the block, or the channel is desynchronised (R21). On an unwatched channel, as behind the
reset of a stall (R22), the block is dropped and the flag rises (log 64). -/
def execDataBlock (d : Fin 4) (data : Sector) (s : State) : Out :=
  match (s.drive d).meetTake with
  | .unwatched => .next (s.modDrive d fun x => { x with waitTake := true })
  | .transfer => .next (publish (blockTaken d data s))
  | .desync => .next (settle (channelFault d s))

/-- RESULT (R25): the engine takes the result, or the channel is desynchronised (R21). On an unwatched channel, as behind the
reset of a stall (R22), the result is dropped and the flag rises (log 64). -/
def execResult (d : Fin 4) (res : DriveResult) (s : State) : Out :=
  match (s.drive d).meetTake with
  | .unwatched => .next (s.modDrive d fun x => { x with waitTake := true })
  | .transfer => .next (settle (resultTaken d res s))
  | .desync => .next (settle (channelFault d s))

/-- CHANNEL_STALL (R22, R23): the running stall timer of a channel expires. -/
def execChannelStall (d : Fin 4) (s : State) : Out :=
  match (s.drive d).stall with
  | none => .next s
  | some t => .next (settle (channelFault d (s.reach (t.start + t.limit))))

/-! ### Picker -/

/-- TAKEN_FROM_SLOT (R39). -/
def execTakenFromSlot (s : State) : Out := .next (pickerEvent .taken taken s)

/-- EMPTY_SLOT (R40). -/
def execEmptySlot (s : State) : Out := .next (pickerEvent .emptySlot (fun m s => settle (slotEmpty m s)) s)

/-- INSERTED (R39, R54, R56). -/
def execInserted (s : State) : Out := .next (pickerEvent .inserted insertedThen s)

/-- EJECTED (R39, R56). -/
def execEjected (s : State) : Out := .next (pickerEvent .ejected ejectedFrom s)

/-- PLACED (R39, R42). -/
def execPlaced (s : State) : Out := .next (pickerEvent .placed placedThen s)

/-- MOTION_DONE (R39). -/
def execMotionDone (s : State) : Out := .next (pickerEvent .done (fun m s => settle (motionDone m s)) s)

/-- OCCUPANCY (R43). -/
def execOccupancy (findings : List SlotFinding) (s : State) : Out :=
  .next (pickerEvent .occupancy (takeOccupancy findings) s)

/-- PICKER_FAULT (R38, R41): discarded in FAULT. -/
def execPickerFault (s : State) : Out :=
  .next (if s.lib.picker.state = .fault then s else settle (pickerReportsFault s))

/-! ### Time -/

/-- HOLD_BEGUN (R57, R112). -/
def execHoldBegun (s : State) : Out := .next (settle (holdBegins s))

/-- HOLD_ENDED (R57, R112). -/
def execHoldEnded (s : State) : Out := .next (settle (holdEnds s))

/-- IDLE_TIMER_EXPIRY (R55): an idle unmount order is made with the time of expiry as its age. The timer does not restart
until the drive next enters READY. -/
def execIdleTimerExpiry (d : Fin 4) (s : State) : Out :=
  match (s.drive d).idle with
  | none => .next s
  | some t =>
    .next (settle (newUnmount d false ((s.reach (t.start + t.limit)).modDrive d fun x => { x with idle := none })))

/-- HOLD_TIMER_EXPIRY (R91). -/
def execHoldTimerExpiry (c : Fin 16) (s : State) : Out := .next (holdExpired c s)

/-- GATHER_IDLE_EXPIRY (R107). -/
def execGatherIdleExpiry (f : Fin 8) (s : State) : Out := .next (settle (gatherExpired f s))

end Sys2Proof.Machine
end

