-- ==== Sys2Proof/Machine/Dispatch.lean ====
section
/-! DEFINITION. The meaning of each command, one arm per constructor. -/

namespace Sys2Proof.Machine

def exec (i : Instr) (s : State) : Host.Outcome State Fault Refusal :=
  match i with
  | .powerOnReset => Sys2Proof.Machine.execPowerOnReset s
  | .memoryCheckDone failed => Sys2Proof.Machine.execMemoryCheckDone failed s
  | .frameAdmission bytes => Sys2Proof.Machine.execFrameAdmission bytes s
  | .linkDown => Sys2Proof.Machine.execLinkDown s
  | .linkUp => Sys2Proof.Machine.execLinkUp s
  | .frameSent => Sys2Proof.Machine.execFrameSent s
  | .fetch r t body => Sys2Proof.Machine.execFetch r t body s
  | .hold r t => Sys2Proof.Machine.execHold r t s
  | .resume r t => Sys2Proof.Machine.execResume r t s
  | .cancel r t => Sys2Proof.Machine.execCancel r t s
  | .fileOpen r t => Sys2Proof.Machine.execFileOpen r t s
  | .page r t body => Sys2Proof.Machine.execPage r t body s
  | .fileEnd r t count => Sys2Proof.Machine.execFileEnd r t count s
  | .fileAbort r t => Sys2Proof.Machine.execFileAbort r t s
  | .bind r t => Sys2Proof.Machine.execBind r t s
  | .setState r t target abort => Sys2Proof.Machine.execSetState r t target abort s
  | .setParams r t values => Sys2Proof.Machine.execSetParams r t values s
  | .loadRequester r t id rights maxPriority contextLimit => Sys2Proof.Machine.execLoadRequester r t id rights maxPriority contextLimit s
  | .dropRequester r t id => Sys2Proof.Machine.execDropRequester r t id s
  | .loadSide r t load => Sys2Proof.Machine.execLoadSide r t load s
  | .loadRange r t first last side openFlag => Sys2Proof.Machine.execLoadRange r t first last side openFlag s
  | .clearRanges r t => Sys2Proof.Machine.execClearRanges r t s
  | .setNextInstrument r t value => Sys2Proof.Machine.execSetNextInstrument r t value s
  | .loadAccount r t number cls limit state resetTally => Sys2Proof.Machine.execLoadAccount r t number cls limit state resetTally s
  | .setAccountState r t number state => Sys2Proof.Machine.execSetAccountState r t number state s
  | .closeAccount r t number => Sys2Proof.Machine.execCloseAccount r t number s
  | .loadSchedule r t effective figures => Sys2Proof.Machine.execLoadSchedule r t effective figures s
  | .dayClose r t day => Sys2Proof.Machine.execDayClose r t day s
  | .driveOffline r t drive => Sys2Proof.Machine.execDriveOffline r t drive s
  | .driveRetry r t drive => Sys2Proof.Machine.execDriveRetry r t drive s
  | .clearPicker r t => Sys2Proof.Machine.execClearPicker r t s
  | .filingResume r t => Sys2Proof.Machine.execFilingResume r t s
  | .restart r t => Sys2Proof.Machine.execRestart r t s
  | .clearFault r t => Sys2Proof.Machine.execClearFault r t s
  | .queryStatus r t => Sys2Proof.Machine.execQueryStatus r t s
  | .queryAccount r t number => Sys2Proof.Machine.execQueryAccount r t number s
  | .querySide r t side => Sys2Proof.Machine.execQuerySide r t side s
  | .queryDrive r t drive => Sys2Proof.Machine.execQueryDrive r t drive s
  | .queryContexts r t => Sys2Proof.Machine.execQueryContexts r t s
  | .queryFilings r t => Sys2Proof.Machine.execQueryFilings r t s
  | .querySchedules r t => Sys2Proof.Machine.execQuerySchedules r t s
  | .driveWaitingToSend d => Sys2Proof.Machine.execDriveWaitingToSend d s
  | .dataBlock d data => Sys2Proof.Machine.execDataBlock d data s
  | .result d res => Sys2Proof.Machine.execResult d res s
  | .channelStall d => Sys2Proof.Machine.execChannelStall d s
  | .takenFromSlot => Sys2Proof.Machine.execTakenFromSlot s
  | .emptySlot => Sys2Proof.Machine.execEmptySlot s
  | .inserted => Sys2Proof.Machine.execInserted s
  | .ejected => Sys2Proof.Machine.execEjected s
  | .placed => Sys2Proof.Machine.execPlaced s
  | .motionDone => Sys2Proof.Machine.execMotionDone s
  | .occupancy findings => Sys2Proof.Machine.execOccupancy findings s
  | .pickerFault => Sys2Proof.Machine.execPickerFault s
  | .holdBegun => Sys2Proof.Machine.execHoldBegun s
  | .holdEnded => Sys2Proof.Machine.execHoldEnded s
  | .idleTimerExpiry d => Sys2Proof.Machine.execIdleTimerExpiry d s
  | .holdTimerExpiry c => Sys2Proof.Machine.execHoldTimerExpiry c s
  | .gatherIdleExpiry f => Sys2Proof.Machine.execGatherIdleExpiry f s

end Sys2Proof.Machine
end

