-- ==== Sys2Proof/Machine/Clock.lean ====
section
/-! DEFINITION. What the part does while no command waits (log 1): it hands on the oldest frame of its inbound buffer
(R154), or a millisecond passes and the timer events that have fallen due come into the queue (R22, R55, R57, R91, R107). -/

namespace Sys2Proof.Machine

/-- A timer has reached its limit. -/
def Timer.due (now : Nat) (t : Timer) : Bool := t.start + t.limit ≤ now

/-- The quiet hold events due (R57). -/
def State.holdDue (s : State) : List Instr :=
  match s.lib.windows with
  | [] => []
  | w :: _ =>
    if s.fil.hold then (if w.stop ≤ s.now then [.holdEnded] else [])
    else if w.start ≤ s.now then [.holdBegun] else []

/-- The timer events due at the present time: quiet holds, then stalls, idle timers, hold timers, gather idle timers. -/
def State.dueEvents (s : State) : List Instr :=
  s.holdDue
    ++ ((List.finRange 4).filter fun (d : Fin 4) => (s.drive d).stall.any (·.due s.now)).map Instr.channelStall
    ++ ((List.finRange 4).filter fun (d : Fin 4) => (s.drive d).idle.any (·.due s.now)).map Instr.idleTimerExpiry
    ++ ((List.finRange 16).filter fun (c : Fin 16) => (s.context c).timer.any (·.due s.now)).map Instr.holdTimerExpiry
    ++ ((List.finRange 8).filter fun (f : Fin 8) => (s.filing f).timer.any (·.due s.now)).map Instr.gatherIdleExpiry

/-- One millisecond passes. -/
def tick (s : State) : State :=
  let s1 : State := { s with now := s.now + 1 }
  { s1 with pending := s1.dueEvents }

/-- A frame of the inbound buffer is handed on (R154). -/
def handFrame (q : Request) (rest : List Request) (s : State) : Out :=
  match q with
  | .known i => exec i s
  | .unknown r t code => .next (manageUnknown r t code { s with rli.inbound := rest })

/-- The step of a part with no command waiting. -/
def idle (s : State) : Out :=
  match s.rli.inbound with
  | [] => .next (tick s)
  | q :: rest => if s.reservations < Config.controlLimit then handFrame q rest s else .next (tick s)

end Sys2Proof.Machine
end

