-- ==== Sys2Proof/Safety.lean ====
section
/-! DEFINITION. What counts as a sound state and a sound run of the part. -/

namespace Sys2Proof.Machine

/-- A value lies in a range and on its step (R163). -/
def onStep (low high step v : Nat) : Bool := low ≤ v && v ≤ high && v % step == 0

/-- The parameters in force lie in the ranges and on the steps of R163. -/
def Params.legal (p : Params) : Bool :=
  onStep 5000 600000 1000 p.idleUnmount && onStep 1000 600000 1000 p.holdLimit
    && onStep 60000 3600000 60000 p.gatherIdle && onStep 0 500 10 p.quietDelay
    && onStep 0 2000 10 p.quietDuration && onStep 1000 60000 1000 p.channelStall
    && onStep 0 3 1 p.filingPriority

/-- The tables have the sizes the reference gives: 128 side positions (R11), four drives, sixteen contexts (R75), eight
filing records (R101), three schedule slots (R145), 32 requester positions (R158). -/
def State.shaped (s : State) : Bool :=
  s.lib.sides.length == 128 && s.drives.length == 4 && s.ctx.length == 16 && s.fil.records.length == 8
    && s.tal.slots.length == 3 && s.mu.requesters.length == 32

/-- The counts of the request link lie within their ceilings (R152, R154, R155). -/
def Rli.counted (r : Rli) : Bool :=
  r.errors ≤ Config.countCeiling && r.downs ≤ Config.countCeiling && r.inbound.length ≤ Config.inboundLimit

/-- The figures of an account lie within the bounds of R132 to R134. -/
abbrev Account.bounded (a : Account) : Prop :=
  a.residue ≤ 9 ∧ a.charged ≤ Config.chargedCeiling ∧ a.dayPages ≤ Config.dayCeiling
    ∧ a.dayCents ≤ Config.dayCentsCeiling ∧ a.dayDeeds ≤ Config.dayCeiling

/-- A channel at no rendezvous has no command and no stall timer, and one at a rendezvous has both (R19, R20, R22). -/
abbrev Drive.channelSane (x : Drive) : Prop :=
  (x.channel = .idle ↔ x.current = none) ∧ (x.channel = .idle ↔ x.stall = none)

/-- A command that changes a side is a pass of the filing engine (R16, R31). -/
abbrev QueueEntry.ofEngine (e : QueueEntry) : Prop := e.op = .erase ∨ e.op = .write → e.issuer = .filing

/-- A drive whose channel agrees with its record, and on which no other block than the filing engine erases or writes: not
in its queue, not owed again, not in flight (R16, R19, R20, R22, R31). -/
abbrev Drive.sane (x : Drive) : Prop :=
  x.channelSane ∧ (∀ e ∈ x.queue, e.ofEngine) ∧ (∀ e, x.owed = some e → e.ofEngine)
    ∧ ∀ c, x.current = some c → c.entry.ofEngine

/-- The picker has a motion just while it is MOVING (R38). -/
abbrev Picker.sane (p : Picker) : Prop := p.state = .moving ↔ p.motion.isSome = true

/-- No notice kind is pending twice (R166). -/
abbrev noticesApart (ns : List Notice) : Prop := (ns.map (·.details.kind)).Nodup

/-- The quiet hold windows stand in time order, none touching another (R56). -/
abbrev windowsApart (ws : List Window) : Prop :=
  (∀ w ∈ ws, w.start ≤ w.stop) ∧ ws.Pairwise fun v w => v.stop < w.start

/-- At most one schedule slot has a role (R145). -/
abbrev roleOnce (r : Role) (slots : List Slot) : Prop := (slots.filter (·.role == r)).length ≤ 1

/-- A filing of the filing queue is QUEUED or WRITING (R108). -/
def FilingState.inQueue : FilingState → Bool
  | .queued | .writing => true
  | .free | .gathering => false

/-- An orderly state: what the reference's rules keep true of the part whatever is commanded. -/
structure State.orderly (s : State) : Prop where
  /-- The parameters lie in their ranges and on their steps (R163). -/
  params : s.mu.params.legal = true
  /-- The tables have their sizes. -/
  shaped : s.shaped = true
  /-- The counts of the link lie within their ceilings (R152, R154, R155). -/
  counted : s.rli.counted = true
  /-- A filing stands in the queue once (R108). -/
  queueApart : s.fil.queue.Nodup
  /-- The queue holds the QUEUED and WRITING filings (R108). -/
  queueHolds : ∀ f, f ∈ s.fil.queue ↔ (s.filing f).state.inQueue = true
  /-- At most 64 reservations are held (R153). -/
  reserved : s.reservations ≤ Config.controlLimit
  /-- At most one notice of a kind is pending (R166). -/
  notices : noticesApart s.rli.notices
  /-- The figures of every account lie within their bounds (R132 to R134). -/
  bounded : ∀ a ∈ s.tal.accounts, a.bounded
  /-- No two accounts have one number, and they stand in ascending order (R137). -/
  ordered : s.tal.accounts.Pairwise fun a b => a.number < b.number
  /-- The account table holds at most 1,024 records (R137). -/
  tabled : s.tal.accounts.length ≤ Config.accountLimit
  /-- A channel holds a command and a stall timer just while it is at a rendezvous (R19, R20, R22), and every ERASE and
  WRITE is a pass of the filing engine (R16). -/
  channels : ∀ x ∈ s.drives, x.sane
  /-- The picker has a motion just while it is MOVING (R38). -/
  picker : s.lib.picker.sane
  /-- The index cache holds at most 32 sectors (R65). -/
  cache : s.loc.cache.length ≤ Config.cacheLimit
  /-- The quiet hold windows are merged (R56). -/
  windows : windowsApart s.lib.windows
  /-- At most one schedule slot is ACTIVE (R145). -/
  active : roleOnce .active s.tal.slots
  /-- At most one schedule slot is PENDING (R145). -/
  waiting : roleOnce .waiting s.tal.slots

/-- A frame may be handed on at once: no frame waits before it, and fewer than 64 reservations are held (R154). -/
abbrev State.handsOn (s : State) : Prop := s.rli.inbound = [] ∧ s.reservations < Config.controlLimit

/-- A request of the bound manager passes the checks of R160: its tag names no request that awaits its reply, and the
service state admits its code (R161). -/
abbrev State.admits (s : State) (r t code : Nat) : Prop :=
  s.mu.manager = some r ∧ (s.mu.late.any fun l => l.requester == r && l.tag == t) = false
    ∧ codeAccepted code s.mu.service = true

/-- The header of a request command: requester id and tag. None for an event. -/
def requestHeader : Instr → Option (Nat × Nat)
  | .fetch r t _ | .hold r t | .resume r t | .cancel r t | .fileOpen r t | .page r t _ | .fileEnd r t _ | .fileAbort r t
  | .bind r t | .setState r t _ _ | .setParams r t _ | .loadRequester r t _ _ _ _ | .dropRequester r t _ | .loadSide r t _
  | .loadRange r t _ _ _ _ | .clearRanges r t | .setNextInstrument r t _ | .loadAccount r t _ _ _ _ _
  | .setAccountState r t _ _ | .closeAccount r t _ | .loadSchedule r t _ _ | .dayClose r t _ | .driveOffline r t _
  | .driveRetry r t _ | .clearPicker r t | .filingResume r t | .restart r t | .clearFault r t | .queryStatus r t
  | .queryAccount r t _ | .querySide r t _ | .queryDrive r t _ | .queryContexts r t | .queryFilings r t
  | .querySchedules r t => some (r, t)
  | .powerOnReset | .memoryCheckDone _ | .frameAdmission _ | .linkDown | .linkUp | .frameSent | .driveWaitingToSend _
  | .dataBlock _ _ | .result _ _ | .channelStall _ | .takenFromSlot | .emptySlot | .inserted | .ejected | .placed
  | .motionDone | .occupancy _ | .pickerFault | .holdBegun | .holdEnded | .idleTimerExpiry _ | .holdTimerExpiry _
  | .gatherIdleExpiry _ => none

/-- The request code of a management request (11.3). None for any other command. -/
def manageCode : Instr → Option Nat
  | .bind _ _ => some 1
  | .setState _ _ _ _ => some 2
  | .setParams _ _ _ => some 3
  | .loadRequester _ _ _ _ _ _ => some 4
  | .dropRequester _ _ _ => some 5
  | .loadSide _ _ _ => some 6
  | .loadRange _ _ _ _ _ _ => some 7
  | .clearRanges _ _ => some 8
  | .setNextInstrument _ _ _ => some 9
  | .loadAccount _ _ _ _ _ _ _ => some 10
  | .setAccountState _ _ _ _ => some 11
  | .closeAccount _ _ _ => some 12
  | .loadSchedule _ _ _ _ => some 13
  | .dayClose _ _ _ => some 14
  | .driveOffline _ _ _ => some 15
  | .driveRetry _ _ _ => some 16
  | .clearPicker _ _ => some 17
  | .filingResume _ _ => some 18
  | .restart _ _ => some 19
  | .clearFault _ _ => some 20
  | .queryStatus _ _ => some 21
  | .queryAccount _ _ _ => some 22
  | .querySide _ _ _ => some 23
  | .queryDrive _ _ _ => some 24
  | .queryContexts _ _ => some 25
  | .queryFilings _ _ => some 26
  | .querySchedules _ _ => some 27
  | .fetch _ _ _ | .hold _ _ | .resume _ _ | .cancel _ _ | .fileOpen _ _ | .page _ _ _ | .fileEnd _ _ _ | .fileAbort _ _
  | .powerOnReset | .memoryCheckDone _ | .frameAdmission _ | .linkDown | .linkUp | .frameSent | .driveWaitingToSend _
  | .dataBlock _ _ | .result _ _ | .channelStall _ | .takenFromSlot | .emptySlot | .inserted | .ejected | .placed
  | .motionDone | .occupancy _ | .pickerFault | .holdBegun | .holdEnded | .idleTimerExpiry _ | .holdTimerExpiry _
  | .gatherIdleExpiry _ => none

/-- A pass of the engine is made due in `v` (R112): it is WITHHELD while a quiet hold is in force or due, and placed behind
the queue of the drive that holds side `n` otherwise, with the frames it writes. A side that no READY or ACTIVE drive holds
is left to `queuePass`. -/
def passDue (v : State) (n : Nat) (op : DriveOp) (number first count : Nat) (data : List Sector) (u : State) : Prop :=
  let p : Pass := { number := number, op := op, first := first, count := count, state := .withheld, disturbed := false }
  (v.fil.hold = true ∨ (∃ w ws, v.lib.windows = w :: ws ∧ w.start ≤ v.now) → u = { v with fil.pass := some p })
    ∧ (v.fil.hold = false → (∀ w ws, v.lib.windows = w :: ws → v.now < w.start) → ∀ d, v.mountedReady n = some d →
      u = { v with
        fil.pass := some { p with state := .queued }
        drives := v.drives.modify d fun x => { x with queue := x.queue ++ [{ issuer := .filing, op := op, first := first
                                                                             count := count, data := data, priority := 0
                                                                             age := v.now, retries := 0, notReady := 0
                                                                             have_ := 0 }] } })

/-- The range table as R59 wants it: at most 512 entries, no two sharing an instrument, at most one open, and the open one above
every closed one. -/
abbrev rangesKept (rs : List RangeEntry) : Prop :=
  rs.length ≤ Config.rangeLimit ∧ rs.Pairwise (fun a b => a.overlaps b = false) ∧ (rs.filter (·.openFlag)).length ≤ 1
    ∧ ∀ o ∈ rs, o.openFlag = true → ∀ x ∈ rs, x.openFlag = false → x.last < o.first

/-- The counts of the tally unit agree with the contexts: an account counts the active contexts on it, a schedule slot the live
contexts that hold its generation (R76, R137, R146). -/
abbrev State.countsAgree (s : State) : Prop :=
  (∀ a ∈ s.tal.accounts, a.inFlight = (s.contextsWhere fun x => x.state.active && x.account == a.number).length)
    ∧ ∀ y ∈ s.tal.slots, y.role ≠ .empty →
      y.refs = (s.contextsWhere fun x => x.state.live && x.generation == some y.generation).length

end Sys2Proof.Machine
end

