-- ==== Sys2Proof/Certificates/Slice0/Obligations.lean ====
section
/-! DEFINITION. The statements for the provers. Each docstring names the rules it formalises. Where a statement rests on a
choice of the model, its docstring names the row of the assumption log. -/

open Sys2Proof Sys2Proof.Machine

/-! ### Steps -/

/-- A step runs the command at the front of the queue, on the state with the rest of the queue. -/
def Obligations.StepRunsFront : Prop :=
  ∀ (c : Instr) (rest : List Instr) (s : State), s.pending = c :: rest → step s = exec c { s with pending := rest }

/-- The model's choice (log 1) of what a step with no command waiting is. The oldest frame of the inbound buffer is handed on
while fewer than 64 reservations are held (R154): a known request as its command, an unknown management code refused
BAD-VALUE to the manager (R160 check 4). Otherwise a millisecond passes, and the timer events then due come into the
queue. -/
def Obligations.IdleStepHandsOnOrTicks : Prop :=
  ∀ s : State, s.pending = [] →
    (s.reservations < Config.controlLimit →
      (∀ i qs, s.rli.inbound = .known i :: qs → step s = exec i s)
      ∧ ∀ r t code qs, s.rli.inbound = .unknown r t code :: qs → code ≠ 1 → s.mu.manager = some r →
        step s = .next (publish (reject r t code .badValue { s with rli.inbound := qs })))
      ∧ (s.rli.inbound = [] ∨ Config.controlLimit ≤ s.reservations →
        step s = .next { s with now := s.now + 1, pending := State.dueEvents { s with now := s.now + 1 } })

/-- No command stops the part: each has a next state, in every state, and none touches the queue of the commands that
wait. -/
def Obligations.NoCommandStops : Prop := ∀ (i : Instr) (s : State), ∃ t, exec i s = .next t ∧ t.pending = s.pending

/-! ### Power-on reset -/

/-- POWER_ON_RESET gives every block its power-on values (R17, R23, R37, R58, R74, R99, R124, R151, R163, R168, R170). The
command queue and the line's link state stay. -/
def Obligations.PowerOnResetValues : Prop :=
  ∀ s : State, ∃ t, exec .powerOnReset s = .next t ∧ t.pending = s.pending
    ∧ (t.rli.link = s.rli.link ∧ t.rli.inbound = [] ∧ t.rli.control = [] ∧ t.rli.transmitter = none ∧ t.rli.notices = []
      ∧ t.rli.errors = 0 ∧ t.rli.downs = 0 ∧ t.rli.lastServed = 15)
    ∧ (t.mu.service = .startup ∧ t.mu.drain = none ∧ t.mu.manager = none ∧ t.mu.requesters = List.replicate 32 none
      ∧ t.mu.startFinding = .none ∧ t.mu.recoveryFinding = .none ∧ t.mu.late = []
      ∧ t.mu.params = { idleUnmount := 60000, holdLimit := 120000, gatherIdle := 900000, quietDelay := 40
                        quietDuration := 300, channelStall := 10000, filingPriority := 1 })
    ∧ (t.lib.sides = List.replicate 128 none ∧ t.lib.orders = [] ∧ t.lib.windows = [] ∧ t.lib.picker.state = .parked
      ∧ t.lib.picker.held = none ∧ t.lib.picker.motion = none ∧ t.lib.picker.occupancy = List.replicate 64 .unknown)
    ∧ (∀ d < 4, (t.drive d).channel = .idle ∧ (t.drive d).waitTake = false ∧ (t.drive d).waitSend = false
      ∧ (t.drive d).queue = [] ∧ (t.drive d).current = none ∧ (t.drive d).cartridge = none
      ∧ (t.drive d).offlinePending = false ∧ (t.drive d).lastGranted = none)
    ∧ (t.loc.ranges = [] ∧ t.loc.cache = [] ∧ t.loc.entries = [])
    ∧ (∀ c < 16, (t.context c).state = .free)
    ∧ (t.fil.nNext = none ∧ t.fil.halt = none ∧ t.fil.activity = .idle ∧ t.fil.queue = [] ∧ t.fil.hold = false
      ∧ t.fil.pass = none ∧ t.fil.opening = none ∧ t.fil.closeOwed = none ∧ ∀ f < 8, (t.filing f).state = .free)
    ∧ (t.tal.accounts = [] ∧ t.tal.feeDay = 0 ∧ t.tal.nextGeneration = 1 ∧ t.tal.slots.length = 3
      ∧ ∀ x ∈ t.tal.slots, x.role = .empty)

/-- The state right after reset is orderly. -/
def Obligations.ResetIsOrderly : Prop := State.reset.orderly

/-! ### What every step keeps -/

/-- Every step from an orderly state ends in an orderly state, whatever is commanded: parameters in their ranges (R163),
tables and counts in their bounds (R65, R75, R101, R137, R152, R154, R155), the filing queue (R108), at most 64
reservations (R153), one notice of a kind (R166), account figures (R132 to R134), one record for an account number (R137),
channels (R19, R20, R22), no ERASE or WRITE but passes of the filing engine (R16), the picker's motion (R38), merged
windows (R56), one ACTIVE and one PENDING slot (R145). Every frame the part composes finds a reserved place: the list of 64
places never overflows (R153). -/
def Obligations.OrderlyKept : Prop :=
  ∀ s t : State, s.orderly → step s = .next t → t.orderly ∧ t.rli.control.length ≤ 64

/-- The parameters are written by SET_PARAMS alone (R163), the binding by BIND alone (R160), the requester table by
LOAD_REQUESTER and DROP_REQUESTER alone (R158, R159). The quiet hold windows are written by INSERTED, EJECTED and
HOLD_ENDED alone (R56, R57), the hold by HOLD_BEGUN and HOLD_ENDED alone (R57, R112), the link state and its count by the
line alone (R155), the error count by the admission of frames alone (R152), the memory check by MEMORY_CHECK_DONE alone
(R170). POWER_ON_RESET resets them (R168). -/
def Obligations.TablesWrittenOnlyByTheirCommands : Prop :=
  ∀ (i : Instr) (s t : State), exec i s = .next t → i ≠ .powerOnReset →
    (t.mu.params = s.mu.params ∨ ∃ r g v, i = .setParams r g v)
      ∧ (t.mu.manager = s.mu.manager ∨ ∃ r g, i = .bind r g)
      ∧ (t.mu.requesters = s.mu.requesters ∨ (∃ r g n x p l, i = .loadRequester r g n x p l)
          ∨ ∃ r g n, i = .dropRequester r g n)
      ∧ (t.lib.windows = s.lib.windows ∨ i = .inserted ∨ i = .ejected ∨ i = .holdEnded)
      ∧ (t.fil.hold = s.fil.hold ∨ i = .holdBegun ∨ i = .holdEnded)
      ∧ (t.rli.link = s.rli.link ∨ i = .linkDown ∨ i = .linkUp) ∧ (t.rli.downs = s.rli.downs ∨ i = .linkDown)
      ∧ (t.rli.errors = s.rli.errors ∨ ∃ bs, i = .frameAdmission bs)
      ∧ (t.memory = s.memory ∨ ∃ f, i = .memoryCheckDone f)

/-- The fee day is written by DAY_CLOSE alone (R148), the generation to come by LOAD_SCHEDULE alone (R145). Of an account
record, its being there, its number, class, limit and previous day's figures and its leaving of STOPPED belong to
LOAD_ACCOUNT, SET_ACCOUNT_STATE, CLOSE_ACCOUNT and DAY_CLOSE alone (R138 to R142, R148). Of charged, residue, the day's
figures and the in-flight count, which deliveries write too (R88, R137, R143), nothing is said here. -/
def Obligations.AccountStandingWrittenOnlyByItsRequests : Prop :=
  ∀ (i : Instr) (s t : State), exec i s = .next t → i ≠ .powerOnReset →
    (t.tal.feeDay = s.tal.feeDay ∨ ∃ r g d, i = .dayClose r g d)
      ∧ (t.tal.nextGeneration = s.tal.nextGeneration ∨ ∃ r g e fs, i = .loadSchedule r g e fs)
      ∧ ((List.Forall₂ (fun a b : Account => b.number = a.number ∧ b.cls = a.cls ∧ b.limit = a.limit
            ∧ b.prevPages = a.prevPages ∧ b.prevCents = a.prevCents ∧ b.prevDeeds = a.prevDeeds
            ∧ (a.state = .stopped → b.state = .stopped)) s.tal.accounts t.tal.accounts)
          ∨ (∃ r g n c l x b, i = .loadAccount r g n c l x b) ∨ (∃ r g n x, i = .setAccountState r g n x)
          ∨ (∃ r g n, i = .closeAccount r g n) ∨ ∃ r g d, i = .dayClose r g d)

/-- Apart from LOAD_SIDE no command makes, removes or renames a side record: the serial stays, a skip list only grows
behind its entries, spoiled never falls, index-incomplete is never taken back (R6, R10, R11, R17, R18), neither the data
high mark nor W falls, and the index low mark never rises (R7, R8, R16). -/
def Obligations.SideRecordsOnlyAccumulate : Prop :=
  ∀ (i : Instr) (s t : State), exec i s = .next t → i ≠ .powerOnReset → (∀ r g l, i ≠ .loadSide r g l) →
    List.Forall₂ (fun a b : Option SideRecord => (a = none ∧ b = none)
      ∨ ∃ x y, a = some x ∧ b = some y ∧ y.serial = x.serial ∧ x.skips <+: y.skips ∧ x.spoiled ≤ y.spoiled
        ∧ (x.incomplete = true → y.incomplete = true) ∧ x.dataHigh ≤ y.dataHigh ∧ x.written ≤ y.written
        ∧ y.indexLow ≤ x.indexLow) s.lib.sides t.lib.sides

/-- The write-once law (R8, R9, R16, R111, R118 to R120). Every pass the engine places is an entry of its own behind the
queue of the drive that holds its side, and erases, writes or verifies just these sectors: of an attempt its extent, the
body and then the trailer sector; of a flush or a close the one sector at the index low mark; of an opening sector 0. An
attempt that starts where the space test holds takes its extent from the data high mark upward, which rises behind it, and
leaves the 16 guard sectors below the index low mark; the index low mark lies below every index sector written. -/
def Obligations.PassesKeepWriteOnceLaw : Prop :=
  (∀ (s : State) (n d : Nat) (p : Pass), s.passPlan n = some p → s.sequenceSide.bind s.mountedReady = some d →
    ∃ e : QueueEntry, queuePass p s = { s with
        fil.pass := some { p with state := .queued }, drives := s.drives.modify d fun x => { x with queue := x.queue ++ [e] } }
      ∧ e.issuer = .filing ∧ e.op = p.op ∧ e.first = p.first ∧ e.count = p.count
      ∧ p.number = n ∧ (n % 3 = 1 → p.op = .erase) ∧ (n % 3 = 2 → p.op = .write) ∧ (n % 3 = 0 → p.op = .verify)
      ∧ (s.fil.activity = .attempt → ∃ f, s.fil.queue.head? = some f ∧ ∀ a b, (s.filing f).extentStart = some a →
        (s.filing f).body = some b →
        (n ≤ 3 → p.first = a ∧ p.count = b) ∧ (4 ≤ n → p.first = a + b ∧ p.count = 1))
      ∧ (s.fil.activity = .flush ∨ s.fil.activity = .closing → ∃ m r, s.openSide = some m ∧ s.side m = some r
        ∧ p.first = r.indexLow ∧ p.count = 1)
      ∧ (s.fil.activity = .opening → p.first = 0 ∧ p.count = 1))
    ∧ (∀ (s : State) (f n : Nat) (r : SideRecord) (b : Nat), s.side n = some r → f < s.fil.records.length →
      s.fil.queue.head? = some f → (s.filing f).body = some b → r.fits b (s.pendingOf n).length = true →
      ∃ r', (startAttempt f n s).side n = some r' ∧ r'.dataHigh = r.dataHigh + b + 1 ∧ r'.indexLow = r.indexLow
        ∧ r'.dataHigh + 16 ≤ r'.indexLow
        ∧ ∀ p, (startAttempt f n s).fil.pass = some p → p.op = .erase ∧ p.first = r.dataHigh ∧ p.count = b)
    ∧ ∀ r : SideRecord, r.written + r.skips.length ≤ 299999 → ∀ j < r.written, r.indexLow < r.indexPosition j

/-- The service state changes only so (R162, R169, R170, R172, R179, R180, R183): an ending of start-up, of an OPENING or of
a drain comes with any event; FAULT comes with a failed memory check, every other change with a SET_STATE or a RESTART from
a state that admits it. -/
def Obligations.ServiceChangesOnlyAsListed : Prop :=
  ∀ (i : Instr) (s t : State), exec i s = .next t → i ≠ .powerOnReset → t.mu.service ≠ s.mu.service →
    (t.mu.service = .standby ∧ (s.mu.service = .startup ∨ s.mu.service = .opening ∨ s.mu.service = .draining))
      ∨ (t.mu.service = .serving ∧ s.mu.service = .opening)
      ∨ (t.mu.service = .fault ∧ s.mu.service = .startup ∧ ∃ f, i = .memoryCheckDone (some f))
      ∨ ((∃ r g x b, i = .setState r g x b)
          ∧ ((s.mu.service = .standby ∧ (t.mu.service = .opening ∨ t.mu.service = .serving ∨ t.mu.service = .quiescent))
            ∨ (s.mu.service = .serving ∧ (t.mu.service = .draining ∨ t.mu.service = .standby))
            ∨ (s.mu.service = .quiescent ∧ t.mu.service = .standby)))
      ∨ ((∃ r g, i = .restart r g)
          ∧ (s.mu.service = .standby ∨ s.mu.service = .opening ∨ s.mu.service = .serving)
          ∧ (t.mu.service = .draining ∨ t.mu.service = .standby))

/-! ### The part and the link -/

/-- MEMORY_CHECK_DONE in STARTUP with the check running (R170): a failed frame leads to FAULT with the finding MEMORY and its
STATE-CHANGED; a passed check starts HOME, owes an INVENTORY and places a probe's LABEL behind a channel reset on every
drive. What else follows is the work of `settle`. -/
def Obligations.MemoryCheckEndsStartUp : Prop :=
  ∀ s : State, s.memory = .running → s.mu.service = .startup →
    (∀ f, ∃ t, exec (.memoryCheckDone (some f)) s = .next t ∧ t.memory = .failed ∧ t.mu.service = .fault
      ∧ t = settle (raise_ (.stateChanged .startup .fault .startUp)
          { s with memory := .failed, mu.startFinding := .memory f, mu.service := .fault }))
      ∧ ∃ t u, exec (.memoryCheckDone none) s = .next t ∧ t = settle u ∧ t.memory = .passed ∧ u.lib.picker.state = .moving
        ∧ u.lib.picker.motion = some { kind := .home, order := none, served := none, cartridge := s.lib.picker.held
                                       drive := none, face := none, last := none, started := true }
        ∧ u.lib.picker.inventoryOwed = true
        ∧ ∀ d, d < 4 → d < s.drives.length →
          (u.drive d).channel = .idle ∧ (u.drive d).waitTake = false ∧ (u.drive d).waitSend = false
            ∧ (u.drive d).queue = (s.drive d).queue ++ [{ issuer := .probe, op := .label, first := 0, count := 1, data := []
                                                          priority := 0, age := s.now, retries := 0, notReady := 0
                                                          have_ := 0 }]

/-- FRAME_ADMISSION on a link that is UP with a free place (R152, R154): a frame that passes the checks joins the tail of the
inbound buffer, any other is counted, held at 65,535, and changes nothing else. A frame whose check fails, whose kind is not
inbound, whose requester id is above 31, or whose body length is above 8,220 or not allowed for its kind does not pass. -/
def Obligations.FramesAdmittedOrCounted : Prop :=
  ∀ (s : State) (bytes : List Byte), s.rli.link = .up → s.rli.inbound.length < Config.inboundLimit →
    (∀ q, readFrame bytes = some q →
      exec (.frameAdmission bytes) s = .next { s with rli.inbound := s.rli.inbound ++ [q] })
      ∧ (readFrame bytes = none →
        exec (.frameAdmission bytes) s = .next { s with rli.errors := min (s.rli.errors + 1) 65535 })
      ∧ ((crc16 (bytes.take (bytes.length - 2))).toNat ≠ fieldAt bytes (bytes.length - 2) 2
          ∨ fieldAt bytes 0 1 = 0 ∨ 9 < fieldAt bytes 0 1 ∨ 31 < fieldAt bytes 1 1 ∨ 8220 < fieldAt bytes 4 2
          ∨ bodyLengthAllowed (fieldAt bytes 0 1) (fieldAt bytes 4 2) = false → readFrame bytes = none)

/-- A frame laid out as R185 says, with its CRC, is read as the request it spells, for every inbound kind, requester id, tag
and body of an allowed length: no bit of header or body is dropped. -/
def Obligations.FramesReadAsSent : Prop :=
  ∀ (kind r t : Nat) (body : List Byte), 1 ≤ kind → kind ≤ 9 → r ≤ 31 → t < 65536 →
    bodyLengthAllowed kind body.length = true →
    ∀ covered : List Byte,
      covered = bigEndian 1 kind ++ bigEndian 1 r ++ bigEndian 2 t ++ bigEndian 2 body.length ++ body →
      readFrame (covered ++ bigEndian 2 (crc16 covered).toNat) = some (readRequest kind r t body)

/-- The line (R92, R155, R156). LINK_DOWN on a link that is UP is counted, and every live context is held by LINK; its timer
starts with the hold limit in force unless it is held already. LINK_UP on a link that is DOWN takes the cause away, and a
timer stops unless the cause HOLD is left; the frame in the transmitter stays for its resending. FRAME_SENT on a link that
is UP empties the transmitter. -/
def Obligations.LineEvents : Prop :=
  ∀ s : State,
    (s.rli.link = .up →
      exec .linkDown s = .next { s with
        rli.link := .down
        rli.downs := min (s.rli.downs + 1) 65535
        ctx := s.ctx.map fun x =>
          if x.state = .mountWait ∨ x.state = .locating ∨ x.state = .streaming then
            { x with heldByLink := true
                     timer := if x.heldByHold = true ∨ x.heldByLink = true then x.timer
                       else some { start := s.now, limit := s.mu.params.holdLimit } }
          else x })
      ∧ (s.rli.link = .down → exec .linkUp s = .next (settle { s with
        rli.link := .up
        ctx := s.ctx.map fun x =>
          if x.state = .mountWait ∨ x.state = .locating ∨ x.state = .streaming then
            { x with heldByLink := false, timer := if x.heldByHold = true then x.timer else none }
          else x }))
      ∧ (s.rli.link = .up → s.rli.transmitter.isSome = true →
        exec .frameSent s = .next (settle { s with rli.transmitter := none }))

/-! ### Contexts -/

/-- A request command behind waiting frames (log 2): one that is not the oldest frame of the inbound buffer joins its tail
while 16 frames do not wait, and one that waits there as the oldest is handed on as if it stood alone (R154). -/
def Obligations.RequestsWaitTheirTurn : Prop :=
  ∀ (i : Instr) (s : State) (q : Request) (qs : List Request) (h : Nat × Nat), requestHeader i = some h →
    s.rli.inbound = q :: qs →
    (q ≠ .known i → s.rli.inbound.length < Config.inboundLimit →
      exec i s = .next { s with rli.inbound := s.rli.inbound ++ [.known i] })
      ∧ (q = .known i → s.reservations < Config.controlLimit → qs = [] →
        exec i s = exec i { s with rli.inbound := [] })
      ∧ (q = .known i → Config.controlLimit ≤ s.reservations → exec i s = .next s)

/-- An accepted FETCH (R78 to R80, R46, R92): the lowest-numbered FREE context takes the request in MOUNT-WAIT, with the
class of the account, the generation of the ACTIVE schedule for a COPY, and the priority asked, at most the requester's; it
is held by LINK while the line is DOWN; the slot of its generation gains a reference and the account a delivery in flight.
The library unit's answer to the need for the side is then applied (`applyAnswer`), and the work that follows goes on. -/
def Obligations.FetchAccepted : Prop :=
  ∀ (s : State) (r t : Nat) (b : FetchBody) (q : Requester) (a : Account) (c side k : Nat),
    s.handsOn → fetchValid b = true → s.mu.service = .serving →
    s.requester r = some q → (if b.kind = 0 then q.rights.copy else q.rights.view) = true →
    (∀ i < 16, (s.context i).state ≠ .free → ¬((s.context i).requester = r ∧ (s.context i).tag = t)) →
    s.activeOf r < q.contextLimit →
    c < 16 → (s.context c).state = .free → (∀ i < c, (s.context i).state ≠ .free) →
    s.account b.account = some a → (b.kind = 0 → a.state = .opened) →
    s.lookup b.instrument = some (side, k) → s.answerNeed side true ≠ .unavailable →
    ∃ u, exec (.fetch r t b) s = .next (settle (applyAnswer c side u))
      ∧ { u with ctx := s.ctx, tal.accounts := s.tal.accounts, tal.slots := s.tal.slots } = s
      ∧ u.tal.accounts = s.tal.accounts.map (fun x => if x.number = b.account then { x with inFlight := x.inFlight + 1 } else x)
      ∧ (b.kind ≠ 0 ∨ s.activeSlot = none → u.tal.slots = s.tal.slots)
      ∧ (∀ x, b.kind = 0 → s.activeSlot = some x → u.tal.slots = s.tal.slots.map fun y =>
          if y.role ≠ .empty ∧ y.generation = x.generation then { y with refs := y.refs + 1 } else y)
      ∧ u.ctx = s.ctx.modify c fun _ =>
          { Context.reset with
            state := .mountWait, requester := r, tag := t, kind := if b.kind = 0 then .copy else .view
            certified := b.certified, account := b.account, feeClass := a.cls
            generation := if b.kind = 0 then s.activeSlot.map (·.generation) else none
            priority := min b.priority q.maxPriority, instrument := b.instrument, side := side, k := k
            selection := b.places.take b.rangeCount
            heldByLink := s.rli.link == .down
            timer := if s.rli.link = .down then some { start := s.now, limit := s.mu.params.holdLimit } else none }

/-- A refused FETCH (R79): the first check that fails gives the reason of the REFUSED frame, and no context is taken. -/
def Obligations.FetchRefused : Prop :=
  ∀ (s : State) (r t : Nat) (b : FetchBody), s.handsOn →
    let right : Bool := (s.requester r).any fun q => if b.kind = 0 then q.rights.copy else q.rights.view
    let same : Bool := (List.range 16).any fun c =>
      (s.context c).state != .free && (s.context c).requester == r && (s.context c).tag == t
    let full : Bool := decide (((s.requester r).map (·.contextLimit)).getD 0 ≤ s.activeOf r)
    let none_ : Bool := (List.range 16).all fun c => (s.context c).state != .free
    (fetchValid b = false → exec (.fetch r t b) s = .next (publish (refuse r t .badValue 1 s)))
      ∧ (fetchValid b = true →
        (s.mu.service ≠ .serving → exec (.fetch r t b) s = .next (publish (refuse r t .notServing 1 s)))
        ∧ (s.mu.service = .serving →
          (right = false → exec (.fetch r t b) s = .next (publish (refuse r t .noRight 1 s)))
          ∧ (right = true →
            (same = true → exec (.fetch r t b) s = .next (publish (refuse r t .duplicateTag 1 s)))
            ∧ (same = false → full = true → exec (.fetch r t b) s = .next (publish (refuse r t .requesterLimit 1 s)))
            ∧ (same = false → full = false → none_ = true → exec (.fetch r t b) s = .next (publish (refuse r t .busy 1 s)))
            ∧ (same = false → full = false → none_ = false →
              (s.account b.account = none → exec (.fetch r t b) s = .next (publish (refuse r t .noAccount 1 s)))
              ∧ ∀ a, s.account b.account = some a →
                (b.kind = 0 → a.state = .stopped → exec (.fetch r t b) s = .next (publish (refuse r t .accountStopped 1 s)))
                ∧ (b.kind ≠ 0 ∨ a.state = .opened →
                  (s.lookup b.instrument = none → exec (.fetch r t b) s = .next (publish (refuse r t .notFound 1 s)))
                  ∧ ∀ side k, s.lookup b.instrument = some (side, k) → s.answerNeed side true = .unavailable →
                    exec (.fetch r t b) s = .next (publish (refuse r t .unavailable 1 s)))))))

/-- HOLD, RESUME and CANCEL name the one live context of their requester and tag (R89, R90, R93). HOLD gives it the cause
HOLD, and the hold timer starts when it had no hold cause; a second HOLD changes nothing. RESUME takes the cause away, and
the timer stops when no cause is left. CANCEL ends it CANCELLED. Without such a context each is refused NO-CONTEXT. -/
def Obligations.LiveContextRequests : Prop :=
  ∀ (s : State) (r t : Nat), s.handsOn →
    let named : Nat → Prop := fun c =>
      (s.context c).state.live = true ∧ (s.context c).requester = r ∧ (s.context c).tag = t
    (∀ c < 16, named c → (∀ i < 16, i ≠ c → ¬named i) →
      exec (.hold r t) s = .next { s with
          ctx := s.ctx.modify c fun x =>
            { x with heldByHold := true
                     timer := if x.heldByHold = true ∨ x.heldByLink = true then x.timer
                       else some { start := s.now, limit := s.mu.params.holdLimit } } }
        ∧ exec (.resume r t) s = .next (settle { s with
          ctx := s.ctx.modify c fun x =>
            { x with heldByHold := false, timer := if x.heldByLink = true then x.timer else none } })
        ∧ exec (.cancel r t) s = .next (settle (endContext c .cancelled s)))
      ∧ ((∀ c < 16, ¬named c) →
        exec (.hold r t) s = .next (publish (refuse r t .noContext 2 s))
          ∧ exec (.resume r t) s = .next (publish (refuse r t .noContext 3 s))
          ∧ exec (.cancel r t) s = .next (publish (refuse r t .noContext 4 s)))

/-- The ending of a live context and its release (R97, R98, R129, R144, R146). At the ending it turns ENDING with its
outcome; holds, timer, parking, locate and holding sectors go, frames of a read already issued stay filling; it leaves every
order, drive and queue; the account of a COPY with pages delivered gets the charge, no other account changes, and a posting
that stops the account raises ACCOUNT-STOPPED; the slot of its generation loses a reference, and a RETIRED slot with none
left becomes EMPTY; the last frame of the control list is its DONE, with the charge and the cents posted. No other context
changes. That every field R97 does not name keeps its value in ENDING, primed among them, is the model's choice (log 32), as
is that an offered read counts as issued (log 22). In ENDING, once the DONE has been handed to the link and no read is
outstanding, the context becomes FREE and its account's in-flight count falls by one; until then nothing changes. -/
def Obligations.EndingLeavesContext : Prop :=
  (∀ (s : State) (c : Nat) (o : Ending), c < s.ctx.length → (s.context c).state.live = true →
    let x := s.context c
    let u := endContext c o s
    let q := deedCharge (s.figures x.generation x.feeClass) x.kind x.delivered x.subtotal x.certified o
    let issued : Prop := x.read = .offered ∨ x.read = .inFlight
    u.context c = { x with
        state := .ending, outcome := some o, timer := none, heldByHold := false, heldByLink := false, parked := false
        locate := none, holding := []
        filling := if issued then x.filling else 0
        read := if issued then x.read else .none }
      ∧ (∀ i, i ≠ c → u.context i = s.context i)
      ∧ (∀ p ∈ u.lib.orders, c ∉ p.waiters)
      ∧ (∀ d ∈ u.drives, c ∉ d.attached ∧ c ∉ d.incoming ∧ ∀ e ∈ d.queue, e.issuer ≠ .page c ∧ e.issuer ≠ .locate c)
      ∧ u.tal.accounts = s.tal.accounts.map (fun a =>
          if x.kind = .copy ∧ 1 ≤ x.delivered ∧ a.number = x.account then stopTest (postFigures a q) else a)
      ∧ (x.generation = none → u.tal.slots = s.tal.slots)
      ∧ (∀ g, x.generation = some g → u.tal.slots = s.tal.slots.map fun y =>
          if y.role = .empty ∨ y.generation ≠ g then y
          else if y.role = .retired ∧ y.refs ≤ 1 then Slot.reset else { y with refs := y.refs - 1 })
      ∧ (∀ a, x.kind = .copy → 1 ≤ x.delivered → s.account x.account = some a → a.state = .opened →
          let b := postFigures a q
          (stopTest b).state = .stopped → s.mu.manager ≠ none →
          ∃ n ∈ u.rli.notices, n.details = .accountStopped a.number
            (if 999999999999 ≤ b.charged then .ceiling else .limit) b.charged b.limit)
      ∧ (x.kind = .view ∨ x.delivered = 0 → u.rli.notices = s.rli.notices)
      ∧ ∃ n cents, u.rli.control = s.rli.control ++ [{ seq := n, frame :=
            { requester := x.requester, tag := x.tag, body := .done o x.delivered q cents x.generation } }]
          ∧ (x.kind = .view ∨ x.delivered = 0 → cents = 0)
          ∧ ∀ a, x.kind = .copy → 1 ≤ x.delivered → s.account x.account = some a → cents = (q + a.residue) / 10)
    ∧ ∀ (s : State) (c : Nat), c < s.ctx.length → (s.context c).state = .ending →
      ((s.context c).doneSent = true → (s.context c).read = .none →
        (freeContext c s).context c = Context.reset
          ∧ (freeContext c s).tal.accounts = s.tal.accounts.map (fun a =>
              if a.number = (s.context c).account then { a with inFlight := a.inFlight - 1 } else a))
        ∧ ((s.context c).doneSent = false ∨ (s.context c).read ≠ .none → freeContext c s = s)
        ∧ ∀ i, i ≠ c → (freeContext c s).context i = s.context i

/-- The locate of an attached context and its reads (R63, R65 to R70, R83). ENTRY takes the pending entry of its side and k,
else the slot of the cached sector below W, else reads the index sector at its position. A slot is used when it passes the
checks of R69: its directory is then read, and the context ends LOCATE-FAILED otherwise. An index read that ends OK fills the
cache when its sector counts as written. A directory that passes the checks of R70 is handed over, the first selected page
being the next to read and to deliver, and an empty selection ends the context COMPLETE; every other result ends it
LOCATE-FAILED. That a page count above the 240 places of a page list fails is deduced (log 55). The cache keeps a sector it
holds, drops the least recent of 32, and loses a side that turns MISMATCH. The
pending buffer stays in the order of side and k. -/
def Obligations.LocatesGoOn : Prop :=
  (∀ (s : State) (c d : Nat) (x : Context) (l : Locate) (r : SideRecord), c < s.ctx.length → s.context c = x →
    s.attachedTo c = some d → x.state = .locating → x.locate = some l → l.side = x.side → s.side x.side = some r →
    let reads : State → Locate → Nat → Prop := fun u l' first =>
      u.context c = { x with locate := some l', read := .queued, filling := 1 }
        ∧ (∀ i, i ≠ c → u.context i = s.context i) ∧ (∀ i, i ≠ d → u.drive i = s.drive i)
        ∧ u.drive d = { s.drive d with queue := (s.drive d).queue ++ [{ issuer := .locate c, op := .read, first := first
                                                                        count := 1, data := [], priority := x.priority
                                                                        age := s.now, retries := 0, notReady := 0
                                                                        have_ := 0 }] }
    let failed : State → Prop := fun u => (u.context c).state = .ending ∧ (u.context c).outcome = some .locateFailed
    let uses : State → IndexEntry → Prop := fun u e =>
      (entryPasses e x.instrument r.dataHigh = true →
        reads u { l with entry := some e, step := .directoryRead } e.address)
        ∧ (entryPasses e x.instrument r.dataHigh = false → failed u)
    (x.read = .none →
      (∀ q ∈ s.loc.entries, q.side = l.side → q.k = l.k →
        (∀ q' ∈ s.loc.entries, q'.side = l.side → q'.k = l.k → q' = q) →
        reads (locateEntry c s) { l with entry := some q.entry, step := .directoryRead } q.entry.address)
      ∧ ((∀ q ∈ s.loc.entries, ¬(q.side = l.side ∧ q.k = l.k)) →
        (∀ e, l.j < r.written → s.cached l.side l.j = some e →
          uses (locateEntry c s) (e.entries.getD l.slot emptySlot)
            ∧ (locateEntry c s).loc.cache = e :: s.loc.cache.erase e)
        ∧ (r.written ≤ l.j ∨ s.cached l.side l.j = none →
          reads (locateEntry c s) { l with step := .indexRead } (r.indexPosition l.j))))
      ∧ (∀ res got, res ≠ .ok → failed (locateResult c res got s))
      ∧ (∀ data : Sector, l.step = .indexRead →
        let u := locateResult c .ok [data] s
        uses u ((readIndex data).getD l.slot emptySlot)
          ∧ (r.written ≤ l.j → u.loc.cache = s.loc.cache)
          ∧ (l.j < r.written → s.cached l.side l.j = none →
            u.loc.cache = { side := l.side, j := l.j, entries := readIndex data } :: s.loc.cache.take 31))
      ∧ ∀ (data : Sector) (e : IndexEntry), l.step = .directoryRead → l.entry = some e →
        let u := locateResult c .ok [data] s
        (readDirectory data = none → failed u)
          ∧ ∀ dir, readDirectory data = some dir →
            (directoryPasses dir e r.serial = false → failed u)
            ∧ (directoryPasses dir e r.serial = true →
              let chosen := clampSelection x.selection dir.list.length
              (chosen = [] → (u.context c).state = .ending ∧ (u.context c).outcome = some .complete)
              ∧ ∀ p ps, chosen = p :: ps → u.context c = { x with
                  read := .none, filling := 0, locate := none, directory := some { address := e.address, pages := dir.list }
                  chosen := chosen, state := .streaming, nextRead := some (p, 0), nextPage := some p, nextSend := 0
                  primed := false }))
    ∧ (∀ (e : IndexEntry) (i h : Nat), entryPasses e i h = true ↔ e.valid = true ∧ e.instrument = i ∧ 1 ≤ e.pages
      ∧ e.pages ≤ 240 ∧ 2 ≤ e.body ∧ e.body ≤ 23041 ∧ 1 ≤ e.address ∧ e.address + e.body < h)
    ∧ (∀ (dir : DirectoryRead) (e : IndexEntry) (serial : Nat), directoryPasses dir e serial = true ↔
      dir.serial = serial ∧ dir.body = e.body ∧ 1 ≤ dir.pages ∧ dir.pages = e.pages ∧ dir.list.length = dir.pages ∧ pagesRun 1 dir.body dir.list = true)
    ∧ (∀ (s : State) (n j : Nat) (es : List IndexEntry),
      let u := fillCache n j es s
      (∀ e, s.cached n j = some e → u.loc.cache = e :: s.loc.cache.erase e)
        ∧ (s.cached n j = none → u.loc.cache = { side := n, j := j, entries := es } :: s.loc.cache.take 31)
        ∧ (s.loc.cache.length ≤ 32 → u.loc.cache.length ≤ 32)
        ∧ ∀ e, e ∈ (turnMismatch n s).loc.cache ↔ e ∈ s.loc.cache ∧ e.side ≠ n)
    ∧ ∀ (q : PendingEntry) (es : List PendingEntry),
      let before : PendingEntry → PendingEntry → Prop := fun a b => a.side < b.side ∨ (a.side = b.side ∧ a.k < b.k)
      es.Pairwise before → (∀ e ∈ es, ¬(e.side = q.side ∧ e.k = q.k)) →
        (insertPending q es).Pairwise before ∧ ∀ e, e ∈ insertPending q es ↔ e = q ∨ e ∈ es

/-- Delivery (R77, R84, R86 to R88, R98, R156). A streaming context with no read outstanding places the next page read when its
free frames hold 16 sectors or what the run of consecutive selected pages has left: as many sectors as fit, at most 16. A
context is primed when its page is wholly read or 16 of its sectors are holding, and stays primed until the page completes. A
candidate is streaming, not held, primed, with a sector of its page holding. Its RUN carries up to eight of them, with the
page's format and sectors at its start; the frames become free. A RUN that does not end its page does no more; one that does
completes it, and behind the last page the context ends COMPLETE. A DONE handed over is marked at its context. -/
def Obligations.DeliveryGoesOn : Prop :=
  (∀ (s : State) (c d p off : Nat) (x : Context) (dir : Directory), c < s.ctx.length → s.context c = x →
    s.attachedTo c = some d → x.state = .streaming → x.read = .none → x.nextRead = some (p, off) →
    x.directory = some dir →
    let sectors : Nat → Nat := fun q => (x.item q).sectors
    let from_ := x.chosen.filter (p ≤ ·)
    let left := runSectors sectors from_ off
    let free := 32 - x.filling - x.holding.length
    let n := min (min 16 free) left
    (free < min 16 left → placePageRead c s = s)
      ∧ (min 16 left ≤ free →
        let u := placePageRead c s
        u.context c = { x with
          read := .queued, readStart := some (p, off), filling := x.filling + n
          nextRead := advanceRead sectors from_ off n }
          ∧ (∀ i, i ≠ c → u.context i = s.context i) ∧ (∀ i, i ≠ d → u.drive i = s.drive i)
          ∧ u.drive d = { s.drive d with queue := (s.drive d).queue ++ [{ issuer := .page c, op := .read
                                                                          first := dir.address + (x.item p).offset + off
                                                                          count := n, data := [], priority := x.priority
                                                                          age := s.now, retries := 0, notReady := 0
                                                                          have_ := 0 }] }))
    ∧ (∀ (x : Context) (p : Nat), x.nextPage = some p →
      let here := min x.holding.length ((x.item p).sectors - x.nextSend)
      (x.prime.primed = true ↔ x.primed = true ∨ x.nextSend + here = (x.item p).sectors ∨ 16 ≤ here)
        ∧ x.prime = { x with primed := x.prime.primed }
        ∧ (x.candidate = true ↔ x.state = .streaming ∧ x.heldByHold = false ∧ x.heldByLink = false ∧ x.primed = true
          ∧ 1 ≤ here))
    ∧ (∀ (s : State) (c p : Nat) (x : Context), c < s.ctx.length → s.context c = x → x.candidate = true →
      x.nextPage = some p → x.nextSend ≤ (x.item p).sectors →
      let n := min 8 (min x.holding.length ((x.item p).sectors - x.nextSend))
      let u := handRun c s
      let sent : Context := { x with holding := x.holding.drop n, nextSend := x.nextSend + n }
      let run : OutBody := .run p x.nextSend (if x.nextSend = 0 then (x.item p).format else 0)
        (if x.nextSend = 0 then (x.item p).sectors else 0) (x.holding.take n)
      u.rli.transmitter = some { requester := x.requester, tag := x.tag, body := run }
        ∧ u.rli.lastServed = c ∧ (∀ i, i ≠ c → u.context i = s.context i)
        ∧ (x.nextSend + n < (x.item p).sectors → u.context c = sent ∧ u.tal = s.tal)
        ∧ (x.nextSend + n = (x.item p).sectors →
          (∀ p', x.chosen.find? (p < ·) = some p' → (u.context c).state = .streaming
            ∧ (u.context c).nextPage = some p' ∧ (u.context c).nextSend = 0 ∧ (u.context c).delivered = x.delivered + 1
            ∧ (u.context c).holding = sent.holding
            ∧ ((u.context c).primed = true ↔ (x.item p').sectors ≤ sent.holding.length ∨ 16 ≤ min sent.holding.length
              (x.item p').sectors))
          ∧ (x.chosen.find? (p < ·) = none → (u.context c).state = .ending ∧ (u.context c).outcome = some .complete
            ∧ (u.context c).delivered = x.delivered + 1
            ∧ ∃ e q cents, u.rli.control = s.rli.control ++ [{ seq := e, frame :=
              { requester := x.requester, tag := x.tag
                body := .done .complete (x.delivered + 1) q cents x.generation } }])))
    ∧ ∀ (s : State) (f : ControlFrame) (c : Nat) (o : Ending) (n q cents : Nat) (g : Option Nat), c < 16 →
      c < s.ctx.length → f.frame.body = .done o n q cents g →
      let named : Nat → Prop := fun i => (s.context i).state = .ending ∧ (s.context i).requester = f.frame.requester
        ∧ (s.context i).tag = f.frame.tag
      named c → (∀ i < c, ¬named i) →
      handControl f s = { s with
        rli.control := s.rli.control.drop 1, rli.transmitter := some f.frame
        ctx := s.ctx.modify c fun x => { x with doneSent := true } }

/-! ### Filings -/

/-- The accepted requests of a filing (R102, R103, R105, R107); no frame is composed by the first three. FILE_OPEN takes the
lowest-numbered FREE record into GATHERING with an empty page list, and its gather idle timer starts. PAGE at offset 0
appends an item, and further on it extends the last one: its sectors received rise by the data sectors, the data joins the
frames held, and the timer restarts. FILE_END stops the timer, the body is 1 and the sectors of the pages, the filing is
QUEUED at the tail, and the readiness test is called where the queue was empty. FILE_ABORT of a GATHERING or QUEUED filing,
and the expiry of the gather idle timer of a GATHERING one, discard it: the record becomes FREE, it leaves the filing queue,
and FILE-FAILED is composed with cause ABORTED or EXPIRED (R106, R107, R122). That the expiry comes at the timer's limit is
the model's choice (log 7). -/
def Obligations.FilingRequestsTaken : Prop :=
  (∀ (s : State) (r t f : Nat), s.handsOn → f < 8 →
    (∀ (q : Requester), s.mu.service = .serving → s.requester r = some q → q.rights.file = true →
      (∀ i < 8, (s.filing i).state ≠ .free → ¬((s.filing i).requester = r ∧ (s.filing i).tag = t)) →
      (s.filing f).state = .free → (∀ i < f, (s.filing i).state ≠ .free) →
      exec (.fileOpen r t) s = .next (publish { s with fil.records := s.fil.records.modify f fun _ =>
        { state := .gathering, requester := r, tag := t, pages := [], frames := [], body := none
          timer := some { start := s.now, limit := s.mu.params.gatherIdle }, attempts := 0, extentStart := none
          tentative := none } }))
      ∧ ((s.filing f).state = .gathering → (s.filing f).requester = r → (s.filing f).tag = t →
        (∀ i < f, ¬((s.filing i).state = .gathering ∧ (s.filing i).requester = r ∧ (s.filing i).tag = t)) →
        (∀ b : PageBody, pageValid b = true → s.filingFrames + b.data.length ≤ Config.filingShare →
          ((∀ p ∈ (s.filing f).pages, p.received = p.sectors) →
            b.page = (s.filing f).pages.length + 1 → b.offset = 0 →
            exec (.page r t b) s = .next (publish { s with fil.records := s.fil.records.modify f fun x =>
              { x with
                pages := x.pages ++ [{ format := b.format, sectors := b.sectors, received := b.data.length }]
                frames := x.frames ++ b.data
                timer := some { start := s.now, limit := s.mu.params.gatherIdle } } }))
          ∧ ∀ (ps : List FilingPage) (p : FilingPage), (s.filing f).pages = ps ++ [p] →
            (∀ q ∈ ps, q.received = q.sectors) → p.received ≠ p.sectors → 1 ≤ b.offset →
            b.page = ps.length + 1 → b.offset = p.received → b.format = p.format → b.sectors = p.sectors →
            exec (.page r t b) s = .next (publish { s with fil.records := s.fil.records.modify f fun x =>
              { x with
                pages := ps ++ [{ p with received := p.received + b.data.length }]
                frames := x.frames ++ b.data
                timer := some { start := s.now, limit := s.mu.params.gatherIdle } } }))
        ∧ ((s.filing f).pages ≠ [] → (∀ p ∈ (s.filing f).pages, p.received = p.sectors) →
          (s.filing f).pages.length ≤ 240 →
          exec (.fileEnd r t (s.filing f).pages.length) s = .next (settle { s with
            todo.readiness := s.todo.readiness || s.fil.queue.isEmpty
            fil.queue := s.fil.queue ++ [f]
            fil.records := s.fil.records.modify f fun x =>
              { x with state := .queued, timer := none, body := some (1 + (x.pages.map (·.sectors)).sum) } }))))
    ∧ ∀ (s : State) (f : Fin 8) (r t : Nat),
      (s.filing f).requester = r → (s.filing f).tag = t → f.val < s.fil.records.length →
    let gone : FileCause → State → State → Prop := fun cause s u =>
      u.filing f = Filing.reset ∧ (∀ i, i ≠ f.val → u.filing i = s.filing i)
        ∧ u.fil.queue = s.fil.queue.filter (· != f.val)
        ∧ u.rli.control = s.rli.control
          ++ [{ seq := s.seq, frame := { requester := r, tag := t, body := .fileFailed cause none 0 } }]
    (s.handsOn → (s.filing f).state = .gathering ∨ (s.filing f).state = .queued →
      (∀ i < f.val, ¬((s.filing i).state ≠ .free ∧ (s.filing i).requester = r ∧ (s.filing i).tag = t)) →
      ∃ u, exec (.fileAbort r t) s = .next (settle u) ∧ gone .aborted s u)
      ∧ ∀ x, (s.filing f).state = .gathering → (s.filing f).timer = some x →
        ∃ u, exec (.gatherIdleExpiry f) s = .next (settle u) ∧ gone .expired s u ∧ u.now = max s.now (x.start + x.limit)

/-- The refusals of the filing requests (R102, R103, R105, R106), the first failing check giving the reason; nothing else
changes. -/
def Obligations.FilingRequestsRefused : Prop :=
  ∀ (s : State) (r t count : Nat) (b : PageBody), s.handsOn →
    (s.mu.service ≠ .serving → exec (.fileOpen r t) s = .next (publish (refuse r t .notServing 5 s)))
      ∧ (s.mu.service = .serving → (s.requester r).any (·.rights.file) = false →
        exec (.fileOpen r t) s = .next (publish (refuse r t .noRight 5 s)))
      ∧ (s.mu.service = .serving → (s.requester r).any (·.rights.file) = true →
        ((∃ f < 8, (s.filing f).state ≠ .free ∧ (s.filing f).requester = r ∧ (s.filing f).tag = t) →
          exec (.fileOpen r t) s = .next (publish (refuse r t .duplicateTag 5 s)))
        ∧ ((∀ f < 8, (s.filing f).state ≠ .free ∧ ¬((s.filing f).requester = r ∧ (s.filing f).tag = t)) →
          exec (.fileOpen r t) s = .next (publish (refuse r t .busy 5 s))))
      ∧ (pageValid b = false → exec (.page r t b) s = .next (publish (refuse r t .badValue 6 s)))
      ∧ (240 < count → exec (.fileEnd r t count) s = .next (settle (refuse r t .badValue 7 s)))
      ∧ ((∀ f < 8, ¬((s.filing f).state = .gathering ∧ (s.filing f).requester = r ∧ (s.filing f).tag = t)) →
        (pageValid b = true → exec (.page r t b) s = .next (publish (refuse r t .noFiling 6 s)))
        ∧ (count ≤ 240 → exec (.fileEnd r t count) s = .next (settle (refuse r t .noFiling 7 s))))
      ∧ ((∀ f < 8, ¬((s.filing f).state ≠ .free ∧ (s.filing f).requester = r ∧ (s.filing f).tag = t)) →
        exec (.fileAbort r t) s = .next (settle (refuse r t .noFiling 8 s)))
      ∧ (∀ f < 8, (s.filing f).state = .writing → (s.filing f).requester = r → (s.filing f).tag = t →
        (∀ i < f, ¬((s.filing i).state ≠ .free ∧ (s.filing i).requester = r ∧ (s.filing i).tag = t)) →
        exec (.fileAbort r t) s = .next (settle (refuse r t .inProgress 8 s)))
      ∧ ∀ f < 8, (s.filing f).state = .gathering → (s.filing f).requester = r → (s.filing f).tag = t →
        (∀ i < f, ¬((s.filing i).state = .gathering ∧ (s.filing i).requester = r ∧ (s.filing i).tag = t)) →
        let whole := ((s.filing f).pages.filter fun p => p.received == p.sectors).length
        let refused : Reason → Prop := fun reason => exec (.page r t b) s = .next (publish (refuse r t reason 6 s))
        let alike : Prop := b.offset = 0
          ∨ ∃ p, (s.filing f).pages.getLast? = some p ∧ p.format = b.format ∧ p.sectors = b.sectors
        (pageValid b = true →
          (b.page ≤ whole → refused .duplicatePage)
          ∧ (whole < b.page → (s.filing f).expected ≠ (b.page, b.offset) ∨ ¬alike → refused .order)
          ∧ (whole < b.page → (s.filing f).expected = (b.page, b.offset) → alike →
            Config.filingShare < s.filingFrames + b.data.length → refused .poolFull))
          ∧ (count ≤ 240 → whole = 0 → exec (.fileEnd r t count) s = .next (settle (refuse r t .empty 7 s)))
          ∧ (count ≤ 240 → whole ≠ 0 → count ≠ whole ∨ (s.filing f).pages.length ≠ whole →
            exec (.fileEnd r t count) s = .next (settle (refuse r t .incomplete 7 s)))

/-- The readiness test (R109, R110, R119, R120). Called while the engine is IDLE it goes through its steps once, and again
where a close was made or owed; it is not made while a halt is held. Its steps in order: a close owed with nothing to write
is made; an unusable OPEN side halts DRIVE-FAULT; an index-incomplete one owes a close to SUSPECT; 64 pending entries are
flushed; an empty queue ends the test; numbers, pending buffer, range table and media halt it; without an OPEN side the
lowest BLANK side that can be reached is opened; a body that does not fit owes a close to FILLED; otherwise the attempt
starts, WRITING, its extent at the data high mark, which rises by e + 1, its directory built with the fee day and the side's
serial. A close with entries to write starts with their index sector. Work on a side mounted READY or ACTIVE starts at once
with its first pass; for another side the engine places its marker, as R46 answers it (step 9, R108). That a window already
begun withholds a first pass before HOLD_BEGUN is taken is deduced (log 49). -/
def Obligations.ReadinessTestInOrder : Prop :=
  ∀ s : State,
    let once : State → Bool → Prop := fun u again => readinessOnce s = (u, again)
    let serve : Prop := s.fil.closeOwed = none ∧ ∀ n, s.openSide = some n → s.sideUnusable n = false
      ∧ (∀ r, s.side n = some r → r.incomplete = false) ∧ (s.pendingOf n).length < 64
    let numbers : Prop := ∀ i, s.fil.nNext = some i → i ≤ 99999999
    let marked : State → Nat → MountFor → Prop := fun v n why =>
      let w : State := { v with fil.activity := .mounting, fil.mountFor := some why }
      (v.answerNeed n false = .fresh → once (newMount n [] true (v.forcedFor n) w) false)
      ∧ (∀ id, v.answerNeed n false = .order id → once (reprioritise { w with
          lib.orders := w.lib.orders.map fun o => if o.id = id then { o with marker := true } else o }) false)
      ∧ (∀ d, v.answerNeed n false = .incoming d → once { w with
          drives := w.drives.modify d fun x => { x with incomingMarker := true } } false)
      ∧ (why ≠ .opening → v.answerNeed n false = .unavailable → once (setHalt .driveFault v) false)
    let sector : Activity → Nat → SideRecord → Nat → Prop := fun act n r d =>
      ∃ u slots, once u false ∧ passDue { withdrawIdle d s with
          fil.activity := act, fil.working := [indexSector slots], fil.flushed := slots } n .erase 1 r.indexLow 1 [] u
        ∧ slots = ((s.pendingOf n).filter fun p => p.k / 64 == r.written).map (·.entry)
          ++ List.replicate (64 - ((s.pendingOf n).filter fun p => p.k / 64 == r.written).length) emptySlot
    (s.todo.readiness = true → s.fil.activity = .idle → s.stopping = false → s.mu.service ≠ .opening →
      let v : State := { s with todo.readiness := false }
      (s.fil.halt ≠ none → runReadiness s = v)
        ∧ ∀ u, s.fil.halt = none → (readinessOnce v = (u, false) → runReadiness s = u)
          ∧ (readinessOnce v = (u, true) → runReadiness s = readinessTest 7 u))
      ∧ (∀ n owed, s.fil.closeOwed = some owed → s.openSide = some n →
        ((s.pendingOf n = [] ∨ ∃ r, s.side n = some r ∧ r.incomplete = true) → once (finishClose n owed s) true)
        ∧ ∀ r, s.side n = some r → r.incomplete = false → s.pendingOf n ≠ [] →
          (s.mountedReady n = none → marked s n .close)
          ∧ ∀ d, s.mountedReady n = some d → sector .closing n r d)
      ∧ (∀ n, s.fil.closeOwed = none → s.openSide = some n →
        (s.sideUnusable n = true → once (setHalt .driveFault s) false)
        ∧ ∀ r, s.sideUnusable n = false → s.side n = some r →
          (r.incomplete = true → once { s with fil.closeOwed := some .suspect } true)
          ∧ (r.incomplete = false → 64 ≤ (s.pendingOf n).length →
            (s.mountedReady n = none → marked s n .flush)
            ∧ ∀ d, s.mountedReady n = some d → sector .flush n r d))
      ∧ (serve → s.fil.queue = [] → once s false)
      ∧ ∀ f fs, serve → s.fil.queue = f :: fs →
        ((∃ i, s.fil.nNext = some i ∧ 99999999 < i) → once (setHalt .numbersExhausted s) false)
        ∧ (numbers → 128 ≤ s.loc.entries.length → once (setHalt .pendingFull s) false)
        ∧ (numbers → s.loc.entries.length < 128 → s.openSide = none →
          (512 ≤ s.loc.ranges.length → once (setHalt .rangeFull s) false)
          ∧ (s.loc.ranges.length < 512 →
            let fit : Nat → Prop := fun n => ∃ r, s.side n = some r ∧ r.state = .blank ∧ s.inBadDrive r = false
            ((∀ n < 128, ¬fit n) → once (setHalt .noMedia s) false)
            ∧ ∀ n r, n < 128 → fit n → (∀ m < n, ¬fit m) → s.side n = some r →
              (s.mountedReady n = none → marked { s with fil.opening := some n } n .opening)
              ∧ ∀ d, s.mountedReady n = some d →
                ∃ u, once u false ∧ passDue { withdrawIdle d { s with fil.opening := some n } with
                    fil.activity := .opening, fil.working := [labelSector r.serial (n % 2)] } n .erase 1 0 1 [] u))
        ∧ ∀ n r, numbers → s.loc.entries.length < 128 → s.openSide = some n → s.side n = some r →
          let e := (s.filing f).body.getD 0
          (r.indexLow + 1 < r.dataHigh + e + 17 + ((s.pendingOf n).length + 64) / 64 →
            once { s with fil.closeOwed := some .filled } true)
          ∧ (r.dataHigh + e + 17 + ((s.pendingOf n).length + 64) / 64 ≤ r.indexLow + 1 →
            (s.mountedReady n = none → marked s n .attempt)
            ∧ ∀ d, s.mountedReady n = some d → f < s.fil.records.length →
            ∃ u v, once u false ∧ passDue v n .erase 1 r.dataHigh e [] u
              ∧ v = { withdrawIdle d s with
                  lib.sides := s.lib.sides.modify n (Option.map fun r => { r with dataHigh := r.dataHigh + e + 1 })
                  fil.records := s.fil.records.modify f fun x => { x with state := .writing, extentStart := some r.dataHigh }
                  fil.activity := .attempt
                  fil.working := [directorySector s.tal.feeDay r.serial e (layPages 1 (s.filing f).pages)] })

/-- The result of a pass of an attempt (R111, R113 to R117). A counted OK makes the next pass due; behind pass 3 the trailer is
built and N_next becomes the tentative instrument; pass 6 commits: N_next rises, the open range's last becomes the
instrument, one pending entry is added, FILED is composed, the filing is gone, and 64 pending entries of the side start a
flush. A disturbed VERIFY is made due again, whatever its result. A counted failure spoils the extent and counts: the third
ends the filing WRITE-FAILED and owes a close to SUSPECT. A lost drive spoils the extent without counting, and halts
DRIVE-FAULT. The data high mark stays raised throughout. That a window already begun withholds a pass before HOLD_BEGUN is
taken is deduced (log 49), and so is where the filing's sequence ends and calls the arbiter (log 61); that every counted result
other than OK counts as a failure is the model's choice (log 11). -/
def Obligations.AttemptPassesDo : Prop :=
  ∀ (s : State) (f n : Nat) (fs : List Nat) (p : Pass) (r : SideRecord) (a e : Nat), s.fil.activity = .attempt →
    s.fil.queue = f :: fs → f ∉ fs → s.fil.pass = some p → s.openSide = some n → s.side n = some r →
    f < s.fil.records.length → (s.filing f).extentStart = some a → (s.filing f).body = some e → s.stopping = false →
    let x := s.filing f
    let staged : List Sector := s.fil.working.take 1 ++ x.frames
    let spoiled : State → Prop := fun u => u.side n = some { r with spoiled := r.spoiled + e + 1 }
    let left : State → Prop := fun u => u.fil.activity = .idle ∧ u.fil.pass = none ∧ u.fil.working = []
    (p.disturbed = true → ∀ res,
      (p.number = 3 → passDue s n .verify 3 a e [] (passResult res s))
      ∧ (p.number = 6 → passDue s n .verify 6 (a + e) 1 [] (passResult res s)))
      ∧ (p.disturbed = false →
        (p.number = 1 → passDue s n .write 2 a e staged (passResult .ok s))
        ∧ (p.number = 2 → passDue s n .verify 3 a e [] (passResult .ok s))
        ∧ (∀ i, p.number = 3 → s.fil.nNext = some i →
          passDue { s with
              fil.records := s.fil.records.modify f fun x => { x with tentative := some i }
              fil.working := s.fil.working ++ [trailerSector i a s.tal.feeDay e] }
            n .erase 4 (a + e) 1 [] (passResult .ok s))
        ∧ (p.number = 4 → passDue s n .write 5 (a + e) 1 (s.fil.working.drop 1) (passResult .ok s))
        ∧ (p.number = 5 → passDue s n .verify 6 (a + e) 1 [] (passResult .ok s))
        ∧ (∀ i day, p.number = 6 → x.tentative = some i → s.fil.nNext = some i → day < 65536 →
          s.fil.working.getD 1 [] = trailerSector i a day e →
          let k := 64 * r.written + (s.pendingOf n).length
          let c := commit f n s
          c.fil.nNext = some (i + 1)
            ∧ c.loc.ranges = s.loc.ranges.map (fun y => if y.openFlag then { y with last := i } else y)
            ∧ (∃ before behind new, s.loc.entries = before ++ behind ∧ c.loc.entries = before ++ new :: behind
              ∧ new.side = n ∧ new.k = k ∧ new.entry.marker = 4 ∧ new.entry.instrument = i ∧ new.entry.address = a
              ∧ new.entry.body = e ∧ new.entry.pages = x.pages.length ∧ new.entry.valid = true)
            ∧ c.rli.control = s.rli.control ++ [{ seq := s.seq, frame :=
                { requester := x.requester, tag := x.tag, body := .filed i n day } }]
            ∧ c.filing f = Filing.reset ∧ c.fil.queue = fs ∧ c.fil.working = [] ∧ c.lib.sides = s.lib.sides
            ∧ (63 ≤ (s.pendingOf n).length → passResult .ok s = startFlush .flush n c)
            ∧ ((s.pendingOf n).length < 63 → left (passResult .ok s) ∧ (passResult .ok s).todo.readiness = true))
        ∧ ∀ res, res ≠ .ok →
          let u := passResult res s
          spoiled u ∧ left u ∧ u.todo.readiness = true
            ∧ (x.attempts ≤ 1 → u.filing f = { x with attempts := x.attempts + 1, extentStart := none, tentative := none }
              ∧ u.fil.queue = s.fil.queue ∧ u.rli.control = s.rli.control ∧ u.fil.closeOwed = s.fil.closeOwed
              ∧ u.todo.arbiter = s.todo.arbiter)
            ∧ (2 ≤ x.attempts → u.filing f = Filing.reset ∧ u.fil.queue = fs
              ∧ u.fil.closeOwed = some .suspect ∧ (s.pendingOf n = [] → u.todo.arbiter = true)
              ∧ u.rli.control = s.rli.control ++ [{ seq := s.seq, frame :=
                  { requester := x.requester, tag := x.tag, body := .fileFailed .writeFailed (some n) 3 } }]))
      ∧ (let u := filingLost s
        spoiled u ∧ left u ∧ u.filing f = { x with state := .queued, extentStart := none, tentative := none }
          ∧ u.fil.queue = s.fil.queue ∧ u.fil.halt = some .driveFault)

/-- Flushes, closes and openings (R112, R113, R118 to R120). Of an index write a counted OK makes the next pass due; the third
raises W, takes the sector's entries out of the pending buffer and fills the cache; a partial flush then closes the side to
the state owed, with SIDE-CLOSED and the open flag cleared. A counted failure adds the sector to the skip list and starts
again at the new index low mark, or, with eight skips, sets index-incomplete and owes a close to SUSPECT. A lost drive gives
the position up once its ERASE has been issued, keeps the entries and halts DRIVE-FAULT; that a ninth failure met so turns the
state a close owes to SUSPECT at once is deduced (log 50). An opening's third OK turns the side OPEN with its open
range appended, a failure turns it SUSPECT, and a lost drive gives the opening side up without a halt. That a window already begun
withholds a pass before HOLD_BEGUN is taken is deduced (log 49); that every counted result other than OK counts as a failure is
the model's choice (log 11). -/
def Obligations.IndexWritesAndOpenings : Prop :=
  (∀ (s : State) (n : Nat) (p : Pass) (r : SideRecord), s.fil.activity = .flush ∨ s.fil.activity = .closing →
    s.openSide = some n → s.side n = some r → s.fil.pass = some p →
    let mine : PendingEntry → Bool := fun q => q.side == n && q.k / 64 == r.written
    let left : State → Prop := fun u => u.fil.activity = .idle ∧ u.fil.pass = none ∧ u.fil.working = []
    (p.disturbed = true → p.number = 3 → ∀ res, passDue s n .verify 3 r.indexLow 1 [] (passResult res s))
      ∧ (p.disturbed = false →
        (p.number = 1 → passDue s n .write 2 r.indexLow 1 s.fil.working (passResult .ok s))
        ∧ (p.number = 2 → passDue s n .verify 3 r.indexLow 1 [] (passResult .ok s))
        ∧ (p.number = 3 → s.fil.activity = .flush ∨ (∀ q ∈ s.loc.entries, q.side = n → mine q = true) →
          let u := passResult .ok s
          (∃ r', u.side n = some r' ∧ r'.written = r.written + 1 ∧ r'.skips = r.skips ∧ r'.dataHigh = r.dataHigh)
            ∧ u.loc.entries = s.loc.entries.filter (fun q => !mine q) ∧ left u ∧ u.todo.readiness = true
            ∧ (∃ c ∈ u.loc.cache, c.side = n ∧ c.j = r.written)
            ∧ (s.cached n r.written = none → u.cached n r.written
              = some { side := n, j := r.written, entries := s.fil.flushed })
            ∧ (s.fil.activity = .flush → u.loc.ranges = s.loc.ranges ∧ u.fil.closeOwed = s.fil.closeOwed
              ∧ (u.side n).map (·.state) = some r.state)
            ∧ ∀ owed, s.fil.activity = .closing → s.fil.closeOwed = some owed →
              (u.side n).map (·.state) = some owed ∧ u.fil.closeOwed = none
                ∧ u.loc.ranges = s.loc.ranges.map (fun y => if y.openFlag then { y with openFlag := false } else y)
                ∧ (s.mu.manager ≠ none → ∃ m ∈ u.rli.notices, m.details
                  = .sideClosed n owed r.dataHigh (r.written + 1) r.skips.length r.spoiled r.incomplete))
        ∧ ∀ res, res ≠ .ok →
          (r.skips.length < 8 → r.incomplete = false → passDue { s with
              lib.sides := s.lib.sides.modify n (Option.map fun r => { r with skips := r.skips ++ [r.written] }) }
            n .erase 1 (299999 - r.written - (r.skips.length + 1)) 1 [] (passResult res s))
          ∧ (8 ≤ r.skips.length →
            let u := passResult res s
            u.side n = some { r with incomplete := true } ∧ u.fil.closeOwed = some .suspect ∧ left u
              ∧ u.loc.entries = s.loc.entries ∧ u.todo.readiness = true))
      ∧ (let u := filingLost s
        let issued : Prop := 2 ≤ p.number ∨ p.state = .inFlight
        left u ∧ u.fil.halt = some .driveFault ∧ u.loc.entries = s.loc.entries
          ∧ (¬issued → u.side n = some r)
          ∧ (issued → r.skips.length < 8 → u.side n = some { r with skips := r.skips ++ [r.written] })
          ∧ (issued → 8 ≤ r.skips.length → u.side n = some { r with incomplete := true })
          ∧ (s.fil.activity = .flush ∨ ¬issued ∨ (r.skips.length < 8 ∧ r.incomplete = false) →
            u.fil.closeOwed = s.fil.closeOwed)
          ∧ (s.fil.activity = .closing → issued → 8 ≤ r.skips.length → u.fil.closeOwed = some .suspect)))
    ∧ ∀ (s : State) (n i : Nat) (p : Pass) (r : SideRecord), s.fil.activity = .opening → s.fil.opening = some n →
      s.side n = some r → r.state = .blank → r.dataHigh = 0 → s.fil.pass = some p → s.fil.nNext = some i →
      let given : State → Prop := fun u => u.fil.opening = none ∧ u.fil.activity = .idle ∧ u.fil.pass = none
        ∧ u.fil.working = [] ∧ u.todo.readiness = true
      (p.disturbed = true → p.number = 3 → ∀ res, passDue s n .verify 3 0 1 [] (passResult res s))
        ∧ (p.disturbed = false →
          (p.number = 1 → passDue s n .write 2 0 1 s.fil.working (passResult .ok s))
          ∧ (p.number = 2 → passDue s n .verify 3 0 1 [] (passResult .ok s))
          ∧ (p.number = 3 →
            let u := passResult .ok s
            given u ∧ u.side n = some { r with state := .opened, dataHigh := 1 }
              ∧ u.loc.ranges = s.loc.ranges ++ [{ first := i, last := i - 1, side := n, openFlag := true }]
              ∧ (s.mu.manager ≠ none → ∃ m ∈ u.rli.notices, m.details = .sideOpened n r.serial))
          ∧ ∀ res, res ≠ .ok →
            let u := passResult res s
            given u ∧ u.side n = some { r with state := .suspect } ∧ u.loc.ranges = s.loc.ranges)
        ∧ given (filingLost s) ∧ (filingLost s).fil.halt = s.fil.halt ∧ (filingLost s).side n = some r

/-! ### Management -/

/-- The checks of a known MANAGE request, the first that fails giving the reason (R160 checks 1 to 3, 5, 6), and the service
states in which each request is accepted (R161). A BIND that passes them binds its requester; the reply carries the manager
and the service state. A BIND in QUIESCENT is refused WRONG-STATE (R161). The reply's layout is the model's choice (log 9), and so
is that this refusal stands before check 2 of R160 (log 54). -/
def Obligations.ManageRequestsChecked : Prop :=
  (∀ st : Service,
    let working := st = .standby ∨ st = .opening ∨ st = .serving ∨ st = .draining
    codeAccepted 21 st = true
      ∧ (codeAccepted 1 st = true ↔ st ≠ .quiescent)
      ∧ (codeAccepted 2 st = true ↔ st = .standby ∨ st = .serving ∨ st = .draining ∨ st = .quiescent)
      ∧ (∀ code ∈ [3, 4, 5, 10, 11, 12, 13, 14, 19, 22, 23, 24, 25, 26, 27], codeAccepted code st = true ↔ working)
      ∧ (∀ code ∈ [6, 7, 8, 9, 20], codeAccepted code st = true ↔ st = .standby)
      ∧ (∀ code ∈ [15, 16, 17], codeAccepted code st = true ↔ st = .standby ∨ st = .serving ∨ st = .draining)
      ∧ (codeAccepted 18 st = true ↔ st = .serving ∨ st = .draining))
  ∧ ∀ (i : Instr) (s : State) (r t code : Nat), requestHeader i = some (r, t) → manageCode i = some code → s.handsOn →
    let refused : Reason → Prop := fun reason => exec i s = .next (publish (reject r t code reason s))
    let late : Bool := s.mu.late.any fun l => l.requester == r && l.tag == t
    (code ≠ 1 → s.mu.manager = none → refused .notBound)
      ∧ (code = 1 → s.mu.manager ≠ none → refused (if s.mu.service = .quiescent then .wrongState else .bound))
      ∧ (code ≠ 1 → ∀ m, s.mu.manager = some m → m ≠ r → refused .notManager)
      ∧ ((code = 1 ∧ s.mu.manager = none) ∨ (code ≠ 1 ∧ s.mu.manager = some r) →
        (late = true → refused .duplicateTag)
        ∧ (late = false → codeAccepted code s.mu.service = false → refused .wrongState))
      ∧ (i = .bind r t → s.mu.manager = none → s.mu.service ≠ .quiescent → late = false →
        exec i s = .next (publish (accept r t 1 (number 1 r ++ number 1 s.mu.service.code) { s with mu.manager := some r })))

/-- SET_STATE (R162, R172, R174, R180, R181): STANDBY to SERVING by way of OPENING when the entry checks pass; STANDBY to
QUIESCENT, where no idle timer runs (R182), that of a drive left READY in STANDBY stopped (deduced, log 59); SERVING to STANDBY
by way of DRAINING, with ABORT ending the live contexts, and every filing but one whose attempt has a pass in flight; a PLAIN
drain made one with ABORT; QUIESCENT to STANDBY. The request that answers late is held for its reply. -/
def Obligations.SetStateChanges : Prop :=
  ∀ (s : State) (r t : Nat) (ab : Bool), s.handsOn → s.admits r t 2 →
    let kept : State → Prop := fun u => u.mu.late = s.mu.late ++ [{ kind := .setState, requester := r, tag := t }]
    (s.mu.service = .standby → s.servingRefusal = none →
      ∃ u, exec (.setState r t 3 ab) s = .next (settle u) ∧ u.mu.service = .opening ∧ kept u ∧ u.loc.entries = []
        ∧ u.mu.recoveryFinding = .none ∧ u.recovery.phase = .identifying
        ∧ u.recovery.openAtEntry = s.openedSides.head?
        ∧ (s.lib.picker.state ≠ .fault → u.lib.picker.inventoryOwed = true))
      ∧ (s.mu.service = .standby → exec (.setState r t 5 ab) s = .next (publish (accept r t 2 (number 1 5)
          (raise_ (.stateChanged .standby .quiescent .setState) { s with
            mu.service := .quiescent
            drives := s.drives.map fun x => if x.idle.isSome then { x with idle := none, idleHeld := true } else x }))))
      ∧ (s.mu.service = .serving → exec (.setState r t 1 false) s = .next (settle
          (raise_ (.stateChanged .serving .draining .setState)
            { s with mu.late := s.mu.late ++ [{ kind := .setState, requester := r, tag := t }]
                     mu.drain := some .plain, mu.service := .draining })))
      ∧ (s.mu.service = .serving ∨ (s.mu.service = .draining ∧ s.mu.drain = some .plain) →
        ∃ u, exec (.setState r t 1 true) s = .next (settle u) ∧ u.mu.service = .draining ∧ u.mu.drain = some .abort
          ∧ kept u ∧ (∀ c < 16, (u.context c).state.live = false)
          ∧ (∀ c < 16, (s.context c).state.live = true → (u.context c).outcome = some .abandoned)
          ∧ ∀ f < 8, (u.filing f).state ≠ .free → s.attemptInFlight = true ∧ s.fil.queue.head? = some f)
      ∧ (s.mu.service = .quiescent → ∃ u, exec (.setState r t 1 ab) s = .next (settle (publish (accept r t 2 (number 1 1) u)))
          ∧ u.mu.service = .standby ∧ u.mu.drain = none ∧ u.loc.cache = [])

/-- The refusals of SET_STATE (R162, R173). To SERVING from STANDBY, the first of the eight entry checks that fails gives the
reason; with none failing no reason is found. A pairing that R162 does not list is refused WRONG-STATE. A target that names
no service state is refused BAD-VALUE by the model's choice (log 9). -/
def Obligations.SetStateRefused : Prop :=
  (∀ (s : State) (r t target : Nat) (ab : Bool), s.handsOn → s.admits r t 2 →
    let refused : Reason → Prop := fun reason => exec (.setState r t target ab) s = .next (publish (reject r t 2 reason s))
    (s.mu.service = .standby → target = 3 → ∀ reason, s.servingRefusal = some reason → refused reason)
      ∧ (s.mu.service = .standby → target ≤ 6 → target ≠ 3 → target ≠ 5 → refused .wrongState)
      ∧ (s.mu.service = .serving → target ≤ 6 → target ≠ 1 → refused .wrongState)
      ∧ (s.mu.service = .draining → target ≤ 6 → target ≠ 1 ∨ ab = false ∨ s.mu.drain ≠ some .plain → refused .wrongState)
      ∧ (s.mu.service = .quiescent → target ≠ 1 → refused .wrongState)
      ∧ (s.mu.service = .standby ∨ s.mu.service = .serving ∨ s.mu.service = .draining → 6 < target → refused .badValue))
    ∧ ∀ s : State, s.shaped = true →
      let bound : Prop := s.mu.manager ≠ none
      let tariff : Prop := ∃ x ∈ s.tal.slots, x.role = .active
      let day : Prop := 1 ≤ s.tal.feeDay
      let sides : Prop := ∃ n < 128, s.side n ≠ none
      let named : Prop := (∀ e ∈ s.loc.ranges, s.side e.side ≠ none)
        ∧ ∀ n < 128, ∀ r, s.side n = some r → r.incomplete = true → ∃ e ∈ s.loc.ranges, e.side = n
      let oneOpen : Prop := s.openedSides.length ≤ 1
      let agrees : Prop := (∀ e, s.openRange = some e → e.side ∈ s.openedSides) ∧ (s.openRange = none → s.openedSides = [])
      let next : Prop := s.openedSides ≠ [] ∨ ∃ n, s.fil.nNext = some n ∧ ∀ e ∈ s.loc.ranges, e.last < n
      (∀ n, n ∈ s.openedSides ↔ n < 128 ∧ ∃ r, s.side n = some r ∧ r.state = .opened)
        ∧ (¬bound → s.servingRefusal = some .notBound)
        ∧ (bound → ¬tariff → s.servingRefusal = some .noSchedule)
        ∧ (bound → tariff → ¬day → s.servingRefusal = some .noFeeDay)
        ∧ (bound → tariff → day → ¬sides → s.servingRefusal = some .noSides)
        ∧ (bound → tariff → day → sides → ¬named → s.servingRefusal = some .rangeSide)
        ∧ (bound → tariff → day → sides → named → ¬oneOpen → s.servingRefusal = some .twoOpen)
        ∧ (bound → tariff → day → sides → named → oneOpen → ¬agrees → s.servingRefusal = some .openRange)
        ∧ (bound → tariff → day → sides → named → oneOpen → agrees → ¬next → s.servingRefusal = some .noNext)
        ∧ (bound → tariff → day → sides → named → oneOpen → agrees → next → s.servingRefusal = none)

/-- SET_PARAMS (R163): each value given is clamped into its range and rounded down to its step, each other stays; running
timers and scheduled windows keep their values; the filing mount priority is applied to the orders (`reprioritise`); the
reply carries the seven values in force after it. The defaults are in force after reset. -/
def Obligations.SetParamsClampsAndRounds : Prop :=
  State.reset.mu.params = { idleUnmount := 60000, holdLimit := 120000, gatherIdle := 900000, quietDelay := 40
                            quietDuration := 300, channelStall := 10000, filingPriority := 1 }
    ∧ ∀ (s : State) (r t : Nat) (v : ParamValues), s.handsOn → s.admits r t 3 →
      let take : Nat → Nat → Nat → Nat → Option Nat → Nat := fun low high step held given =>
        match given with
        | none => held
        | some g => (if g < low then low else if high < g then high else g) / step * step
      let p := s.mu.params
      let p' : Params :=
        { idleUnmount := take 5000 600000 1000 p.idleUnmount v.idleUnmount
          holdLimit := take 1000 600000 1000 p.holdLimit v.holdLimit
          gatherIdle := take 60000 3600000 60000 p.gatherIdle v.gatherIdle
          quietDelay := take 0 500 10 p.quietDelay v.quietDelay
          quietDuration := take 0 2000 10 p.quietDuration v.quietDuration
          channelStall := take 1000 60000 1000 p.channelStall v.channelStall
          filingPriority := take 0 3 1 p.filingPriority v.filingPriority }
      exec (.setParams r t v) s = .next (settle (publish (accept r t 3
          (number 4 p'.idleUnmount ++ number 4 p'.holdLimit ++ number 4 p'.gatherIdle ++ number 4 p'.quietDelay
            ++ number 4 p'.quietDuration ++ number 4 p'.channelStall ++ number 1 p'.filingPriority)
          (reprioritise { s with mu.params := p' }))))
        ∧ (p.legal = true → p'.legal = true)

/-- LOAD_REQUESTER (R158): the record of the id is created or replaced whole, or the request is refused with its reason.
DROP_REQUESTER (R159): the position of the id is emptied, the binding stays, and a FETCH of the requester taken after it
is refused NO-RIGHT; BAD-VALUE above id 31, NO-REQUESTER for an empty position, IN-USE while the requester has an active
context, one in ENDING counted, or a filing that is not FREE. What the accepted replies carry, nothing for DROP_REQUESTER, is
the model's choice (log 9). -/
def Obligations.RequesterTableWritten : Prop :=
  ∀ (s : State) (r t id : Nat), s.handsOn →
    (s.admits r t 4 → ∀ (mp cl : Nat) (x : Rights),
      let bad : Prop := 31 < id ∨ 3 < mp ∨ cl < 1 ∨ 16 < cl
      (bad → exec (.loadRequester r t id x mp cl) s = .next (publish (reject r t 4 .badValue s)))
        ∧ (¬bad → cl < s.activeOf id → exec (.loadRequester r t id x mp cl) s = .next (publish (reject r t 4 .inUse s)))
        ∧ (¬bad → s.activeOf id ≤ cl →
          exec (.loadRequester r t id x mp cl) s = .next (publish (accept r t 4
            (requesterBytes id { rights := x, maxPriority := mp, contextLimit := cl })
            { s with mu.requesters :=
                s.mu.requesters.set id (some { rights := x, maxPriority := mp, contextLimit := cl }) }))))
      ∧ (s.admits r t 5 →
        let busy : Prop := (∃ c < 16, (s.context c).state ≠ .free ∧ (s.context c).requester = id)
          ∨ ∃ x ∈ s.fil.records, x.state ≠ .free ∧ x.requester = id
        let dropped : State := { s with mu.requesters := s.mu.requesters.set id none }
        (31 < id → exec (.dropRequester r t id) s = .next (publish (reject r t 5 .badValue s)))
          ∧ (id ≤ 31 → s.requester id = none →
            exec (.dropRequester r t id) s = .next (publish (reject r t 5 .noRequester s)))
          ∧ (id ≤ 31 → s.requester id ≠ none → busy →
            exec (.dropRequester r t id) s = .next (publish (reject r t 5 .inUse s)))
          ∧ (id ≤ 31 → s.requester id ≠ none → ¬busy →
            exec (.dropRequester r t id) s = .next (publish (accept r t 5 [] dropped))
              ∧ dropped.requester id = none ∧ dropped.mu.manager = s.mu.manager))
      ∧ ∀ (u : State) (t' : Nat) (b : FetchBody), u.handsOn → u.requester id = none → u.mu.service = .serving →
        fetchValid b = true → exec (.fetch id t' b) u = .next (publish (refuse id t' .noRight 1 u))

/-- LOAD_SIDE (R18): an accepted removal empties the position; accepted values replace the record whole, at the location of
the sibling face's record when there is one and at home otherwise, with no prior state. It is refused BAD-VALUE for a side
above 127 or values that fail a check (W above 4,687 among them by the model's choice, log 9), and IN-USE where the record
of the side or of its sibling is STUCK, at the picker, or in a drive whose record names a cartridge. -/
def Obligations.LoadSideStoresOrRefuses : Prop :=
  ∀ (s : State) (r t n serial code h w sp : Nat) (skips : List Nat) (inc : Bool), s.handsOn → s.admits r t 6 →
    let good : Prop := n ≤ 127 ∧ code ≤ 3
      ∧ (code = 0 → h = 0 ∧ w = 0 ∧ skips = [] ∧ sp = 0 ∧ inc = false)
      ∧ (1 ≤ code → 1 ≤ h ∧ w ≤ 4687 ∧ skips.length ≤ 8 ∧ skips.Pairwise (· ≤ ·) ∧ (∀ k ∈ skips, k ≤ w)
        ∧ h + 16 + w + skips.length ≤ 300000 ∧ sp ≤ h - 1)
    let free : Nat → Prop := fun m => ∀ x, s.side m = some x → x.state ≠ .stuck ∧ x.location ≠ .picker
      ∧ ∀ d, x.location = .drive d → (s.drive d).cartridge = none
    let i : Instr := .loadSide r t (.store n serial code h w skips sp inc)
    let j : Instr := .loadSide r t (.remove n)
    (¬good → exec i s = .next (publish (reject r t 6 .badValue s)))
      ∧ (good → ¬(free n ∧ free (siblingOf n)) → exec i s = .next (publish (reject r t 6 .inUse s)))
      ∧ (good → free n → free (siblingOf n) → ∀ u : State, u = { s with lib.sides := s.lib.sides.set n (some
          { serial := serial, state := [SideState.blank, .opened, .filled, .suspect].getD code .blank, prior := none
            location := match s.side (siblingOf n) with
              | some x => x.location
              | none => .home
            dataHigh := h, written := w, skips := skips, spoiled := sp, incomplete := inc }) } →
          exec i s = .next (publish (accept r t 6 (loadedReply n u) u)))
      ∧ (127 < n → exec j s = .next (publish (reject r t 6 .badValue s)))
      ∧ (n ≤ 127 → ¬(free n ∧ free (siblingOf n)) → exec j s = .next (publish (reject r t 6 .inUse s)))
      ∧ (n ≤ 127 → free n → free (siblingOf n) → ∀ u : State, u = { s with lib.sides := s.lib.sides.set n none } →
          exec j s = .next (publish (accept r t 6 (loadedReply n u) u)))

/-- LOAD_RANGE, CLEAR_RANGES and SET_NEXT_INSTRUMENT (R60, R123, R165). A LOAD_RANGE is accepted exactly when the six checks
of R60 pass, and the first that fails gives the reason of its refusal; an accepted entry takes its place in the order of
first and the reply counts the entries; CLEAR_RANGES removes them all and replies how many; SET_NEXT_INSTRUMENT sets N_next.
A refused request leaves the stores as they are. -/
def Obligations.RangesAndNextStored : Prop :=
  ∀ (s : State) (r t : Nat), s.handsOn →
    (s.admits r t 7 → ∀ e : RangeEntry,
      let i : Instr := .loadRange r t e.first e.last e.side e.openFlag
      let refused : Reason → Prop := fun reason => exec i s = .next (publish (reject r t 7 reason s))
      let valid : Prop := 1 ≤ e.first ∧ e.first ≤ 99999999 ∧ e.first ≤ e.last + 1 ∧ e.last ≤ 99999999 ∧ e.side ≤ 127
      let apart : Prop := ∀ x ∈ s.loc.ranges, ∀ i, ¬(e.first ≤ i ∧ i ≤ e.last ∧ x.first ≤ i ∧ i ≤ x.last)
      let placed : Prop := (∀ x ∈ s.loc.ranges, x.side ≠ e.side)
        ∧ (e.openFlag = true → ∀ x ∈ s.loc.ranges, x.openFlag = false ∧ x.last < e.first)
        ∧ (e.openFlag = false → ∀ x, s.openRange = some x → e.last < x.first)
      (¬valid → refused .badValue)
        ∧ (valid → ¬apart → refused .overlap)
        ∧ (valid → apart → ¬placed → refused .badValue)
        ∧ (valid → apart → placed → 512 ≤ s.loc.ranges.length → refused .tableFull)
        ∧ (valid → apart → placed → s.loc.ranges.length < 512 →
          ∃ before behind, s.loc.ranges = before ++ behind
            ∧ (∀ x ∈ before, x.first ≤ e.first) ∧ (∀ x, behind.head? = some x → e.first ≤ x.first)
            ∧ exec i s = .next (publish (accept r t 7 (rangeBytes (some e) ++ number 2 (s.loc.ranges.length + 1))
                { s with loc.ranges := before ++ e :: behind }))))
      ∧ (s.admits r t 8 → exec (.clearRanges r t) s = .next (publish (accept r t 8 (number 2 s.loc.ranges.length)
          { s with loc.ranges := [] })))
      ∧ (s.admits r t 9 → ∀ v,
        let opened : Prop := ∃ n < 128, ∃ x, s.side n = some x ∧ x.state = .opened
        let high : Prop := 1 ≤ v ∧ v ≤ 99999999 ∧ ∀ e ∈ s.loc.ranges, e.last < v
        (opened → exec (.setNextInstrument r t v) s = .next (publish (reject r t 9 .wrongState s)))
        ∧ (¬opened → ¬high → exec (.setNextInstrument r t v) s = .next (publish (reject r t 9 .badValue s)))
        ∧ (¬opened → high →
          exec (.setNextInstrument r t v) s = .next (publish (accept r t 9 (number 4 v) { s with fil.nNext := some v }))))

/-! ### Accounts and schedules -/

/-- The open test (R140) in LOAD_ACCOUNT and SET_ACCOUNT_STATE: STOPPED asked gives STOPPED; OPEN asked gives OPEN when the
limit, as the request has left it, is 0 or above the charged total, as the request has left it, and that total is below its
ceiling, and STOPPED otherwise. The request is accepted either way, with the record or the state that resulted in its reply,
and no notice is raised. -/
def Obligations.OpenTestDecides : Prop :=
  ∀ (s : State) (r t n : Nat) (a : Account) (code : Nat), s.handsOn → s.account n = some a → 1 ≤ n → n ≤ 999999 →
    code ≤ 1 →
    let test : Account → AccountState := fun x =>
      if code = 0 ∧ (x.limit = 0 ∨ x.charged < x.limit) ∧ x.charged < 999999999999 then .opened else .stopped
    (s.admits r t 11 →
      let u : State := { s with tal.accounts := s.tal.accounts.map fun x =>
        if x.number = n then { x with state := test x } else x }
      u.account n = some { a with state := test a } ∧ u.rli.notices = s.rli.notices
        ∧ exec (.setAccountState r t n code) s = .next (publish (accept r t 11
          (number 1 (test a).code ++ number 6 a.charged ++ number 6 a.limit) u)))
      ∧ (s.admits r t 10 → ∀ (cls limit : Nat) (reset : Bool), cls ≤ 7 → limit ≤ 999999999999 →
        let loaded : Account → Account := fun x =>
          { x with cls := cls, limit := limit, charged := if reset then 0 else x.charged
                   residue := if reset then 0 else x.residue }
        let after : Account → Account := fun x => { loaded x with state := test (loaded x) }
        let u : State := { s with tal.accounts := s.tal.accounts.map fun x => if x.number = n then after x else x }
        u.account n = some (after a) ∧ u.rli.notices = s.rli.notices
          ∧ exec (.loadAccount r t n cls limit code reset) s = .next (publish (accept r t 10
            ((after a).bytes ++ flagByte false) u)))

/-- Account records made, refused and removed (R137, R139, R141, R142, R165). LOAD_ACCOUNT of a number without a record: one
with every figure 0 is created in its place by number, with the class, limit and state asked; TABLE-FULL with 1,024 records;
BAD-VALUE for values out of range. SET_ACCOUNT_STATE: BAD-VALUE for a number out of range, NO-ACCOUNT without a record, and
BAD-VALUE for a state that is neither of the two; that a number without a record comes before such a state is the model's
choice (log 47). CLOSE_ACCOUNT: BAD-VALUE for a number out of range, NO-ACCOUNT without a record, IN-USE with deliveries in
flight, the record unchanged; otherwise the record goes, and the reply carries its figures as they stood; a FETCH taken after
it, that passes checks 1 to 5, is refused NO-ACCOUNT. The replies' layouts are the model's choice (log 9). -/
def Obligations.AccountsMadeAndRemoved : Prop :=
  ∀ (s : State) (r t n : Nat), s.handsOn →
    let numbered : Prop := 1 ≤ n ∧ n ≤ 999999
    (s.admits r t 10 → ∀ (cls limit code : Nat) (reset : Bool),
      let good : Prop := numbered ∧ cls ≤ 7 ∧ limit ≤ 999999999999 ∧ code ≤ 1
      let i : Instr := .loadAccount r t n cls limit code reset
      (¬good → exec i s = .next (publish (reject r t 10 .badValue s)))
        ∧ (good → s.account n = none → 1024 ≤ s.tal.accounts.length →
          exec i s = .next (publish (reject r t 10 .tableFull s)))
        ∧ (good → s.account n = none → s.tal.accounts.length < 1024 →
          ∃ before behind, s.tal.accounts = before ++ behind ∧ (∀ x ∈ before, x.number ≤ n)
            ∧ (∀ x, behind.head? = some x → n < x.number)
            ∧ ∀ a : Account, a = { number := n, cls := cls, state := if code = 0 then .opened else .stopped, limit := limit
                                   charged := 0, residue := 0, dayPages := 0, dayCents := 0, dayDeeds := 0, prevPages := 0
                                   prevCents := 0, prevDeeds := 0, inFlight := 0 } →
              exec i s = .next (publish (accept r t 10 (a.bytes ++ flagByte true)
                { s with tal.accounts := before ++ a :: behind }))))
      ∧ (s.admits r t 11 → ∀ code : Nat,
        let i : Instr := .setAccountState r t n code
        (¬numbered → exec i s = .next (publish (reject r t 11 .badValue s)))
          ∧ (numbered → s.account n = none → exec i s = .next (publish (reject r t 11 .noAccount s)))
          ∧ (numbered → s.account n ≠ none → 1 < code → exec i s = .next (publish (reject r t 11 .badValue s))))
      ∧ (s.admits r t 12 →
        let i : Instr := .closeAccount r t n
        (¬numbered → exec i s = .next (publish (reject r t 12 .badValue s)))
          ∧ (numbered → s.account n = none → exec i s = .next (publish (reject r t 12 .noAccount s)))
          ∧ ∀ a, numbered → s.account n = some a →
            (0 < a.inFlight → exec i s = .next (publish (reject r t 12 .inUse s)))
            ∧ (a.inFlight = 0 →
              let u : State := { s with tal.accounts := s.tal.accounts.filter (·.number != n) }
              exec i s = .next (publish (accept r t 12 a.figureBytes u))
                ∧ u.account n = none ∧ u.tal.accounts.length < s.tal.accounts.length
                ∧ ∀ r' t' b, b.account = n → s.fetchBarred r' t' b = none →
                  exec (.fetch r' t' b) u = .next (publish (refuse r' t' .noAccount 1 u))))

/-- LOAD_SCHEDULE (R145, R147): BAD-VALUE for an effective fee day or a figure out of range, NO-SLOT with neither a PENDING nor
an EMPTY slot, no slot and no generation touched. Otherwise the schedule takes the PENDING slot, else the lowest EMPTY one,
with the next generation; it is ACTIVE at once, with its notice, when no slot is, and PENDING otherwise; the generation to come
is the one that follows, 1 behind 65,535, past every value that a slot then holds. The reply's layout is the model's choice
(log 9). -/
def Obligations.LoadScheduleTakesSlot : Prop :=
  ∀ (s : State) (r t e : Nat) (fs : List ClassFigures), s.handsOn → s.admits r t 13 →
    let good : Prop := 1 ≤ e ∧ e ≤ 65535 ∧ ∀ f ∈ fs, figuresGood f = true
    let i : Instr := .loadSchedule r t e fs
    (¬good → exec i s = .next (publish (reject r t 13 .badValue s)))
      ∧ (good → (∀ x ∈ s.tal.slots, x.role ≠ .waiting ∧ x.role ≠ .empty) →
        exec i s = .next (publish (reject r t 13 .noSlot s)))
      ∧ ∀ j < 3, good → s.tal.slots.length = 3 → 1 ≤ s.tal.nextGeneration → s.tal.nextGeneration ≤ 65535 →
        ((s.tal.slots.getD j Slot.reset).role = .waiting ∧ (∀ i < j, (s.tal.slots.getD i Slot.reset).role ≠ .waiting)
          ∨ (∀ x ∈ s.tal.slots, x.role ≠ .waiting) ∧ (s.tal.slots.getD j Slot.reset).role = .empty
            ∧ ∀ i < j, (s.tal.slots.getD i Slot.reset).role ≠ .empty) →
        let role : Role := if s.tal.slots.all (·.role != .active) then .active else .waiting
        let behind : Nat → Nat := fun g => if g = 65535 then 1 else g + 1
        let held : Nat → Prop := fun g => g = s.tal.nextGeneration
          ∨ ∃ i < 3, i ≠ j ∧ (s.tal.slots.getD i Slot.reset).role ≠ .empty
            ∧ (s.tal.slots.getD i Slot.reset).generation = g
        ∃ m g, g = behind^[m + 1] s.tal.nextGeneration ∧ ¬held g ∧ (∀ k < m, held (behind^[k + 1] s.tal.nextGeneration))
          ∧ ∀ u : State, u = { s with
              tal.slots := s.tal.slots.set j { role := role, generation := s.tal.nextGeneration, effective := e, refs := 0
                                               figures := fs }
              tal.nextGeneration := g } →
            exec i s = .next (publish (accept r t 13
              (number 1 j ++ number 2 s.tal.nextGeneration ++ number 1 role.code)
              (if role = .active then raise_ (.scheduleActivated s.tal.nextGeneration s.tal.feeDay) u else u)))

/-- DAY_CLOSE (R148, R149): BAD-VALUE for a day outside 1 to 65,535 or not above the fee day; otherwise every account's day
figures move to the previous day, the fee day is the new one, and a PENDING schedule due by then becomes ACTIVE, the former
ACTIVE one RETIRED while it has references and EMPTY otherwise, with SCHEDULE-ACTIVATED. -/
def Obligations.DayCloseTurnsDay : Prop :=
  ∀ (s : State) (r t day : Nat), s.handsOn → s.admits r t 14 →
    let due : Bool := s.tal.slots.any fun x => x.role == .waiting && decide (x.effective ≤ day)
    let u : State := { s with
      tal.feeDay := day
      tal.accounts := s.tal.accounts.map fun a =>
        { a with prevPages := a.dayPages, prevCents := a.dayCents, prevDeeds := a.dayDeeds, dayPages := 0, dayCents := 0
                 dayDeeds := 0 } }
    (day = 0 ∨ 65535 < day ∨ day ≤ s.tal.feeDay →
      exec (.dayClose r t day) s = .next (publish (reject r t 14 .badValue s)))
      ∧ (1 ≤ day → day ≤ 65535 → s.tal.feeDay < day →
        (due = false → exec (.dayClose r t day) s = .next (publish (accept r t 14
          (number 2 day ++ flagByte false ++ optionalNumber 2 (s.activeSlot.map (·.generation))) u)))
        ∧ (due = true →
          let slots := s.tal.slots.map fun x =>
            match x.role with
            | .active => if 0 < x.refs then { x with role := .retired } else Slot.reset
            | .waiting => { x with role := .active }
            | _ => x
          ∀ g, (slots.find? (·.role == .active)).map (·.generation) = some g →
          exec (.dayClose r t day) s = .next (publish (accept r t 14 (number 2 day ++ flagByte true ++ number 2 g)
            (raise_ (.scheduleActivated g day) { u with tal.slots := slots })))))

/-- The tables stay within their bounds and agree with one another. The range table (R59 to R61): a LOAD_RANGE that is accepted,
an opening where fewer than 512 entries stand and none is open, a commit, a close, and the raising of a last by the recovery
leave it at most 512 entries long, no two sharing an instrument, at most one open and that one above the others. The pending
buffer (R63): a commit adds one entry, the recovery none beyond 128. The counts (R76, R137, R146): a FETCH that takes a FREE
context, an ending, a context that becomes FREE and the switch of schedules keep the in-flight counts of the accounts and the
reference counts of the slots equal to the contexts they stand for. -/
def Obligations.TablesKept : Prop :=
  (∀ s : State, rangesKept s.loc.ranges →
    (∀ e, s.rangeRefusal e = none → rangesKept (insertRange e s.loc.ranges))
      ∧ (∀ n i, s.fil.nNext = some i → s.openRange = none → s.loc.ranges.length < 512 → (∀ x ∈ s.loc.ranges, x.last < i) →
        rangesKept (openingOk n s).loc.ranges)
      ∧ (∀ f n, rangesKept (commit f n s).loc.ranges
        ∧ (s.side n ≠ none → (commit f n s).loc.entries.length = s.loc.entries.length + 1))
      ∧ (∀ n owed, rangesKept (finishClose n owed s).loc.ranges ∧ (finishClose n owed s).openRange = none)
      ∧ (∀ n last e, s.rangeOf n = some e → (∀ x ∈ s.loc.ranges, x = e ∨ x.last < e.first) →
        e.openFlag = true ∨ s.openRange = none → rangesKept (raiseLast n last s).loc.ranges)
      ∧ ∀ w i body pages, s.loc.entries.length ≤ 128 → (addFound w i body pages s).loc.entries.length ≤ 128)
    ∧ ∀ s : State, s.ctx.length = 16 → s.countsAgree →
      (∀ c x, c < 16 → (s.context c).state = .free → x.state = .mountWait → (takeContext c x s).countsAgree)
        ∧ (∀ c o, c < 16 → (endContext c o s).countsAgree)
        ∧ (∀ c, c < 16 → (freeContext c s).countsAgree)
        ∧ (switchSchedule s).countsAgree

/-! ### Units and queries -/

/-- DRIVE_OFFLINE (R35, R164): refused by the first check that fails; otherwise OFFLINE at once from EMPTY and from a FAULT
that is no LABEL fault with an identified cartridge, offline pending with a firm unmount order from READY, ACTIVE and such a
LABEL fault, and no change from OFFLINE; the reply carries drive state and offline pending as they then stand. Offline
pending ends when OFFLINE is reached (R28); that the cause CHANNEL or DRIVE of a drive without a cartridge ends with it is
the model's reading (log 40). -/
def Obligations.DriveOfflineActs : Prop :=
  ∀ (s : State) (r t d : Nat), s.handsOn → s.admits r t 15 →
    let x := s.drive d
    let i : Instr := .driveOffline r t d
    let refused : Reason → Prop := fun reason => exec i s = .next (settle (publish (reject r t 15 reason s)))
    let inUse : Prop := x.attached ≠ [] ∨ x.incoming ≠ [] ∨ x.incomingMarker = true
      ∨ ((∃ n, x.mounted = some n ∧ (s.openSide = some n ∨ s.fil.opening = some n))
        ∧ (s.fil.queue ≠ [] ∨ s.fil.activity ≠ .idle))
    let busy : Prop := x.state = .loading ∨ x.state = .checking ∨ x.state = .unloading
      ∨ ∃ o ∈ s.lib.orders, o.inService = true ∧ o.target = some d
    let labelled : Prop := x.state = .fault ∧ x.cause = some .label ∧ x.cartridge ≠ none
    (3 < d → refused .badValue)
      ∧ (d ≤ 3 → inUse → refused .inUse)
      ∧ (d ≤ 3 → ¬inUse → busy → refused .busy)
      ∧ (d ≤ 3 → ¬inUse → ¬busy → x.state = .occupiedUnknown → refused .wrongState)
      ∧ (d ≤ 3 → d < s.drives.length → ¬inUse → ¬busy →
        (x.state = .empty ∨ (x.state = .fault ∧ ¬labelled) →
          ∃ u, exec i s = .next (settle (publish (accept r t 15 (number 1 7 ++ flagByte false) u)))
            ∧ u.drive d = { x with
              state := .offline, offlinePending := false
              cause := if x.cause = some .label ∨ x.cartridge ≠ none then x.cause else none })
        ∧ (x.state = .ready ∨ x.state = .active ∨ labelled →
          ∃ u, exec i s = .next (settle (publish (accept r t 15 (number 1 x.state.code ++ flagByte true) u)))
            ∧ u.drive d = { x with offlinePending := true }
            ∧ (∃ o ∈ u.lib.orders, o.unmounts d = true)
            ∧ ((∀ o ∈ s.lib.orders, o.unmounts d = false) →
              ∃ o ∈ u.lib.orders, o.kind = .unmount d true ∧ o.priority = 0 ∧ o.age = s.now ∧ o.inService = false))
        ∧ (x.state = .offline →
          exec i s = .next (settle (publish (accept r t 15 (number 1 7 ++ flagByte x.offlinePending) s)))))

/-- The requests that answer late (R36, R42, R164, R165, R171, R183): each is refused by its first failing check, or begins
its work and is held for its reply. DRIVE_RETRY begins a probe by a channel reset and a LABEL; CLEAR_PICKER the HOME motion;
CLEAR_FAULT the HOME motion where the picker is in FAULT, and owes an INVENTORY; RESTART the drain that ends every live context
and every filing that has no pass in flight, and empties the mount queue. -/
def Obligations.LateRequestsBegin : Prop :=
  ∀ (s : State) (r t d : Nat), s.handsOn →
    let home : Picker := { s.lib.picker with
      state := .moving, second := none
      motion := some { kind := .home, order := none, served := none, cartridge := s.lib.picker.held, drive := none
                       face := none, last := none, started := true } }
    (s.admits r t 16 →
      let able : Prop := (s.drive d).state = .offline ∨ ((s.drive d).state = .fault ∧ (s.drive d).cause ≠ some .label)
      let refused : Reason → Prop := fun reason => exec (.driveRetry r t d) s = .next (publish (reject r t 16 reason s))
      (3 < d → refused .badValue)
        ∧ (d ≤ 3 → ¬able → refused .wrongState)
        ∧ (d ≤ 3 → able → (s.drive d).probing = true → refused .busy)
        ∧ (d ≤ 3 → able → (s.drive d).probing = false →
          exec (.driveRetry r t d) s = .next (settle { s with
            mu.late := s.mu.late ++ [{ kind := .driveRetry d, requester := r, tag := t }]
            drives := s.drives.modify d fun x =>
              { x with channel := .idle, waitTake := false, waitSend := false, stall := none, current := none
                       offlinePending := false
                       queue := x.queue ++ [{ issuer := .probe, op := .label, first := 0, count := 1, data := []
                                              priority := 0, age := s.now, retries := 0, notReady := 0, have_ := 0 }] } })))
      ∧ (s.admits r t 17 →
        (s.lib.picker.state ≠ .fault → exec (.clearPicker r t) s = .next (publish (reject r t 17 .wrongState s)))
        ∧ (s.lib.picker.state = .fault → exec (.clearPicker r t) s = .next (settle { s with
          mu.late := s.mu.late ++ [{ kind := .clearPicker, requester := r, tag := t }]
          lib.picker := home })))
      ∧ (s.admits r t 20 →
        (s.mu.startFinding ≠ .picker → exec (.clearFault r t) s = .next (publish (reject r t 20 .noFault s)))
        ∧ (s.mu.startFinding = .picker → s.lib.picker.state = .moving →
          exec (.clearFault r t) s = .next (publish (reject r t 20 .busy s)))
        ∧ (s.mu.startFinding = .picker → s.lib.picker.state ≠ .moving →
          exec (.clearFault r t) s = .next (settle { s with
            mu.late := s.mu.late ++ [{ kind := .clearFault, requester := r, tag := t }]
            lib.picker := { (if s.lib.picker.state = .fault then home else s.lib.picker) with inventoryOwed := true } })))
      ∧ (s.admits r t 19 →
        (s.mu.drain = some .restart → exec (.restart r t) s = .next (publish (reject r t 19 .busy s)))
        ∧ (s.mu.drain ≠ some .restart → ∃ u, exec (.restart r t) s = .next (settle u)
          ∧ u.mu.service = .draining ∧ u.mu.drain = some .restart
          ∧ u.mu.late = s.mu.late ++ [{ kind := .restart, requester := r, tag := t }]
          ∧ u.lib.orders = [] ∧ (∀ x ∈ u.drives, x.incoming = [] ∧ x.incomingMarker = false)
          ∧ (∀ i < 4, ∀ e ∈ (u.drive i).queue, e.issuer = .filing ∨ e.issuer = .library ∨ e.issuer = .probe)
          ∧ (∀ c < 16, (u.context c).state.live = false)
          ∧ (∀ c < 16, (s.context c).state.live = true → (u.context c).outcome = some .restart)
          ∧ (∀ f < 8, (u.filing f).state ≠ .free → s.attemptInFlight = true ∧ s.fil.queue.head? = some f)
          ∧ (s.mu.service = .opening → u.mu.recoveryFinding = .restart ∧ u.recovery = Recovery.reset)))

/-- FILING_RESUME (R121, R164): a halt whose condition still holds stays; one whose condition holds no more is cleared and
the readiness test made; the reply carries the halt that then stands. -/
def Obligations.FilingResumeRetests : Prop :=
  ∀ (s : State) (r t : Nat), s.handsOn → s.admits r t 18 → s.todo.readiness = false →
    let answered : State → State → Prop := fun s u =>
      exec (.filingResume r t) s = .next (settle (publish (accept r t 18 (number 1 (haltCode u.fil.halt)) u)))
    (s.fil.halt = none → answered s s)
      ∧ ∀ h, s.fil.halt = some h →
        (s.haltHolds h = true → answered s s)
        ∧ (s.haltHolds h = false → answered s (runReadiness { s with fil.halt := none, todo.readiness := true }))

/-- The queries report and change nothing but the control list (R20, R75, R123, R150, R167). The replies' layouts are the
model's choice (log 9). -/
def Obligations.QueriesReport : Prop :=
  ∀ (s : State) (r t n : Nat), s.handsOn →
    (s.admits r t 21 → exec (.queryStatus r t) s = .next (publish (accept r t 21 (statusReply s) s)))
      ∧ (s.admits r t 22 →
        (n = 0 ∨ 999999 < n → exec (.queryAccount r t n) s = .next (publish (reject r t 22 .badValue s)))
        ∧ (1 ≤ n → n ≤ 999999 → s.account n = none →
          exec (.queryAccount r t n) s = .next (publish (reject r t 22 .noAccount s)))
        ∧ ∀ a, 1 ≤ n → n ≤ 999999 → s.account n = some a →
          exec (.queryAccount r t n) s = .next (publish (accept r t 22 a.bytes s)))
      ∧ (s.admits r t 23 →
        (127 < n → exec (.querySide r t n) s = .next (publish (reject r t 23 .badValue s)))
        ∧ (n ≤ 127 → exec (.querySide r t n) s = .next (publish (accept r t 23 (sideReply n s) s))))
      ∧ (s.admits r t 24 →
        (3 < n → exec (.queryDrive r t n) s = .next (publish (reject r t 24 .badValue s)))
        ∧ (n ≤ 3 → exec (.queryDrive r t n) s = .next (publish (accept r t 24 (driveReply n s) s))))
      ∧ (s.admits r t 25 → exec (.queryContexts r t) s = .next (publish (accept r t 25 (contextsReply s) s)))
      ∧ (s.admits r t 26 → exec (.queryFilings r t) s = .next (publish (accept r t 26 (filingsReply s) s)))
      ∧ (s.admits r t 27 → exec (.querySchedules r t) s = .next (publish (accept r t 27 (schedulesReply s) s)))

/-! ### Drives -/

/-- Transfers (R19, R20, R22, R24): the drive takes what the engine offers, the command message first and then each block of
a WRITE, and the engine offers the next block or awaits the drive; the read of a context is in flight once its message has
been taken; the drive sends a block, which the context of a page read takes into its buffer and any other issuer keeps, and
the engine awaits the next; the stall timer starts anew each time. On a channel that is not watched the drive's flag rises and
nothing else comes about (R21). The model's choices: the engine arrives again in the same event (log 38), and a block beyond
the count, or one a page read has delivered before, is dropped (logs 11, 12). -/
def Obligations.TransfersMoveOn : Prop :=
  ∀ (s : State) (d : Fin 4) (data : Sector) (c : Current),
    let x := s.drive d
    let watched : Prop := (x.state ≠ .fault ∧ x.state ≠ .offline) ∨ x.probing = true
    let timer : Timer := { start := s.now, limit := s.mu.params.channelStall }
    let taken : Current := if c.sent then { c with blocks := c.blocks + 1 } else { c with sent := true }
    let fresh : Prop := c.entry.have_ ≤ c.blocks ∧ c.blocks < c.entry.count
    let offered : Nat → List Context := fun n =>
      s.ctx.modify n fun y => { y with read := if y.read = .offered then .inFlight else y.read }
    let awaits : Current → List Drive := fun c' => s.drives.modify d fun x =>
      { x with channel := .awaiting, waitTake := false, stall := some timer, current := some c' }
    (watched → x.channel = .offering → x.current = some c →
      exec (.driveWaitingToSend d) s = .next { s with
        ctx := match c.sent, c.entry.issuer with
          | false, .page n | false, .locate n => offered n
          | _, _ => s.ctx
        drives := s.drives.modify d fun x =>
          { x with
            waitSend := false, current := some taken, stall := some timer
            channel := if c.entry.op = .write ∧ taken.blocks < c.entry.count then .offering else .awaiting } })
      ∧ (watched → x.channel = .awaiting → x.current = some c →
        (fresh → ∀ n, c.entry.issuer = .page n → (s.context n).state = .streaming →
          exec (.dataBlock d data) s = .next (publish { s with
            drives := awaits { c with entry := { c.entry with have_ := c.blocks + 1 }, blocks := c.blocks + 1 }
            ctx := s.ctx.modify n fun y =>
              Context.prime { y with holding := y.holding ++ [data], filling := y.filling - 1 } }))
        ∧ (fresh → (∀ n, c.entry.issuer ≠ .page n) → exec (.dataBlock d data) s = .next (publish { s with
            drives := awaits { c with blocks := c.blocks + 1, got := c.got ++ [data] } }))
        ∧ (¬fresh → exec (.dataBlock d data) s = .next (publish { s with
            drives := awaits { c with blocks := c.blocks + 1 } })))
      ∧ (¬watched →
        exec (.driveWaitingToSend d) s = .next { s with drives := s.drives.modify d fun x => { x with waitSend := true } }
        ∧ exec (.dataBlock d data) s = .next { s with drives := s.drives.modify d fun x => { x with waitTake := true } })

/-- A RESULT awaited on a watched channel ends its command (R25 to R27, R85): a NOT-READY below the third is reissued, a
MEDIA-ERROR of a READ below the third is retried from the bad sector, a third NOT-READY and a NO-CARTRIDGE where the drive's
record names a cartridge and no probe runs bring the drive to FAULT with cause DRIVE; any other result reaches the issuer:
a page read that ended OK frees its filling frames for the next read, and one that ended otherwise ends its context
PAGE-FAILED. Of what is stated here these are the model's: what results and bad sectors that R25 does not list do (log 11),
how many sectors the retry counts as delivered (log 12), that its NOT-READY count starts anew (log 36). -/
def Obligations.ResultsEndCommands : Prop :=
  ∀ (s : State) (d : Fin 4) (c : Current) (res : DriveResult),
    let x := s.drive d
    let watched : Prop := (x.state ≠ .fault ∧ x.state ≠ .offline) ∨ x.probing = true
    let ended : Option QueueEntry → State := fun again => { s with drives := s.drives.modify d fun y =>
      { y with channel := .idle, stall := none, waitTake := false, current := none
               owed := match again with
                 | some e => some e
                 | none => y.owed } }
    watched → x.channel = .awaiting → x.current = some c →
    (res = .notReady → c.entry.notReady ≤ 1 →
      exec (.result d res) s = .next (settle (ended (some { c.entry with notReady := c.entry.notReady + 1 }))))
      ∧ (∀ b, res = .mediaError b → c.entry.op = .read → c.entry.retries ≤ 1 →
        exec (.result d res) s = .next (settle (ended (some { c.entry with
          first := b, count := c.entry.first + c.entry.count - b, retries := c.entry.retries + 1, notReady := 0
          have_ := c.entry.have_ - (b - c.entry.first) }))))
      ∧ ((res = .notReady ∧ 2 ≤ c.entry.notReady)
          ∨ (res = .noCartridge ∧ x.cartridge ≠ none ∧ c.entry.issuer ≠ .probe) →
        exec (.result d res) s = .next (settle (driveFault d .drive s)))
      ∧ (res ≠ .notReady → res ≠ .noCartridge →
        (∀ b, res = .mediaError b → ¬(c.entry.op = .read ∧ c.entry.retries ≤ 1)) →
        exec (.result d res) s = .next (settle (deliver d c.entry res c.got (ended none)))
          ∧ ∀ n, c.entry.issuer = .page n →
            deliver d c.entry res c.got (ended none) =
              (if res = .ok then id else endContext n .pageFailed) { ended none with ctx := s.ctx.modify n fun y =>
                { y with read := .none, filling := 0, readStart := none } })

/-- A channel found desynchronised, and a stall, reset the channel and bring the drive to FAULT with cause CHANNEL (R21 to
R23). A fault (R34) ends every command, releases the attached contexts, which end SIDE-LOST, leaves no incoming waiter,
turns the cartridge's records STUCK, and raises DRIVE-FAULT with the side mounted. A picker that waits for the drive's
EJECT-PREP parks, and its mount order is WAITING again (R54); that one without waiter and marker is removed is the model's
choice (log 56). That a stall is taken at its limit at the
earliest is the model's choice (log 7); that a fault found by a probe raises the notice too is deduced (log 18). -/
def Obligations.DriveFaultsEndWork : Prop :=
  (∀ (s : State) (d : Fin 4) (data : Sector) (res : DriveResult),
    let x := s.drive d
    let watched : Prop := (x.state ≠ .fault ∧ x.state ≠ .offline) ∨ x.probing = true
    (watched → x.channel ≠ .offering → exec (.driveWaitingToSend d) s = .next (settle (driveFault d .channel s)))
      ∧ (watched → x.channel ≠ .awaiting → exec (.dataBlock d data) s = .next (settle (driveFault d .channel s))
        ∧ exec (.result d res) s = .next (settle (driveFault d .channel s)))
      ∧ ∀ tm, x.stall = some tm → exec (.channelStall d) s
        = .next (settle (driveFault d .channel { s with now := max s.now (tm.start + tm.limit) })))
    ∧ ∀ (s : State) (d : Nat) (cause : DriveCause), d < s.drives.length → cause ≠ .label →
      let x := s.drive d
      let u := driveFault d cause s
      (u.drive d).state = .fault ∧ (u.drive d).cause = some cause ∧ (u.drive d).cartridge = x.cartridge
        ∧ (u.drive d).channel = .idle ∧ (u.drive d).waitTake = false ∧ (u.drive d).waitSend = false
        ∧ (u.drive d).stall = none ∧ (u.drive d).current = none ∧ (u.drive d).owed = none ∧ (u.drive d).queue = []
        ∧ (u.drive d).idle = none ∧ (u.drive d).attached = [] ∧ (u.drive d).incoming = []
        ∧ (∀ n r, x.cartridge = some (slotOf n) → s.side n = some r → ∃ r', u.side n = some r' ∧ r'.state = .stuck)
        ∧ (∀ c ∈ x.attached, c < s.ctx.length → (s.context c).state.live = true →
          (u.context c).state = .ending ∧ (u.context c).outcome = some .sideLost)
        ∧ (s.mu.manager ≠ none → ∃ n ∈ u.rli.notices, n.details = .driveFault d cause x.mounted)
        ∧ ∀ m, s.lib.picker.motion = some m → m.started = false → m.drive = some d →
          u.lib.picker.state = .parked ∧ u.lib.picker.motion = none ∧ u.lib.picker.second = none
            ∧ ∀ o ∈ u.lib.orders, m.order = some o.id → o.inService = false
              ∧ ∀ n, o.kind = .mount n → o.waiters ≠ [] ∨ o.marker = true

/-! ### Mount queue and arbiter -/

/-- A need for a side and the orders it makes (R44 to R48, R94, R95). The answer of R46, by its first case that applies. A
mounted side's drive takes the context at once, its WAITING idle order withdrawn, and a context in MOUNT-WAIT begins its
locate; a drive in LOADING or CHECKING takes it as incoming; an order takes it as its last waiter; otherwise an order is
made. An order has the greatest priority of its waiters and its marker, an unmount order 0. A context that leaves takes an
abandoned WAITING order with it. One unmount order of a drive: a firm one replaces a WAITING idle one. A side that can be
served no more loses its order, whose waiters end UNAVAILABLE, unless its cartridge moves. Parking hands a queued read back;
a parked context that has read all leaves its order. -/
def Obligations.MountNeedsAnswered : Prop :=
  (∀ (s : State) (n : Nat) (forContext : Bool),
    let unusable : Prop := ∀ r, s.side n = some r → r.state = .missing ∨ r.state = .mismatch ∨ r.state = .stuck
      ∨ ∃ d, r.location = .drive d
        ∧ ((s.drive d).state = .fault ∨ (s.drive d).state = .offline ∨ (s.drive d).state = .occupiedUnknown)
    let ready : Nat → Prop := fun d => d < 4 ∧ (s.drive d).mounted = some n
      ∧ ((s.drive d).state = .ready ∨ (s.drive d).state = .active)
    let coming : Nat → Prop := fun d => d < 4 ∧ (s.drive d).mounted = some n
      ∧ ((s.drive d).state = .loading ∨ (s.drive d).state = .checking)
    let barred : Prop := forContext = true ∧ s.lib.picker.state = .fault
    let answers : Answer → Prop := fun a => s.answerNeed n forContext = a
    (unusable → answers .unavailable)
      ∧ (¬unusable →
        (∀ d, ready d → (∀ i, ready i → i = d) → answers (.mounted d))
        ∧ ((∀ i, ¬ready i) →
          (∀ d, coming d → (∀ i, coming i → i = d) →
            (barred ∧ (s.drive d).state = .loading → answers .unavailable)
            ∧ (¬(barred ∧ (s.drive d).state = .loading) → answers (.incoming d)))
          ∧ ((∀ i, ¬coming i) →
            (barred → answers .unavailable)
            ∧ (¬barred → (∀ o, s.orderFor n = some o → answers (.order o.id)) ∧ (s.orderFor n = none → answers .fresh))))))
    ∧ (∀ (s : State) (o : Order),
      (∀ d firm, o.kind = .unmount d firm → s.priorityOf o = 0)
        ∧ ∀ n, o.kind = .mount n →
          (∀ c ∈ o.waiters, (s.context c).priority ≤ s.priorityOf o)
          ∧ (o.marker = true → s.mu.params.filingPriority ≤ s.priorityOf o)
          ∧ (s.priorityOf o = 0 ∨ (∃ c ∈ o.waiters, s.priorityOf o = (s.context c).priority)
            ∨ (o.marker = true ∧ s.priorityOf o = s.mu.params.filingPriority)))
    ∧ (∀ (s : State) (c n d : Nat),
      let ranked : List Order → List Order := fun os => os.map fun o => { o with priority := s.priorityOf o }
      let idle : Order → Bool := fun o => o.kind == .unmount d false && !o.inService
      (s.answerNeed n true = .fresh → (applyAnswer c n s).lib.orders = ranked s.lib.orders ++
        [{ id := s.lib.nextOrder, kind := .mount n, waiters := [c], marker := false, priority := (s.context c).priority
           age := s.now, forced := s.forcedFor n, inService := false, target := none }])
        ∧ (∀ id, s.answerNeed n true = .order id → (applyAnswer c n s).lib.orders
          = ranked (s.lib.orders.map fun o => if o.id = id then { o with waiters := o.waiters ++ [c] } else o))
        ∧ (s.answerNeed n true = .incoming d → applyAnswer c n s
          = { s with drives := s.drives.modify d fun x => { x with incoming := x.incoming ++ [c] } })
        ∧ (s.answerNeed n true = .mounted d → (s.context c).state = .mountWait → c < s.ctx.length →
          applyAnswer c n s = locateEntry c { s with
            lib.orders := s.lib.orders.filter fun o => !idle o
            drives := s.drives.modify d fun x => { x with attached := x.attached ++ [c] }
            ctx := s.ctx.modify c fun x => { x with
              parked := false, state := .locating
              locate := some { side := x.side, k := x.k, j := x.k / 64, slot := x.k % 64, step := .entry, entry := none } } })
        ∧ (leaveOrders c s).lib.orders = ranked ((s.lib.orders.map fun o =>
            { o with waiters := o.waiters.filter (· != c) }).filter fun o => !o.abandoned)
        ∧ (leaveOrders c s).drives = s.drives.map (fun x => { x with incoming := x.incoming.filter (· != c) })
        ∧ (∀ o : Order, o.abandoned = true ↔ (∃ m, o.kind = .mount m) ∧ o.inService = false ∧ o.waiters = []
          ∧ o.marker = false)
        ∧ (∀ firm, let kept := if firm then s.lib.orders.filter fun o => !idle o else s.lib.orders
          ((∃ o ∈ kept, ∃ f, o.kind = .unmount d f) → (newUnmount d firm s).lib.orders = kept)
          ∧ ((∀ o ∈ kept, ∀ f, o.kind ≠ .unmount d f) → (newUnmount d firm s).lib.orders = ranked kept ++
            [{ id := s.lib.nextOrder, kind := .unmount d firm, waiters := [], marker := false, priority := 0, age := s.now
               forced := none, inService := false, target := none }])))
    ∧ (∀ (s : State) (n : Nat) (o : Order), s.orderFor n = some o →
      let moving : Prop := o.inService = true ∧ ∃ m, s.lib.picker.motion = some m ∧ m.order = some o.id ∧ m.started = true
      (moving → removeMount n s = s)
        ∧ (¬moving → (∀ p ∈ (removeMount n s).lib.orders, p.id ≠ o.id)
          ∧ (∀ c ∈ o.waiters, c < s.ctx.length → (s.context c).state.live = true →
            ((removeMount n s).context c).state = .ending ∧ ((removeMount n s).context c).outcome = some .unavailable)
          ∧ (o.marker = true → s.fil.mountFor ≠ none →
            (removeMount n s).fil.mountFor = none ∧ (removeMount n s).fil.activity = .idle)))
    ∧ (∀ x : Context,
      (x.read ≠ .queued → x.park = { x with parked := true })
        ∧ (∀ place, x.read = .queued → x.readStart = some place →
          x.park = { x with parked := true, read := .none, filling := 0, readStart := none, nextRead := some place })
        ∧ (x.read = .queued → x.readStart = none → x.park = { x with parked := true, read := .none, filling := 0 }))
    ∧ ∀ (s : State) (c : Nat),
      let done : Prop := (s.context c).parked = true ∧ (s.context c).state = .streaming ∧ (s.context c).nextRead = none
        ∧ (s.context c).read = .none
      (done → withdrawParked c s = leaveOrders c s) ∧ (¬done → withdrawParked c s = s)

/-- Eligibility, targets, victims and grants (R50 to R53, R94). An unmount order needs its drive READY, ACTIVE, in FAULT LABEL,
or UNLOADING with no grant on it, with its cartridge; that an idle one waits for a filing sequence on its drive to end is
deduced (log 58). A mount order whose cartridge is at home takes the lowest EMPTY drive,
else the least recently used READY drive with no work that is free for it, else, at priority 3, the best victim; one whose
cartridge is in its forced drive takes that drive. A grant puts the order IN-SERVICE on its target, stamps the drive and
withdraws its idle order; the picker starts on a MOUNT into an EMPTY drive at once, and on a TURN or an UNMOUNT, which a MOUNT
may follow, behind an EJECT-PREP on a drive gone UNLOADING, its contexts parked with an order of their own. Log 14 names what
the grant of an unmount order does with work a drive still has, log 15 the forced drive with offline pending. -/
def Obligations.GrantsDo : Prop :=
  (∀ s : State,
    let targeted : Nat → Prop := fun d => ∃ p ∈ s.lib.orders, p.inService = true ∧ p.target = some d
    let wanted : Nat → Prop := fun d => ∃ m, (s.drive d).mounted = some m
      ∧ ((s.openSide = some m ∧ s.fil.queue ≠ []) ∨ s.fil.opening = some m)
    let still : Nat → Prop := fun d => (s.drive d).state = .ready ∧ (s.drive d).hasWork = false ∧ ¬wanted d
    let spare : Nat → Prop := fun d => d < 4 ∧ still d ∧ (s.drive d).offlinePending = false
      ∧ ∀ p ∈ s.lib.orders, p.inService = true → p.forced ≠ some d
    let victim : Nat → Prop := fun d => ((s.drive d).state = .ready ∨ (s.drive d).state = .active)
      ∧ (s.drive d).cartridge ≠ none ∧ (s.drive d).offlinePending = false
      ∧ (∀ c ∈ (s.drive d).attached, (s.context c).priority ≤ 2) ∧ s.sequenceOn d = false
    let empty : Nat → Prop := fun d => d < 4 ∧ (s.drive d).state = .empty
    (∀ (o : Order) (d : Nat) (firm : Bool), o.kind = .unmount d firm → o.inService = false →
      (s.target o = some d ↔ (firm = true ∨ s.sequenceOn d = false) ∧ (s.drive d).cartridge ≠ none ∧ ((s.drive d).state = .ready ∨ (s.drive d).state = .active
        ∨ ((s.drive d).state = .fault ∧ (s.drive d).cause = some .label)
        ∨ ((s.drive d).state = .unloading ∧ ¬targeted d)))
      ∧ (s.target o = some d ∨ s.target o = none))
      ∧ (∀ o : Order, o.inService = true → s.target o = none)
      ∧ (∀ (o : Order) (n : Nat) (r : SideRecord), o.kind = .mount n → o.inService = false → s.side n = some r →
        (r.location = .picker → s.target o = none)
        ∧ (r.location = .home →
          (∀ d, empty d → (∀ i < d, ¬empty i) → s.target o = some d)
          ∧ ((∀ i, ¬empty i) →
            (∀ d, spare d → (∀ i, spare i → (s.drive d).lastReady < (s.drive i).lastReady
              ∨ ((s.drive d).lastReady = (s.drive i).lastReady ∧ d ≤ i)) → s.target o = some d)
            ∧ ((∀ i, ¬spare i) →
              (o.priority ≠ 3 ∨ (∀ i < 4, ¬victim i) → s.target o = none)
              ∧ ∀ d, o.priority = 3 → d < 4 → victim d → (∀ i < 4, victim i → s.victimRank d < s.victimRank i
                ∨ (s.victimRank d = s.victimRank i ∧ ((s.drive d).grantRank < (s.drive i).grantRank
                  ∨ ((s.drive d).grantRank = (s.drive i).grantRank ∧ d ≤ i)))) → s.target o = some d)))
        ∧ ∀ d, r.location = .drive d →
          let able : Prop := o.forced = some d ∧ (still d ∨ (o.priority = 3 ∧ victim d))
          (able → s.target o = some d) ∧ (¬able → s.target o = none))
      ∧ ∀ d, ((s.drive d).attached = [] → s.victimRank d = 0)
        ∧ (∀ c ∈ (s.drive d).attached, (s.context c).priority < s.victimRank d)
        ∧ ((s.drive d).attached ≠ [] → ∃ c ∈ (s.drive d).attached, s.victimRank d = (s.context c).priority + 1)
        ∧ ((s.drive d).lastGranted = none → (s.drive d).grantRank = 0)
        ∧ ∀ t, (s.drive d).lastGranted = some t → (s.drive d).grantRank = t + 1)
    ∧ ∀ (s : State) (o : Order) (d : Nat), d < 4 → s.drives.length = 4 → o ∈ s.lib.orders → o.id < s.lib.nextOrder →
      ((s.drive d).attached ≠ [] → (s.drive d).mounted ≠ none) →
      let x := s.drive d
      let u := grant o d s
      let motion : MotionKind → Option Nat → Option Nat → Option Nat → Bool → Motion := fun kind n slot face started =>
        { kind := kind, order := some o.id, served := n, cartridge := slot, drive := some d, face := face, last := none
          started := started }
      let sent : Prop := (u.drive d).state = .unloading ∧ (u.drive d).cartridge = x.cartridge ∧ (u.drive d).idle = none
        ∧ ∃ q, (u.drive d).queue = q ++ [{ issuer := .library, op := .ejectPrep, first := 0, count := 1, data := []
                                           priority := 0, age := s.now, retries := 0, notReady := 0, have_ := 0 }]
      let parked : Option Nat → Prop := fun forced => (u.drive d).attached = []
        ∧ (∀ c ∈ x.attached, c < s.ctx.length → (u.context c).parked = true)
        ∧ ∀ m, x.attached ≠ [] → x.mounted = some m → ∃ p ∈ u.lib.orders, p.kind = .mount m ∧ p.waiters = x.attached
          ∧ p.marker = false ∧ p.age = s.now ∧ p.forced = forced ∧ p.inService = false
      (u.drive d).lastGranted = some s.now ∧ u.lib.picker.state = .moving
        ∧ (∀ i, i ≠ d → { u.drive i with queue := [], incomingMarker := false }
          = { s.drive i with queue := [], incomingMarker := false })
        ∧ (∃ p ∈ u.lib.orders, p.id = o.id ∧ p.kind = o.kind ∧ p.waiters = o.waiters)
        ∧ (∀ p ∈ u.lib.orders, p.id = o.id → p.inService = true ∧ p.target = some d)
        ∧ (∀ p ∈ u.lib.orders, p.kind = .unmount d false → p.inService = true)
        ∧ (∀ firm, o.kind = .unmount d firm → sent ∧ parked none ∧ u.lib.picker.second = none
          ∧ u.lib.picker.motion = some (motion .unmount x.mounted x.cartridge none false))
        ∧ ∀ n, o.kind = .mount n →
          (x.state = .empty → (u.drive d).state = .empty ∧ u.lib.picker.second = none
            ∧ u.lib.picker.motion = some (motion .mount (some n) (some (n / 2)) (some (n % 2)) true))
          ∧ (x.state ≠ .empty → x.cartridge = some (n / 2) → sent ∧ parked (some d) ∧ u.lib.picker.second = none
            ∧ u.lib.picker.motion = some (motion .turn (some n) (some (n / 2)) (some (n % 2)) false))
          ∧ (x.state ≠ .empty → x.cartridge ≠ some (n / 2) → sent ∧ parked none
            ∧ u.lib.picker.motion = some (motion .unmount (some n) x.cartridge none false)
            ∧ u.lib.picker.second = some (motion .mount (some n) (some (n / 2)) (some (n % 2)) false))

/-! ### Labels -/

/-- The label comparison and what it decides (R2, R15, R29, R36, R54). A BLANK side matches a BLANK result, any other an OK
whose label has a good check value, the record's serial and the face; a STUCK side is compared by the state it returns to. In
CHECKING a match brings the drive to READY, or with waiters to ACTIVE, where they attach in order; a mismatch brings it to FAULT
LABEL, turns the side read MISMATCH and ends the waiters. A probe with an identified cartridge: a match returns both faces and
the drive to READY, a mismatch turns the face read MISMATCH and returns the other, no cartridge leaves a FAULT DRIVE; without
one it finds the drive EMPTY, which calls the picker arbiter, or OCCUPIED-UNKNOWN, which does not (R49). A DRIVE_RETRY is then
answered. In QUIESCENT no idle timer starts (R182, deduced in log 59). That a probe without an identified cartridge whose LABEL
ends with neither a label nor NO-CARTRIDGE finds it OCCUPIED-UNKNOWN is the model's choice (log 63). -/
def Obligations.LabelsDecide : Prop :=
  (∀ (r : SideRecord) (face : Nat) (res : DriveResult) (got : List Sector),
    let state := r.prior.getD r.state
    (state = .blank → (r.labelMatches face res got = true ↔ ∃ b, res = .blank b))
      ∧ (state ≠ .blank → (r.labelMatches face res got = true
        ↔ res = .ok ∧ readLabel (got.headD []) = some (r.serial, face))))
    ∧ ∀ (s : State) (d n : Nat) (r : SideRecord) (res : DriveResult) (got : List Sector), d < 4 → s.drives.length = 4 →
      let x := s.drive d
      let good : Prop := r.labelMatches (n % 2) res got = true
      (x.state = .checking → x.mounted = some n → s.side n = some r →
        let u := labelEnd d res got s
        let kept : Prop := s.mu.service = .quiescent ∨ ∃ m, x.mounted = some m
          ∧ ((s.openSide = some m ∧ s.fil.queue ≠ []) ∨ s.fil.opening = some m ∨ s.sequenceSide = some m)
        (good → x.incoming = [] → x.incomingMarker = false → (u.drive d).state = .ready ∧ (u.drive d).lastReady = s.now
          ∧ (kept → (u.drive d).idle = none)
          ∧ (¬kept → (u.drive d).idle = some { start := s.now, limit := s.mu.params.idleUnmount }))
        ∧ (good → x.incoming ≠ [] ∨ x.incomingMarker = true →
          let v := x.incoming.foldl (fun s c => attachContext d c s) { s with drives := s.drives.modify d fun x =>
            { x with incoming := [], incomingMarker := false, state := .active } }
          u = if x.incomingMarker then engineMounted v else v)
        ∧ (¬good → (u.drive d).state = .fault ∧ (u.drive d).cause = some .label ∧ (u.drive d).incoming = []
          ∧ u.side n = some { r with state := .mismatch, prior := none } ∧ (∀ m, m ≠ n → u.side m = s.side m)
          ∧ (∀ c ∈ x.incoming, c < s.ctx.length → (s.context c).state.live = true →
            (u.context c).state = .ending ∧ (u.context c).outcome = some .unavailable)
          ∧ (s.mu.manager ≠ none → ∃ m ∈ u.rli.notices, m.details = .driveFault d .label (some n))))
      ∧ (let u := probeEnd d res got s
        (∀ l ∈ u.mu.late, l.kind ≠ .driveRetry d)
        ∧ (x.cartridge = none →
          (res = .noCartridge → (u.drive d).state = .empty ∧ u.todo.arbiter = true)
          ∧ (res ≠ .noCartridge → (u.drive d).state = .occupiedUnknown ∧ u.todo = s.todo))
        ∧ ∀ c, x.cartridge = some c → x.mounted = some n → s.side n = some r →
          (res = .noCartridge → (u.drive d).state = .fault ∧ (u.drive d).cause = some .drive)
          ∧ (res ≠ .noCartridge → good → (u.drive d).state = .ready ∧ (u.drive d).cause = none
            ∧ ∀ m y, slotOf m = c → s.side m = some y → u.side m = some { y with state := y.prior.getD y.state, prior := none })
          ∧ (res ≠ .noCartridge → ¬good → (u.drive d).state = .fault ∧ (u.drive d).cause = some .label
            ∧ u.side n = some { r with state := .mismatch, prior := none }
            ∧ ∀ m y, m ≠ n → slotOf m = c → s.side m = some y →
              u.side m = some { y with state := y.prior.getD y.state, prior := none }))

/-! ### Opening and endings -/

/-- The identifications of OPENING and their findings (R14, R43, R174, R175). A label read of a drive without an identified
cartridge finds it EMPTY, or READY with the cartridge of a record that no other drive holds, or in FAULT LABEL. When the
label reads and the inventory have ended, a matched cartridge whose slot reads occupied turns MISMATCH and its drive goes to
FAULT LABEL without it, a record at home whose slot reads empty turns MISSING, and the OPEN side, then the index-incomplete
sides in ascending order, are left to walk; each is asked for in its turn. That a STUCK record and a drive already in FAULT
stay as they are, and that the channel of the other drive is reset, is the model's choice (log 52). -/
def Obligations.OpeningIdentifies : Prop :=
  (∀ (s : State) (d : Nat) (res : DriveResult) (got : List Sector), d < 4 → s.drives.length = 4 →
    (s.drive d).state = .checking → (s.drive d).cartridge = none →
    let u := labelEnd d res got s
    let matched : Nat → Prop := fun n => n < 128 ∧ res = .ok ∧ ∃ r, s.side n = some r
      ∧ readLabel (got.headD []) = some (r.serial, n % 2) ∧ ∀ i, i ≠ d → r.location ≠ .drive i
    (res = .noCartridge → (u.drive d).state = .empty)
      ∧ (∀ n, matched n → (∀ m < n, ¬matched m) →
        (u.drive d).state = .ready ∧ (u.drive d).cartridge = some (n / 2) ∧ (u.drive d).face = some (n % 2)
          ∧ (u.drive d).lastReady = s.now ∧ u.recovery.matched = s.recovery.matched ++ [(d, n / 2)]
          ∧ ∀ m, u.side m = if slotOf m = n / 2 then (s.side m).map fun x => { x with location := .drive d } else s.side m)
      ∧ (res ≠ .noCartridge → (∀ n, ¬matched n) → (u.drive d).state = .fault ∧ (u.drive d).cause = some .label
        ∧ (u.drive d).cartridge = none ∧ u.recovery.matched = s.recovery.matched))
    ∧ (∀ (s : State) (d c : Nat), d < 4 → s.drives.length = 4 →
      let u := slotConflict d c s
      (s.lib.picker.occupancy.getD c .unknown ≠ .occupied → u = s)
        ∧ (s.lib.picker.occupancy.getD c .unknown = .occupied →
          (∀ n, u.side n = if slotOf n = c then (s.side n).map fun r =>
            if r.state = .stuck then r else { r with state := .mismatch, prior := none } else s.side n)
          ∧ ((s.drive d).cartridge = some c → (s.drive d).state ≠ .fault →
            (u.drive d).state = .fault ∧ (u.drive d).cause = some .label ∧ (u.drive d).cartridge = none
              ∧ (u.drive d).channel = .idle ∧ (u.drive d).stall = none ∧ (u.drive d).current = none
              ∧ (u.drive d).owed = none ∧ (u.drive d).queue = [])))
    ∧ (∀ (s : State) (n : Nat), n < 128 → (findMissing s).side n = (s.side n).map fun r =>
      if r.location = .home ∧ s.lib.picker.occupancy.getD (n / 2) .unknown = .empty then
        { r with state := .missing, prior := none } else r)
    ∧ ∀ s : State, s.mu.service = .opening →
      let ended : Prop := (∀ x ∈ s.drives, ¬(x.state = .checking ∧ x.cartridge = none))
        ∧ s.lib.picker.inventoryOwed = false ∧ ∀ m, s.lib.picker.motion = some m → m.kind ≠ .inventory
      let u := recoveryStep s
      (s.recovery.phase = .identifying → ¬ended → u = s)
        ∧ (s.recovery.phase = .identifying → ended →
          let v := findMissing (s.recovery.matched.foldl (fun s m => slotConflict m.1 m.2 s) s)
          ∃ rest, u = { v with recovery.phase := .walking, recovery.left := s.recovery.openAtEntry.toList ++ rest }
            ∧ rest.Pairwise (· < ·)
            ∧ ∀ n, n ∈ rest ↔ n < 128 ∧ s.recovery.openAtEntry ≠ some n ∧ ∃ r, s.side n = some r ∧ r.incomplete = true)
        ∧ (s.recovery.phase = .walking → s.recovery.walk = none → s.recovery.left = [] → u = recoveryDone s)
        ∧ ∀ n rest r, s.recovery.phase = .walking → s.recovery.walk = none → s.recovery.left = n :: rest →
          s.side n = some r → ∃ v : State, u = withMount n .walk id v ∧ v = { s with
            recovery.left := rest
            recovery.walk := some { side := n, phase := .mounting, p := 0, k := 0, mark0 := r.dataHigh } }

/-- The recovery walk of one side (R7 to R9, R175 to R178). The catch-up counts each full index sector that stands where W
says, closes an OPEN side behind a partial one, passes over any other finding but BLANK as over a failed write, at most eight
times, and then the directories are walked: from sector 1, or behind the last written entry. At each position the guard and
the range's end are tested; a good trailer of the expected instrument adds a pending entry while the buffer has room, one
that is not good is stepped over and counted from the mark held at the start on; a BLANK ends the walk complete, anything
else broken: an OPEN side owes its close to SUSPECT, another takes no further extent. An end raises the last of the range of
the side that was OPEN, and a complete one that falls short of its range is RANGE-AHEAD. -/
def Obligations.RecoveryWalks : Prop :=
  ∀ (s : State) (w : Walk) (d : Nat) (r : SideRecord) (e : RangeEntry) (got : Sector), s.mu.service = .opening →
    s.recovery.walk = some w → s.side w.side = some r → s.rangeOf w.side = some e → s.mountedReady w.side = some d →
    let n := w.side
    let result : DriveResult → State := fun res => walkResult res [got] s
    let other : DriveResult → Prop := fun res => res ≠ .ok ∧ ∀ b, res ≠ .blank b
    let sides : (SideRecord → SideRecord) → State := fun f => { s with lib.sides := s.lib.sides.modify n (Option.map f) }
    let reads : State → State → Walk → Nat → Prop := fun v u w' first => u = { v with
      recovery.walk := some w'
      drives := v.drives.modify d fun x => { x with queue := x.queue ++ [{ issuer := .recovery, op := .read, first := first
                                                                           count := 1, data := [], priority := 0
                                                                           age := v.now, retries := 0, notReady := 0
                                                                           have_ := 0 }] } }
    let raised : Nat → Nat := fun k => if s.recovery.openAtEntry = some n then max e.last (e.first + k - 1) else e.last
    let walked : State → Nat → Nat → Prop := fun u k mark => u.recovery.walk = none
      ∧ u.recovery.walked = s.recovery.walked + 1 ∧ u.side n = some { r with dataHigh := mark }
      ∧ u.rangeOf n = some { e with last := raised k } ∧ u.loc.entries = s.loc.entries
    let complete : State → Nat → Nat → Prop := fun u p k =>
      (raised k + 1 ≤ e.first + k → walked u k (max p r.dataHigh))
        ∧ (e.first + k ≤ raised k → u.mu.service = .standby ∧ u.mu.recoveryFinding = .rangeAhead n
          ∧ u.side n = some { r with dataHigh := max p r.dataHigh })
    let broken : State → Nat → Prop := fun u k =>
      (s.openSide = some n → u = { s with
        fil.closeOwed := some .suspect, todo.readiness := true
        recovery.walk := some { w with phase := .closing, k := k } })
        ∧ (s.openSide ≠ some n → walked u k (max (r.indexLow - 16) r.dataHigh))
    let written (used : Nat) : Prop := usedRun (readIndex got) = some used ∧ 1 ≤ used
      ∧ ((readIndex got).getD 0 emptySlot).instrument = e.first + 64 * r.written
    (w.phase = .catchUp →
      (∀ b, result (.blank b) = startDirectories n s)
        ∧ (∀ used, written used →
          let v := takeIndex n (readIndex got) s
          v.side n = some { r with written := r.written + 1 }
            ∧ (∃ c ∈ v.loc.cache, c.side = n ∧ c.j = r.written)
            ∧ (used = 64 → reads v (result .ok) w (299999 - (r.written + 1) - r.skips.length))
            ∧ (used ≠ 64 →
              let u := result .ok
              u.recovery.walk = none ∧ u.recovery.walked = s.recovery.walked + 1
                ∧ (s.openSide ≠ some n → u.side n = some { r with written := r.written + 1 }
                  ∧ u.loc.ranges = s.loc.ranges)
                ∧ (s.openSide = some n → e.openFlag = true →
                  u.side n = some { r with state := .filled, written := r.written + 1 }
                    ∧ u.rangeOf n = some { e with
                      last := max e.last (e.first + 64 * r.written + used - 1), openFlag := false }
                    ∧ (s.mu.manager ≠ none → ∃ m ∈ u.rli.notices, m.details = .sideClosed n .filled r.dataHigh
                      (r.written + 1) r.skips.length r.spoiled r.incomplete))))
        ∧ ∀ res, other res ∨ (res = .ok ∧ ∀ used, ¬written used) →
          (r.skips.length < 8 → reads (sides fun r => { r with skips := r.skips ++ [r.written] }) (result res) w
            (299999 - r.written - (r.skips.length + 1)))
          ∧ (8 ≤ r.skips.length → result res = startDirectories n (sides fun r => { r with incomplete := true })))
      ∧ ((r.written = 0 → startDirectories n s = walkPosition n 1 0 s)
        ∧ (1 ≤ r.written → reads s (startDirectories n s) { w with phase := .startEntry } (r.indexPosition (r.written - 1))))
      ∧ (w.phase = .startEntry → ∀ x, x = (readIndex got).getD 63 emptySlot →
        let k := 64 * r.written
        let good : Prop := entryPasses x (e.first + k - 1) r.dataHigh = true
        (good → result .ok = walkPosition n (x.address + x.body + 1) k s)
          ∧ (¬good → broken (result .ok) k) ∧ ∀ res, res ≠ .ok → broken (result res) k)
      ∧ (∀ p k,
        let u := walkPosition n p k s
        (r.indexLow < p + 19 → complete u p k)
          ∧ (p + 19 ≤ r.indexLow → s.openSide ≠ some n → e.last < e.first + k → walked u k r.dataHigh)
          ∧ (p + 19 ≤ r.indexLow → s.openSide = some n ∨ e.first + k ≤ e.last →
            reads s u { w with phase := .directory, p := p, k := k } p))
      ∧ (w.phase = .directory →
        let fits : DirectoryRead → Prop := fun x => x.serial = r.serial ∧ 2 ≤ x.body ∧ x.body ≤ 23041
          ∧ w.p + x.body < r.indexLow
        (∀ b, complete (result (.blank b)) w.p w.k)
          ∧ (∀ x, readDirectory got = some x → fits x →
            reads s (result .ok) { w with phase := .trailer x.body x.pages } (w.p + x.body))
          ∧ ((∀ x, readDirectory got = some x → ¬fits x) → broken (result .ok) w.k)
          ∧ ∀ res, other res → broken (result res) w.k)
      ∧ (∀ body pages, w.phase = .trailer body pages →
        let p := w.p + body + 1
        (∀ i, goodTrailer got w.p body = some i →
          (i ≠ e.first + w.k → broken (result .ok) w.k)
            ∧ (i = e.first + w.k → 128 ≤ s.loc.entries.length →
              result .ok = recoveryFound (.pendingOverflow n) s)
            ∧ (i = e.first + w.k → s.loc.entries.length < 128 → result .ok = walkPosition n p (w.k + 1) { s with
              loc.entries := insertPending { side := n, k := w.k, entry := makeEntry i w.p body pages } s.loc.entries
              recovery.added := s.recovery.added + 1 }))
          ∧ ∀ res, res ≠ .ok ∨ goodTrailer got w.p body = none → result res = walkPosition n p w.k
            (if w.mark0 ≤ w.p then sides fun r => { r with spoiled := r.spoiled + body + 1 } else s))
      ∧ (s.recovery.phase = .walking →
        let u := recoveryStep s
        (s.walkUnreachable n = true → u = recoveryFound (.unreachable n) s)
          ∧ (s.walkUnreachable n = false → w.phase = .mounting → s.fil.mountFor ≠ some .walk →
            reads s u { w with phase := .catchUp } r.indexLow)
          ∧ (s.walkUnreachable n = false → w.phase = .closing → s.fil.closeOwed = none → s.fil.activity = .idle →
            walked u w.k (max (r.indexLow - 16) r.dataHigh)))
      ∧ (s.walkUnreachable n = true ↔ r.state = .missing ∨ r.state = .mismatch ∨ r.state = .stuck
        ∨ s.inBadDrive r = true ∨ s.recovery.markerBack = true)

/-- The ends of OPENING, of start-up and of a drain, and the entry to STANDBY (R58, R66, R121, R123, R170, R172, R179, R180,
R183). A recovery that ends with no finding takes N_next from the range of the side that was OPEN, raises RECOVERY-DONE, enters
SERVING and answers the SET-STATE; a finding is held and told, the part enters STANDBY, the pending buffer and N_next stay. That
the close a broken walk still owes is dropped is deduced (log 21). An entry to STANDBY empties the cache, withdraws the idle
orders WAITING, and has an unmount order for every drive whose cartridge goes home; that a firm one takes the place of an idle
order returned by a picker fault is the model's choice (log 41). A drain ends when no context is active, no filing in use and no
filing activity left: every SET-STATE is answered with the state entered, and then the RESTART. -/
def Obligations.ServiceEndings : Prop :=
  (∀ s : State,
    let told : State → RecoveryFinding → Prop := fun u f => s.mu.manager ≠ none → ∃ m ∈ u.rli.notices,
      m.details = .recoveryDone s.recovery.walked s.recovery.added u.fil.nNext f
    let answered : State → List Byte → Prop := fun u bytes => (∀ l ∈ u.mu.late, l.kind ≠ .setState)
      ∧ ∃ fs, u.rli.control = s.rli.control ++ fs ∧ fs.map (·.frame) = (s.mu.late.filter (·.kind == .setState)).map fun l =>
        { requester := l.requester, tag := l.tag, body := .reply 2 none bytes }
    (s.mu.recoveryFinding = .none →
      let u := recoveryDone s
      u.mu.service = .serving ∧ u.recovery = Recovery.reset ∧ u.loc = s.loc
        ∧ (∀ n r, s.recovery.openAtEntry = some n → s.rangeOf n = some r → u.fil.nNext = some (r.last + 1))
        ∧ (s.recovery.openAtEntry = none → u.fil.nNext = s.fil.nNext) ∧ told u .none ∧ answered u (number 1 3))
      ∧ ∀ f, f ≠ .none →
        let u := recoveryFound f s
        u.mu.service = .standby ∧ u.mu.recoveryFinding = f ∧ u.recovery = Recovery.reset ∧ u.fil.closeOwed = none
          ∧ u.fil.nNext = s.fil.nNext ∧ u.loc = { s.loc with cache := [] } ∧ told u f
          ∧ answered u (number 1 1 ++ f.bytes))
    ∧ (∀ (s : State) (cause : ChangeCause),
      let u := enterStandby cause s
      u.mu.service = .standby ∧ u.mu.drain = none ∧ u.loc = { s.loc with cache := [] }
        ∧ (s.mu.manager ≠ none → ∃ m ∈ u.rli.notices, m.details = .stateChanged s.mu.service .standby cause)
        ∧ (∀ o ∈ u.lib.orders, ∀ d, o.kind = .unmount d false → o.inService = true)
        ∧ ∀ d < 4,
          let x := s.drive d
          let home : Prop := x.cartridge ≠ none
            ∧ (x.state = .ready ∨ x.state = .active ∨ (x.state = .fault ∧ x.cause = some .label)
              ∨ (x.state = .unloading ∧ ∃ o ∈ s.lib.orders, o.kind = .unmount d false ∧ o.inService = false))
          (home → ∃ o ∈ u.lib.orders, o.kind = .unmount d true ∨ (o.kind = .unmount d false ∧ o.inService = true))
            ∧ (¬home → ∀ o ∈ u.lib.orders, ∀ firm, o.kind = .unmount d firm → ∃ p ∈ s.lib.orders, p.kind = o.kind))
    ∧ (∀ s : State,
      let started : Prop := s.mu.service = .startup ∧ s.memory = .passed ∧ (∀ x ∈ s.drives, x.probing = false)
        ∧ (s.lib.picker.state = .fault ∨ (s.lib.picker.state = .parked ∧ s.lib.picker.inventoryOwed = false))
      (started → startUpEnd s = enterStandby .startUp s) ∧ (¬started → startUpEnd s = s))
    ∧ ∀ s : State,
      let done : Prop := s.mu.service = .draining ∧ (∀ c < 16, (s.context c).state = .free)
        ∧ (∀ x ∈ s.fil.records, x.state = .free) ∧ s.fil.activity = .idle
      let finding : List Byte := if s.mu.recoveryFinding = .none then [] else s.mu.recoveryFinding.bytes
      let replies : LateKind → Nat → List Byte → List OutFrame := fun kind code bytes =>
        (s.mu.late.filter (·.kind == kind)).map fun l =>
          { requester := l.requester, tag := l.tag, body := .reply code none bytes }
      let u := drainEnd s
      (¬done → u = s)
        ∧ (done → u.mu.service = .standby ∧ u.mu.drain = none
          ∧ u.mu.late = s.mu.late.filter (fun l => l.kind != .setState && l.kind != .restart)
          ∧ ∃ fs, u.rli.control = s.rli.control ++ fs
            ∧ fs.map (·.frame) = replies .setState 2 (number 1 1 ++ finding) ++ replies .restart 19 [])

/-! ### Picker -/

/-- The events a motion reports, in its order, and what each does at once (R12, R29, R35, R38 to R40, R42, R43, R45, R54, R56).
INSERTED and EJECTED schedule a quiet hold window behind the delay, for the duration in force; a duration of 0 schedules
none. An EMPTY-SLOT turns the cartridge's records MISSING and removes the order served, whose waiters end UNAVAILABLE. A drive
that turns OFFLINE at EJECTED has its channel IDLE and no command queued. The PLACED of a HOME leaves no unmount order of a
drive without a cartridge. -/
def Obligations.PickerEventsApplied : Prop :=
  ∀ (s : State) (m : Motion), s.lib.picker.state = .moving → s.lib.picker.motion = some m → m.started = true →
    let after : PickerEvent → State := fun e => { s with lib.picker.motion := some { m with last := some e } }
    let start : Nat := s.now + s.mu.params.quietDelay
    let quiet : List Window := if s.mu.params.quietDuration = 0 then s.lib.windows
      else addWindow { start := start, stop := start + s.mu.params.quietDuration } s.lib.windows
    (∀ c, m.kind = .mount → m.last = none → m.cartridge = some c →
      (∃ u, exec .takenFromSlot s = .next u ∧ u.lib.picker = { (after .taken).lib.picker with held := some c }
        ∧ ∀ n, u.side n = if slotOf n = c then (s.side n).map fun x => { x with location := .picker } else s.side n)
      ∧ ∃ u, exec .emptySlot s = .next (settle u) ∧ u.lib.picker.state = .parked ∧ u.lib.picker.motion = none
        ∧ u.lib.picker.second = none ∧ u.lib.picker.occupancy = s.lib.picker.occupancy.set c .empty
        ∧ (∀ n, u.side n
          = if slotOf n = c then (s.side n).map fun x => { x with state := .missing, prior := none } else s.side n)
        ∧ ∀ id o, m.order = some id → s.orderOf id = some o → u.orderOf id = none
          ∧ ∀ i ∈ o.waiters, i < s.ctx.length → (s.context i).state.live = true →
            (u.context i).state = .ending ∧ (u.context i).outcome = some .unavailable)
      ∧ (∀ c d, (m.kind = .mount ∧ m.last = some .taken) ∨ (m.kind = .turn ∧ m.last = some .ejected) →
        m.cartridge = some c → m.drive = some d → d < s.drives.length → (s.drive d).state = .empty →
        ∃ u, exec .inserted s = .next u ∧ u.lib.picker = { (after .inserted).lib.picker with held := none }
          ∧ u.lib.windows = quiet
          ∧ (u.drive d).state = .loading ∧ (u.drive d).cartridge = some c ∧ (u.drive d).face = m.face
          ∧ (∀ n, u.side n = if slotOf n = c then (s.side n).map fun x => { x with location := .drive d } else s.side n)
          ∧ (∀ id o, m.order = some id → s.orderOf id = some o →
            (u.drive d).incoming = (s.drive d).incoming ++ o.waiters ∧ u.orderOf id = none))
      ∧ (∀ c d, m.kind = .unmount ∨ m.kind = .turn → m.last = none → m.cartridge = some c → m.drive = some d →
        d < s.drives.length →
        ∃ u, exec .ejected s = .next u ∧ u.lib.picker = { (after .ejected).lib.picker with held := some c }
          ∧ u.lib.windows = quiet
          ∧ (u.drive d).cartridge = none ∧ (u.drive d).face = none
          ∧ ((s.drive d).state = .unloading → (s.drive d).offlinePending = false → (u.drive d).state = .empty)
          ∧ ((s.drive d).state = .unloading → (s.drive d).offlinePending = true →
            (u.drive d).state = .offline ∧ (u.drive d).offlinePending = false ∧ (u.drive d).channel = .idle
              ∧ (u.drive d).queue = [])
          ∧ (∀ n, u.side n = if slotOf n = c then (s.side n).map fun x => { x with location := .picker } else s.side n))
      ∧ (∀ c d, m.kind = .unmount → m.last = some .ejected → s.lib.picker.held = some c → m.drive = some d →
        ∃ u, exec .placed s = .next u ∧ u.lib.picker = { (after .placed).lib.picker with held := none }
          ∧ (∀ o ∈ u.lib.orders, o.unmounts d = false)
          ∧ (∀ n, u.side n = if slotOf n = c then (s.side n).map fun x => { x with location := .home } else s.side n))
      ∧ (∀ d, (m.kind = .mount ∨ m.kind = .turn) ∧ m.last = some .inserted → m.drive = some d → d < s.drives.length →
        (s.drive d).state = .loading →
        ∃ u, exec .motionDone s = .next (settle u) ∧ (u.drive d).state = .checking
          ∧ (u.drive d).queue = (s.drive d).queue ++ [{ issuer := .library, op := .label, first := 0, count := 1, data := []
                                                        priority := 0, age := s.now, retries := 0, notReady := 0
                                                        have_ := 0 }]
          ∧ (s.lib.picker.second = none → u.lib.picker.state = .parked ∧ u.lib.picker.motion = none)
          ∧ ∀ m', s.lib.picker.second = some m' → u.lib.picker.state = .moving
            ∧ u.lib.picker.motion = some { m' with started := true } ∧ u.lib.picker.second = none)
      ∧ (∀ c, m.kind = .home → m.last = none → s.lib.picker.held = some c →
        ∃ u, exec .placed s = .next (settle u) ∧ u.lib.picker.held = none
          ∧ (∀ o ∈ u.lib.orders, ∀ d < 4, o.unmounts d = true → (u.drive d).cartridge ≠ none)
          ∧ ∀ n x, slotOf n = c → s.side n = some x →
            ∃ y, u.side n = some y ∧ y.location = .home ∧ y.state = x.prior.getD x.state)
      ∧ ((m.kind = .unmount ∧ m.last = some .placed) ∨ (m.kind = .inventory ∧ m.last = some .occupancy)
          ∨ (m.kind = .home ∧ (m.last = some .placed ∨ (m.last = none ∧ s.lib.picker.held = none))) →
        ∃ u, exec .motionDone s = .next (settle u)
          ∧ (m.kind ≠ .unmount ∨ s.lib.picker.second = none → u.lib.picker.state = .parked ∧ u.lib.picker.motion = none)
          ∧ (m.kind = .home → ∀ l ∈ u.mu.late, l.kind ≠ .clearPicker)
          ∧ (m.kind = .inventory → ∀ l ∈ u.mu.late, l.kind ≠ .clearFault)
          ∧ ∀ m', m.kind = .unmount → s.lib.picker.second = some m' → u.lib.picker.state = .moving
            ∧ u.lib.picker.motion = some { m' with started := true } ∧ u.lib.picker.second = none)
      ∧ ∀ fs, m.kind = .inventory → m.last = none → exec (.occupancy fs) s = .next { s with
          lib.picker.motion := some { m with last := some .occupancy }, lib.picker.occupancy := fs }

/-- PICKER_FAULT, and an event that the picker record does not expect next, while PARKED or MOVING, bring the picker to
FAULT (R38, R39, R41): the motion ends, a held cartridge stays held and its records turn STUCK, no live context is left
waiting on an order, and PICKER-FAULT is raised. In FAULT every event of the line is discarded (R38). -/
def Obligations.PickerFaultsEndMotions : Prop :=
  (∀ (s : State) (fs : List SlotFinding),
    let events : List (PickerEvent × Instr) := [(.taken, .takenFromSlot), (.emptySlot, .emptySlot), (.inserted, .inserted),
      (.ejected, .ejected), (.placed, .placed), (.done, .motionDone), (.occupancy, .occupancy fs)]
    (s.lib.picker.state = .fault → exec .pickerFault s = .next s ∧ ∀ p ∈ events, exec p.2 s = .next s)
      ∧ (s.lib.picker.state ≠ .fault → exec .pickerFault s = .next (settle (pickerFaulted s)))
      ∧ (s.lib.picker.state = .parked → ∀ p ∈ events, exec p.2 s = .next (settle (pickerFaulted s)))
      ∧ ∀ m, s.lib.picker.state = .moving → s.lib.picker.motion = some m →
        ∀ p ∈ events, m.expects (s.mu.service == .startup) s.lib.picker.held p.1 = false →
          exec p.2 s = .next (settle (pickerFaulted s)))
    ∧ ∀ s : State,
      let u := pickerFaulted s
      u.lib.picker.state = .fault ∧ u.lib.picker.motion = none ∧ u.lib.picker.second = none
        ∧ u.lib.picker.held = s.lib.picker.held
        ∧ (∀ n r, s.lib.picker.held = some (slotOf n) → s.side n = some r →
          ∃ r', u.side n = some r' ∧ r'.state = .stuck)
        ∧ (∀ o ∈ u.lib.orders, ∀ c ∈ o.waiters, c < s.ctx.length → (u.context c).state.live = false)
        ∧ (s.mu.manager ≠ none → ∃ n ∈ u.rli.notices, n.details.kind = 6)

/-! ### Time -/

/-- The timer events (R55, R57, R91, R112). HOLD_BEGUN at a first window puts the hold in force: a QUEUED pass leaves its
queue and is WITHHELD, an IN-FLIGHT VERIFY is disturbed; HOLD_ENDED takes it off, removes the window and places a WITHHELD
pass. IDLE_TIMER_EXPIRY makes an idle unmount order with the time of expiry as its age. HOLD_TIMER_EXPIRY ends the context
ABANDONED. That each comes at its time or limit at the earliest is the model's choice (log 7); that a next window already due
keeps the pass WITHHELD is deduced (log 49). -/
def Obligations.TimersAct : Prop :=
  ∀ s : State,
    (∀ w ws, s.lib.windows = w :: ws →
      (s.fil.hold = false → ∃ u, exec .holdBegun s = .next (settle u) ∧ u.fil.hold = true ∧ u.now = max s.now w.start
        ∧ (s.fil.pass = none → u.fil.pass = none)
        ∧ ∀ p, s.fil.pass = some p →
          (p.state = .queued → u.fil.pass = some { p with state := .withheld }
            ∧ ∀ x ∈ u.drives, ∀ e ∈ x.queue, e.issuer ≠ .filing)
          ∧ (p.state = .inFlight → p.op = .verify → u.fil.pass = some { p with disturbed := true })
          ∧ (p.state = .inFlight → p.op ≠ .verify → u.fil.pass = some p) ∧ (p.state = .withheld → u.fil.pass = some p))
      ∧ (s.fil.hold = true → ∃ u, exec .holdEnded s = .next (settle u) ∧ u.fil.hold = false ∧ u.now = max s.now w.stop
        ∧ u.lib.windows = ws
        ∧ ∀ p n d, s.fil.pass = some p → p.state = .withheld → s.sequenceSide = some n → s.mountedReady n = some d →
          let next : Prop := ∃ v vs, ws = v :: vs ∧ v.start ≤ u.now
          (next → u.fil.pass = some p)
            ∧ (¬next → u.fil.pass = some { p with state := .queued } ∧ (d < s.drives.length →
              ∃ e, (u.drive d).queue = (s.drive d).queue ++ [e] ∧ e.issuer = .filing ∧ e.op = p.op ∧ e.first = p.first
                ∧ e.count = p.count))))
      ∧ (∀ (d : Fin 4) tm, (s.drive d).idle = some tm → ∃ u, exec (.idleTimerExpiry d) s = .next (settle u)
        ∧ (u.drive d).idle = none
        ∧ (d.val < s.drives.length → (∀ o ∈ s.lib.orders, o.unmounts d = false) → ∃ o ∈ u.lib.orders,
          o.kind = .unmount d false ∧ o.age = max s.now (tm.start + tm.limit) ∧ o.inService = false))
      ∧ ∀ (c : Fin 16) tm, (s.context c).timer = some tm → (s.context c).state.live = true →
        exec (.holdTimerExpiry c) s
          = .next (settle (endContext c .abandoned { s with now := max s.now (tm.start + tm.limit) }))

/-- Two sets that merge. A new quiet hold window (R56): the list stays in time order with no two touching, it covers just the
instants that a window covered before or that the new one covers, and a window that touches nothing joins it unchanged. A
notice raised (R166): nothing without a manager; of a kind not pending, a new one with repeat count 0 and the present time; of
a pending kind, the latest details and a repeat count one higher, held at 255, at its old time and place. -/
def Obligations.WindowsAndNoticesMerged : Prop :=
  (∀ (w : Window) (ws : List Window), w.start ≤ w.stop → windowsApart ws →
    windowsApart (addWindow w ws)
      ∧ (∀ i : Nat, (∃ v ∈ addWindow w ws, v.start ≤ i ∧ i ≤ v.stop)
          ↔ (w.start ≤ i ∧ i ≤ w.stop) ∨ ∃ v ∈ ws, v.start ≤ i ∧ i ≤ v.stop)
      ∧ (∀ v ∈ ws, ¬(v.start ≤ w.stop ∧ w.start ≤ v.stop) → v ∈ addWindow w ws))
    ∧ ∀ (s : State) (x : NoticeDetails), noticesApart s.rli.notices →
      (s.mu.manager = none → raise_ x s = s)
        ∧ (s.mu.manager ≠ none →
          ((∀ n ∈ s.rli.notices, n.details.kind ≠ x.kind) → raise_ x s = { s with
            seq := s.seq + 1
            rli.notices := s.rli.notices ++ [{ details := x, repeats := 0, raised := s.now, seq := s.seq }] })
          ∧ (∀ before n behind, s.rli.notices = before ++ n :: behind → n.details.kind = x.kind → raise_ x s = { s with
            rli.notices := before ++ { details := x, repeats := min 255 (n.repeats + 1), raised := n.raised
                                       seq := n.seq } :: behind })
          ∧ noticesApart (raise_ x s).rli.notices)

/-! ### Numbers, records and choices -/

/-- Places on a side, the lookup and the clamp (R7, R9, R62, R83): index positions and the index low mark count the skip
entries, and a position that falls below 0 is a free value, the model's choice (log 60); the space test; the range entry that
holds an instrument below N_next answers with its side and k; the pages selected are those up to the page count that some
range names, or all, each once, in ascending order. -/
def Obligations.PlacesLookupAndClamp : Prop :=
  (∀ r : SideRecord,
    (∀ j, let skipped := (r.skips.filter fun v => v ≤ j).length
        (j + skipped ≤ 299999 → r.indexPosition j = 299999 - j - skipped)
        ∧ (299999 < j + skipped → r.indexPosition j = (Config.positionBeyond j skipped).toNat))
      ∧ r.indexLow = 299999 - r.written - r.skips.length
      ∧ ((∀ v ∈ r.skips, v ≤ r.written) → r.written + r.skips.length ≤ 299999 → r.indexPosition r.written = r.indexLow)
      ∧ ∀ e p, r.fits e p = true ↔ r.dataHigh + e + 1 + 16 + (p + 64) / 64 ≤ r.indexLow + 1)
    ∧ (∀ (s : State) (i : Nat), s.loc.ranges.Pairwise (fun a b => a.overlaps b = false) →
      (∀ e n, e ∈ s.loc.ranges → e.first ≤ i → i ≤ e.last → s.fil.nNext = some n → i < n →
        s.lookup i = some (e.side, i - e.first))
      ∧ ((∀ e ∈ s.loc.ranges, ¬(e.first ≤ i ∧ i ≤ e.last)) ∨ (∀ n, s.fil.nNext = some n → n ≤ i) → s.lookup i = none))
    ∧ ∀ (selection : List (Nat × Nat)) (pages : Nat),
      (clampSelection selection pages).Pairwise (· < ·)
        ∧ ∀ p, p ∈ clampSelection selection pages ↔
          1 ≤ p ∧ p ≤ pages ∧ (selection = [] ∨ ∃ r ∈ selection, r.1 ≤ p ∧ p ≤ r.2)

/-- The fee arithmetic (R126, R129, R130, R132 to R135, R144): a page is priced by the count it makes; the deed charge is deed
fee and subtotal, capped, raised to the minimum, with the certification fee for a certified COMPLETE; a posting keeps every
mill; two postings leave the same figures in either order; an OPEN account over its bounds stops. A page of a format class
that the schedule has no rate for is priced at a free value (log 46). -/
def Obligations.FeeArithmetic : Prop :=
  (∀ (f : ClassFigures) (k subtotal : Nat) (cert : Bool) (o : Ending),
    let t1 := f.deedFee + subtotal
    let t2 := if f.cap ≠ 0 ∧ f.cap < t1 then f.cap else t1
    let t3 := if t2 < f.minimum then f.minimum else t2
    deedCharge f .view k subtotal cert o = 0 ∧ deedCharge f .copy 0 subtotal cert o = 0
      ∧ (1 ≤ k → deedCharge f .copy k subtotal cert o = t3 + if cert = true ∧ o = .complete then f.certFee else 0))
    ∧ (∀ (a : Account) (q : Nat),
      let b := postFigures a q
      10 * ((q + a.residue) / 10) + b.residue = q + a.residue ∧ b.residue ≤ 9
        ∧ b.charged = min (a.charged + (q + a.residue) / 10) 999999999999
        ∧ b.dayCents = min (a.dayCents + (q + a.residue) / 10) 4294967295
        ∧ b.dayDeeds = min (a.dayDeeds + 1) 16777215
        ∧ (stopTest b).state = (if b.state = .stopped ∨ 999999999999 ≤ b.charged ∨ (b.limit ≠ 0 ∧ b.limit ≤ b.charged)
          then .stopped else .opened))
    ∧ (∀ (a : Account) (q q' : Nat), postFigures (postFigures a q) q' = postFigures (postFigures a q') q)
    ∧ ∀ (s : State) (c p p' : Nat) (a : Account) (x : Context), c < s.ctx.length → s.context c = x → x.kind = .copy →
      x.nextPage = some p → x.chosen.find? (p < ·) = some p' → s.account x.account = some a →
      let f := s.figures x.generation x.feeClass
      let n := min (a.dayPages + 1) 16777215
      let cls := (x.item p).format
      let price := if f.threshold ≠ 0 ∧ f.threshold < n then f.bulk.getD cls (Config.rateBeyond f true cls).toNat
        else f.normal.getD cls (Config.rateBeyond f false cls).toNat
      ((completePage c s).context c).subtotal = x.subtotal + price
        ∧ ((completePage c s).context c).delivered = x.delivered + 1
        ∧ ((completePage c s).context c).nextPage = some p'
        ∧ (completePage c s).tal.accounts
          = s.tal.accounts.map fun b => if b.number = x.account then { b with dayPages := min (b.dayPages + 1) 16777215 } else b

/-- The records the part writes on a side are whole sectors and read back as what was written, with valid check values (R2 to
R5, R184, R186): label, directory, commit trailer and index sector. The entries the part builds pass their check values, and
read back as one run of used slots from slot 0. -/
def Obligations.RecordsReadBack : Prop :=
  (∀ serial face, serial < 2 ^ 32 → face ≤ 1 →
    (labelSector serial face).length = 1024 ∧ readLabel (labelSector serial face) = some (serial, face))
    ∧ (∀ day serial body (pages : List PageItem), day < 2 ^ 16 → serial < 2 ^ 32 → body < 2 ^ 16 → pages.length ≤ 240 →
      (∀ p ∈ pages, p.format < 2 ^ 8 ∧ p.offset < 2 ^ 16 ∧ p.sectors < 2 ^ 8) →
      (directorySector day serial body pages).length = 1024
        ∧ readDirectory (directorySector day serial body pages)
          = some { pages := pages.length, serial := serial, body := body, list := pages })
    ∧ (∀ instrument address day body, instrument < 2 ^ 32 → address < 2 ^ 32 → day < 2 ^ 16 → body < 2 ^ 16 →
      (trailerSector instrument address day body).length = 1024
        ∧ goodTrailer (trailerSector instrument address day body) address body = some instrument)
    ∧ (∀ slots : List IndexEntry, slots.length = 64 →
      (∀ e ∈ slots, e.marker < 2 ^ 8 ∧ e.instrument < 2 ^ 32 ∧ e.address < 2 ^ 32 ∧ e.body < 2 ^ 16 ∧ e.pages < 2 ^ 8
        ∧ e.check < 2 ^ 32) →
      (indexSector slots).length = 1024 ∧ readIndex (indexSector slots) = slots)
    ∧ ∀ es : List IndexEntry, es.length ≤ 64 →
      (∀ e ∈ es, ∃ i a b p, i < 2 ^ 32 ∧ a < 2 ^ 32 ∧ b < 2 ^ 16 ∧ p < 2 ^ 8 ∧ e = makeEntry i a b p) →
      let back := readIndex (indexSector (fillSlots es))
      back = fillSlots es ∧ (∀ e ∈ back.take es.length, e.valid = true) ∧ usedRun back = some es.length

/-- The three choices. The dispatcher outside a filing sequence (R32): what it owes, then the library's command, then the
highest priority, the oldest among equals. The picker arbiter (R49): the eligible order of highest priority, then least
time, then lowest side. The outbound arbiter (R155 to R157, R166): none
while a frame is being sent or the link is DOWN; otherwise one whenever a control frame, a notice or a candidate is there: the
oldest of the control list and the notices, then the candidate of highest priority that comes first behind the context last
served. What is chosen enters the transmitter and leaves its place, and the consequences of an event leave no choice to be made. -/
def Obligations.ChoicesMade : Prop :=
  (∀ x : Drive,
    (∀ e, x.owed = some e → x.pick false = some e)
      ∧ (x.owed = none → ∀ before e behind, x.queue = before ++ e :: behind →
        (e.ofLibrary = true → (∀ y ∈ before, y.ofLibrary = false) → x.pick false = some e)
        ∧ ((∀ y ∈ x.queue, y.ofLibrary = false) → (∀ y ∈ before, y.priority < e.priority) →
          (∀ y ∈ behind, y.priority ≤ e.priority) → x.pick false = some e)))
    ∧ (∀ s : State,
      (∀ o, s.arbiterChoice = some o → o ∈ s.lib.orders ∧ (s.target o).isSome = true
        ∧ ∀ p ∈ s.lib.orders, (s.target p).isSome = true → p.priority < o.priority ∨ (p.priority = o.priority
          ∧ (o.age < p.age ∨ (o.age = p.age ∧ s.orderSide o ≤ s.orderSide p))))
      ∧ (s.arbiterChoice = none → ∀ p ∈ s.lib.orders, s.target p = none))
    ∧ (∀ s : State, (settle s).choice = none ∧ (publish s).choice = none)
    ∧ ∀ s : State, s.rli.lastServed ≤ 15 →
      (s.rli.transmitter.isSome = true ∨ s.rli.link = .down → s.choice = none ∧ publish s = s)
      ∧ (s.rli.transmitter = none → s.rli.link = .up →
        (s.rli.control ≠ [] ∨ s.rli.notices ≠ [] ∨ ∃ c < 16, (s.context c).candidate = true) → s.choice ≠ none)
      ∧ (∀ f, s.choice = some (.control f) → (transmit s).rli.transmitter = some f.frame
        ∧ (transmit s).rli.control = s.rli.control.drop 1)
      ∧ (∀ n m, s.choice = some (.notice n) → s.mu.manager = some m → transmit s = { s with
          rli.notices := s.rli.notices.filter fun k => k.details.kind != n.details.kind
          rli.transmitter := some { requester := m, tag := 0, body := .notice n.details n.repeats n.raised } })
      ∧ (∀ c, s.choice = some (.run c) → (transmit s).rli.lastServed = c ∧ (transmit s).rli.transmitter
        = some { requester := (s.context c).requester, tag := (s.context c).tag, body := (s.context c).runBody })
      ∧ (∀ f, s.choice = some (.control f) → s.rli.control.head? = some f ∧ ∀ n ∈ s.rli.notices, f.seq ≤ n.seq)
      ∧ (∀ n, s.choice = some (.notice n) → n ∈ s.rli.notices ∧ (∀ m ∈ s.rli.notices, n.seq ≤ m.seq)
        ∧ ∀ f, s.rli.control.head? = some f → n.seq < f.seq)
      ∧ ∀ c, s.choice = some (.run c) → s.rli.control = [] ∧ s.rli.notices = [] ∧ c < 16
        ∧ (s.context c).candidate = true
        ∧ ∀ i < 16, (s.context i).candidate = true → (s.context i).priority < (s.context c).priority
          ∨ ((s.context i).priority = (s.context c).priority
            ∧ (c + 15 - s.rli.lastServed) % 16 ≤ (i + 15 - s.rli.lastServed) % 16)
end

