-- ==== Sys2Proof/Laws/State.lean ====
section
/-! SUPPORT. One lemma per field for each update of a table of the state, true by `rfl`, and what a changed table reads
as. -/

namespace Sys2Proof.Machine

variable (s : State) (n t : Nat)

/-! ### Drives -/

@[simp] theorem modDrive_pending (f) : (s.modDrive n f).pending = s.pending := rfl
@[simp] theorem modDrive_now (f) : (s.modDrive n f).now = s.now := rfl
@[simp] theorem modDrive_rli (f) : (s.modDrive n f).rli = s.rli := rfl
@[simp] theorem modDrive_mu (f) : (s.modDrive n f).mu = s.mu := rfl
@[simp] theorem modDrive_memory (f) : (s.modDrive n f).memory = s.memory := rfl
@[simp] theorem modDrive_lib (f) : (s.modDrive n f).lib = s.lib := rfl
@[simp] theorem modDrive_loc (f) : (s.modDrive n f).loc = s.loc := rfl
@[simp] theorem modDrive_ctx (f) : (s.modDrive n f).ctx = s.ctx := rfl
@[simp] theorem modDrive_fil (f) : (s.modDrive n f).fil = s.fil := rfl
@[simp] theorem modDrive_tal (f) : (s.modDrive n f).tal = s.tal := rfl
@[simp] theorem modDrive_drives (f) : (s.modDrive n f).drives = s.drives.modify n f := rfl

/-! ### Contexts -/

@[simp] theorem modContext_pending (f) : (s.modContext n f).pending = s.pending := rfl
@[simp] theorem modContext_now (f) : (s.modContext n f).now = s.now := rfl
@[simp] theorem modContext_rli (f) : (s.modContext n f).rli = s.rli := rfl
@[simp] theorem modContext_mu (f) : (s.modContext n f).mu = s.mu := rfl
@[simp] theorem modContext_memory (f) : (s.modContext n f).memory = s.memory := rfl
@[simp] theorem modContext_lib (f) : (s.modContext n f).lib = s.lib := rfl
@[simp] theorem modContext_loc (f) : (s.modContext n f).loc = s.loc := rfl
@[simp] theorem modContext_drives (f) : (s.modContext n f).drives = s.drives := rfl
@[simp] theorem modContext_fil (f) : (s.modContext n f).fil = s.fil := rfl
@[simp] theorem modContext_tal (f) : (s.modContext n f).tal = s.tal := rfl
@[simp] theorem modContext_ctx (f) : (s.modContext n f).ctx = s.ctx.modify n f := rfl

/-! ### Filing records -/

@[simp] theorem modFiling_pending (g) : (s.modFiling n g).pending = s.pending := rfl
@[simp] theorem modFiling_rli (g) : (s.modFiling n g).rli = s.rli := rfl
@[simp] theorem modFiling_mu (g) : (s.modFiling n g).mu = s.mu := rfl
@[simp] theorem modFiling_lib (g) : (s.modFiling n g).lib = s.lib := rfl
@[simp] theorem modFiling_drives (g) : (s.modFiling n g).drives = s.drives := rfl
@[simp] theorem modFiling_loc (g) : (s.modFiling n g).loc = s.loc := rfl
@[simp] theorem modFiling_ctx (g) : (s.modFiling n g).ctx = s.ctx := rfl
@[simp] theorem modFiling_tal (g) : (s.modFiling n g).tal = s.tal := rfl
@[simp] theorem modFiling_queue (g) : (s.modFiling n g).fil.queue = s.fil.queue := rfl
@[simp] theorem modFiling_records (g) : (s.modFiling n g).fil.records = s.fil.records.modify n g := rfl

/-! ### Side records and accounts -/

@[simp] theorem modSide_rli (f) : (s.modSide n f).rli = s.rli := rfl
@[simp] theorem modSide_mu (f) : (s.modSide n f).mu = s.mu := rfl
@[simp] theorem modSide_drives (f) : (s.modSide n f).drives = s.drives := rfl
@[simp] theorem modSide_ctx (f) : (s.modSide n f).ctx = s.ctx := rfl
@[simp] theorem modSide_fil (f) : (s.modSide n f).fil = s.fil := rfl
@[simp] theorem modSide_loc (f) : (s.modSide n f).loc = s.loc := rfl
@[simp] theorem modSide_tal (f) : (s.modSide n f).tal = s.tal := rfl
@[simp] theorem modSide_sides (f) : (s.modSide n f).lib.sides = s.lib.sides.modify n (Option.map f) := rfl
@[simp] theorem putSide_sides (r) : (s.putSide n r).lib.sides = s.lib.sides.set n r := rfl
@[simp] theorem modAccount_rli (f) : (s.modAccount n f).rli = s.rli := rfl
@[simp] theorem modAccount_mu (f) : (s.modAccount n f).mu = s.mu := rfl
@[simp] theorem modAccount_lib (f) : (s.modAccount n f).lib = s.lib := rfl
@[simp] theorem modAccount_drives (f) : (s.modAccount n f).drives = s.drives := rfl
@[simp] theorem modAccount_ctx (f) : (s.modAccount n f).ctx = s.ctx := rfl
@[simp] theorem modAccount_fil (f) : (s.modAccount n f).fil = s.fil := rfl
@[simp] theorem modAccount_feeDay (f) : (s.modAccount n f).tal.feeDay = s.tal.feeDay := rfl
@[simp] theorem modAccount_slots (f) : (s.modAccount n f).tal.slots = s.tal.slots := rfl

/-! ### Marks and time -/

@[simp] theorem callArbiter_rli : s.callArbiter.rli = s.rli := rfl
@[simp] theorem callArbiter_mu : s.callArbiter.mu = s.mu := rfl
@[simp] theorem callArbiter_lib : s.callArbiter.lib = s.lib := rfl
@[simp] theorem callArbiter_ctx : s.callArbiter.ctx = s.ctx := rfl
@[simp] theorem callArbiter_fil : s.callArbiter.fil = s.fil := rfl
@[simp] theorem callReadiness_rli : s.callReadiness.rli = s.rli := rfl
@[simp] theorem callReadiness_mu : s.callReadiness.mu = s.mu := rfl
@[simp] theorem callReadiness_lib : s.callReadiness.lib = s.lib := rfl
@[simp] theorem callReadiness_ctx : s.callReadiness.ctx = s.ctx := rfl
@[simp] theorem callReadiness_fil : s.callReadiness.fil = s.fil := rfl
@[simp] theorem reach_now : (s.reach t).now = max s.now t := rfl

/-! ### Reading a changed table -/

theorem getD_modify {α : Type} (l : List α) (i j : Nat) (f : α → α) (d : α) :
    (l.modify i f).getD j d = if i = j ∧ j < l.length then f (l.getD j d) else l.getD j d := by
  simp only [List.getD_eq_getElem?_getD, List.getElem?_modify]
  by_cases hj : j < l.length
  · by_cases hi : i = j <;> simp [hi, hj]
  · have : l[j]? = none := by simp; omega
    simp [hj]

theorem context_modContext (c i : Nat) (f : Context → Context) :
    (s.modContext c f).context i = if c = i ∧ i < s.ctx.length then f (s.context i) else s.context i :=
  getD_modify _ _ _ _ _

theorem drive_modDrive (d i : Nat) (f : Drive → Drive) :
    (s.modDrive d f).drive i = if d = i ∧ i < s.drives.length then f (s.drive i) else s.drive i :=
  getD_modify _ _ _ _ _

theorem filing_modFiling (f i : Nat) (g : Filing → Filing) :
    (s.modFiling f g).filing i = if f = i ∧ i < s.fil.records.length then g (s.filing i) else s.filing i :=
  getD_modify _ _ _ _ _

theorem side_modSide (n i : Nat) (f : SideRecord → SideRecord) :
    (s.modSide n f).side i = if n = i ∧ i < s.lib.sides.length then (s.side i).map f else s.side i :=
  getD_modify _ _ _ _ _

/-- A context past the table is FREE. -/
theorem context_out (c : Nat) (h : s.ctx.length ≤ c) : s.context c = Context.reset := by
  simp [State.context, List.getD_eq_getElem?_getD, List.getElem?_eq_none h]

/-- A filing record past the table is FREE. -/
theorem filing_out (f : Nat) (h : s.fil.records.length ≤ f) : s.filing f = Filing.reset := by
  simp [State.filing, List.getD_eq_getElem?_getD, List.getElem?_eq_none h]

end Sys2Proof.Machine
end

