-- ==== Sys2Proof/Laws/Follows.lean ====
section
/-! SUPPORT. What an event can bring about in the blocks it is not addressed to: the relation `Follows` between the state
before and the state after, reflexive and transitive. It says which parts stay as they are, how side records, accounts and
schedule slots may change, which changes of service state can follow, and that no reservation is made. -/

namespace Sys2Proof.Machine

/-! ### How the records change -/

/-- A side position keeps its record; the serial stays, a skip list only grows, spoiled never falls, index-incomplete is
never taken back, neither the data high mark nor W falls (R6, R8, R11, R16). -/
def sideFollows : Option SideRecord → Option SideRecord → Prop
  | none, none => True
  | some a, some b =>
    b.serial = a.serial ∧ a.skips <+: b.skips ∧ a.spoiled ≤ b.spoiled ∧ (a.incomplete = true → b.incomplete = true)
      ∧ a.dataHigh ≤ b.dataHigh ∧ a.written ≤ b.written
  | _, _ => False

theorem sideFollows_refl (a : Option SideRecord) : sideFollows a a := by
  cases a <;> simp [sideFollows]

theorem sideFollows_trans {a b c : Option SideRecord} (h : sideFollows a b) (g : sideFollows b c) : sideFollows a c := by
  cases a <;> cases b <;> cases c <;> simp only [sideFollows] at *
  obtain ⟨h1, h2, h3, h4, h5, h6⟩ := h
  obtain ⟨g1, g2, g3, g4, g5, g6⟩ := g
  exact ⟨g1.trans h1, h2.trans g2, h3.trans g3, fun i => g4 (h4 i), h5.trans g5, h6.trans g6⟩

/-- What deliveries do to an account: its number, class, limit and previous day stay; a stop is never taken back; a bounded
account stays bounded and its charged total never falls. -/
structure AccountFollows (a b : Account) : Prop where
  number : b.number = a.number
  cls : b.cls = a.cls
  limit : b.limit = a.limit
  prevPages : b.prevPages = a.prevPages
  prevCents : b.prevCents = a.prevCents
  prevDeeds : b.prevDeeds = a.prevDeeds
  stopped : a.state = .stopped → b.state = .stopped
  bounded : a.bounded → b.bounded ∧ a.charged ≤ b.charged

theorem AccountFollows.refl (a : Account) : AccountFollows a a := by
  constructor <;> simp

theorem AccountFollows.trans {a b c : Account} (h : AccountFollows a b) (g : AccountFollows b c) : AccountFollows a c where
  number := g.number.trans h.number
  cls := g.cls.trans h.cls
  limit := g.limit.trans h.limit
  prevPages := g.prevPages.trans h.prevPages
  prevCents := g.prevCents.trans h.prevCents
  prevDeeds := g.prevDeeds.trans h.prevDeeds
  stopped := fun i => g.stopped (h.stopped i)
  bounded := fun i =>
    have h1 := h.bounded i
    have g1 := g.bounded h1.1
    ⟨g1.1, h1.2.trans g1.2⟩

/-- What endings do to a schedule slot: only its references change, or a RETIRED slot becomes EMPTY (R146). -/
def slotFollows (a b : Slot) : Prop :=
  (b.role = a.role ∧ b.generation = a.generation ∧ b.effective = a.effective ∧ b.figures = a.figures)
    ∨ (a.role = .retired ∧ b.role = .empty)

theorem slotFollows_refl (a : Slot) : slotFollows a a := by simp [slotFollows]

theorem slotFollows_trans {a b c : Slot} (h : slotFollows a b) (g : slotFollows b c) : slotFollows a c := by
  rcases h with ⟨h1, h2, h3, h4⟩ | ⟨h1, h2⟩ <;> rcases g with ⟨g1, g2, g3, g4⟩ | ⟨g1, g2⟩
  · exact .inl ⟨g1.trans h1, g2.trans h2, g3.trans h3, g4.trans h4⟩
  · exact .inr ⟨h1 ▸ g1, g2⟩
  · exact .inr ⟨h1, g1.trans h2⟩
  · rw [h2] at g1; cases g1

/-- The changes of service state that follow from work coming to its end (R170, R178 to R180). -/
def serviceFollows (a b : Service) : Prop :=
  b = a ∨ (b = .standby ∧ (a = .startup ∨ a = .opening ∨ a = .draining)) ∨ (b = .serving ∧ a = .opening)

theorem serviceFollows_trans {a b c : Service} (h : serviceFollows a b) (g : serviceFollows b c) : serviceFollows a c := by
  unfold serviceFollows at *
  rcases h with rfl | ⟨rfl, h⟩ | ⟨rfl, rfl⟩
  · exact g
  · rcases g with rfl | ⟨rfl, g⟩ | ⟨rfl, g⟩
    · exact .inr (.inl ⟨rfl, h⟩)
    · exact .inr (.inl ⟨rfl, h⟩)
    · cases g
  · rcases g with rfl | ⟨rfl, g⟩ | ⟨rfl, g⟩
    · exact .inr (.inr ⟨rfl, rfl⟩)
    · rcases g with g | g | g <;> cases g
    · cases g

/-- The tables of contexts and filings have their sizes, and the queue holds the QUEUED and WRITING filings, each once
(R75, R101, R108). -/
structure State.tidy (s : State) : Prop where
  ctx : s.ctx.length = 16
  records : s.fil.records.length = 8
  apart : s.fil.queue.Nodup
  used : ∀ f, f ∈ s.fil.queue ↔ (s.filing f).state.inQueue = true

theorem FilingState.ne_free {x : FilingState} (h : x.inQueue = true) : x ≠ .free := by
  rintro rfl; cases h

theorem State.tidy.inUse {s : State} (h : s.tidy) {f : Nat} (hf : f ∈ s.fil.queue) : (s.filing f).state ≠ .free :=
  FilingState.ne_free ((h.used f).1 hf)

/-- The parts of the state that no consequence of an event touches. -/
def State.fixed (s : State) :=
  (s.pending, s.now, s.rli.inbound, s.rli.errors, s.rli.downs, s.rli.link, s.mu.manager, s.mu.requesters, s.mu.params,
    s.memory, s.tal.feeDay, s.tal.nextGeneration, s.lib.windows, s.fil.hold, s.drives.length, s.ctx.length,
    s.fil.records.length)

/-- `Follows` but for the reservations. -/
structure Basic (s t : State) : Prop where
  fixed : t.fixed = s.fixed
  sides : List.Forall₂ sideFollows s.lib.sides t.lib.sides
  accounts : List.Forall₂ AccountFollows s.tal.accounts t.tal.accounts
  slots : List.Forall₂ slotFollows s.tal.slots t.tal.slots
  service : serviceFollows s.mu.service t.mu.service
  notices : noticesApart s.rli.notices → noticesApart t.rli.notices
  channels : (∀ x ∈ s.drives, x.sane) → ∀ x ∈ t.drives, x.sane
  picker : s.lib.picker.sane → t.lib.picker.sane
  cache : s.loc.cache.length ≤ Config.cacheLimit → t.loc.cache.length ≤ Config.cacheLimit

/-- The state `t` follows from `s` by consequences of an event. -/
structure Follows (s t : State) : Prop extends Basic s t where
  reserve : s.tidy → t.tidy ∧ t.reservations ≤ s.reservations

theorem Basic.refl (s : State) : Basic s s where
  fixed := rfl
  sides := List.forall₂_same.2 fun a _ => sideFollows_refl a
  accounts := List.forall₂_same.2 fun a _ => .refl a
  slots := List.forall₂_same.2 fun a _ => slotFollows_refl a
  service := .inl rfl
  notices := id
  channels := id
  picker := id
  cache := id

theorem forall₂_trans {α : Type} {r : α → α → Prop} (ht : ∀ a b c, r a b → r b c → r a c) :
    ∀ {l m n : List α}, List.Forall₂ r l m → List.Forall₂ r m n → List.Forall₂ r l n
  | [], [], [], _, _ => .nil
  | _ :: _, _ :: _, _ :: _, .cons h hs, .cons g gs => .cons (ht _ _ _ h g) (forall₂_trans ht hs gs)

theorem Basic.trans {s t u : State} (h : Basic s t) (g : Basic t u) : Basic s u where
  fixed := g.fixed.trans h.fixed
  sides := forall₂_trans (r := sideFollows) (fun _ _ _ => sideFollows_trans) h.sides g.sides
  accounts := forall₂_trans (r := AccountFollows) (fun _ _ _ => AccountFollows.trans) h.accounts g.accounts
  slots := forall₂_trans (r := slotFollows) (fun _ _ _ => slotFollows_trans) h.slots g.slots
  service := serviceFollows_trans h.service g.service
  notices := fun i => g.notices (h.notices i)
  channels := fun i => g.channels (h.channels i)
  picker := fun i => g.picker (h.picker i)
  cache := fun i => g.cache (h.cache i)

theorem Follows.refl (s : State) : Follows s s := { Basic.refl s with reserve := fun h => ⟨h, le_refl _⟩ }

theorem Follows.trans {s t u : State} (h : Follows s t) (g : Follows t u) : Follows s u :=
  { h.toBasic.trans g.toBasic with
    reserve := fun i => ⟨(g.reserve (h.reserve i).1).1, ((g.reserve (h.reserve i).1).2).trans (h.reserve i).2⟩ }

/-! ### Changes outside what is followed -/

/-- All that `Follows` looks at. -/
def State.watched (s : State) :=
  (s.fixed, s.lib.sides, s.tal, s.mu.service, s.mu.late, s.rli.notices, s.rli.control.length, s.ctx, s.fil.queue,
    s.fil.records, s.drives, s.lib.picker, s.loc.cache)

/-- A change of what is not watched. -/
theorem Follows.unwatched {s t u : State} (h : Follows s t) (e : u.watched = t.watched) : Follows s u := by
  refine h.trans ?_
  simp only [State.watched, Prod.mk.injEq] at e
  obtain ⟨e1, e2, e3, e4, e5, e6, e7, e8, e9, e10, e11, e12, e13⟩ := e
  refine { fixed := e1, sides := ?_, accounts := ?_, slots := ?_, service := ?_, notices := ?_, channels := ?_,
           picker := ?_, cache := ?_, reserve := ?_ }
  · rw [e2]; exact (Basic.refl t).sides
  · rw [e3]; exact (Basic.refl t).accounts
  · rw [e3]; exact (Basic.refl t).slots
  · rw [e4]; exact .inl rfl
  · rw [e6]; exact id
  · rw [e11]; exact id
  · rw [e12]; exact id
  · rw [e13]; exact id
  · intro i
    have hc : ∀ c, u.context c = t.context c := fun c => by simp [State.context, e8]
    have hf : ∀ f, u.filing f = t.filing f := fun f => by simp [State.filing, e10]
    refine ⟨⟨e8 ▸ i.ctx, e10 ▸ i.records, e9 ▸ i.apart, ?_⟩, ?_⟩
    · rw [e9]; intro f; rw [hf]; exact i.used f
    · simp [State.reservations, State.contextsWhere, hc, hf, e5, e7]

/-- Several changes in order. -/
theorem Follows.fold {α : Type} {s t : State} (f : State → α → State) (hf : ∀ t a, Follows t (f t a)) (l : List α)
    (h : Follows s t) : Follows s (l.foldl f t) := by
  induction l generalizing t with
  | nil => exact h
  | cons a l ih => exact ih (h.trans (hf t a))

end Sys2Proof.Machine
end

