-- ==== Sys2Proof/Laws/Primitive.lean ====
section
/-! SUPPORT. `Follows` for the changes of one record. -/

namespace Sys2Proof.Machine

/-! ### Drives -/

/-- A change of the drive table that keeps its size and its channels sane. -/
theorem Follows.drives {s t u : State} (e : u = { t with drives := u.drives }) (hl : u.drives.length = t.drives.length)
    (hc : (∀ x ∈ t.drives, x.sane) → ∀ x ∈ u.drives, x.sane) (h : Follows s t) : Follows s u := by
  refine h.trans ?_
  rw [e]
  generalize u.drives = l at hl hc
  exact { Basic.refl t with
          fixed := by simp [State.fixed, hl]
          channels := hc
          reserve := fun i => ⟨⟨i.ctx, i.records, i.apart, i.used⟩, le_refl _⟩ }

theorem mem_modify {α : Type} {l : List α} {n : Nat} {f : α → α} {x : α} (h : x ∈ l.modify n f) :
    x ∈ l ∨ ∃ y ∈ l, x = f y := by
  induction l generalizing n with
  | nil => simp at h
  | cons a l ih =>
    cases n with
    | zero =>
      simp only [List.modify_zero_cons, List.mem_cons] at h ⊢
      rcases h with rfl | h
      · exact .inr ⟨a, .inl rfl, rfl⟩
      · exact .inl (.inr h)
    | succ n =>
      simp only [List.modify_succ_cons, List.mem_cons] at h ⊢
      rcases h with rfl | h
      · exact .inl (.inl rfl)
      · rcases ih h with h | ⟨y, hy, rfl⟩
        · exact .inl (.inr h)
        · exact .inr ⟨y, .inr hy, rfl⟩

theorem Follows.modDrive {s t : State} {d : Nat} {f : Drive → Drive} (hf : ∀ x : Drive, x.sane → (f x).sane)
    (h : Follows s t) : Follows s (t.modDrive d f) := by
  refine h.drives rfl (by simp) fun hx x hm => ?_
  rcases mem_modify hm with hm | ⟨y, hy, rfl⟩
  · exact hx x hm
  · exact hf y (hx y hy)

/-- A change of one drive that keeps it sane as it stands. -/
theorem Follows.changeDrive {s t : State} {d : Nat} {f : Drive → Drive} (hf : (t.drive d).sane → (f (t.drive d)).sane)
    (h : Follows s t) : Follows s (t.modDrive d f) := by
  refine h.drives rfl (by simp) fun hx x hm => ?_
  obtain ⟨i, hi, rfl⟩ := List.mem_iff_getElem.1 hm
  have hl : i < t.drives.length := by simpa using hi
  have e : (t.modDrive d f).drives[i] = (t.modDrive d f).drive i := by
    simp only [State.drive, List.getD_eq_getElem?_getD, List.getElem?_eq_getElem hi, Option.getD_some]
  have e' : t.drives[i] = t.drive i := by
    simp only [State.drive, List.getD_eq_getElem?_getD, List.getElem?_eq_getElem hl, Option.getD_some]
  have hs : (t.drive i).sane := e' ▸ hx _ (List.getElem_mem hl)
  rw [e, drive_modDrive]
  split
  · next hc => obtain ⟨rfl, -⟩ := hc; exact hf hs
  · exact hs

theorem Follows.mapDrives {s t : State} {f : Drive → Drive} (hf : ∀ x : Drive, x.sane → (f x).sane)
    (h : Follows s t) : Follows s { t with drives := t.drives.map f } := by
  refine h.drives rfl (by simp) fun hx x hm => ?_
  obtain ⟨y, hy, rfl⟩ := List.mem_map.1 hm
  exact hf y (hx y hy)

/-! ### The picker and the cache -/

theorem Follows.modPicker {s t : State} {f : Picker → Picker} (hf : t.lib.picker.sane → (f t.lib.picker).sane)
    (h : Follows s t) : Follows s (t.modPicker f) :=
  h.trans { Basic.refl t with
            picker := hf
            reserve := fun i => ⟨⟨i.ctx, i.records, i.apart, i.used⟩, le_refl _⟩ }

theorem Follows.cacheTo {s t : State} {l : List CacheEntry}
    (hl : t.loc.cache.length ≤ Config.cacheLimit → l.length ≤ Config.cacheLimit)
    (h : Follows s t) : Follows s { t with loc.cache := l } :=
  h.trans { Basic.refl t with
            cache := hl
            reserve := fun i => ⟨⟨i.ctx, i.records, i.apart, i.used⟩, le_refl _⟩ }

/-! ### Side records -/

theorem forall₂_modify {α : Type} {r : α → α → Prop} (hr : ∀ a, r a a) {f : α → α} (hf : ∀ a, r a (f a)) (l : List α)
    (n : Nat) : List.Forall₂ r l (l.modify n f) := by
  induction l generalizing n with
  | nil => simp
  | cons a l ih =>
    cases n with
    | zero => exact .cons (hf a) (List.forall₂_same.2 fun a _ => hr a)
    | succ n => exact .cons (hr a) (ih n)

/-- A change of a side record that `sideFollows` allows. -/
def SideChange (f : SideRecord → SideRecord) : Prop := ∀ r, sideFollows (some r) (some (f r))

theorem Follows.modSide {s t : State} {n : Nat} {f : SideRecord → SideRecord} (hf : SideChange f)
    (h : Follows s t) : Follows s (t.modSide n f) := by
  refine h.trans { Basic.refl t with
    sides := forall₂_modify sideFollows_refl (fun a => ?_) _ _
    reserve := fun i => ⟨⟨i.ctx, i.records, i.apart, i.used⟩, le_refl _⟩ }
  cases a with
  | none => trivial
  | some r => exact hf r

theorem Follows.modCartridge {s t : State} {n : Nat} {f : SideRecord → SideRecord} (hf : SideChange f)
    (h : Follows s t) : Follows s (t.modCartridge n f) := (h.modSide hf).modSide hf

theorem Follows.locate {s t : State} {n : Nat} {l : Location} (h : Follows s t) : Follows s (t.locate n l) :=
  h.modCartridge fun _ => ⟨rfl, List.prefix_refl _, le_refl _, id, le_refl _, le_refl _⟩

/-! ### Contexts -/

/-- The number of positions below `n` that meet a condition falls by one when one of them ceases to meet it. -/
theorem count_drop {p q : Nat → Bool} {n c : Nat} (hc : c < n) (hp : p c = true) (hq : q c = false)
    (h : ∀ i, i ≠ c → q i = p i) : ((List.range n).filter q).length + 1 = ((List.range n).filter p).length := by
  induction n with
  | zero => omega
  | succ n ih =>
    simp only [List.range_succ, List.filter_append, List.length_append]
    by_cases e : c = n
    · subst e
      have : (List.range c).filter q = (List.range c).filter p :=
        List.filter_congr fun i hi => h i (by simp at hi; omega)
      simp [this, hp, hq]
    · have := ih (by omega)
      have e2 := h n (by omega)
      by_cases hpn : p n = true <;> simp [e2, hpn] <;> omega

/-- It does not rise when nothing comes to meet the condition. -/
theorem count_le {p q : Nat → Bool} {n : Nat} (h : ∀ i, q i = true → p i = true) :
    ((List.range n).filter q).length ≤ ((List.range n).filter p).length := by
  simpa [List.countP_eq_length_filter] using List.countP_mono_left (l := List.range n) (fun i _ => h i)

/-- Contexts that are live. -/
def State.liveCount (s : State) : Nat := (s.contextsWhere (·.state.live)).length

/-- Filings in use. -/
def State.usedCount (s : State) : Nat := ((List.range 8).filter fun f => (s.filing f).state != .free).length

theorem reservations_eq (s : State) :
    s.reservations = s.liveCount + s.usedCount + s.rli.control.length + s.mu.late.length := rfl

theorem Basic.modContext (t : State) (c : Nat) (f : Context → Context) : Basic t (t.modContext c f) :=
  { Basic.refl t with fixed := by simp [State.fixed, State.modContext] }

/-- A change of a context that makes none live. -/
theorem Follows.modContext {s t : State} {c : Nat} {f : Context → Context}
    (hf : ((f (t.context c)).state.live = true → (t.context c).state.live = true))
    (h : Follows s t) : Follows s (t.modContext c f) := by
  refine h.trans { Basic.modContext t c f with reserve := fun i => ⟨⟨by simpa using i.ctx, i.records, i.apart, i.used⟩, ?_⟩ }
  have : (t.modContext c f).liveCount ≤ t.liveCount := by
    refine count_le fun i hi => ?_
    rw [context_modContext] at hi
    split at hi
    · next e => obtain ⟨rfl, _⟩ := e; exact hf hi
    · exact hi
  rw [reservations_eq, reservations_eq]
  have e : (t.modContext c f).usedCount = t.usedCount := rfl
  simp only [modContext_rli, modContext_mu, e]
  omega

/-! ### Filing records -/

theorem Follows.modFiling {s t : State} {f : Nat} {g : Filing → Filing}
    (hg : t.tidy → (g (t.filing f)).state = (t.filing f).state
      ∨ ((g (t.filing f)).state.inQueue = true ∧ (t.filing f).state.inQueue = true))
    (h : Follows s t) : Follows s (t.modFiling f g) := by
  have hs : t.tidy → ∀ i, ((t.modFiling f g).filing i).state = (t.filing i).state
      ∨ (((t.modFiling f g).filing i).state.inQueue = true ∧ (t.filing i).state.inQueue = true) := by
    intro ht i
    rw [filing_modFiling]
    split
    · next e => obtain ⟨rfl, _⟩ := e; exact hg ht
    · exact .inl rfl
  have hf : t.tidy → ∀ i, ((t.modFiling f g).filing i).state ≠ .free ↔ (t.filing i).state ≠ .free := by
    intro ht i
    rcases hs ht i with e | ⟨e1, e2⟩
    · rw [e]
    · simp [FilingState.ne_free e1, FilingState.ne_free e2]
  refine h.trans { Basic.refl t with
    fixed := by simp [State.fixed, State.modFiling]
    reserve := fun i => ⟨⟨i.ctx, by simpa using i.records, i.apart, fun j => ?_⟩, ?_⟩ }
  · rw [modFiling_queue, i.used j]
    rcases hs i j with e | ⟨e1, e2⟩
    · rw [e]
    · simp [e1, e2]
  have : (t.modFiling f g).usedCount = t.usedCount := by
    unfold State.usedCount
    congr 1
    refine List.filter_congr fun j _ => ?_
    rw [Bool.eq_iff_iff, bne_iff_ne, bne_iff_ne]
    exact hf i j
  rw [reservations_eq, reservations_eq, this]
  exact le_refl _

/-! ### Accounts and slots -/

theorem forall₂_map {α : Type} {r : α → α → Prop} {f : α → α} (hf : ∀ a, r a (f a)) (l : List α) :
    List.Forall₂ r l (l.map f) := by
  induction l with
  | nil => simp
  | cons a l ih => exact .cons (hf a) ih

theorem Follows.modAccount {s t : State} {n : Nat} {f : Account → Account} (hf : ∀ a, AccountFollows a (f a))
    (h : Follows s t) : Follows s (t.modAccount n f) :=
  h.trans { Basic.refl t with
    accounts := forall₂_map (fun a => by
      show AccountFollows a (if a.number = n then f a else a)
      split
      · exact hf a
      · exact .refl a) _
    reserve := fun i => ⟨⟨i.ctx, i.records, i.apart, i.used⟩, le_refl _⟩ }

theorem Follows.mapSlots {s t : State} {f : Slot → Slot} (hf : ∀ a, slotFollows a (f a)) (h : Follows s t) :
    Follows s { t with tal.slots := t.tal.slots.map f } :=
  h.trans { Basic.refl t with
    slots := forall₂_map hf _
    reserve := fun i => ⟨⟨i.ctx, i.records, i.apart, i.used⟩, le_refl _⟩ }

/-! ### Time, notices -/

theorem kinds_again (d : NoticeDetails) (ns : List Notice) :
    (ns.map fun n => if n.details.kind = d.kind then n.again d else n).map (·.details.kind) = ns.map (·.details.kind) := by
  induction ns with
  | nil => rfl
  | cons n ns ih =>
    simp only [List.map_cons, ih]
    split
    · next e => simp [Notice.again, e]
    · rfl

theorem Follows.raise {s t : State} {d : NoticeDetails} (h : Follows s t) : Follows s (raise_ d t) := by
  refine h.trans ?_
  unfold raise_
  split
  · exact .refl t
  · split
    · exact { Basic.refl t with
        notices := fun hn => by
          show (List.map _ (List.map _ _)).Nodup
          rw [kinds_again]
          exact hn
        reserve := fun i => ⟨⟨i.ctx, i.records, i.apart, i.used⟩, le_refl _⟩ }
    · next hne =>
      exact { Basic.refl t with
        notices := fun hn => by
          show (List.map _ (_ ++ _)).Nodup
          simp only [Bool.not_eq_true, List.any_eq_false, beq_iff_eq] at hne
          simp only [List.map_append, List.map_cons, List.map_nil]
          refine List.nodup_append.2 ⟨hn, List.nodup_singleton _, ?_⟩
          intro a ha b hb
          obtain ⟨n, hm, rfl⟩ := List.mem_map.1 ha
          simp only [List.mem_singleton] at hb
          subst hb
          exact hne n hm
        reserve := fun i => ⟨⟨i.ctx, i.records, i.apart, i.used⟩, le_refl _⟩ }

/-- Notices leave the notice set. -/
theorem noticesApart_filter {ns : List Notice} {p : Notice → Bool} (h : noticesApart ns) : noticesApart (ns.filter p) :=
  h.sublist ((List.filter_sublist (p := p)).map _)

end Sys2Proof.Machine
end

