-- ==== Sys2Proof/Laws/FollowsMounts.lean ====
section
/-! SUPPORT. `Follows` for the mount queue, the fee postings and the endings of contexts. -/

namespace Sys2Proof.Machine

variable {s t : State}

/-! ### Changes that are not watched -/

theorem Follows.callArbiter (h : Follows s t) : Follows s t.callArbiter := h.unwatched rfl

theorem Follows.callReadiness (h : Follows s t) : Follows s t.callReadiness := h.unwatched rfl

theorem Follows.reprioritise (h : Follows s t) : Follows s (reprioritise t) := by
  unfold Machine.reprioritise
  dsimp only
  split
  · exact Follows.callArbiter (h.unwatched rfl)
  · exact h.unwatched rfl

theorem Follows.addOrder {o : Order} (h : Follows s t) : Follows s (addOrder o t) :=
  Follows.callArbiter (Follows.reprioritise (h.unwatched rfl))

theorem Follows.newMount {n : Nat} {w : List Nat} {m : Bool} {f : Option Nat} (h : Follows s t) :
    Follows s (newMount n w m f t) := h.addOrder

theorem Follows.newUnmount {d : Nat} {firm : Bool} (h : Follows s t) : Follows s (newUnmount d firm t) := by
  unfold Machine.newUnmount
  cases firm <;> dsimp only <;> simp only [Bool.false_eq_true, ↓reduceIte] <;> split
  · exact h
  · exact h.addOrder
  · exact h.unwatched rfl
  · exact Follows.addOrder (h.unwatched rfl)

theorem Follows.removeOrder {id : Nat} (h : Follows s t) : Follows s (removeOrder id t) := h.unwatched rfl

theorem Follows.modOrder {id : Nat} {f : Order → Order} (h : Follows s t) : Follows s (modOrder id f t) := h.unwatched rfl

theorem Follows.withdrawIdle {d : Nat} (h : Follows s t) : Follows s (withdrawIdle d t) := h.unwatched rfl

theorem Follows.dropAbandoned (h : Follows s t) : Follows s (dropAbandoned t) := h.unwatched rfl

theorem Follows.leaveOrders {c : Nat} (h : Follows s t) : Follows s (leaveOrders c t) :=
  Follows.reprioritise (.unwatched (t := { t with drives := t.drives.map fun d =>
    { d with incoming := d.incoming.filter (· != c) } }) (h.mapDrives fun _ hx => hx) rfl)

theorem Follows.withdrawMarker (h : Follows s t) : Follows s (withdrawMarker t) := by
  unfold Machine.withdrawMarker
  have h1 := Follows.reprioritise (t := { t with
    lib.orders := (t.lib.orders.map fun o => { o with marker := false }).filter fun o => !o.abandoned
    drives := t.drives.map fun d => { d with incomingMarker := false }
    fil.mountFor := none }) (.unwatched (t := { t with drives := t.drives.map fun d =>
      { d with incomingMarker := false } }) (h.mapDrives fun _ hx => hx) rfl)
  dsimp only
  split
  · exact h1.unwatched rfl
  · exact h1

theorem Follows.returnMarker (h : Follows s t) : Follows s (returnMarker t) := by
  unfold Machine.returnMarker
  split
  · exact h
  · exact h.unwatched rfl
  all_goals exact Follows.callReadiness (h.unwatched rfl)

/-! ### Postings -/

theorem postFigures_stop_follows (a : Account) (q : Nat) : AccountFollows a (stopTest (postFigures a q)) := by
  have hp : (stopTest (postFigures a q)) = { postFigures a q with state := (stopTest (postFigures a q)).state } := by
    unfold stopTest; split <;> rfl
  constructor
  case stopped =>
    intro h
    unfold stopTest
    split
    · rfl
    · exact h
  case bounded =>
    rintro ⟨h1, h2, h3, h4, h5⟩
    rw [hp]
    refine ⟨⟨?_, ?_, h3, ?_, ?_⟩, ?_⟩
    · show (q + a.residue) % 10 ≤ 9
      omega
    · exact Nat.min_le_right _ _
    · exact Nat.min_le_right _ _
    · exact Nat.min_le_right _ _
    · exact Nat.le_min.2 ⟨Nat.le_add_right _ _, h2⟩
  all_goals (rw [hp]; rfl)

theorem Follows.post {n q : Nat} (h : Follows s t) : Follows s (post n q t) := by
  unfold Machine.post
  split
  · exact h
  · dsimp only
    have h1 := h.modAccount (n := n) fun a => postFigures_stop_follows a q
    split
    · exact h1
    · exact h1.raise

theorem Follows.releaseReference {g : Option Nat} (h : Follows s t) : Follows s (releaseReference g t) := by
  unfold Machine.releaseReference
  split
  · exact h
  · refine h.mapSlots fun a => ?_
    split
    · unfold Slot.release
      split
      · next e => exact .inr ⟨e.1, rfl⟩
      · exact .inl ⟨rfl, rfl, rfl, rfl⟩
    · exact slotFollows_refl a

theorem Follows.takeReference {g : Nat} (h : Follows s t) : Follows s (takeReference g t) := by
  refine h.mapSlots fun a => ?_
  split
  · exact .inl ⟨rfl, rfl, rfl, rfl⟩
  · exact slotFollows_refl a

/-! ### Reads and endings of contexts -/

theorem Follows.pushCommand {d : Nat} {e : QueueEntry} (he : e.ofEngine) (h : Follows s t) :
    Follows s (pushCommand d e t) :=
  h.modDrive fun x hx => ⟨hx.1, fun y hy => by
    rcases List.mem_append.1 hy with hy | hy
    · exact hx.2.1 y hy
    · exact List.mem_singleton.1 hy ▸ he, hx.2.2⟩

/-- A new command that neither erases nor writes. -/
theorem newEntry_ofEngine {u : State} {i : Issuer} {op : DriveOp} {a n p : Nat} {l : List Sector}
    (h : i = .filing ∨ (op ≠ .erase ∧ op ≠ .write)) : (newEntry u i op a n p l).ofEngine := by
  rintro (e | e)
  · rcases h with h | h
    · exact h
    · exact absurd e h.1
  · rcases h with h | h
    · exact h
    · exact absurd e h.2

/-- Commands that leave a queue. -/
theorem filter_sane {x : Drive} {p : QueueEntry → Bool} (h : x.sane) : Drive.sane { x with queue := x.queue.filter p } :=
  ⟨h.1, fun y hy => h.2.1 y (List.mem_of_mem_filter hy), h.2.2⟩

theorem Follows.dropReads {c : Nat} (h : Follows s t) : Follows s (dropReads c t) := h.mapDrives fun _ hx => filter_sane hx

theorem Follows.detach {c : Nat} (h : Follows s t) : Follows s (detach c t) := h.mapDrives fun _ hx => hx

theorem Follows.placePageRead {c : Nat} (h : Follows s t) : Follows s (placePageRead c t) := by
  unfold Machine.placePageRead
  split
  · exact (h.pushCommand (newEntry_ofEngine (by simp))).modContext id
  · exact h

/-- A frame composed takes one place. -/
theorem Basic.compose (r g : Nat) (b : OutBody) (t : State) : Basic t (compose r g b t) :=
  { Basic.refl t with fixed := rfl }

theorem reservations_compose (r g : Nat) (b : OutBody) (t : State) :
    (compose r g b t).reservations = t.reservations + 1 := by
  show t.liveCount + t.usedCount + (t.rli.control ++ [_]).length + t.mu.late.length = _
  rw [reservations_eq]
  simp
  omega

theorem tidy_compose {r g : Nat} {b : OutBody} (h : t.tidy) : (compose r g b t).tidy :=
  ⟨h.ctx, h.records, h.apart, h.used⟩

/-- The charge, the release and the DONE of an ending: one frame more. -/
theorem settleCharge_spec (x : Context) (o : Ending) (t : State) :
    ∃ u r g b, Follows t u ∧ settleCharge x o t = compose r g b u := by
  unfold settleCharge
  dsimp only
  refine ⟨_, _, _, _, ?_, rfl⟩
  split
  · exact (Follows.refl t).post.releaseReference
  · exact (Follows.refl t).releaseReference

/-- An ending gives up the place of a live context and takes one for its DONE. -/
theorem Follows.endContext {c : Nat} {o : Ending} (h : Follows s t) : Follows s (endContext c o t) := by
  refine h.trans ?_
  unfold Machine.endContext
  split
  case isFalse => exact .refl t
  case isTrue hl =>
    dsimp only
    set s1 := t.modContext c (Context.close o) with hs1
    set s2 := Machine.leaveOrders c (Machine.detach c (Machine.dropReads c s1)) with hs2
    have f2 : Follows s1 s2 := (Follows.refl s1).dropReads.detach.leaveOrders
    set s3 := s2.modContext c Context.discard with hs3
    have f3 : Follows s1 s3 := f2.modContext id
    obtain ⟨u, r, g, b, fu, e⟩ := settleCharge_spec (t.context c) o s3
    rw [e]
    have f4 : Follows s1 u := f3.trans fu
    have b1 : Basic t s1 := Basic.modContext _ _ _
    refine { (b1.trans f4.toBasic).trans (Basic.compose r g b u) with reserve := fun i => ?_ }
    have hlen : c < t.ctx.length := by
      by_contra hc
      rw [context_out t c (by omega)] at hl
      cases hl
    have i1 : s1.tidy := ⟨by simpa [hs1] using i.ctx, i.records, i.apart, i.used⟩
    have hu := f4.reserve i1
    refine ⟨tidy_compose hu.1, ?_⟩
    rw [reservations_compose]
    have hd : s1.liveCount + 1 = t.liveCount := by
      refine count_drop (by have := i.ctx; omega) hl ?_ ?_
      · simp [hs1, context_modContext, hlen, Context.close, CtxState.live]
      · intro j hj
        simp [hs1, context_modContext, Ne.symm hj]
    have e1 : s1.reservations + 1 = t.reservations := by
      rw [reservations_eq, reservations_eq, ← hd]
      show s1.liveCount + t.usedCount + t.rli.control.length + t.mu.late.length + 1 = _
      omega
    omega

theorem Follows.endContexts {cs : List Nat} {o : Ending} (h : Follows s t) : Follows s (endContexts cs o t) :=
  h.fold _ (fun t _ => (Follows.refl t).endContext) cs

theorem Follows.freeContext {c : Nat} (h : Follows s t) : Follows s (freeContext c t) := by
  unfold Machine.freeContext
  dsimp only
  split
  · refine Follows.modContext (fun i => ?_) (h.modAccount fun a => ?_)
    · cases i
    · constructor <;> simp [Account.bounded]
  · exact h

/-! ### Page completion and the outbound arbiter -/

theorem Follows.completePage {c : Nat} (h : Follows s t) : Follows s (completePage c t) := by
  unfold Machine.completePage
  dsimp only
  have h1 := h.modContext (c := c) (f := Context.completePage (t.priceOfPage (t.context c))) id
  have hc : ∀ a : Account, AccountFollows a { a with dayPages := countMade a.dayPages } := fun a => by
    constructor <;> simp [Account.bounded, countMade]
    omega
  split <;> split
  · exact (h1.modAccount hc).endContext
  · exact h1.modAccount hc
  · exact h1.endContext
  · exact h1

theorem Follows.handRun {c : Nat} (h : Follows s t) : Follows s (handRun c t) := by
  unfold Machine.handRun
  dsimp only
  have h1 := Follows.modContext (c := c) (f := Context.afterRun) (t := { t with
    rli.transmitter := some { requester := (t.context c).requester, tag := (t.context c).tag, body := (t.context c).runBody }
    rli.lastServed := c }) id (h.unwatched rfl)
  split
  · exact h1.completePage
  · exact h1

theorem Follows.markDone {r g : Nat} (h : Follows s t) : Follows s (markDone r g t) := by
  unfold Machine.markDone
  split
  · exact h
  · exact h.modContext id

/-- Frames leave the control list. -/
theorem Follows.control {l : List ControlFrame} {x : Option OutFrame} (hl : l.length ≤ t.rli.control.length)
    (h : Follows s t) : Follows s { t with rli.control := l, rli.transmitter := x } :=
  h.trans { Basic.refl t with
    reserve := fun i => ⟨⟨i.ctx, i.records, i.apart, i.used⟩, by
      rw [reservations_eq, reservations_eq]
      show t.liveCount + t.usedCount + l.length + t.mu.late.length ≤ _
      omega⟩ }

theorem Follows.handControl {f : ControlFrame} (h : Follows s t) : Follows s (handControl f t) := by
  unfold Machine.handControl
  dsimp only
  have h1 := h.control (l := t.rli.control.drop 1) (x := some f.frame) (by simp)
  split
  · exact h1.markDone
  · exact h1

theorem Follows.handNotice {n : Notice} (h : Follows s t) : Follows s (handNotice n t) :=
  h.trans { Basic.refl t with
    notices := noticesApart_filter
    reserve := fun i => ⟨⟨i.ctx, i.records, i.apart, i.used⟩, le_refl _⟩ }

theorem Follows.transmit (h : Follows s t) : Follows s (transmit t) := by
  unfold Machine.transmit
  split
  · exact h
  · exact h.handControl
  · exact h.handNotice
  · exact h.handRun

/-! ### Parking -/

theorem Follows.parkAll {d : Nat} (h : Follows s t) : Follows s (parkAll d t) := by
  unfold Machine.parkAll
  refine Follows.modDrive (fun _ hx => hx) (h.fold _ (fun t c => ?_) _)
  refine (Follows.refl t).dropReads.modContext fun i => ?_
  revert i
  unfold Context.park
  split <;> exact id

end Sys2Proof.Machine
end

