-- ==== Sys2Proof/Laws/FollowsFaults.lean ====
section
/-! SUPPORT. `Follows` for filings given up, halts, sides out of service, drive faults, channels and locates. -/

namespace Sys2Proof.Machine

variable {s t : State}

/-! ### Filings given up -/

/-- A filing record is freed after one frame was composed for it. -/
theorem freeFiling_spec {u : State} {f : Nat} (hb : Basic t u)
    (hr : t.tidy → u.tidy ∧ u.reservations ≤ t.reservations + 1 ∧ (u.filing f).state ≠ .free) :
    Follows t (freeFiling f u) := by
  unfold freeFiling
  dsimp only
  set w : State := { (u.modFiling f fun _ => Filing.reset) with fil.queue := u.fil.queue.filter (· != f) } with hw
  have hbw : Basic t w := hb.trans { Basic.refl u with fixed := by simp [State.fixed, hw, State.modFiling] }
  have key : Follows t w := by
    refine { hbw with reserve := fun i => ?_ }
    obtain ⟨iu, hle, hfree⟩ := hr i
    have hfl : ∀ j, w.filing j = (u.modFiling f fun _ => Filing.reset).filing j := fun _ => rfl
    have hin : f < u.fil.records.length := by
      by_contra hc
      rw [filing_out u f (by omega)] at hfree
      exact hfree rfl
    have h8 := iu.records
    refine ⟨⟨iu.ctx, ?_, ?_, ?_⟩, ?_⟩
    · simpa [hw, State.modFiling] using h8
    · exact iu.apart.sublist List.filter_sublist
    · intro j
      show j ∈ u.fil.queue.filter (· != f) ↔ _
      rw [hfl, filing_modFiling]
      by_cases hne : f = j
      · subst hne
        simp [hin, Filing.reset, FilingState.inQueue]
      · rw [if_neg (by simp [hne]), ← iu.used j]
        simp [Ne.symm hne]
    · have hd : w.usedCount + 1 = u.usedCount := by
        refine count_drop (c := f) (by omega) (by simpa using hfree) ?_ ?_
        · simp [hfl, filing_modFiling, hin, Filing.reset]
        · intro j hj
          simp [hfl, filing_modFiling, Ne.symm hj]
      rw [reservations_eq] at hle ⊢
      have e1 : w.liveCount = u.liveCount := rfl
      have e2 : w.rli.control = u.rli.control := rfl
      have e3 : w.mu.late = u.mu.late := rfl
      rw [e1, e2, e3]
      omega
  split
  · exact key
  · exact key.callArbiter

theorem Follows.discardFiling {f : Nat} {cause : FileCause} (hu : t.tidy → (t.filing f).state ≠ .free)
    (h : Follows s t) : Follows s (discardFiling f cause t) :=
  h.trans (freeFiling_spec (Basic.compose _ _ _ t) fun i =>
    ⟨tidy_compose i, by rw [fileFailed, reservations_compose], hu i⟩)

theorem filing_freeFiling {f j : Nat} (hj : f ≠ j) : (freeFiling f t).filing j = t.filing j := by
  unfold freeFiling
  dsimp only
  split
  all_goals
    show (t.modFiling f _).filing j = _
    rw [filing_modFiling, if_neg (by simp [hj])]

theorem Follows.discardAll {cause : State → FileCause} (l : List Nat) (hn : l.Nodup)
    (hu : ∀ f ∈ l, (t.filing f).state ≠ .free) (h : Follows s t) :
    Follows s (l.foldl (fun s f => Machine.discardFiling f (cause s) s) t) := by
  induction l generalizing t with
  | nil => exact h
  | cons f l ih =>
    refine ih (List.nodup_cons.1 hn).2 (fun j hj => ?_) (h.discardFiling fun _ => hu f (by simp))
    have hne : f ≠ j := by rintro rfl; exact (List.nodup_cons.1 hn).1 hj
    show ((freeFiling f (fileFailed f (cause t) t)).filing j).state ≠ .free
    rw [filing_freeFiling hne]
    exact hu j (by simp [hj])

/-! ### Halts -/

theorem Follows.setHalt {c : Halt} (h : Follows s t) : Follows s (setHalt c t) := by
  unfold Machine.setHalt
  dsimp only
  have key : ∀ u, Follows s u → Follows s (if u.fil.mountFor = some .walk then u else Machine.withdrawMarker u) := by
    intro u hu
    split
    · exact hu
    · exact hu.withdrawMarker
  refine key _ ?_
  split
  · exact h
  · exact Follows.raise (h.unwatched rfl)

theorem Follows.retestHalt (h : Follows s t) : Follows s (retestHalt t) := by
  unfold Machine.retestHalt
  split
  · exact h
  · split
    · exact h
    · exact Follows.callReadiness (h.unwatched rfl)

theorem Follows.spoilExtent {f : Nat} (h : Follows s t) : Follows s (spoilExtent f t) := by
  unfold Machine.spoilExtent
  dsimp only
  split
  · exact Follows.unwatched (Follows.modFiling (fun _ => .inl rfl) h) rfl
  · refine Follows.unwatched (Follows.modFiling (fun _ => .inl rfl) (h.modSide fun r => ?_)) rfl
    exact ⟨rfl, List.prefix_refl _, by simp only; omega, id, le_refl _, le_refl _⟩

theorem spoilExtent_queue {f : Nat} : (spoilExtent f t).fil.queue = t.fil.queue := by
  unfold spoilExtent; dsimp only; split <;> rfl

theorem spoilExtent_state {f j : Nat} : ((spoilExtent f t).filing j).state = (t.filing j).state := by
  unfold spoilExtent
  dsimp only
  split
  all_goals
    show ((State.modFiling _ f _).filing j).state = _
    rw [filing_modFiling]
    split <;> rfl

theorem Follows.leaveSequence (h : Follows s t) : Follows s (leaveSequence t) := h.unwatched rfl

theorem Follows.endSequence (h : Follows s t) : Follows s (endSequence t) := h.leaveSequence.callArbiter

theorem sideSkip : SideChange SideRecord.skip := by
  intro r
  unfold SideRecord.skip
  split
  · exact ⟨rfl, List.prefix_append _ _, le_refl _, id, le_refl _, le_refl _⟩
  · exact ⟨rfl, List.prefix_refl _, le_refl _, fun _ => rfl, le_refl _, le_refl _⟩

theorem Follows.giveUpIndex {n : Nat} (h : Follows s t) : Follows s (giveUpIndex n t) := by
  unfold Machine.giveUpIndex
  dsimp only
  split
  · exact Follows.unwatched (h.modSide sideSkip) rfl
  · exact h.modSide sideSkip

theorem Follows.loseIndex (h : Follows s t) : Follows s (loseIndex t) := by
  unfold Machine.loseIndex
  split
  · exact h
  · split
    · split
      · exact h.giveUpIndex
      · exact h.modSide sideSkip
    · exact h

theorem Follows.filingLost (h : Follows s t) : Follows s (filingLost t) := by
  unfold Machine.filingLost
  split
  · next f _ hq =>
    have hm : f ∈ t.fil.queue := List.mem_of_mem_head? hq
    have h1 := h.spoilExtent (f := f) |>.endSequence
    have hu : ((Machine.endSequence (Machine.spoilExtent f t)).filing f).state = (t.filing f).state := spoilExtent_state
    have hmq : f ∈ (Machine.endSequence (Machine.spoilExtent f t)).fil.queue := by
      show f ∈ (Machine.spoilExtent f t).fil.queue
      rw [spoilExtent_queue]; exact hm
    dsimp only
    split
    · exact h1.discardFiling fun i => i.inUse hmq
    · exact (Follows.modFiling (fun i => .inr ⟨rfl, (i.used f).1 hmq⟩) h1).setHalt
  · exact h.endSequence
  · exact h.loseIndex.endSequence.setHalt
  · exact h.loseIndex.endSequence.setHalt
  · exact Follows.callReadiness (Follows.endSequence (h.unwatched rfl))
  · exact h
  · exact h

/-! ### Sides out of service -/

theorem Follows.dropCache {n : Nat} (h : Follows s t) : Follows s (dropCache n t) :=
  h.cacheTo fun hl => (List.length_filter_le _ _).trans hl

theorem Follows.dropOrder {o : Order} (h : Follows s t) : Follows s (dropOrder o t) := by
  unfold Machine.dropOrder
  dsimp only
  split
  · exact h.removeOrder.endContexts.returnMarker
  · exact h.removeOrder.endContexts

theorem Follows.removeMount {n : Nat} (h : Follows s t) : Follows s (removeMount n t) := by
  unfold Machine.removeMount
  split
  · exact h
  · split
    · exact h
    · exact h.dropOrder

theorem Follows.sideGone {n : Nat} {c : Bool} (h : Follows s t) : Follows s (sideGone n c t) := by
  unfold Machine.sideGone
  dsimp only
  cases c
  · simp only [Bool.false_eq_true, ↓reduceIte]
    split
    · exact h.removeMount.setHalt
    · exact h.removeMount
  · simp only [↓reduceIte]
    split
    · exact h.dropCache.removeMount.setHalt
    · exact h.dropCache.removeMount

theorem sideKeeps {f : SideRecord → SideRecord} (h : ∀ r, (f r).serial = r.serial ∧ (f r).skips = r.skips
    ∧ (f r).spoiled = r.spoiled ∧ (f r).incomplete = r.incomplete ∧ r.dataHigh ≤ (f r).dataHigh
    ∧ r.written ≤ (f r).written) : SideChange f := by
  intro r
  obtain ⟨h1, h2, h3, h4, h5, h6⟩ := h r
  exact ⟨h1, h2 ▸ List.prefix_refl _, h3 ▸ le_refl _, fun i => h4 ▸ i, h5, h6⟩

/-- A change that leaves all counts of the record. -/
theorem sideSame {f : SideRecord → SideRecord} (h : ∀ r, (f r).serial = r.serial ∧ (f r).skips = r.skips
    ∧ (f r).spoiled = r.spoiled ∧ (f r).incomplete = r.incomplete ∧ (f r).dataHigh = r.dataHigh
    ∧ (f r).written = r.written) : SideChange f :=
  sideKeeps fun r => by
    obtain ⟨h1, h2, h3, h4, h5, h6⟩ := h r
    exact ⟨h1, h2, h3, h4, h5.ge, h6.ge⟩

theorem Follows.turnStuck {c : Nat} (h : Follows s t) : Follows s (turnStuck c t) := by
  unfold Machine.turnStuck
  dsimp only
  refine Follows.fold _ (fun t n => (Follows.refl t).sideGone) _ (h.modCartridge (sideSame fun r => ?_))
  unfold SideRecord.stick
  split <;> exact ⟨rfl, rfl, rfl, rfl, rfl, rfl⟩

theorem Follows.returnCartridge {c : Nat} (h : Follows s t) : Follows s (returnCartridge c t) := by
  unfold Machine.returnCartridge
  dsimp only
  have h1 := Follows.callArbiter <| h.modCartridge (n := c) (f := SideRecord.unstick) (sideSame fun r => by
    unfold SideRecord.unstick
    split <;> exact ⟨rfl, rfl, rfl, rfl, rfl, rfl⟩)
  split
  · exact h1.retestHalt
  · exact h1

theorem Follows.turnMismatch {n : Nat} (h : Follows s t) : Follows s (turnMismatch n t) :=
  Follows.sideGone (h.modSide (sideSame fun _ => ⟨rfl, rfl, rfl, rfl, rfl, rfl⟩))

theorem Follows.turnMissing {n : Nat} (h : Follows s t) : Follows s (turnMissing n t) :=
  Follows.sideGone (h.modSide (sideSame fun _ => ⟨rfl, rfl, rfl, rfl, rfl, rfl⟩))

/-! ### Late replies and drive faults -/

/-- A reply takes the place its request held. -/
theorem Follows.answerLate {w : LateKind → Bool} {c : LateKind → Nat} {d : LateKind → List Byte} (h : Follows s t) :
    Follows s (answerLate w c d t) := by
  refine h.trans ?_
  unfold Machine.answerLate
  dsimp only
  have key : ∀ (l : List Late) (u : State), Basic t u → (t.tidy → u.tidy ∧ u.reservations + l.length ≤ t.reservations) →
      Follows t (l.foldl (fun s x => accept x.requester x.tag (c x.kind) (d x.kind) s) u) := by
    intro l
    induction l with
    | nil => exact fun u hb hr => { hb with reserve := hr }
    | cons x l ih =>
      intro u hb hr
      refine ih _ (hb.trans (Basic.compose _ _ _ u)) fun i => ?_
      obtain ⟨i1, i2⟩ := hr i
      refine ⟨tidy_compose i1, ?_⟩
      show (compose _ _ _ u).reservations + _ ≤ _
      rw [reservations_compose]
      simp at i2
      omega
  refine key _ _ { Basic.refl t with } fun i => ⟨⟨i.ctx, i.records, i.apart, i.used⟩, ?_⟩
  rw [reservations_eq, reservations_eq]
  show t.liveCount + t.usedCount + t.rli.control.length + (t.mu.late.filter _).length + _ ≤ _
  have : (t.mu.late.filter fun l => !w l.kind).length + (t.mu.late.filter fun l => w l.kind).length = t.mu.late.length := by
    have := List.length_eq_length_filter_add (l := t.mu.late) (fun l => w l.kind)
    omega
  omega

theorem Follows.lostRead {c : Nat} (h : Follows s t) : Follows s (lostRead c t) := Follows.endContext (h.modContext id)

theorem Follows.commandLost {e : QueueEntry} (h : Follows s t) : Follows s (commandLost e t) := by
  unfold Machine.commandLost
  split <;> first | exact h.lostRead | exact h

theorem Follows.abandonMotion {d : Nat} (h : Follows s t) : Follows s (abandonMotion d t) := by
  unfold Machine.abandonMotion
  split
  · exact h
  · split
    · exact h
    · dsimp only
      have h1 := h.modPicker (f := fun p => { p with state := .parked, motion := none, second := none })
        fun _ => by simp [Picker.sane]
      refine Follows.callArbiter ?_
      split
      · exact h1
      · split
        · exact h1
        · split
          · exact h1.modOrder.dropAbandoned
          · exact h1.removeOrder

theorem failed_sane (c : DriveCause) (x : Drive) : (Drive.failed c x).sane := by
  simp [Drive.failed, Drive.resetChannel, Drive.sane, Drive.channelSane]

theorem Follows.answerRetry {d f : Nat} (h : Follows s t) : Follows s (answerRetry d f t) := h.answerLate

theorem Follows.driveFault {d : Nat} {c : DriveCause} (h : Follows s t) : Follows s (driveFault d c t) := by
  unfold Machine.driveFault
  extract_lets x s1 s2 s3 s4 s5 s6 s7 s8 l s9 s10
  have h1 : Follows s s1 := h.modDrive fun x _ => failed_sane c x
  have h2 : Follows s s2 := h1.fold (fun s e => Machine.commandLost e s) (fun t e => (Follows.refl t).commandLost) _
  have h3 : Follows s s3 := h2.endContexts
  have h4 : Follows s s4 := by
    simp only [s4]
    split
    · exact h3.filingLost
    · exact h3
  have h6 : Follows s s6 := h4.abandonMotion.endContexts
  have h7 : Follows s s7 := by
    simp only [s7]
    split
    · exact h6.returnMarker
    · exact h6
  have h8 : Follows s s8 := by
    simp only [s8]
    split
    · exact h7
    · exact h7.turnStuck
  have h9 : Follows s s9 := h8.unwatched rfl
  have h10 : Follows s s10 := h9.raise
  split
  · exact h10.answerRetry
  · exact h10

theorem Follows.haltIfOpenIn {d : Nat} (h : Follows s t) : Follows s (haltIfOpenIn d t) := by
  unfold Machine.haltIfOpenIn
  split
  · exact h.setHalt
  · exact h

theorem Follows.removeForced {d : Nat} (h : Follows s t) : Follows s (removeForced d t) := by
  unfold Machine.removeForced
  split
  · exact h
  · exact Follows.fold _ (fun t _ => (Follows.refl t).removeMount) _ h

theorem Follows.labelFault {d : Nat} {m : Option Nat} (h : Follows s t) : Follows s (labelFault d m t) :=
  Follows.haltIfOpenIn (Follows.removeForced (Follows.raise (h.modDrive fun _ hx => hx)))

/-! ### Channels -/

/-- A drive's command changes and its engine arrives at a rendezvous. -/
theorem arrive_sane {y : Drive} {cur : Current} {tm : Timer} (hc : y.channel ≠ .idle) (hs : y.stall = some tm)
    (hcur : y.current = some cur) (he : cur.entry.ofEngine) (hq : ∀ e ∈ y.queue, e.ofEngine)
    (ho : ∀ e, y.owed = some e → e.ofEngine) : y.sane :=
  ⟨by simp [Drive.channelSane, hc, hs, hcur], hq, ho, fun z hz => by rw [hcur] at hz; cases hz; exact he⟩

theorem drive_readPasses (i : Issuer) (a b : ReadStatus) (d : Nat) : (Machine.readPasses i a b t).drive d = t.drive d := by
  unfold Machine.readPasses; split <;> rfl

theorem drive_messageSent (c : Current) (d : Nat) : (Machine.messageSent c t).drive d = t.drive d := by
  unfold Machine.messageSent; split
  · rfl
  · exact drive_readPasses ..

theorem drive_markIssued (e : QueueEntry) (d : Nat) : (Machine.markIssued e t).drive d = t.drive d := by
  unfold Machine.markIssued; split
  · rfl
  all_goals exact drive_readPasses ..

theorem taken_entry (c : Current) : c.taken.entry = c.entry := by
  unfold Current.taken; split <;> rfl

theorem receive_ofEngine {c : Current} (b : Sector) (h : c.entry.ofEngine) : (c.receive b).entry.ofEngine := by
  unfold Current.receive
  split
  · split <;> exact h
  · exact h

theorem modDrive_modDrive (d : Nat) (f g : Drive → Drive) : (t.modDrive d f).modDrive d g = t.modDrive d (g ∘ f) := by
  simp [State.modDrive, List.modify_modify_eq]

theorem Follows.channelFault {d : Nat} (h : Follows s t) : Follows s (channelFault d t) := h.driveFault

theorem current_after_ne (c : Current) : c.after ≠ .idle := by
  unfold Current.after; split <;> simp

theorem Follows.readPasses {i : Issuer} {a b : ReadStatus} (h : Follows s t) : Follows s (readPasses i a b t) := by
  unfold Machine.readPasses
  split <;> first | exact h.modContext id | exact h

theorem Follows.messageSent {c : Current} (h : Follows s t) : Follows s (messageSent c t) := by
  unfold Machine.messageSent
  split
  · exact h
  · exact h.readPasses

theorem Follows.offerTaken {d : Nat} (h : Follows s t) : Follows s (offerTaken d t) := by
  unfold Machine.offerTaken
  split
  · exact h
  · next c _ =>
    unfold arriveAt
    rw [modDrive_modDrive]
    refine h.messageSent.changeDrive fun hs => ?_
    rw [drive_messageSent] at hs ⊢
    exact arrive_sane (current_after_ne _) rfl rfl (by rw [taken_entry]; exact hs.2.2.2 c ‹_›) hs.2.1 hs.2.2.1

theorem Follows.meetOffer {d : Nat} (h : Follows s t) : Follows s (meetOffer d t) := by
  unfold Machine.meetOffer
  dsimp only
  split
  · exact h.channelFault
  · split
    · exact h.offerTaken
    · exact h

theorem Follows.markIssued {e : QueueEntry} (h : Follows s t) : Follows s (markIssued e t) := by
  unfold Machine.markIssued
  split <;> first | exact h.readPasses | exact h.unwatched rfl

theorem Follows.issue {d : Nat} {e : QueueEntry} (he : (t.drive d).sane → e.ofEngine) (h : Follows s t) :
    Follows s (issue d e t) := by
  unfold Machine.issue
  dsimp only
  refine Follows.meetOffer ?_
  have hm : ∀ u f, Machine.markIssued e (u.modDrive d f) = (Machine.markIssued e u).modDrive d f := by
    intro u f
    unfold Machine.markIssued Machine.readPasses
    split <;> first | rfl | (split <;> rfl)
  rw [hm]
  unfold arriveAt
  rw [modDrive_modDrive]
  refine (h.markIssued).changeDrive fun hs => ?_
  rw [drive_markIssued] at hs ⊢
  refine arrive_sane (by simp) rfl rfl (he hs) (fun y hy => ?_) (by simp)
  dsimp only [Function.comp] at hy
  split at hy
  · exact hs.2.1 y hy
  · exact hs.2.1 y (List.mem_of_mem_erase hy)

theorem pick_ofEngine {x : Drive} {b : Bool} {e : QueueEntry} (h : x.pick b = some e) (hx : x.sane) : e.ofEngine := by
  have hbest : ∀ {q : List QueueEntry}, bestEntry q = some e → e ∈ q := fun h => List.mem_of_find?_eq_some h
  have hurgent : ∀ {p}, bestEntry (x.queue.filter p) = some e → e ∈ x.queue := fun h => List.mem_of_mem_filter (hbest h)
  unfold Drive.pick at h
  split at h
  · next o => cases h; exact hx.2.2.1 _ o
  · refine hx.2.1 e ?_
    split at h
    · next f => cases h; exact List.mem_of_find?_eq_some f
    · split at h
      · unfold Drive.pickSequence at h
        dsimp only at h
        split at h
        · next f g =>
          split at h
          · cases h; exact hurgent g
          · cases h; exact List.mem_of_find?_eq_some f
        · next f _ => cases h; exact List.mem_of_find?_eq_some f
        · exact hurgent h
      · exact hbest h

theorem Follows.dispatch {d : Nat} (h : Follows s t) : Follows s (dispatch d t) := by
  unfold Machine.dispatch
  dsimp only
  split
  · exact h
  · split
    · exact h
    · next hp => exact h.issue (pick_ofEngine hp)

theorem Follows.dispatchAll (h : Follows s t) : Follows s (dispatchAll t) :=
  h.fold _ (fun t _ => (Follows.refl t).dispatch) _

theorem prime_state (x : Context) : x.prime.state = x.state := rfl

theorem takeBlock_state (b : Sector) (x : Context) : (x.takeBlock b).state = x.state := by
  unfold Context.takeBlock; split <;> rfl

theorem Follows.blockTaken {d : Nat} {b : Sector} (h : Follows s t) : Follows s (blockTaken d b t) := by
  unfold Machine.blockTaken
  split
  · exact h
  · dsimp only
    have hctx : ∀ u f n g, arriveAt d .awaiting (State.modContext (State.modDrive u d f) n g)
        = arriveAt d .awaiting (State.modDrive (u.modContext n g) d f) := fun _ _ _ _ => rfl
    split
    · split
      · rw [hctx]
        unfold arriveAt
        rw [modDrive_modDrive]
        refine Follows.changeDrive (fun hs => ?_) (h.modContext fun i => by rwa [takeBlock_state] at i)
        exact arrive_sane (by simp) rfl rfl (receive_ofEngine b (hs.2.2.2 _ ‹_›)) hs.2.1 hs.2.2.1
      · unfold arriveAt
        rw [modDrive_modDrive]
        exact h.changeDrive fun hs =>
          arrive_sane (by simp) rfl rfl (receive_ofEngine b (hs.2.2.2 _ ‹_›)) hs.2.1 hs.2.2.1
    · unfold arriveAt
      rw [modDrive_modDrive]
      exact h.changeDrive fun hs =>
        arrive_sane (by simp) rfl rfl (receive_ofEngine b (hs.2.2.2 _ ‹_›)) hs.2.1 hs.2.2.1

theorem Follows.startProbe {d : Nat} (h : Follows s t) : Follows s (startProbe d t) :=
  Follows.pushCommand (newEntry_ofEngine (by simp)) (h.modDrive fun x hx =>
    ⟨by simp [Drive.channelSane, Drive.resetChannel], hx.2.1, hx.2.2.1, fun c hc => by cases hc⟩)

theorem Follows.placeLabel {d : Nat} (h : Follows s t) : Follows s (placeLabel d t) :=
  h.pushCommand (newEntry_ofEngine (by simp))

/-! ### Locates -/

theorem cached_mem {n j : Nat} {e : CacheEntry} (h : t.cached n j = some e) : e ∈ t.loc.cache := List.mem_of_find?_eq_some h

theorem Follows.touchCache {e : CacheEntry} (he : e ∈ t.loc.cache) (h : Follows s t) : Follows s (touchCache e t) :=
  h.cacheTo fun hl => by
    have := List.length_erase_of_mem he
    have := List.length_pos_of_mem he
    simp only [List.length_cons]
    omega

theorem Follows.fillCache {n j : Nat} {es : List IndexEntry} (h : Follows s t) : Follows s (fillCache n j es t) := by
  unfold Machine.fillCache
  split
  · next e he => exact h.touchCache (cached_mem he)
  · refine h.cacheTo fun _ => ?_
    simp [Config.cacheLimit]

theorem Follows.placeLocateRead {c n : Nat} (h : Follows s t) : Follows s (placeLocateRead c n t) := by
  unfold Machine.placeLocateRead
  split
  · exact h
  · exact (h.pushCommand (newEntry_ofEngine (by simp))).modContext id

theorem Follows.oweLocateRead {c : Nat} (h : Follows s t) : Follows s (oweLocateRead c t) := by
  unfold Machine.oweLocateRead
  dsimp only
  split
  · split <;> first | exact h.placeLocateRead | exact h
  · exact h

theorem Follows.entryFound {c : Nat} {e : IndexEntry} (h : Follows s t) : Follows s (entryFound c e t) :=
  Follows.oweLocateRead (h.modContext id)

theorem Follows.useSlot {c : Nat} {es : List IndexEntry} (h : Follows s t) : Follows s (useSlot c es t) := by
  unfold Machine.useSlot
  dsimp only
  split
  · split
    · exact h.entryFound
    · exact h.endContext
  · exact h

theorem Follows.locateEntry {c : Nat} (h : Follows s t) : Follows s (locateEntry c t) := by
  unfold Machine.locateEntry
  dsimp only
  split
  · split
    · exact h.entryFound
    · split
      · next e he =>
        refine (h.touchCache ?_).useSlot
        split at he
        · exact cached_mem he
        · cases he
      · exact Follows.oweLocateRead (h.modContext id)
  · exact h

theorem Follows.beginLocate {c : Nat} (hl : (t.context c).state.live = true) (h : Follows s t) :
    Follows s (beginLocate c t) := Follows.locateEntry (h.modContext fun _ => hl)

theorem Follows.attachContext {d c : Nat} (h : Follows s t) : Follows s (attachContext d c t) := by
  unfold Machine.attachContext
  dsimp only
  have h1 : Follows s ((t.modDrive d fun x => { x with attached := x.attached ++ [c] }).modContext c
      fun x => { x with parked := false }) := Follows.modContext id (h.modDrive fun _ hx => hx)
  split
  · next hs => exact h1.beginLocate (by rw [hs]; rfl)
  · split
    · exact h1.locateEntry
    · exact h1.oweLocateRead
  · exact h1

theorem Follows.handDirectory {c : Nat} {dir : Directory} (hl : (t.context c).state.live = true) (h : Follows s t) :
    Follows s (handDirectory c dir t) := by
  unfold Machine.handDirectory
  split
  · exact Follows.endContext (h.modContext id)
  · exact h.modContext fun _ => hl

theorem Follows.indexReadOk {c : Nat} {l : Locate} {b : Sector} (h : Follows s t) : Follows s (indexReadOk c l b t) := by
  unfold Machine.indexReadOk
  dsimp only
  split
  · exact h.fillCache.useSlot
  · exact h.useSlot

theorem Follows.directoryReadOk {c : Nat} {l : Locate} {b : Sector} (hl : (t.context c).state.live = true)
    (h : Follows s t) : Follows s (directoryReadOk c l b t) := by
  unfold Machine.directoryReadOk
  split
  · split
    · exact h.handDirectory hl
    · exact h.endContext
  · exact h.endContext

theorem Follows.locateResult {c : Nat} {res : DriveResult} {got : List Sector} (h : Follows s t) :
    Follows s (locateResult c res got t) := by
  unfold Machine.locateResult
  dsimp only
  have h1 := h.modContext (c := c) (f := fun x => { x with read := .none, filling := 0 }) id
  split
  · next hs _ =>
    split
    · exact h1.indexReadOk
    · exact h1.directoryReadOk (by rw [hs]; rfl)
    · exact h1
  · exact h1.endContext
  · exact h1

theorem Follows.pageResult {c : Nat} {res : DriveResult} (h : Follows s t) : Follows s (pageResult c res t) := by
  unfold Machine.pageResult
  dsimp only
  split
  · exact h.modContext id
  · exact Follows.endContext (h.modContext id)

end Sys2Proof.Machine
end

