-- ==== Sys2Proof/Laws/FollowsFiling.lean ====
section
/-! SUPPORT. `Follows` for the filing engine. -/

namespace Sys2Proof.Machine

variable {s t : State}

/-! ### Passes and holds -/

theorem Follows.queuePass {p : Pass} (h : Follows s t) : Follows s (queuePass p t) := by
  unfold Machine.queuePass
  split
  · exact Follows.filingLost (h.unwatched rfl)
  · exact Follows.pushCommand (newEntry_ofEngine (by simp)) (h.unwatched rfl)

theorem Follows.placePass {n : Nat} (h : Follows s t) : Follows s (placePass n t) := by
  unfold Machine.placePass
  split
  · exact h
  · split
    · exact h.unwatched rfl
    · exact h.queuePass

theorem Follows.dropPasses (h : Follows s t) : Follows s (dropPasses t) := h.mapDrives fun _ hx => filter_sane hx

theorem Follows.placeMarker {n : Nat} {w : MountFor} (h : Follows s t) : Follows s (placeMarker n w t) := by
  unfold Machine.placeMarker
  dsimp only
  split
  · cases w
    case walk => exact h.unwatched rfl
    case opening => exact Follows.callReadiness (h.unwatched rfl)
    all_goals exact h.setHalt
  · cases w
    case walk => exact h.unwatched rfl
    case opening => exact Follows.callReadiness (h.unwatched rfl)
    all_goals exact h.setHalt
  · exact Follows.modDrive (fun _ hx => hx) (h.unwatched rfl)
  · exact Follows.reprioritise (Follows.modOrder (h.unwatched rfl))
  · exact Follows.newMount (h.unwatched rfl)

theorem Follows.withMount {n : Nat} {w : MountFor} {go : State → State}
    (hg : ∀ d, Follows s (go (Machine.withdrawIdle d t))) (h : Follows s t) : Follows s (withMount n w go t) := by
  unfold Machine.withMount
  split
  · exact hg _
  · exact h.placeMarker

theorem sideMark {f : SideRecord → Nat} (hf : ∀ r, r.dataHigh ≤ f r) :
    SideChange fun r => { r with dataHigh := f r } :=
  sideKeeps fun r => ⟨rfl, rfl, rfl, rfl, hf r, le_refl _⟩

theorem Follows.startAttempt {f n : Nat} (hf : f ∈ t.fil.queue) (h : Follows s t) : Follows s (startAttempt f n t) := by
  unfold Machine.startAttempt
  split
  · exact h
  · dsimp only
    refine Follows.placePass (Follows.unwatched (t := (t.modFiling f _).modSide n _) ?_ rfl)
    exact Follows.modSide (sideMark fun _ => Nat.le_add_right_of_le (Nat.le_add_right _ _))
      (Follows.modFiling (fun i => .inr ⟨rfl, (i.used f).1 hf⟩) h)

theorem Follows.startFlush {a : Activity} {n : Nat} (h : Follows s t) : Follows s (startFlush a n t) := by
  unfold Machine.startFlush
  split
  · exact h
  · exact Follows.placePass (h.unwatched rfl)

theorem Follows.startLabel {n : Nat} (h : Follows s t) : Follows s (startLabel n t) := by
  unfold Machine.startLabel
  split
  · exact h
  · exact Follows.placePass (h.unwatched rfl)

/-! ### Closing and the readiness test -/

theorem Follows.modRange {n : Nat} {f : RangeEntry → RangeEntry} (h : Follows s t) : Follows s (t.modRange n f) :=
  h.unwatched rfl

theorem Follows.modOpenRange {f : RangeEntry → RangeEntry} (h : Follows s t) : Follows s (t.modOpenRange f) :=
  h.unwatched rfl

/-- A call of the arbiter in one of two cases. -/
theorem Follows.callArbiterWhen {b : Bool} (h : Follows s t) : Follows s (if b then t.callArbiter else t) := by
  split
  · exact h.callArbiter
  · exact h

theorem Follows.callArbiterUnless {b : Bool} (h : Follows s t) : Follows s (if b then t else t.callArbiter) := by
  split
  · exact h
  · exact h.callArbiter

theorem Follows.finishClose {n : Nat} {o : SideState} (h : Follows s t) : Follows s (finishClose n o t) := by
  unfold Machine.finishClose
  dsimp only
  have h1 := h.modSide (n := n) (f := fun r => { r with state := o })
    (sideSame fun _ => ⟨rfl, rfl, rfl, rfl, rfl, rfl⟩)
  refine Follows.callArbiterWhen (Follows.leaveSequence ?_)
  split
  · exact Follows.unwatched (Follows.modOpenRange h1) rfl
  · exact Follows.unwatched (Follows.modOpenRange h1.raise) rfl

theorem Follows.continueClose {o : SideState} (h : Follows s t) : Follows s (continueClose o t).1 := by
  unfold Machine.continueClose
  split
  · exact h.unwatched rfl
  · split
    · exact h.finishClose
    · exact h.withMount fun d => h.withdrawIdle.startFlush

theorem Follows.chooseSide (h : Follows s t) : Follows s (chooseSide t) := by
  unfold Machine.chooseSide
  split
  · exact h.setHalt
  · split
    · exact h.setHalt
    · next n _ =>
      have h1 : Follows s { t with fil.opening := some n } := h.unwatched rfl
      exact h1.withMount fun d => h1.withdrawIdle.startLabel

theorem Follows.serveHead {f : Nat} (hf : f ∈ t.fil.queue) (h : Follows s t) : Follows s (serveHead f t).1 := by
  unfold Machine.serveHead
  split
  · exact h.setHalt
  · split
    · exact h.setHalt
    · split
      · exact h.chooseSide
      · split
        · exact h
        · split
          · exact h.withMount fun d => h.withdrawIdle.startAttempt hf
          · exact h.unwatched rfl

theorem Follows.serveSide (h : Follows s t) : Follows s (serveSide t).1 := by
  have hh : Follows s (match t.fil.queue.head? with
      | none => (t, false)
      | some f => Machine.serveHead f t).1 := by
    split
    · exact h
    · next hq => exact h.serveHead (List.mem_of_mem_head? hq)
  unfold Machine.serveSide
  extract_lets head
  have hh' : Follows s head.1 := hh
  split
  · exact hh'
  · split
    · exact h.setHalt
    · split
      · exact h.unwatched rfl
      · split
        · exact h.withMount fun d => h.withdrawIdle.startFlush
        · exact hh'

theorem Follows.readinessTest {n : Nat} (h : Follows s t) : Follows s (readinessTest n t) := by
  induction n generalizing t with
  | zero => exact h
  | succ n ih =>
    have h1 : Follows s (readinessOnce t).1 := by
      unfold readinessOnce
      split
      · exact h.continueClose
      · exact h.serveSide
    unfold Machine.readinessTest
    split
    · exact ih h1
    · exact h1

theorem Follows.runReadiness (h : Follows s t) : Follows s (runReadiness t) := by
  unfold Machine.runReadiness
  split
  · dsimp only
    have h1 : Follows s { t with todo.readiness := false } := h.unwatched rfl
    split
    · exact h1
    · split
      · exact h.unwatched rfl
      · split
        · split
          · exact h1
          · exact h1.continueClose
        · split
          · exact h1
          · exact h1.readinessTest
  · exact h

theorem Follows.engineMounted (h : Follows s t) : Follows s (engineMounted t) := by
  unfold Machine.engineMounted
  dsimp only
  split
  · exact h
  · exact h.unwatched rfl
  · split
    · exact Follows.callReadiness (h.unwatched rfl)
    · exact Follows.startLabel (h.unwatched rfl)
  all_goals exact Follows.callReadiness (h.unwatched rfl)

/-! ### Results of passes -/

theorem Follows.buildTrailer {f : Nat} (h : Follows s t) : Follows s (buildTrailer f t) :=
  Follows.unwatched (t := t.modFiling f _) (h.modFiling fun _ => .inl rfl) rfl

/-- The commit: the FILED takes the place that the filing gives up. -/
theorem Follows.commit {f n : Nat} (hf : f ∈ t.fil.queue) (h : Follows s t) : Follows s (commit f n t) := by
  refine h.trans ?_
  unfold Machine.commit
  split
  · exact .refl t
  · dsimp only
    refine Follows.unwatched (t := Machine.freeFiling f _) ?_ rfl
    refine freeFiling_spec ((Follows.unwatched (Follows.refl t) ?_).toBasic.trans (Basic.compose _ _ _ _)) fun i => ?_
    · rfl
    · refine ⟨tidy_compose ⟨i.ctx, i.records, i.apart, i.used⟩, ?_, i.inUse hf⟩
      rw [reservations_compose]
      exact le_refl _

theorem Follows.afterCommit {n : Nat} (h : Follows s t) : Follows s (afterCommit n t) := by
  unfold Machine.afterCommit
  split
  · exact h.startFlush
  · exact h.endSequence.callReadiness

theorem Follows.attemptFailed {f : Nat} (hf : f ∈ t.fil.queue) (h : Follows s t) : Follows s (attemptFailed f t) := by
  unfold Machine.attemptFailed
  extract_lets s1
  have h1 : Follows s s1 := Follows.modFiling (fun _ => .inl rfl) h.spoilExtent
  have hq : f ∈ s1.fil.queue := by
    show f ∈ (Machine.spoilExtent f t).fil.queue
    rwa [spoilExtent_queue]
  split
  · refine Follows.callReadiness (Follows.callArbiterUnless (Follows.leaveSequence
      (Follows.unwatched (t := Machine.discardFiling f .writeFailed s1) ?_ rfl)))
    exact h1.discardFiling fun i => i.inUse hq
  · exact h1.leaveSequence.callReadiness

theorem Follows.attemptStopped {f : Nat} (hf : f ∈ t.fil.queue) (h : Follows s t) : Follows s (attemptStopped f t) := by
  refine Follows.callReadiness (Follows.endSequence (Follows.discardFiling (fun i => i.inUse ?_) h.spoilExtent))
  rwa [spoilExtent_queue]

theorem Follows.attemptOk {f : Nat} {p : Pass} (hf : f ∈ t.fil.queue) (h : Follows s t) : Follows s (attemptOk f p t) := by
  unfold Machine.attemptOk
  split
  · exact h
  · split
    · exact (h.commit hf).afterCommit
    · split
      · exact h.attemptStopped hf
      · split
        · exact h.buildTrailer.placePass
        · exact h.placePass

theorem sideWritten : SideChange fun r => { r with written := r.written + 1 } :=
  sideKeeps fun _ => ⟨rfl, rfl, rfl, rfl, le_refl _, Nat.le_succ _⟩

theorem Follows.indexWritten {n : Nat} (h : Follows s t) : Follows s (indexWritten n t) := by
  unfold Machine.indexWritten
  split
  · exact h
  · dsimp only
    exact Follows.fillCache (Follows.unwatched (t := t.modSide n _) (h.modSide sideWritten) rfl)

theorem Follows.flushOk {n : Nat} (h : Follows s t) : Follows s (flushOk n t) := by
  unfold Machine.flushOk
  dsimp only
  split
  · split
    · exact h.indexWritten.finishClose.callReadiness
    · exact h.indexWritten.startFlush
  · exact h.indexWritten.endSequence.callReadiness

theorem Follows.flushFailed {n : Nat} (h : Follows s t) : Follows s (flushFailed n t) := by
  unfold Machine.flushFailed
  dsimp only
  split
  · exact h.giveUpIndex.endSequence.callReadiness
  · exact h.giveUpIndex.placePass

theorem Follows.openingOk {n : Nat} (h : Follows s t) : Follows s (openingOk n t) := by
  unfold Machine.openingOk
  dsimp only
  have h1 := h.modSide (n := n) (f := fun r => { r with state := .opened, dataHigh := max 1 r.dataHigh })
    (sideKeeps fun _ => ⟨rfl, rfl, rfl, rfl, le_max_right _ _, le_refl _⟩)
  refine Follows.callReadiness (Follows.endSequence ?_)
  split
  · exact Follows.unwatched h1 rfl
  · exact Follows.unwatched h1.raise rfl

theorem Follows.openingFailed {n : Nat} (h : Follows s t) : Follows s (openingFailed n t) := by
  unfold Machine.openingFailed
  dsimp only
  have h1 := h.modSide (n := n) (f := fun r => { r with state := .suspect })
    (sideSame fun _ => ⟨rfl, rfl, rfl, rfl, rfl, rfl⟩)
  exact Follows.callReadiness (Follows.endSequence (h1.unwatched rfl))

theorem Follows.seriesOk {p : Pass} {done : State → State} (hd : Follows s (done t)) (h : Follows s t) :
    Follows s (seriesOk p done t) := by
  unfold Machine.seriesOk
  split
  · exact hd
  · exact h.placePass

theorem Follows.passResult {res : DriveResult} (h : Follows s t) : Follows s (passResult res t) := by
  unfold Machine.passResult
  split
  · exact h
  · split
    · next hq =>
      have hf := List.mem_of_mem_head? hq
      split
      · split
        · exact h.attemptStopped hf
        · exact h.placePass
      · split
        · exact h.attemptOk hf
        · split
          · exact h.attemptStopped hf
          · exact h.attemptFailed hf
    · split
      · exact h.placePass
      · split
        · exact Follows.seriesOk h.flushOk h
        · exact h.flushFailed
    · split
      · exact h.placePass
      · split
        · exact Follows.seriesOk h.flushOk h
        · exact h.flushFailed
    · split
      · exact h.placePass
      · split
        · exact Follows.seriesOk h.openingOk h
        · exact h.openingFailed
    · exact h

/-! ### Ending the filing work -/

theorem Follows.stopFiling (h : Follows s t) : Follows s (stopFiling t) := by
  unfold Machine.stopFiling
  extract_lets kept s1 doomed
  have h1 : Follows s s1 := by
    simp only [s1]
    split
    · split
      · exact h
      · exact h.dropPasses.spoilExtent.endSequence
    · exact h
  refine Follows.callReadiness (Follows.withdrawMarker (Follows.discardAll (cause := State.stopCause) doomed ?_ ?_ h1))
  · exact List.nodup_range.filter _
  · intro f hf
    have := (List.mem_filter.1 hf).2
    simp at this
    exact this.1

theorem Follows.markerIfNeeded (h : Follows s t) : Follows s (markerIfNeeded t) := by
  unfold Machine.markerIfNeeded
  split
  · exact h.withdrawMarker
  · exact h

end Sys2Proof.Machine
end

