-- ==== Sys2Proof/Laws/FollowsPicker.lean ====
section
/-! SUPPORT. `Follows` for the arbiter, the picker, service states, the recovery, results and what follows an event. -/

namespace Sys2Proof.Machine

variable {s t : State}

/-! ### The arbiter -/

theorem Follows.sendHome {d : Nat} (h : Follows s t) : Follows s (sendHome d t) :=
  Follows.pushCommand (newEntry_ofEngine (by simp)) (h.modDrive fun _ hx => hx)

theorem Follows.preempt {d : Nat} {b : Bool} (h : Follows s t) : Follows s (preempt d b t) := by
  unfold Machine.preempt
  split
  · exact h.parkAll.newMount
  · exact h

theorem Follows.setMotion {m : Motion} {n : Option Motion} (h : Follows s t) : Follows s (setMotion m n t) :=
  h.modPicker fun _ => by simp [Picker.sane]

theorem Follows.markGrant {o : Order} {d : Nat} (h : Follows s t) : Follows s (markGrant o d t) :=
  Follows.withdrawIdle (h.modOrder.modDrive fun _ hx => hx)

theorem Follows.clearWork {d : Nat} (h : Follows s t) : Follows s (clearWork d t) := by
  have h1 : Follows s ((Machine.preempt d false t).modDrive d fun x => { x with queue := x.queue.filter QueueEntry.ofLibrary }) :=
    h.preempt.modDrive fun _ hx => filter_sane hx
  unfold Machine.clearWork
  dsimp only
  generalize (Machine.preempt d false t).modDrive d _ = s1 at h1 ⊢
  split <;> split
  · exact Follows.filingLost (h1.unwatched rfl)
  · exact h1.filingLost
  · exact h1.unwatched rfl
  · exact h1

theorem Follows.grant {o : Order} {d : Nat} (h : Follows s t) : Follows s (grant o d t) := by
  unfold Machine.grant
  split
  · unfold grantMount
    dsimp only
    split
    · exact h.markGrant.setMotion
    · split
      · exact h.markGrant.preempt.setMotion.sendHome
      · exact h.markGrant.preempt.setMotion.sendHome
  · exact h.markGrant.clearWork.setMotion.sendHome

theorem Follows.arbitrate (h : Follows s t) : Follows s (arbitrate t) := by
  unfold Machine.arbitrate
  split
  · exact h
  · split
    · exact h
    · exact h.grant

theorem Follows.pickerStep (h : Follows s t) : Follows s (pickerStep t) := by
  unfold Machine.pickerStep
  dsimp only
  have h1 : Follows s { t with todo.arbiter := false } := h.unwatched rfl
  split
  · exact h1
  · split
    · exact h1.setMotion.modPicker id
    · split
      · exact h1.arbitrate
      · exact h1

/-! ### The picker -/

theorem Follows.restIn {d : Nat} (h : Follows s t) : Follows s (restIn d t) := by
  unfold Machine.restIn
  split
  · exact h.callArbiter
  · exact Follows.callArbiter (h.unwatched rfl)

theorem Follows.restHome {c : Nat} (h : Follows s t) : Follows s (restHome c t) := h.unwatched rfl

theorem Follows.park (h : Follows s t) : Follows s (park t) :=
  Follows.callArbiter (h.modPicker fun _ => by simp [Picker.sane])

theorem Follows.answerPicker (h : Follows s t) : Follows s (answerPicker t) := h.answerLate

theorem Follows.answerFault (h : Follows s t) : Follows s (answerFault t) := h.answerLate

theorem Follows.settleServed {m : Motion} {b : Bool} (h : Follows s t) : Follows s (settleServed m b t) := by
  unfold Machine.settleServed
  split
  · exact h
  · split
    · exact h
    · split
      · split
        · exact h.modOrder
        · exact h.dropOrder
      · split
        · exact h.removeOrder
        · exact h.modOrder

theorem Follows.sendUnloading {o : Option Nat} (h : Follows s t) : Follows s (sendUnloading o t) :=
  h.fold _ (fun t _ => (Follows.refl t).newUnmount) _

theorem Follows.pickerFaulted (h : Follows s t) : Follows s (pickerFaulted t) := by
  unfold Machine.pickerFaulted
  extract_lets p s1 s2 s3 s4 s5 s6 s7 m s8
  have h1 : Follows s s1 := h.modPicker fun _ => by simp [Picker.sane, Picker.failed]
  have h2 : Follows s s2 := by
    simp only [s2]
    split
    · exact h1
    · exact h1.turnStuck
  have h3 : Follows s s3 := by
    simp only [s3]
    split
    · exact h2
    · exact h2.settleServed
  have h5 : Follows s s5 := h3.sendUnloading.endContexts.dropAbandoned
  have h6 : Follows s s6 := h5.fold _ (fun t d => by
    split
    · exact (Follows.refl t).restIn
    · exact .refl t) _
  have h7 : Follows s s7 := h6.raise
  clear_value s7
  have h8 : Follows s s8 := by
    simp only [s8]
    split
    · exact h7.unwatched rfl
    · exact h7
  exact h8.answerPicker.answerFault

theorem Follows.taken {m : Motion} (h : Follows s t) : Follows s (taken m t) := by
  unfold Machine.taken
  split
  · exact h
  · exact Follows.locate (h.modPicker id)

theorem Follows.foundEmpty {c : Nat} (h : Follows s t) : Follows s (foundEmpty c t) :=
  Follows.fold _ (fun t _ => (Follows.refl t).turnMissing) _ (h.modPicker id)

theorem Follows.slotEmpty {m : Motion} (h : Follows s t) : Follows s (slotEmpty m t) := by
  unfold Machine.slotEmpty
  extract_lets s1
  have h1 : Follows s s1 := by
    simp only [s1]
    split
    · exact h.park
    · exact h.park.foundEmpty
  split
  · exact h1
  · exact h1.dropOrder

theorem Follows.dismissIncoming {d : Nat} (h : Follows s t) : Follows s (dismissIncoming d t) := by
  unfold Machine.dismissIncoming
  dsimp only
  have h1 := Follows.endContexts (cs := (t.drive d).incoming) (o := .unavailable)
    (Follows.modDrive (d := d) (f := fun x => { x with incoming := [], incomingMarker := false }) (fun _ hx => hx) h)
  split
  · exact h1.returnMarker
  · exact h1

theorem Follows.placedHome {m : Motion} (h : Follows s t) : Follows s (placedHome m t) := by
  unfold Machine.placedHome
  split
  · exact h
  · next c _ =>
    dsimp only
    have h1 : Follows s (Machine.restHome c ((t.modPicker fun p => { p with held := none }).locate c .home)) :=
      Follows.restHome (Follows.locate (h.modPicker id))
    split
    · exact Follows.returnCartridge (h1.unwatched rfl)
    · exact h1.unwatched rfl
    · exact h1

theorem Follows.toChecking {d : Nat} (h : Follows s t) : Follows s (toChecking d t) := by
  unfold Machine.toChecking
  split
  · exact Follows.placeLabel (Follows.restIn (h.modDrive fun _ hx => hx))
  · exact h.restIn

theorem Follows.nextMotion (h : Follows s t) : Follows s (nextMotion t) := by
  unfold Machine.nextMotion
  split
  · exact h.park
  · exact h.setMotion

theorem Follows.motionDone {m : Motion} (h : Follows s t) : Follows s (motionDone m t) := by
  unfold Machine.motionDone
  split
  · split
    · exact h.nextMotion
    · exact h.toChecking.nextMotion
  · split
    · exact h.nextMotion
    · exact h.toChecking.nextMotion
  · exact h.nextMotion
  · unfold inventoryDone
    dsimp only
    split
    · exact Follows.answerFault (h.park.unwatched rfl)
    · exact h.park
  · exact Follows.answerPicker (Follows.park (h.fold _ (fun t d => by
      split
      · exact (Follows.refl t).toChecking
      · exact .refl t) _))

theorem Follows.takeOccupancy {l : List SlotFinding} {m : Motion} (h : Follows s t) : Follows s (takeOccupancy l m t) :=
  h.modPicker id

theorem Follows.pickerReportsFault (h : Follows s t) : Follows s (pickerReportsFault t) := by
  unfold Machine.pickerReportsFault
  split
  · exact h
  · exact h.pickerFaulted

theorem Follows.ejectReady {d : Nat} (h : Follows s t) : Follows s (ejectReady d t) := by
  unfold Machine.ejectReady
  refine Follows.modDrive (fun _ hx => filter_sane hx) (h.modPicker fun hp => ?_)
  focus
    simp only [Picker.sane, Option.isSome_map] at hp ⊢
    exact hp

theorem Follows.startHome (h : Follows s t) : Follows s (startHome t) := h.setMotion

/-! ### Service states -/

/-- A change of service state that can follow from work coming to its end. -/
theorem Follows.changeService {n : Service} {c : ChangeCause} (hs : serviceFollows t.mu.service n) (h : Follows s t) :
    Follows s (changeService n c t) :=
  Follows.raise (h.trans { Basic.refl t with
    service := hs
    reserve := fun i => ⟨⟨i.ctx, i.records, i.apart, i.used⟩, le_refl _⟩ })

theorem Follows.standbyEntry (h : Follows s t) : Follows s (standbyEntry t) := by
  unfold Machine.standbyEntry
  dsimp only
  refine Follows.fold _ (fun t _ => (Follows.refl t).newUnmount) _ ?_
  exact Follows.unwatched (t := { t with loc.cache := [] }) (h.cacheTo fun _ => by simp) rfl

theorem Follows.enterStandby {c : ChangeCause}
    (hs : t.mu.service = .startup ∨ t.mu.service = .opening ∨ t.mu.service = .draining) (h : Follows s t) :
    Follows s (enterStandby c t) :=
  Follows.standbyEntry (Follows.changeService (.inr (.inl ⟨rfl, hs⟩)) (h.unwatched rfl))

theorem Follows.answerState (h : Follows s t) : Follows s (answerState t) := h.answerLate

theorem Follows.answerRestart (h : Follows s t) : Follows s (answerRestart t) := h.answerLate

theorem Follows.drainEnd (h : Follows s t) : Follows s (drainEnd t) := by
  unfold Machine.drainEnd
  split
  · next hd =>
    dsimp only
    refine Follows.answerRestart (Follows.answerState ?_)
    split
    · exact Follows.enterStandby (.inr (.inr hd.1)) (h.unwatched rfl)
    · exact h.enterStandby (.inr (.inr hd.1))
  · exact h

theorem Follows.startUpEnd (h : Follows s t) : Follows s (startUpEnd t) := by
  unfold Machine.startUpEnd
  split
  · next hs => exact h.enterStandby (.inl hs.1)
  · exact h

theorem Follows.endAllContexts {o : Ending} (h : Follows s t) : Follows s (endAllContexts o t) := h.endContexts

theorem Follows.abortWork (h : Follows s t) : Follows s (abortWork t) :=
  Follows.stopFiling (Follows.endAllContexts (h.unwatched rfl))

theorem Follows.restartLibrary (h : Follows s t) : Follows s (restartLibrary t) := by
  unfold Machine.restartLibrary
  refine Follows.unwatched (t := (({ t with drives := t.drives.map fun x =>
    { x with incoming := [], incomingMarker := false } } : State).modPicker fun p => { p with
      motion := p.motion.map fun m => { m with order := none, served := none }, second := none })) ?_ rfl
  refine Follows.modPicker (fun hp => ?_) (h.mapDrives fun _ hx => hx)
  simp only [Picker.sane, Option.isSome_map] at hp ⊢
  exact hp

theorem forgotten_ofEngine {e : QueueEntry} (h : e.ofEngine) : e.forgotten.ofEngine := by
  unfold QueueEntry.forgotten
  split
  · next hr => intro he; rw [h he] at hr; cases hr
  · exact h

theorem forgetWalk_sane {x : Drive} (h : x.sane) : x.forgetWalk.sane := by
  refine ⟨by simpa [Drive.channelSane, Drive.forgetWalk] using h.1, (filter_sane h).2.1, fun e he => ?_, fun c hc => ?_⟩
  · obtain ⟨e', h', rfl⟩ := Option.map_eq_some_iff.1 he
    exact forgotten_ofEngine (h.2.2.1 e' h')
  · obtain ⟨c', h', rfl⟩ := Option.map_eq_some_iff.1 hc
    exact forgotten_ofEngine (h.2.2.2 c' h')

theorem Follows.stopRecovery (h : Follows s t) : Follows s (stopRecovery t) := by
  unfold Machine.stopRecovery
  split
  · refine Follows.unwatched (t := ({ t with drives := t.drives.map Drive.forgetWalk } : State).modPicker fun p =>
      { p with inventoryOwed := t.mu.late.any (·.kind == .clearFault) }) ?_ rfl
    exact Follows.modPicker id (h.mapDrives fun _ hx => forgetWalk_sane hx)
  · exact h

theorem Follows.restartQueue {d : Nat} (h : Follows s t) : Follows s (restartQueue d t) :=
  h.changeDrive fun hx => ⟨hx.1, fun e he => by
    rcases List.mem_append.1 he with he | he
    · exact hx.2.1 e (List.mem_of_mem_filter he)
    · obtain ⟨e', h', rfl⟩ := List.mem_map.1 he
      exact hx.2.1 e' (List.mem_of_mem_filter h'), hx.2.2⟩

end Sys2Proof.Machine
end

