-- ==== Sys2Proof/Laws/FollowsSettle.lean ====
section
/-! SUPPORT. `Follows` for the recovery, the results of drive commands, and all that follows an event: `settle` and
`publish`. -/

namespace Sys2Proof.Machine

variable {s t : State}

@[simp] theorem raise_mu (d : NoticeDetails) : (raise_ d s).mu = s.mu := by
  unfold raise_; split
  · rfl
  · split <;> rfl

@[simp] theorem retestHalt_mu : (retestHalt s).mu = s.mu := by
  unfold retestHalt; split
  · rfl
  · split <;> rfl

@[simp] theorem fillCache_mu (n j : Nat) (es : List IndexEntry) : (fillCache n j es s).mu = s.mu := by
  unfold fillCache; split <;> rfl

/-! ### Entry to OPENING -/

theorem Follows.identify {d : Nat} (h : Follows s t) : Follows s (identify d t) := by
  unfold Machine.identify
  split
  · exact Follows.placeLabel (h.modDrive fun _ hx => hx)
  · exact h

/-- What the entry to OPENING brings about behind the change of state. -/
theorem Follows.beginIdentify (h : Follows s t) :
    Follows s ([0, 1, 2, 3].foldl (fun s d => Machine.identify d s)
      (t.modPicker fun p => { p with inventoryOwed := p.inventoryOwed || p.state != .fault })) :=
  Follows.fold _ (fun t _ => (Follows.refl t).identify) _ (h.modPicker id)

theorem disowned_sane (x : Drive) : x.disowned.sane := by
  simp [Drive.disowned, Drive.resetChannel, Drive.sane, Drive.channelSane]

theorem Follows.conflictDrive {d c : Nat} (h : Follows s t) : Follows s (conflictDrive d c t) := by
  unfold Machine.conflictDrive
  dsimp only
  split
  · exact Follows.labelFault (Follows.withdrawIdle (h.abandonMotion.modDrive fun x _ => disowned_sane x))
  · exact h

theorem Follows.slotConflict {d c : Nat} (h : Follows s t) : Follows s (slotConflict d c t) := by
  unfold Machine.slotConflict
  split
  · exact Follows.fold _ (fun t _ => (Follows.refl t).turnMismatch) _ h.conflictDrive
  · exact h

theorem Follows.findMissing (h : Follows s t) : Follows s (findMissing t) :=
  h.fold _ (fun t _ => (Follows.refl t).turnMissing) _

theorem Follows.applyFindings (h : Follows s t) : Follows s (applyFindings t) := by
  unfold Machine.applyFindings
  exact Follows.unwatched (Follows.findMissing (h.fold (fun s m => Machine.slotConflict m.1 m.2 s)
    (fun t _ => (Follows.refl t).slotConflict) t.recovery.matched)) rfl

/-! ### The end of the recovery -/

theorem Follows.recoveryNotice {f : RecoveryFinding} (h : Follows s t) : Follows s (recoveryNotice f t) := h.raise

theorem Follows.recoveryDone (ho : t.mu.service = .opening) (h : Follows s t) : Follows s (recoveryDone t) := by
  unfold Machine.recoveryDone
  extract_lets f1 s1 s2
  have h1 : Follows s s1 := by
    simp only [s1]
    split
    · exact h
    · exact h.unwatched rfl
  have e1 : s1.mu = t.mu := by
    simp only [s1]
    split <;> rfl
  have h2 : Follows s s2 := h1.retestHalt.recoveryNotice
  have e2 : s2.mu = t.mu := by simp [s2, Machine.recoveryNotice, e1]
  clear_value s2
  refine Follows.answerState (Follows.changeService (.inr (.inr ⟨rfl, ?_⟩)) (h2.unwatched rfl))
  show s2.mu.service = _
  rw [e2, ho]

theorem withdrawMarker_mu : (withdrawMarker s).mu = s.mu := by
  unfold withdrawMarker
  dsimp only
  have e : ∀ u : State, (reprioritise u).mu = u.mu := by
    intro u; unfold reprioritise; dsimp only; split <;> rfl
  split
  · exact e _
  · exact e _

theorem Follows.recoveryFound {f : RecoveryFinding} (ho : t.mu.service = .opening) (h : Follows s t) :
    Follows s (recoveryFound f t) := by
  unfold Machine.recoveryFound
  extract_lets m1 s1 f1 s2
  have h1 : Follows s s1 := Follows.recoveryNotice (h.unwatched rfl)
  have e1 : s1.mu.service = t.mu.service := by simp [s1, m1, Machine.recoveryNotice]
  clear_value s1
  have h2 : Follows s s2 := Follows.withdrawMarker
    (Follows.unwatched (t := { s1 with drives := s1.drives.map Drive.forgetWalk })
      (h1.mapDrives fun _ hx => forgetWalk_sane hx) rfl)
  refine Follows.answerState (Follows.enterStandby (.inr (.inl ?_)) h2)
  simp only [s2, withdrawMarker_mu]
  show s1.mu.service = _
  rw [e1, ho]

/-! ### The walk -/

theorem Follows.walkRead {n f : Nat} (h : Follows s t) : Follows s (walkRead n f t) := by
  unfold Machine.walkRead
  split
  · exact h.unwatched rfl
  · exact h.pushCommand (newEntry_ofEngine (by simp))

theorem Follows.modWalk {f : Walk → Walk} (h : Follows s t) : Follows s (modWalk f t) := h.unwatched rfl

theorem Follows.readIndexPosition {n : Nat} (h : Follows s t) : Follows s (readIndexPosition n t) := by
  unfold Machine.readIndexPosition
  split
  · exact h
  · exact h.modWalk.walkRead

theorem Follows.raiseLast {n l : Nat} (h : Follows s t) : Follows s (raiseLast n l t) := h.modRange

theorem Follows.sideWalked (h : Follows s t) : Follows s (sideWalked t) := h.unwatched rfl

theorem Follows.walkEnded {n k : Nat} {b : Bool} (ho : t.mu.service = .opening) (h : Follows s t) :
    Follows s (walkEnded n k b t) := by
  unfold Machine.walkEnded
  extract_lets r s1
  have h1 : Follows s s1 := by
    simp only [s1]
    split
    · exact h.raiseLast
    · exact h
  have e1 : s1.mu.service = .opening := by
    simp only [s1]
    split <;> exact ho
  split
  · exact Follows.recoveryFound e1 (h1.unwatched rfl)
  · exact h1.sideWalked

theorem Follows.endComplete {n p k : Nat} (ho : t.mu.service = .opening) (h : Follows s t) :
    Follows s (endComplete n p k t) := Follows.walkEnded ho (h.modSide (sideMark fun _ => le_max_right _ _))

theorem Follows.endBroken {n k : Nat} (ho : t.mu.service = .opening) (h : Follows s t) : Follows s (endBroken n k t) := by
  unfold Machine.endBroken
  split
  · exact Follows.callReadiness (Follows.modWalk (h.unwatched rfl))
  · exact Follows.walkEnded ho (h.modSide (sideMark fun _ => le_max_right _ _))

theorem Follows.walkPosition {n p k : Nat} (ho : t.mu.service = .opening) (h : Follows s t) :
    Follows s (walkPosition n p k t) := by
  unfold Machine.walkPosition
  split
  · exact h
  · split
    · exact h.endComplete ho
    · split
      · exact h.walkEnded ho
      · exact h.modWalk.walkRead

theorem Follows.startDirectories {n : Nat} (ho : t.mu.service = .opening) (h : Follows s t) :
    Follows s (startDirectories n t) := by
  unfold Machine.startDirectories
  split
  · exact h
  · split
    · exact h.walkPosition ho
    · exact h.modWalk.walkRead

theorem Follows.takeIndex {n : Nat} {es : List IndexEntry} (h : Follows s t) : Follows s (takeIndex n es t) := by
  unfold Machine.takeIndex
  split
  · exact h
  · exact Follows.fillCache (h.modSide sideWritten)

theorem Follows.endPartial {n u : Nat} (h : Follows s t) : Follows s (endPartial n u t) := by
  unfold Machine.endPartial
  split
  · exact h.raiseLast.finishClose.sideWalked
  · exact h.sideWalked

theorem Follows.indexUnusable {n : Nat} (ho : t.mu.service = .opening) (h : Follows s t) :
    Follows s (indexUnusable n t) := by
  unfold Machine.indexUnusable
  dsimp only
  split
  · exact (h.modSide sideSkip).readIndexPosition
  · exact Follows.startDirectories ho (h.modSide sideSkip)

theorem Follows.catchUpResult {n : Nat} {res : DriveResult} {got : List Sector} (ho : t.mu.service = .opening)
    (h : Follows s t) : Follows s (catchUpResult n res got t) := by
  unfold Machine.catchUpResult
  split
  · exact h.startDirectories ho
  · dsimp only
    split
    · exact h.indexUnusable ho
    · split
      · exact h.takeIndex.readIndexPosition
      · exact h.takeIndex.endPartial
  · exact h.indexUnusable ho

theorem Follows.startEntryResult {n : Nat} {res : DriveResult} {got : List Sector} (ho : t.mu.service = .opening)
    (h : Follows s t) : Follows s (startEntryResult n res got t) := by
  unfold Machine.startEntryResult
  split
  · exact h
  · dsimp only
    split
    · exact h.walkPosition ho
    · exact h.endBroken ho

theorem Follows.directoryResult {w : Walk} {res : DriveResult} {got : List Sector} (ho : t.mu.service = .opening)
    (h : Follows s t) : Follows s (directoryResult w res got t) := by
  unfold Machine.directoryResult
  split
  · exact h
  · exact h.endComplete ho
  · split
    · exact h.endBroken ho
    · exact h.modWalk.walkRead
  · exact h.endBroken ho

theorem Follows.addFound {w : Walk} {i b p : Nat} (ho : t.mu.service = .opening) (h : Follows s t) :
    Follows s (addFound w i b p t) := by
  unfold Machine.addFound
  split
  · exact h.recoveryFound ho
  · exact Follows.walkPosition ho (h.unwatched rfl)

theorem Follows.stepOver {w : Walk} {b : Nat} (ho : t.mu.service = .opening) (h : Follows s t) :
    Follows s (stepOver w b t) := by
  unfold Machine.stepOver
  dsimp only
  split
  · refine Follows.walkPosition ho (h.modSide fun r => ?_)
    exact ⟨rfl, List.prefix_refl _, by simp only; omega, id, le_refl _, le_refl _⟩
  · exact h.walkPosition ho

theorem Follows.trailerResult {w : Walk} {b p : Nat} {res : DriveResult} {got : List Sector}
    (ho : t.mu.service = .opening) (h : Follows s t) : Follows s (trailerResult w b p res got t) := by
  unfold Machine.trailerResult
  split
  · split
    · exact h.addFound ho
    · exact h.endBroken ho
  · exact h.stepOver ho

theorem Follows.walkResult {res : DriveResult} {got : List Sector} (h : Follows s t) :
    Follows s (walkResult res got t) := by
  unfold Machine.walkResult
  split
  · exact h
  · next ho =>
    have ho : t.mu.service = .opening := by simpa using ho
    split
    · exact h
    · split
      · exact h
      · exact h
      · exact h.catchUpResult ho
      · exact h.startEntryResult ho
      · exact h.directoryResult ho
      · exact h.trailerResult ho

theorem Follows.recoveryStep (h : Follows s t) : Follows s (recoveryStep t) := by
  unfold Machine.recoveryStep
  split
  · exact h
  · next ho =>
    have ho : t.mu.service = .opening := by simpa using ho
    split
    · exact h
    · split
      · exact h.applyFindings
      · exact h
    · next w _ _ _ =>
      unfold walkStep
      split
      · exact h.recoveryFound ho
      · split
        · split
          · exact h.readIndexPosition
          · exact h
        · split
          · exact Follows.walkEnded ho (h.modSide (sideMark fun _ => le_max_right _ _))
          · exact h
        all_goals exact h
    · exact h.recoveryDone ho
    · next n rest _ _ _ =>
      unfold beginWalk
      have h1 : Follows s { t with
          recovery.left := rest
          recovery.walk := some { side := n, phase := .mounting, p := 0, k := 0
                                  mark0 := ((t.side n).map (·.dataHigh)).getD 0 } } := h.unwatched rfl
      exact h1.withMount fun d => h1.withdrawIdle

/-! ### Results at their issuers -/

theorem Follows.enterReady {d : Nat} (h : Follows s t) : Follows s (enterReady d t) :=
  Follows.callArbiter (Follows.modDrive (fun _ hx => hx) (h.modDrive fun _ hx => hx))

theorem Follows.labelMatched {d : Nat} (h : Follows s t) : Follows s (labelMatched d t) := by
  unfold Machine.labelMatched
  extract_lets x clear s1 s2
  have hc : Follows s clear := h.modDrive fun _ hx => hx
  have h1 : Follows s s1 := by
    simp only [s1]
    split
    · exact hc.enterReady
    · exact hc.modDrive fun _ hx => hx
  have h2 : Follows s s2 := h1.fold (fun s c => Machine.attachContext d c s) (fun t _ => (Follows.refl t).attachContext) _
  split
  · exact h2.engineMounted
  · exact h2

theorem Follows.labelMismatched {d n : Nat} (h : Follows s t) : Follows s (labelMismatched d n t) :=
  h.labelFault.turnMismatch.dismissIncoming

theorem Follows.identifyEnd {d : Nat} {res : DriveResult} {got : List Sector} (h : Follows s t) :
    Follows s (identifyEnd d res got t) := by
  unfold Machine.identifyEnd
  split
  · exact Follows.callArbiter (h.modDrive fun _ hx => hx)
  · split
    · exact h.labelFault
    · extract_lets s1
      have h1 : Follows s s1 := Follows.locate (h.modDrive fun _ hx => hx)
      clear_value s1
      exact Follows.enterReady (h1.unwatched rfl)

theorem Follows.labelEnd {d : Nat} {res : DriveResult} {got : List Sector} (h : Follows s t) :
    Follows s (labelEnd d res got t) := by
  unfold Machine.labelEnd
  split
  · exact h
  · split
    · exact h.identifyEnd
    · split
      · exact h.labelMatched
      · exact h.labelMismatched

theorem Follows.settleDrive {d : Nat} {st : DriveState} (h : Follows s t) : Follows s (settleDrive d st t) :=
  h.modDrive fun _ hx => hx

theorem Follows.probeEnd {d : Nat} {res : DriveResult} {got : List Sector} (h : Follows s t) :
    Follows s (probeEnd d res got t) := by
  unfold Machine.probeEnd
  split
  · split
    · exact h.driveFault.answerRetry
    · split
      · exact Follows.answerRetry (Follows.returnCartridge (Follows.enterReady (h.modDrive fun _ hx => hx)))
      · exact h.turnMismatch.returnCartridge.labelFault.answerRetry
  · split
    · exact h.settleDrive.callArbiter.answerRetry
    · exact h.settleDrive.answerRetry

theorem ended_sane {x : Drive} (h : x.sane) : x.ended.sane :=
  ⟨by simp [Drive.ended, Drive.channelSane], h.2.1, h.2.2.1, fun c hc => by cases hc⟩

/-- A command taken up again is the same kind of command of the same issuer. -/
theorem handleResult_ofEngine {e e' : QueueEntry} {b : Bool} {res : DriveResult} (h : handleResult e b res = .again e')
    (he : e.ofEngine) : e'.ofEngine := by
  unfold handleResult at h
  split at h <;> (try split at h) <;> first | (cases h; exact he) | cases h

theorem Follows.resultTaken {d : Nat} {res : DriveResult} (h : Follows s t) : Follows s (resultTaken d res t) := by
  unfold Machine.resultTaken
  split
  · exact h
  · next c _ =>
    split
    · next ha => exact h.changeDrive fun hx => ⟨(ended_sane hx).1, hx.2.1, fun e he => by
        cases he; exact handleResult_ofEngine ha (hx.2.2.2 _ ‹_›), fun c hc => by cases hc⟩
    · exact h.driveFault
    · have h1 : Follows s (t.modDrive d Drive.ended) := h.modDrive fun x hx => ended_sane hx
      unfold deliver
      split
      · exact h1.pageResult
      · exact h1.locateResult
      · exact h1.walkResult
      · exact h1
      · exact h1.passResult
      · unfold libraryResult
        split
        · split
          · exact h1.ejectReady
          · exact h1.driveFault
        · exact h1.labelEnd
      · exact h1.probeEnd

/-! ### All that follows an event -/

theorem Follows.serveContext {c : Nat} (h : Follows s t) : Follows s (serveContext c t) := by
  unfold Machine.serveContext
  split
  · exact h
  · refine Follows.freeContext (Follows.placePageRead ?_)
    unfold withdrawParked
    dsimp only
    split
    · exact h.leaveOrders
    · exact h

theorem Follows.driveWork {d : Nat} (h : Follows s t) : Follows s (driveWork d t) := by
  unfold Machine.driveWork
  dsimp only
  split
  · exact Follows.withdrawIdle (h.modDrive fun _ hx => hx)
  · exact h.enterReady
  · split
    · exact h.modDrive fun _ hx => hx
    · exact h
  · exact h

theorem Follows.consequences (h : Follows s t) : Follows s (consequences t) := by
  unfold Machine.consequences
  extract_lets s1 s2 s3 s4
  have h1 : Follows s s1 := h.runReadiness.recoveryStep
  have h2 : Follows s s2 := h1.fold (fun s c => Machine.serveContext c s) (fun t _ => (Follows.refl t).serveContext) _
  have h3 : Follows s s3 := h2.startUpEnd.drainEnd
  have h4 : Follows s s4 := h3.fold (fun s d => Machine.driveWork d s) (fun t _ => (Follows.refl t).driveWork) _
  exact h4.pickerStep.dispatchAll.transmit

/-- What follows an event. -/
theorem Follows.settle (h : Follows s t) : Follows s (settle t) :=
  h.consequences.consequences.consequences.consequences.consequences.consequences

/-- What follows the composing of a frame. -/
theorem Follows.publish (h : Follows s t) : Follows s (publish t) := by
  unfold Machine.publish
  split
  · exact h.settle
  · exact h.transmit

end Sys2Proof.Machine
end

