-- ==== Sys2Proof/Laws/Commands.lean ====
section
/-! SUPPORT. What handing on, the checks of a management request, a picker event and the publishing of a frame can do, and
that an orderly state stays orderly by what follows an event. -/

namespace Sys2Proof.Machine

variable {s t : State}

/-! ### Handing on -/

theorem handOn_taken {i : Instr} {act : State → State} (h : s.handsOn) : handOn i act s = act s := by
  unfold handOn
  rw [h.1]
  simp [h.2]

theorem handOn_oldest {i : Instr} {act : State → State} {qs : List Request} (h : s.rli.inbound = .known i :: qs)
    (hr : s.reservations < Config.controlLimit) : handOn i act s = act { s with rli.inbound := qs } := by
  unfold handOn
  rw [h]
  simp [hr]

/-- Handing on gives the request to its block, with or without taking it from the inbound buffer, or leaves it in the
buffer, which takes in at most the request. -/
theorem handOn_cases (i : Instr) (act : State → State) (s : State) :
    (s.rli.inbound = [] ∧ s.reservations < Config.controlLimit ∧ handOn i act s = act s)
      ∨ (∃ qs, s.rli.inbound = .known i :: qs ∧ s.reservations < Config.controlLimit
          ∧ handOn i act s = act { s with rli.inbound := qs })
      ∨ (∃ l, handOn i act s = { s with rli.inbound := l }
          ∧ (s.rli.inbound.length ≤ Config.inboundLimit → l.length ≤ Config.inboundLimit)) := by
  unfold handOn
  split
  · next e =>
    split
    · next hr => exact .inl ⟨e, hr, rfl⟩
    · exact .inr (.inr ⟨_, rfl, fun _ => by simp [Config.inboundLimit]⟩)
  · next q qs e =>
    split
    · next hq =>
      subst hq
      split
      · next hr => exact .inr (.inl ⟨qs, e, hr, rfl⟩)
      · exact .inr (.inr ⟨s.rli.inbound, rfl, id⟩)
    · split
      · next hl => exact .inr (.inr ⟨_, rfl, fun _ => by simp [Config.inboundLimit] at hl ⊢; omega⟩)
      · exact .inr (.inr ⟨s.rli.inbound, rfl, id⟩)

/-! ### Management requests -/

theorem manage_admitted {r g code : Nat} {act : State → State} (h : s.admits r g code) (hc : code ≠ 1) :
    manage r g code act s = act s := by
  obtain ⟨h1, h2, h3⟩ := h
  have hb : (code == 1) = false := by simpa using hc
  simp [manage, State.manageRefusal, State.binding, h1, h2, h3, hb]

theorem manage_refused {r g code : Nat} {act : State → State} {reason : Reason}
    (h : s.manageRefusal r g code = some reason) : manage r g code act s = publish (reject r g code reason s) := by
  simp [manage, h]

theorem manage_cases (r g code : Nat) (act : State → State) (s : State) :
    manage r g code act s = act s ∨ ∃ reason, manage r g code act s = publish (reject r g code reason s) := by
  unfold manage
  split
  · exact .inr ⟨_, rfl⟩
  · exact .inl rfl

theorem answer_accepted {r g code : Nat} {effect : State → State} {data : State → List Byte} :
    answer r g code none effect data s = publish (accept r g code (data (effect s)) (effect s)) := rfl

theorem answer_refused {r g code : Nat} {reason : Reason} {effect : State → State} {data : State → List Byte} :
    answer r g code (some reason) effect data s = publish (reject r g code reason s) := rfl

/-! ### Picker events -/

/-- A motion expects an event (R39). -/
theorem pickerEvent_expected {e : PickerEvent} {act : Motion → State → State} {m : Motion}
    (hp : s.lib.picker.state = .moving) (hm : s.lib.picker.motion = some m)
    (he : m.expects (s.mu.service == .startup) s.lib.picker.held e = true) :
    pickerEvent e act s = act m (s.modPicker fun p => { p with motion := some { m with last := some e } }) := by
  simp [pickerEvent, hp, hm, he]

/-- An event of the picker line is discarded, leads to the picker's FAULT, or is applied to the motion. -/
theorem pickerEvent_cases (e : PickerEvent) (act : Motion → State → State) (s : State) :
    pickerEvent e act s = s ∨ pickerEvent e act s = settle (pickerFaulted s)
      ∨ ∃ m, s.lib.picker.state = .moving ∧ s.lib.picker.motion = some m
          ∧ m.expects (s.mu.service == .startup) s.lib.picker.held e = true
          ∧ pickerEvent e act s = act m (s.modPicker fun p => { p with motion := some { m with last := some e } }) := by
  unfold pickerEvent
  dsimp only
  split
  · exact .inl rfl
  · exact .inr (.inl rfl)
  · next hp =>
    split
    · exact .inr (.inl rfl)
    · next m hm =>
      split
      · next he => exact .inr (.inr ⟨m, hp, hm, he, rfl⟩)
      · exact .inr (.inl rfl)

/-- An expected event is recorded by the motion. -/
theorem Follows.recorded {e : PickerEvent} {m : Motion} (hm : t.lib.picker.motion = some m) (h : Follows s t) :
    Follows s (t.modPicker fun p => { p with motion := some { m with last := some e } }) :=
  h.modPicker fun hp => by
    simp only [Picker.sane, hm] at hp ⊢
    simpa using hp

/-! ### Publishing -/

/-- While a frame is being sent, or the link is DOWN, the outbound arbiter makes no choice (R155, R157). -/
theorem publish_sending (h : s.rli.transmitter.isSome = true ∨ s.rli.link = .down) : publish s = s := by
  have hc : s.choice = none := by simp [State.choice, h]
  simp [publish, State.handsWork, transmit, hc]

/-! ### Orderly states -/

theorem State.orderly.tidy (h : s.orderly) : s.tidy := by
  have := h.shaped
  simp [State.shaped] at this
  exact ⟨this.1.1.1.2, this.1.1.2, h.queueApart, h.queueHolds⟩

theorem forall₂_roles {r : Role} (hr : r ≠ .empty) {l m : List Slot} (h : List.Forall₂ slotFollows l m) :
    (m.filter (·.role == r)).length ≤ (l.filter (·.role == r)).length := by
  induction h with
  | nil => simp
  | cons h hs ih =>
    rcases h with ⟨h, -⟩ | ⟨h1, h2⟩
    · simp only [List.filter_cons, h]
      split
      · simp only [List.length_cons]; omega
      · exact ih
    · rename_i a b l m
      have : (b.role == r) = false := by rw [h2]; simpa using Ne.symm hr
      simp only [List.filter_cons, this, Bool.false_eq_true, ↓reduceIte]
      split
      · simp only [List.length_cons]; omega
      · exact ih

theorem forall₂_numbers {l m : List Account} (h : List.Forall₂ AccountFollows l m) :
    m.map (·.number) = l.map (·.number) := by
  induction h with
  | nil => rfl
  | cons h hs ih => simp [h.number, ih]

theorem forall₂_bounded {l m : List Account} (h : List.Forall₂ AccountFollows l m) (hl : ∀ a ∈ l, a.bounded) :
    ∀ a ∈ m, a.bounded := by
  induction h with
  | nil => simp
  | cons h hs ih =>
    intro a ha
    rcases List.mem_cons.1 ha with rfl | ha
    · exact (h.bounded (hl _ (by simp))).1
    · exact ih (fun a ha => hl a (by simp [ha])) a ha

theorem ordered_iff (l : List Account) :
    (l.Pairwise fun a b => a.number < b.number) ↔ (l.map (·.number)).Pairwise (· < ·) := by
  rw [List.pairwise_map]

/-- What follows an event keeps an orderly state orderly. -/
theorem State.orderly.follows (h : s.orderly) (g : Follows s t) : t.orderly := by
  have hf := g.fixed
  simp only [State.fixed, Prod.mk.injEq] at hf
  obtain ⟨-, -, f3, f4, f5, -, -, f8, f9, -, -, -, f13, -, f15, f16, f17⟩ := hf
  have gr := g.reserve h.tidy
  refine { params := f9 ▸ h.params, shaped := ?_, counted := ?_, queueApart := gr.1.apart, queueHolds := gr.1.used
           reserved := gr.2.trans h.reserved, notices := g.notices h.notices
           bounded := forall₂_bounded g.accounts h.bounded, ordered := ?_, tabled := ?_
           channels := g.channels h.channels, picker := g.picker h.picker, cache := g.cache h.cache
           windows := f13 ▸ h.windows
           active := (forall₂_roles (by simp) g.slots).trans h.active
           waiting := (forall₂_roles (by simp) g.slots).trans h.waiting }
  · have := h.shaped
    simp only [State.shaped, Bool.and_eq_true, beq_iff_eq] at this ⊢
    obtain ⟨⟨⟨⟨⟨h1, h2⟩, h3⟩, h4⟩, h5⟩, h6⟩ := this
    exact ⟨⟨⟨⟨⟨g.sides.length_eq ▸ h1, f15.trans h2⟩, f16.trans h3⟩, f17.trans h4⟩, g.slots.length_eq ▸ h5⟩, f8 ▸ h6⟩
  · have := h.counted
    simpa only [Rli.counted, f3, f4, f5] using this
  · rw [ordered_iff, forall₂_numbers g.accounts, ← ordered_iff]
    exact h.ordered
  · exact g.accounts.length_eq ▸ h.tabled

/-- A frame composed with a place free keeps an orderly state orderly. -/
theorem State.orderly.compose {r g : Nat} {b : OutBody} (h : s.orderly) (hr : s.reservations < Config.controlLimit) :
    (compose r g b s).orderly :=
  { h with
    reserved := by rw [reservations_compose]; exact hr }

end Sys2Proof.Machine
end

