-- ==== Sys2Proof/Laws/Orderly.lean ====
section
/-! SUPPORT. What the blocks do when they take a request, for orderly states: one lemma per operation. -/

namespace Sys2Proof.Machine

variable {s t : State}

/-! ### Frames and buffers -/

theorem State.orderly.settle (h : s.orderly) : (settle s).orderly := h.follows (Follows.refl s).settle

theorem State.orderly.publish (h : s.orderly) : (publish s).orderly := h.follows (Follows.refl s).publish

theorem State.orderly.inbound {l : List Request} (h : s.orderly)
    (hl : s.rli.inbound.length ≤ Config.inboundLimit → l.length ≤ Config.inboundLimit) :
    ({ s with rli.inbound := l } : State).orderly :=
  { h with
    counted := by
      have := h.counted
      simp only [Rli.counted, Bool.and_eq_true, decide_eq_true_eq] at this ⊢
      exact ⟨this.1, hl this.2⟩ }

/-- A request handed on keeps an orderly state orderly when its block does. -/
theorem State.orderly.handOn {i : Instr} {act : State → State} (h : s.orderly)
    (ha : ∀ u : State, u.orderly → u.reservations < Config.controlLimit → (act u).orderly) : (handOn i act s).orderly := by
  rcases handOn_cases i act s with ⟨-, hr, e⟩ | ⟨qs, hq, hr, e⟩ | ⟨l, e, hl⟩
  · rw [e]; exact ha s h hr
  · rw [e]
    refine ha _ (h.inbound fun hl => ?_) hr
    rw [hq, List.length_cons] at hl
    omega
  · rw [e]; exact h.inbound hl

/-- A management request keeps an orderly state orderly when its block does. -/
theorem State.orderly.manage {r g code : Nat} {act : State → State} (h : s.orderly)
    (hr : s.reservations < Config.controlLimit) (ha : (act s).orderly) : (manage r g code act s).orderly := by
  rcases manage_cases r g code act s with e | ⟨reason, e⟩
  · rw [e]; exact ha
  · rw [e]; exact (h.compose hr).publish

/-- An answer at once keeps an orderly state orderly when its effect does and makes no reservation. -/
theorem State.orderly.answer {r g code : Nat} {refusal : Option Reason} {effect : State → State}
    {data : State → List Byte} (h : s.orderly) (hr : s.reservations < Config.controlLimit)
    (ha : refusal = none → (effect s).orderly ∧ (effect s).reservations ≤ s.reservations) :
    (answer r g code refusal effect data s).orderly := by
  unfold Machine.answer
  split
  · exact (h.compose hr).publish
  · have := ha rfl
    exact (this.1.compose (by omega)).publish

theorem State.orderly.awaitReply {k : LateKind} {r g : Nat} (h : s.orderly)
    (hr : s.reservations < Config.controlLimit) : (awaitReply k r g s).orderly :=
  { h with
    reserved := by
      rw [reservations_eq] at hr ⊢
      show s.liveCount + s.usedCount + s.rli.control.length + (s.mu.late ++ [_]).length ≤ _
      simp
      omega }

/-- An answer that comes later. -/
theorem State.orderly.answerLater {r g code : Nat} {k : LateKind} {refusal : Option Reason} {effect : State → State}
    (h : s.orderly) (hr : s.reservations < Config.controlLimit)
    (ha : ∀ u : State, u.orderly → (effect u).orderly) : (answerLater r g code k refusal effect s).orderly := by
  unfold Machine.answerLater
  split
  · exact (h.compose hr).publish
  · exact (ha _ (h.awaitReply hr)).settle

theorem reservations_follows (h : s.orderly) (g : Follows s t) : t.reservations ≤ s.reservations := (g.reserve h.tidy).2

/-- A change of service state. -/
theorem State.orderly.service {n : Service} (h : s.orderly) : ({ s with mu.service := n } : State).orderly := { h with }

theorem State.orderly.changeService {n : Service} {c : ChangeCause} (h : s.orderly) : (changeService n c s).orderly :=
  h.service.follows (Follows.refl _).raise

theorem State.orderly.drainMode {d : Option DrainMode} (h : s.orderly) : ({ s with mu.drain := d } : State).orderly :=
  { h with }

theorem State.orderly.enterStandby {c : ChangeCause} (h : s.orderly) : (enterStandby c s).orderly :=
  (h.drainMode.changeService).follows (Follows.refl _).standbyEntry

/-! ### Part and line -/

theorem filing_powerOn (l : LinkState) (p : List Instr) (f : Nat) : (State.powerOn l p).filing f = Filing.reset := by
  simp only [State.filing, State.powerOn, Fil.reset, List.getD_eq_getElem?_getD, List.getElem?_replicate]
  split <;> rfl

theorem context_powerOn (l : LinkState) (p : List Instr) (c : Nat) : (State.powerOn l p).context c = Context.reset := by
  simp only [State.context, State.powerOn, List.getD_eq_getElem?_getD, List.getElem?_replicate]
  split <;> rfl

theorem reservations_powerOn (l : LinkState) (p : List Instr) : (State.powerOn l p).reservations = 0 := by
  simp only [State.reservations, State.contextsWhere, context_powerOn, filing_powerOn]
  rfl

theorem orderly_powerOn (l : LinkState) (p : List Instr) : (State.powerOn l p).orderly where
  params := show Params.reset.legal = true by decide
  shaped := by simp [State.shaped, State.powerOn, Lib.reset, Fil.reset, Tal.reset, Mu.reset]
  counted := by simp [Rli.counted, State.powerOn, Rli.reset]
  queueApart := List.nodup_nil
  queueHolds := fun f => by
    rw [filing_powerOn]
    simp [State.powerOn, Fil.reset, Filing.reset, FilingState.inQueue]
  reserved := by rw [reservations_powerOn]; exact Nat.zero_le _
  notices := List.nodup_nil
  bounded := fun a ha => by cases ha
  ordered := List.Pairwise.nil
  tabled := Nat.zero_le _
  channels := fun x hx => by
    obtain rfl := List.eq_of_mem_replicate hx
    decide
  picker := show Picker.reset.sane by simp [Picker.sane, Picker.reset]
  cache := Nat.zero_le _
  windows := ⟨fun w hw => (by cases hw), .nil⟩
  active := by simp [State.powerOn, Tal.reset, Slot.reset]
  waiting := by simp [State.powerOn, Tal.reset, Slot.reset]

/-- A change of every context that leaves its state. -/
theorem State.orderly.mapContexts {f : Context → Context} (hf : ∀ x, (f x).state = x.state) (h : s.orderly) :
    ({ s with ctx := s.ctx.map f } : State).orderly := by
  refine { h with shaped := ?_, reserved := ?_ }
  · have := h.shaped
    simpa [State.shaped] using this
  · refine le_trans ?_ h.reserved
    rw [reservations_eq, reservations_eq]
    refine Nat.add_le_add_right (Nat.add_le_add_right (Nat.add_le_add_right ?_ _) _) _
    refine count_le fun i hi => ?_
    simp only [State.context, List.getD_eq_getElem?_getD, List.getElem?_map] at hi ⊢
    cases e : s.ctx[i]? with
    | none => rw [e] at hi; exact hi
    | some x => rw [e] at hi; simpa [hf] using hi

theorem State.orderly.linkHolds {f : Context → Context} (hf : ∀ x, (f x).state = x.state) (h : s.orderly) :
    (linkHolds f s).orderly :=
  h.mapContexts fun x => by
    split
    · exact hf x
    · rfl

theorem State.orderly.lineDown (h : s.orderly) : (lineDown s).orderly := by
  unfold Machine.lineDown
  split
  · exact h
  · have h1 : ({ s with rli.link := .down, rli.downs := min (s.rli.downs + 1) Config.countCeiling } : State).orderly :=
      { h with
        counted := by
          have := h.counted
          simp only [Rli.counted, Bool.and_eq_true, decide_eq_true_eq] at this ⊢
          exact ⟨⟨this.1.1, Nat.min_le_right _ _⟩, this.2⟩ }
    exact h1.linkHolds fun x => rfl

theorem State.orderly.lineUp (h : s.orderly) : (lineUp s).orderly := by
  unfold Machine.lineUp
  split
  · exact h
  · refine State.orderly.settle (State.orderly.linkHolds (fun x => rfl) ?_)
    exact { h with }

theorem State.orderly.frameFinished (h : s.orderly) : (frameFinished s).orderly := by
  unfold Machine.frameFinished
  split
  · exact h
  · refine State.orderly.settle ?_
    exact { h with }

theorem State.orderly.admitFrame {bs : List Byte} (h : s.orderly) : (admitFrame bs s).orderly := by
  unfold Machine.admitFrame
  split
  · exact h
  · next hn =>
    split
    · exact { h with
        counted := by
          have := h.counted
          simp only [Rli.counted, Bool.and_eq_true, decide_eq_true_eq] at this ⊢
          exact ⟨⟨Nat.min_le_right _ _, this.1.2⟩, this.2⟩ }
    · refine h.inbound fun _ => ?_
      simp only [not_or, not_le] at hn
      simp only [List.length_append, List.length_cons, List.length_nil]
      omega

/-! ### Contexts -/

theorem count_le_succ {p q : Nat → Bool} {n c : Nat} (h : ∀ i, i ≠ c → q i = p i) :
    ((List.range n).filter q).length ≤ ((List.range n).filter p).length + 1 := by
  induction n with
  | zero => simp
  | succ n ih =>
    simp only [List.range_succ, List.filter_append, List.length_append]
    by_cases e : c = n
    · subst e
      have : (List.range c).filter q = (List.range c).filter p :=
        List.filter_congr fun i hi => h i (by simp at hi; omega)
      rw [this]
      have := List.length_filter_le q [c]
      simp only [List.length_cons, List.length_nil] at this
      omega
    · have e2 : [n].filter q = [n].filter p := List.filter_congr fun i hi => h i (by simp at hi; omega)
      rw [e2]
      omega

/-- A context written over makes at most one more live. -/
theorem State.orderly.putContext {c : Nat} {x : Context} (h : s.orderly) (hr : s.reservations < Config.controlLimit) :
    (s.modContext c fun _ => x).orderly := by
  refine { h with shaped := ?_, reserved := ?_ }
  · simpa [State.shaped] using h.shaped
  · have : (s.modContext c fun _ => x).liveCount ≤ s.liveCount + 1 := by
      refine count_le_succ (c := c) fun i hi => ?_
      rw [context_modContext, if_neg (by simp [Ne.symm hi])]
    rw [reservations_eq] at hr ⊢
    have e : (s.modContext c fun _ => x).usedCount = s.usedCount := rfl
    simp only [modContext_rli, modContext_mu, e]
    omega

theorem Follows.applyAnswer {c n : Nat} (h : Follows s t) : Follows s (applyAnswer c n t) := by
  unfold Machine.applyAnswer
  split
  · exact h
  · exact h.withdrawIdle.attachContext
  · exact h.modDrive fun _ hx => hx
  · exact h.modOrder.reprioritise
  · exact h.newMount

theorem inFlight_follows (a : Account) : AccountFollows a { a with inFlight := a.inFlight + 1 } := by
  constructor <;> simp [Account.bounded]

theorem State.orderly.acceptFetch {r g : Nat} {b : FetchBody} (h : s.orderly)
    (hr : s.reservations < Config.controlLimit) : (acceptFetch r g b s).orderly := by
  unfold Machine.acceptFetch
  split
  · exact h
  · dsimp only
    refine State.orderly.settle ((State.orderly.follows ?_ (Follows.refl _).applyAnswer))
    unfold takeContext
    extract_lets s1 s2
    have h1 : s1.orderly := h.putContext hr
    have h2 : s2.orderly := by
      simp only [s2]
      split
      · exact h1
      · exact h1.follows (Follows.refl _).takeReference
    exact h2.follows ((Follows.refl _).modAccount inFlight_follows)

theorem State.orderly.fetchTaken {r g : Nat} {b : FetchBody} (h : s.orderly)
    (hr : s.reservations < Config.controlLimit) : (fetchTaken r g b s).orderly := by
  unfold Machine.fetchTaken
  split
  · exact (h.compose hr).publish
  · exact h.acceptFetch hr

theorem State.orderly.modContext {c : Nat} {f : Context → Context} (hf : ∀ x, (f x).state = x.state) (h : s.orderly) :
    (s.modContext c f).orderly := h.follows ((Follows.refl s).modContext fun i => by rwa [hf] at i)

theorem State.orderly.reach {n : Nat} (h : s.orderly) : (s.reach n).orderly := { h with }

/-! ### Filings -/

theorem State.orderly.putFiling {f : Nat} {x : Filing} (hs : (s.filing f).state = .free) (hx : x.state = .gathering)
    (h : s.orderly) (hr : s.reservations < Config.controlLimit) : (s.modFiling f fun _ => x).orderly := by
  refine { h with shaped := ?_, queueHolds := ?_, reserved := ?_ }
  · simpa [State.shaped] using h.shaped
  · intro j
    rw [modFiling_queue, filing_modFiling, h.queueHolds j]
    split
    · next e => obtain ⟨rfl, -⟩ := e; rw [hs, hx]; rfl
    · rfl
  · have : (s.modFiling f fun _ => x).usedCount ≤ s.usedCount + 1 := by
      refine count_le_succ (c := f) fun i hi => ?_
      rw [filing_modFiling, if_neg (by simp [Ne.symm hi])]
    rw [reservations_eq] at hr ⊢
    have e : (s.modFiling f fun _ => x).liveCount = s.liveCount := rfl
    simp only [modFiling_rli, modFiling_mu, e]
    omega

theorem State.orderly.openFiling {r g : Nat} (h : s.orderly) (hr : s.reservations < Config.controlLimit) :
    (openFiling r g s).orderly := by
  unfold Machine.openFiling
  split
  · exact h.compose hr
  · split
    · exact h.compose hr
    · split
      · exact h.compose hr
      · split
        · exact h.compose hr
        · next hf =>
          exact h.putFiling (by simpa using List.find?_some hf) rfl hr

theorem State.orderly.filePage {r g : Nat} {b : PageBody} (h : s.orderly) (hr : s.reservations < Config.controlLimit) :
    (filePage r g b s).orderly := by
  unfold Machine.filePage
  split
  · exact h.compose hr
  · split
    · exact h.compose hr
    · dsimp only
      split
      · exact h.compose hr
      · split
        · exact h.compose hr
        · split
          · exact h.compose hr
          · exact h.follows ((Follows.refl s).modFiling fun _ => .inl rfl)

/-- A GATHERING filing joins the queue. -/
theorem State.orderly.queueFiling {f : Nat} {e : Filing → Option Nat} (hg : (s.filing f).state = .gathering) (h : s.orderly) :
    ({ (s.modFiling f fun x => { x with state := .queued, timer := none, body := e x }) with
        fil.queue := s.fil.queue ++ [f] } : State).orderly := by
  have hlen : f < s.fil.records.length := by
    by_contra hc
    rw [filing_out s f (by omega)] at hg
    cases hg
  have hfl : ∀ j, ({ (s.modFiling f fun x => { x with state := .queued, timer := none, body := e x }) with
      fil.queue := s.fil.queue ++ [f] } : State).filing j
      = (s.modFiling f fun x => { x with state := .queued, timer := none, body := e x }).filing j := fun _ => rfl
  refine { h with shaped := ?_, queueApart := ?_, queueHolds := ?_, reserved := ?_ }
  · simpa [State.shaped, State.modFiling] using h.shaped
  · refine List.nodup_append.2 ⟨h.queueApart, List.nodup_singleton _, ?_⟩
    intro a ha b hb
    simp only [List.mem_singleton] at hb
    rintro rfl
    subst hb
    have := (h.queueHolds a).1 ha
    rw [hg] at this
    cases this
  · intro j
    rw [hfl, filing_modFiling]
    show j ∈ s.fil.queue ++ [f] ↔ _
    by_cases hj : f = j
    · subst hj
      simp [hlen, FilingState.inQueue]
    · rw [if_neg (by simp [hj]), ← h.queueHolds j]
      simp [Ne.symm hj]
  · refine le_trans (le_of_eq ?_) h.reserved
    rw [reservations_eq, reservations_eq]
    congr 3
    unfold State.usedCount
    congr 1
    refine List.filter_congr fun j _ => ?_
    rw [hfl, filing_modFiling]
    split
    · next e => obtain ⟨rfl, -⟩ := e; rw [hg]; rfl
    · rfl

theorem State.orderly.endFiling {r g n : Nat} (h : s.orderly) (hr : s.reservations < Config.controlLimit) :
    (endFiling r g n s).orderly := by
  unfold Machine.endFiling
  split
  · exact h.compose hr
  · split
    · exact h.compose hr
    · next f hf =>
      have hg : (s.filing f).state = .gathering := by
        have := List.find?_some hf
        simp only [Bool.and_eq_true, beq_iff_eq] at this
        exact this.1.1
      dsimp only
      split
      · exact h.compose hr
      · split
        · exact h.compose hr
        · split
          · exact State.orderly.follows (h.queueFiling (e := fun x => some (bodySectors x.pages)) hg)
              (Follows.refl _).callReadiness
          · exact h.queueFiling hg

theorem State.orderly.abortFiling {r g : Nat} (h : s.orderly) (hr : s.reservations < Config.controlLimit) :
    (abortFiling r g s).orderly := by
  unfold Machine.abortFiling
  split
  · exact h.compose hr
  · next f hf =>
    split
    · exact h.compose hr
    · refine h.follows (Follows.markerIfNeeded ((Follows.refl s).discardFiling fun _ => ?_))
      have := List.find?_some hf
      simp only [Bool.and_eq_true, bne_iff_ne] at this
      exact this.1.1

theorem State.orderly.gatherExpired {f : Nat} (h : s.orderly) : (gatherExpired f s).orderly := by
  unfold Machine.gatherExpired
  split
  · next hs _ =>
    refine h.reach.follows ((Follows.refl _).discardFiling fun _ => ?_)
    show (s.filing f).state ≠ .free
    rw [hs]
    simp
  · exact h

/-! ### Tables -/

theorem State.orderly.manager {m : Option Nat} (h : s.orderly) : ({ s with mu.manager := m } : State).orderly := { h with }

theorem State.orderly.requesters {n : Nat} {x : Option Requester} (h : s.orderly) :
    ({ s with mu.requesters := s.mu.requesters.set n x } : State).orderly :=
  { h with shaped := by simpa [State.shaped] using h.shaped }

theorem State.orderly.putSide {n : Nat} {x : Option SideRecord} (h : s.orderly) : (s.putSide n x).orderly :=
  { h with shaped := by simpa [State.shaped, State.putSide] using h.shaped }

theorem State.orderly.storeSide {l : SideLoad} (h : s.orderly) : (storeSide l s).orderly := by
  unfold Machine.storeSide
  split <;> exact h.putSide

theorem reservations_storeSide (l : SideLoad) (s : State) : (storeSide l s).reservations = s.reservations := by
  unfold storeSide
  split <;> rfl

theorem State.orderly.ranges {l : List RangeEntry} (h : s.orderly) : ({ s with loc.ranges := l } : State).orderly := { h with }

theorem State.orderly.next {n : Option Nat} (h : s.orderly) : ({ s with fil.nNext := n } : State).orderly := { h with }

/-- Every value taken lies in its range and on its step (R163). -/
theorem takeParam_onStep {low high step held : Nat} {v : Option Nat} (hl : low % step = 0)
    (hle : low ≤ high) (hh : onStep low high step held = true) : onStep low high step (takeParam low high step held v) = true := by
  cases v with
  | none => exact hh
  | some v =>
    simp only [takeParam, onStep, Bool.and_eq_true, beq_iff_eq]
    refine ⟨⟨decide_eq_true ?_, decide_eq_true ?_⟩, Nat.mul_mod_left _ _⟩
    · have h1 : low ≤ min (max v low) high := Nat.le_min.2 ⟨Nat.le_max_right _ _, hle⟩
      have h2 : low / step * step = low := Nat.div_mul_cancel (Nat.dvd_of_mod_eq_zero hl)
      calc low = low / step * step := h2.symm
        _ ≤ _ := Nat.mul_le_mul_right _ (Nat.div_le_div_right h1)
    · exact (Nat.div_mul_le_self _ _).trans (Nat.min_le_right _ _)

theorem legal_taking {p : Params} {v : ParamValues} (h : p.legal = true) : (p.taking v).legal = true := by
  simp only [Params.legal, Bool.and_eq_true] at h ⊢
  obtain ⟨⟨⟨⟨⟨⟨h1, h2⟩, h3⟩, h4⟩, h5⟩, h6⟩, h7⟩ := h
  exact ⟨⟨⟨⟨⟨⟨takeParam_onStep (by decide) (by decide) h1, takeParam_onStep (by decide) (by decide) h2⟩,
    takeParam_onStep (by decide) (by decide) h3⟩, takeParam_onStep (by decide) (by decide) h4⟩,
    takeParam_onStep (by decide) (by decide) h5⟩, takeParam_onStep (by decide) (by decide) h6⟩,
    takeParam_onStep (by decide) (by decide) h7⟩

theorem State.orderly.taking {v : ParamValues} (h : s.orderly) :
    ({ s with mu.params := s.mu.params.taking v } : State).orderly := { h with params := legal_taking h.params }

/-! ### Accounts and schedules -/

theorem insertAccount_perm (a : Account) (l : List Account) : (insertAccount a l).Perm (a :: l) := by
  induction l with
  | nil => exact .refl _
  | cons b l ih =>
    unfold insertAccount
    split
    · exact .refl _
    · exact (List.Perm.cons b ih).trans (List.Perm.swap a b l)

theorem insertAccount_ordered {a : Account} {l : List Account} (hn : ∀ b ∈ l, b.number ≠ a.number)
    (h : l.Pairwise fun a b => a.number < b.number) : (insertAccount a l).Pairwise fun a b => a.number < b.number := by
  induction l with
  | nil => exact List.pairwise_singleton _ _
  | cons b l ih =>
    have hb := List.pairwise_cons.1 h
    unfold insertAccount
    split
    · next hlt =>
      refine List.pairwise_cons.2 ⟨fun c hc => ?_, h⟩
      rcases List.mem_cons.1 hc with rfl | hc
      · exact hlt
      · exact hlt.trans (hb.1 c hc)
    · next hlt =>
      refine List.pairwise_cons.2 ⟨fun c hc => ?_, ih (fun c hc => hn c (by simp [hc])) hb.2⟩
      rcases List.mem_cons.1 ((insertAccount_perm a l).subset hc) with rfl | hc
      · have := hn b (by simp)
        omega
      · exact hb.1 c hc

/-- A change of accounts that keeps their numbers and bounds. -/
theorem State.orderly.mapAccounts {f : Account → Account} (hn : ∀ a, (f a).number = a.number)
    (hb : ∀ a, a.bounded → (f a).bounded) (h : s.orderly) :
    ({ s with tal.accounts := s.tal.accounts.map f } : State).orderly :=
  { h with
    bounded := fun a ha => by
      obtain ⟨b, hbm, rfl⟩ := List.mem_map.1 ha
      exact hb b (h.bounded b hbm)
    ordered := by
      show (s.tal.accounts.map f).Pairwise _
      rw [List.pairwise_map]
      simpa only [hn] using h.ordered
    tabled := by
      show (s.tal.accounts.map f).length ≤ _
      rw [List.length_map]
      exact h.tabled }

theorem State.orderly.modAccount {n : Nat} {f : Account → Account} (hn : ∀ a, (f a).number = a.number)
    (hb : ∀ a, a.bounded → (f a).bounded) (h : s.orderly) : (s.modAccount n f).orderly :=
  h.mapAccounts (fun a => by split; exacts [hn a, rfl]) (fun a ha => by split; exacts [hb a ha, ha])

theorem bounded_load {cls limit : Nat} {asked : AccountState} {reset : Bool} {a : Account} (h : a.bounded) :
    (a.load cls limit asked reset).bounded := by
  obtain ⟨h1, h2, h3, h4, h5⟩ := h
  refine ⟨?_, ?_, h3, h4, h5⟩
  · show (if reset = true then 0 else a.residue) ≤ 9
    split <;> omega
  · show (if reset = true then 0 else a.charged) ≤ _
    split <;> omega

theorem account_none {n : Nat} (h : s.account n = none) : ∀ b ∈ s.tal.accounts, b.number ≠ n := by
  intro b hb
  have := List.find?_eq_none.1 h b hb
  simpa using this

theorem State.orderly.storeAccount {n cls limit : Nat} {asked : AccountState} {reset : Bool} (h : s.orderly)
    (hl : s.account n = none → s.tal.accounts.length < Config.accountLimit) :
    (storeAccount n cls limit asked reset s).orderly := by
  unfold Machine.storeAccount
  split
  · next hn =>
    refine { h with bounded := ?_, ordered := ?_, tabled := ?_ }
    · intro a ha
      rcases List.mem_cons.1 ((insertAccount_perm _ _).subset ha) with rfl | ha
      · refine bounded_load ?_
        simp [Account.bounded, freshAccount]
      · exact h.bounded a ha
    · exact insertAccount_ordered (account_none hn) h.ordered
    · show (insertAccount _ _).length ≤ _
      rw [(insertAccount_perm _ _).length_eq]
      exact hl hn
  · exact h.modAccount (fun _ => rfl) fun _ ha => bounded_load ha

theorem reservations_storeAccount (n cls limit : Nat) (asked : AccountState) (reset : Bool) (s : State) :
    (storeAccount n cls limit asked reset s).reservations = s.reservations := by
  unfold storeAccount
  split <;> rfl

theorem State.orderly.dropAccount {p : Account → Bool} (h : s.orderly) :
    ({ s with tal.accounts := s.tal.accounts.filter p } : State).orderly :=
  { h with
    bounded := fun a ha => h.bounded a (List.mem_filter.1 ha).1
    ordered := h.ordered.sublist List.filter_sublist
    tabled := (List.length_filter_le _ _).trans h.tabled }

/-- The slots of a role after one slot is written. -/
theorem filter_set_le {r : Role} {l : List Slot} {i : Nat} {x : Slot} :
    ((l.set i x).filter (·.role == r)).length ≤ (l.filter (·.role == r)).length + 1 := by
  induction l generalizing i with
  | nil => simp
  | cons a l ih =>
    cases i with
    | zero =>
      simp only [List.set_cons_zero, List.filter_cons]
      split <;> split <;> first | omega | (simp only [List.length_cons]; omega)
    | succ i =>
      simp only [List.set_cons_succ, List.filter_cons]
      have := ih (i := i)
      split
      · simp only [List.length_cons]; omega
      · exact this

/-- Writing a slot of another role adds none of a role. -/
theorem filter_set_other {r : Role} {l : List Slot} {i : Nat} {x : Slot} (hx : x.role ≠ r) :
    ((l.set i x).filter (·.role == r)).length ≤ (l.filter (·.role == r)).length := by
  induction l generalizing i with
  | nil => simp
  | cons a l ih =>
    cases i with
    | zero =>
      have : (x.role == r) = false := by simpa using hx
      simp only [List.set_cons_zero, List.filter_cons, this, Bool.false_eq_true, ↓reduceIte]
      split
      · simp
      · exact le_refl _
    | succ i =>
      simp only [List.set_cons_succ, List.filter_cons]
      split
      · simpa using ih
      · exact ih

/-- Writing over a slot of a role with a slot of that role keeps their number. -/
theorem filter_set_same {r : Role} {l : List Slot} {i : Nat} {x : Slot} (hi : l.findIdx? (·.role == r) = some i) :
    ((l.set i x).filter (·.role == r)).length ≤ (l.filter (·.role == r)).length := by
  induction l generalizing i with
  | nil => simp
  | cons a l ih =>
    rw [List.findIdx?_cons] at hi
    split at hi
    · next ha =>
      cases hi
      simp only [List.set_cons_zero, List.filter_cons, ha, ↓reduceIte]
      split <;> simp
    · next ha =>
      cases e : l.findIdx? (·.role == r) with
      | none => rw [e] at hi; simp at hi
      | some j =>
        rw [e] at hi
        simp only [Option.map_some, Option.some.injEq] at hi
        subst hi
        simp only [List.set_cons_succ, List.filter_cons, ha]
        exact ih e

theorem filter_none {r : Role} {l : List Slot} (h : l.findIdx? (·.role == r) = none) :
    (l.filter (·.role == r)).length = 0 := by
  rw [List.findIdx?_eq_none_iff] at h
  simp only [List.length_eq_zero_iff, List.filter_eq_nil_iff]
  intro a ha
  simp [h a ha]

/-- A schedule loaded: one slot takes the role ACTIVE when there is none, PENDING otherwise (R147). -/
theorem State.orderly.storeSchedule {e : Nat} {fs : List ClassFigures} (h : s.orderly) :
    (storeSchedule e fs s).orderly := by
  unfold Machine.storeSchedule
  split
  · exact h
  · next i hi =>
    extract_lets g first slot slots held tal1 s1
    have h1 : s1.orderly := by
      refine { h with shaped := ?_, active := ?_, waiting := ?_ }
      · simpa [State.shaped, s1, tal1, slots] using h.shaped
      · show roleOnce .active slots
        by_cases hf : first = true
        · have h0 : (s.tal.slots.filter (·.role == .active)).length = 0 := by
            have : s.tal.slots.find? (·.role == .active) = none := by
              simpa [first, State.activeSlot] using hf
            rw [List.find?_eq_none] at this
            simp only [List.length_eq_zero_iff, List.filter_eq_nil_iff]
            exact this
          exact (filter_set_le).trans (by rw [h0])
        · refine (filter_set_other ?_).trans h.active
          simp [slot, hf]
      · show roleOnce .waiting slots
        by_cases hf : first = true
        · refine (filter_set_other ?_).trans h.waiting
          simp [slot, hf]
        · unfold State.scheduleSlot at hi
          split at hi
          · next hw =>
            cases hi
            exact (filter_set_same hw).trans h.waiting
          · next hw => exact (filter_set_le).trans (by rw [filter_none hw])
    split
    · exact h1.follows (Follows.refl _).raise
    · exact h1

theorem raise_reservations (d : NoticeDetails) (s : State) : (raise_ d s).reservations = s.reservations := by
  unfold raise_
  split
  · rfl
  · split <;> rfl

theorem reservations_storeSchedule (e : Nat) (fs : List ClassFigures) (s : State) :
    (storeSchedule e fs s).reservations = s.reservations := by
  unfold storeSchedule
  split
  · rfl
  · dsimp only
    split
    · rw [raise_reservations]; rfl
    · rfl

theorem switched_active (l : List Slot) :
    ((l.map Slot.switched).filter (·.role == .active)).length ≤ (l.filter (·.role == .waiting)).length := by
  induction l with
  | nil => simp
  | cons a l ih =>
    simp only [List.map_cons, List.filter_cons]
    cases e : a.role <;> simp [Slot.switched, e, Slot.reset] <;> try exact ih
    split <;> simpa using ih

theorem switched_waiting (l : List Slot) : ((l.map Slot.switched).filter (·.role == .waiting)).length = 0 := by
  simp only [List.length_eq_zero_iff, List.filter_eq_nil_iff, List.mem_map]
  rintro _ ⟨a, -, rfl⟩
  cases e : a.role <;> simp [Slot.switched, e, Slot.reset]
  split <;> simp

theorem State.orderly.switchSchedule (h : s.orderly) : (switchSchedule s).orderly := by
  unfold Machine.switchSchedule
  extract_lets tal1 s1
  have h1 : s1.orderly :=
    { h with
      shaped := by simpa [State.shaped, s1, tal1] using h.shaped
      active := (switched_active s.tal.slots).trans h.waiting
      waiting := by
        show ((s.tal.slots.map Slot.switched).filter _).length ≤ 1
        rw [switched_waiting]; exact Nat.zero_le _ }
  split
  · exact h1
  · exact h1.follows (Follows.refl _).raise

theorem State.orderly.turnDay {d : Nat} (h : s.orderly) : (turnDay d s).orderly := by
  unfold Machine.turnDay
  extract_lets tal1 s1
  have h1 : s1.orderly := by
    have h0 : ({ s with tal.accounts := s.tal.accounts.map closeDay } : State).orderly :=
      h.mapAccounts (fun _ => rfl) fun a ⟨h1, h2, _, _, _⟩ =>
        ⟨h1, h2, Nat.zero_le _, Nat.zero_le _, Nat.zero_le _⟩
    exact { h0 with }
  split
  · exact h1.switchSchedule
  · exact h1

theorem reservations_turnDay (d : Nat) (s : State) : (turnDay d s).reservations = s.reservations := by
  unfold turnDay switchSchedule
  dsimp only
  split
  · split
    · rfl
    · rw [raise_reservations]; rfl
  · rfl

/-! ### Quiet holds -/

theorem insertWindow_perm (w : Window) (l : List Window) : (insertWindow w l).Perm (w :: l) := by
  induction l with
  | nil => exact .refl _
  | cons v l ih =>
    unfold insertWindow
    split
    · exact .refl _
    · exact (List.Perm.cons v ih).trans (List.Perm.swap w v l)

/-- A window apart from all others takes its place. -/
theorem insertWindow_apart {w : Window} {l : List Window} (hw : w.start ≤ w.stop)
    (hn : ∀ v ∈ l, v.stop < w.start ∨ w.stop < v.start) (h : windowsApart l) : windowsApart (insertWindow w l) := by
  obtain ⟨h1, h2⟩ := h
  refine ⟨fun v hv => ?_, ?_⟩
  · rcases List.mem_cons.1 ((insertWindow_perm w l).subset hv) with rfl | hv
    · exact hw
    · exact h1 v hv
  · induction l with
    | nil => exact List.pairwise_singleton _ _
    | cons v l ih =>
      have hv := List.pairwise_cons.1 h2
      have hvs := h1 v (by simp)
      unfold insertWindow
      split
      · next hlt =>
        refine List.pairwise_cons.2 ⟨fun u hu => ?_, h2⟩
        rcases List.mem_cons.1 hu with rfl | hu
        · rcases hn u (by simp) with e | e <;> omega
        · have := hv.1 u hu
          rcases hn v (by simp) with e | e <;> omega
      · next hlt =>
        refine List.pairwise_cons.2 ⟨fun u hu => ?_, ih (fun u hu => hn u (by simp [hu])) (fun u hu => h1 u (by simp [hu])) hv.2⟩
        rcases List.mem_cons.1 ((insertWindow_perm w l).subset hu) with rfl | hu
        · rcases hn v (by simp) with e | e <;> omega
        · exact hv.1 u hu

theorem foldl_min_le (f : Window → Nat) (l : List Window) (a : Nat) :
    (l.foldl (fun a v => min a (f v)) a ≤ a ∧ ∀ v ∈ l, l.foldl (fun a v => min a (f v)) a ≤ f v)
      ∧ (l.foldl (fun a v => min a (f v)) a = a ∨ ∃ v ∈ l, l.foldl (fun a v => min a (f v)) a = f v) := by
  induction l generalizing a with
  | nil => simp
  | cons x l ih =>
    obtain ⟨⟨h1, h2⟩, h3⟩ := ih (min a (f x))
    simp only [List.foldl_cons]
    refine ⟨⟨h1.trans (Nat.min_le_left _ _), fun v hv => ?_⟩, ?_⟩
    · rcases List.mem_cons.1 hv with rfl | hv
      · exact h1.trans (Nat.min_le_right _ _)
      · exact h2 v hv
    · rcases h3 with h3 | ⟨v, hv, h3⟩
      · rcases Nat.le_total a (f x) with e | e
        · exact .inl (by rw [h3, Nat.min_eq_left e])
        · exact .inr ⟨x, by simp, by rw [h3, Nat.min_eq_right e]⟩
      · exact .inr ⟨v, by simp [hv], h3⟩

theorem foldl_max_le (f : Window → Nat) (l : List Window) (a : Nat) :
    (a ≤ l.foldl (fun a v => max a (f v)) a ∧ ∀ v ∈ l, f v ≤ l.foldl (fun a v => max a (f v)) a)
      ∧ (l.foldl (fun a v => max a (f v)) a = a ∨ ∃ v ∈ l, l.foldl (fun a v => max a (f v)) a = f v) := by
  induction l generalizing a with
  | nil => simp
  | cons x l ih =>
    obtain ⟨⟨h1, h2⟩, h3⟩ := ih (max a (f x))
    simp only [List.foldl_cons]
    refine ⟨⟨(Nat.le_max_left _ _).trans h1, fun v hv => ?_⟩, ?_⟩
    · rcases List.mem_cons.1 hv with rfl | hv
      · exact (Nat.le_max_right _ _).trans h1
      · exact h2 v hv
    · rcases h3 with h3 | ⟨v, hv, h3⟩
      · rcases Nat.le_total a (f x) with e | e
        · exact .inr ⟨x, by simp, by rw [h3, Nat.max_eq_right e]⟩
        · exact .inl (by rw [h3, Nat.max_eq_left e])
      · exact .inr ⟨v, by simp [hv], h3⟩

/-- A new window is merged with those it overlaps or touches (R56). -/
theorem addWindow_apart {w : Window} {ws : List Window} (hw : w.start ≤ w.stop) (h : windowsApart ws) :
    windowsApart (addWindow w ws) := by
  obtain ⟨h1, h2⟩ := h
  unfold addWindow
  dsimp only
  obtain ⟨⟨a1, a2⟩, a3⟩ := foldl_min_le (·.start) (ws.filter w.touches) w.start
  obtain ⟨⟨b1, b2⟩, b3⟩ := foldl_max_le (·.stop) (ws.filter w.touches) w.stop
  refine insertWindow_apart (by simp only; omega) (fun v hv => ?_)
    ⟨fun v hv => h1 v (List.mem_filter.1 hv).1, h2.sublist List.filter_sublist⟩
  obtain ⟨hvm, hvt⟩ := List.mem_filter.1 hv
  have hvs := h1 v hvm
  have hsep : ∀ n ∈ ws.filter w.touches, v.stop < n.start ∨ n.stop < v.start := by
    intro n hn
    obtain ⟨hnm, hnt⟩ := List.mem_filter.1 hn
    rcases List.pairwise_iff_getElem.1 h2 with hp
    obtain ⟨i, hi, rfl⟩ := List.getElem_of_mem hvm
    obtain ⟨j, hj, rfl⟩ := List.getElem_of_mem hnm
    rcases Nat.lt_trichotomy i j with e | rfl | e
    · exact .inl (hp i j hi hj e)
    · rw [hnt] at hvt; cases hvt
    · exact .inr (hp j i hj hi e)
  have htouch : ∀ n ∈ ws.filter w.touches, w.start ≤ n.stop ∧ n.start ≤ w.stop := by
    intro n hn
    have := (List.mem_filter.1 hn).2
    simpa [Window.touches] using this
  have hnt : v.stop < w.start ∨ w.stop < v.start := by
    simp [Window.touches] at hvt
    omega
  simp only
  rcases hnt with hb | ha
  · left
    rcases a3 with e | ⟨n, hn, e⟩
    · rw [e]; exact hb
    · rw [e]
      have := hsep n hn
      have := htouch n hn
      have := h1 n (List.mem_filter.1 hn).1
      omega
  · right
    rcases b3 with e | ⟨n, hn, e⟩
    · rw [e]; exact ha
    · rw [e]
      have := hsep n hn
      have := htouch n hn
      have := h1 n (List.mem_filter.1 hn).1
      omega

theorem State.orderly.scheduleHold (h : s.orderly) : (scheduleHold s).orderly := by
  unfold Machine.scheduleHold
  dsimp only
  split
  · exact h
  · exact { h with windows := addWindow_apart (Nat.le_add_right _ _) h.windows }

theorem State.orderly.hold {b : Bool} (h : s.orderly) : ({ s with fil.hold := b } : State).orderly := { h with }

theorem State.orderly.beginHold (h : s.orderly) : (beginHold s).orderly := by
  unfold Machine.beginHold
  dsimp only
  have h1 : ({ s with fil.hold := true } : State).orderly := h.hold
  split
  · exact h1
  · split
    · exact State.orderly.follows (h1.follows (Follows.refl _).dropPasses) ((Follows.refl _).unwatched rfl)
    · split
      · exact h1.follows ((Follows.refl _).unwatched rfl)
      · exact h1
    · exact h1

theorem State.orderly.endHold (h : s.orderly) : (endHold s).orderly := by
  unfold Machine.endHold
  dsimp only
  have h1 : ({ s with fil.hold := false } : State).orderly := h.hold
  split
  · exact h1
  · split
    · exact h1.follows (Follows.refl _).queuePass
    · exact h1

theorem State.orderly.holdBegins (h : s.orderly) : (holdBegins s).orderly := by
  unfold Machine.holdBegins
  split
  · exact h
  · split
    · exact h
    · exact h.reach.beginHold

theorem State.orderly.holdEnds (h : s.orderly) : (holdEnds s).orderly := by
  unfold Machine.holdEnds
  split
  · exact h
  · next w ws hw =>
    split
    · refine State.orderly.endHold { h.reach with windows := ?_ }
      obtain ⟨h1, h2⟩ := h.windows
      rw [hw] at h1 h2
      exact ⟨fun v hv => h1 v (by simp [hv]), (List.pairwise_cons.1 h2).2⟩
    · exact h

/-! ### The picker -/

theorem State.orderly.insertedInto {m : Motion} (h : s.orderly) : (insertedInto m s).orderly := by
  unfold Machine.insertedInto
  split
  · next d c _ _ =>
    extract_lets s1 s2 s3
    have h2 : s2.orderly := h.follows (Follows.modDrive (fun _ hx => hx) (Follows.locate ((Follows.refl s).modPicker id)))
    have h3 : s3.orderly := by
      simp only [s3, handOrder]
      split
      · exact h2.scheduleHold
      · exact h2.scheduleHold.follows ((Follows.refl _).removeOrder.modDrive fun _ hx => hx)
    split
    · exact h3
    · exact h3.follows (Follows.refl _).dismissIncoming.haltIfOpenIn
  · exact h

theorem emptied_sane (x : Drive) (h : x.sane) : x.emptied.sane := by
  unfold Drive.emptied
  dsimp only
  split
  · split
    · simp [Drive.sane, Drive.channelSane, Drive.resetChannel]
    · exact h
  · exact h

theorem State.orderly.ejectedFrom {m : Motion} (h : s.orderly) : (ejectedFrom m s).orderly := by
  unfold Machine.ejectedFrom
  split
  · refine State.orderly.scheduleHold (h.follows ?_)
    exact Follows.modDrive emptied_sane (Follows.locate ((Follows.refl s).modPicker id))
  · exact h

theorem State.orderly.insertedThen {m : Motion} (h : s.orderly) : (insertedThen m s).orderly := by
  unfold Machine.insertedThen
  split
  · exact h.insertedInto
  · exact h.insertedInto.settle

theorem State.orderly.placedThen {m : Motion} (h : s.orderly) : (placedThen m s).orderly := by
  unfold Machine.placedThen
  split
  · exact State.orderly.settle (h.follows (Follows.refl s).placedHome)
  · exact h.follows (Follows.refl s).placedHome

/-- An event of the picker line keeps an orderly state orderly when its effect does. -/
theorem State.orderly.pickerEvent {e : PickerEvent} {act : Motion → State → State} (h : s.orderly)
    (ha : ∀ (m : Motion) (u : State), u.orderly → (act m u).orderly) : (pickerEvent e act s).orderly := by
  rcases pickerEvent_cases e act s with e1 | e1 | ⟨m, -, hm, -, e1⟩
  · rw [e1]; exact h
  · rw [e1]; exact State.orderly.settle (h.follows (Follows.refl s).pickerFaulted)
  · rw [e1]; exact ha m _ (h.follows ((Follows.refl s).recorded hm))

/-! ### Service states -/

theorem State.orderly.abortWork (h : s.orderly) : (abortWork s).orderly := h.follows (Follows.refl s).abortWork

theorem State.orderly.beginDrain {b : Bool} (h : s.orderly) : (beginDrain b s).orderly := by
  unfold Machine.beginDrain
  dsimp only
  have h1 : (Machine.changeService .draining .setState { s with mu.drain := some .plain }).orderly := h.drainMode.changeService
  split
  · exact h1.abortWork
  · exact h1

theorem State.orderly.enterOpening (h : s.orderly) : (enterOpening s).orderly := by
  unfold Machine.enterOpening
  extract_lets opened m1 l1 r1 s1 s2
  have h1 : s1.orderly := by
    refine State.orderly.changeService ?_
    exact h.follows ((Follows.refl s).unwatched rfl)
  exact h1.follows (Follows.refl _).beginIdentify

theorem State.orderly.restartWork (h : s.orderly) : (restartWork s).orderly := by
  have h1 : (stopRecovery s).orderly := h.follows (Follows.refl s).stopRecovery
  have h2 : (Machine.changeService .draining .restart { stopRecovery s with mu.drain := some .restart }).orderly :=
    h1.drainMode.changeService
  unfold Machine.restartWork
  dsimp only
  generalize Machine.changeService .draining .restart { stopRecovery s with mu.drain := some .restart } = u at h2 ⊢
  exact h2.follows (Follows.fold _ (fun t _ => (Follows.refl t).restartQueue) _
    (Follows.refl u).endAllContexts.restartLibrary.stopFiling)

end Sys2Proof.Machine
end

