-- ==== Sys2Proof/Laws/Endings.lean ====
section
/-! SUPPORT. What the priorities of orders, a notice, a posting and the release of a schedule leave alone, and what the ending
of a live context is, table by table. -/

namespace Sys2Proof.Machine

@[simp] theorem reprioritise_ctx (s : State) : (reprioritise s).ctx = s.ctx := by
  unfold reprioritise; dsimp only; split <;> rfl
@[simp] theorem reprioritise_drives (s : State) : (reprioritise s).drives = s.drives := by
  unfold reprioritise; dsimp only; split <;> rfl
@[simp] theorem reprioritise_tal (s : State) : (reprioritise s).tal = s.tal := by
  unfold reprioritise; dsimp only; split <;> rfl
@[simp] theorem reprioritise_rli (s : State) : (reprioritise s).rli = s.rli := by
  unfold reprioritise; dsimp only; split <;> rfl
@[simp] theorem reprioritise_fil (s : State) : (reprioritise s).fil = s.fil := by
  unfold reprioritise; dsimp only; split <;> rfl
@[simp] theorem reprioritise_mu (s : State) : (reprioritise s).mu = s.mu := by unfold reprioritise; dsimp only; split <;> rfl
@[simp] theorem reprioritise_sides (s : State) : (reprioritise s).lib.sides = s.lib.sides := by
  unfold reprioritise; dsimp only; split <;> rfl
@[simp] theorem reprioritise_picker (s : State) : (reprioritise s).lib.picker = s.lib.picker := by
  unfold reprioritise; dsimp only; split <;> rfl
theorem reprioritise_orders (s : State) : (reprioritise s).lib.orders =
    s.lib.orders.map fun o => { o with priority := s.priorityOf o } := by
  unfold reprioritise; dsimp only; split <;> rfl

@[simp] theorem raise_ctx (d) (s : State) : (raise_ d s).ctx = s.ctx := by unfold raise_; split_ifs <;> rfl
@[simp] theorem raise_drives (d) (s : State) : (raise_ d s).drives = s.drives := by unfold raise_; split_ifs <;> rfl
@[simp] theorem raise_tal (d) (s : State) : (raise_ d s).tal = s.tal := by unfold raise_; split_ifs <;> rfl
@[simp] theorem raise_lib (d) (s : State) : (raise_ d s).lib = s.lib := by unfold raise_; split_ifs <;> rfl
@[simp] theorem raise_fil (d) (s : State) : (raise_ d s).fil = s.fil := by unfold raise_; split_ifs <;> rfl
@[simp] theorem raise_control (d) (s : State) : (raise_ d s).rli.control = s.rli.control := by
  unfold raise_; split_ifs <;> rfl

@[simp] theorem post_ctx (n q) (s : State) : (post n q s).ctx = s.ctx := by
  unfold post; split; rfl; dsimp only; split <;> simp [State.modAccount]
@[simp] theorem post_drives (n q) (s : State) : (post n q s).drives = s.drives := by
  unfold post; split; rfl; dsimp only; split <;> simp [State.modAccount]
@[simp] theorem post_lib (n q) (s : State) : (post n q s).lib = s.lib := by
  unfold post; split; rfl; dsimp only; split <;> simp [State.modAccount]
@[simp] theorem post_fil (n q) (s : State) : (post n q s).fil = s.fil := by
  unfold post; split; rfl; dsimp only; split <;> simp [State.modAccount]
@[simp] theorem post_mu (n q) (s : State) : (post n q s).mu = s.mu := by
  unfold post; split; rfl; dsimp only; split <;> simp [State.modAccount]
@[simp] theorem post_control (n q) (s : State) : (post n q s).rli.control = s.rli.control := by
  unfold post; split; rfl; dsimp only; split <;> simp [State.modAccount]
/-- The accounts after a posting (R143). -/
theorem post_accounts (n q) (s : State) : (post n q s).tal.accounts =
    s.tal.accounts.map fun a => if a.number = n then stopTest (postFigures a q) else a := by
  unfold post; split
  · next h =>
    have : ∀ b ∈ s.tal.accounts, b.number ≠ n := account_none h
    symm; rw [List.map_congr_left (g := id)]; simp
    intro b hb; simp [this b hb]
  · dsimp only; split <;> simp [State.modAccount]
@[simp] theorem rel_ctx (g) (s : State) : (releaseReference g s).ctx = s.ctx := by unfold releaseReference; split <;> rfl
@[simp] theorem rel_drives (g) (s : State) : (releaseReference g s).drives = s.drives := by
  unfold releaseReference; split <;> rfl
@[simp] theorem rel_lib (g) (s : State) : (releaseReference g s).lib = s.lib := by unfold releaseReference; split <;> rfl
@[simp] theorem rel_fil (g) (s : State) : (releaseReference g s).fil = s.fil := by unfold releaseReference; split <;> rfl
@[simp] theorem rel_mu (g) (s : State) : (releaseReference g s).mu = s.mu := by unfold releaseReference; split <;> rfl
@[simp] theorem rel_rli (g) (s : State) : (releaseReference g s).rli = s.rli := by unfold releaseReference; split <;> rfl
@[simp] theorem rel_accounts (g) (s : State) : (releaseReference g s).tal.accounts = s.tal.accounts := by
  unfold releaseReference; split <;> rfl

theorem settleCharge_ctx (x o) (s : State) : (settleCharge x o s).ctx = s.ctx := by
  unfold settleCharge compose; dsimp only; split <;> simp
theorem settleCharge_drives (x o) (s : State) : (settleCharge x o s).drives = s.drives := by
  unfold settleCharge compose; dsimp only; split <;> simp
theorem settleCharge_lib (x o) (s : State) : (settleCharge x o s).lib = s.lib := by
  unfold settleCharge compose; dsimp only; split <;> simp
theorem settleCharge_fil (x o) (s : State) : (settleCharge x o s).fil = s.fil := by
  unfold settleCharge compose; dsimp only; split <;> simp
theorem settleCharge_mu (x o) (s : State) : (settleCharge x o s).mu = s.mu := by
  unfold settleCharge compose; dsimp only; split <;> simp
/-- The accounts after the charge of an ending (R97 step 4). -/
theorem settleCharge_accounts (x o) (s : State) : (settleCharge x o s).tal.accounts = s.tal.accounts.map (fun a =>
          if x.kind = .copy ∧ 1 ≤ x.delivered ∧ a.number = x.account then stopTest (postFigures a (s.chargeOf x o)) else a) := by
  unfold settleCharge compose; dsimp only
  split
  · next h => simp only [Context.posts, Bool.and_eq_true, beq_iff_eq, decide_eq_true_eq] at h; simp [post_accounts, h.1, h.2]
  · next h =>
    simp only [Context.posts, Bool.and_eq_true, beq_iff_eq, decide_eq_true_eq] at h
    simp only [rel_accounts]
    symm; rw [List.map_congr_left (g := id)]; simp
    intro b hb; rw [if_neg]; rfl; tauto

/-- A deed charge reads the schedules alone. -/
theorem chargeOf_congr (x o) (s t : State) (h : s.tal = t.tal) : s.chargeOf x o = t.chargeOf x o := by
  simp [State.chargeOf, State.figures, State.slotOfGeneration, h]


/-- The ending of a live context, table by table: its own record, the drives it leaves, the orders it leaves (R97). -/
theorem endContext_spec {s : State} {c : Nat} {o : Ending} (hl : (s.context c).state.live = true) :
    (endContext c o s).ctx = s.ctx.modify c (fun y => (Context.close o y).discard)
      ∧ (endContext c o s).drives = s.drives.map (fun d => { d with
          queue := d.queue.filter (fun e => !e.issuer.ofContext c), attached := d.attached.filter (· != c)
          incoming := d.incoming.filter (· != c) })
      ∧ (endContext c o s).lib.sides = s.lib.sides ∧ (endContext c o s).lib.picker = s.lib.picker
      ∧ (endContext c o s).fil = s.fil ∧ (endContext c o s).mu = s.mu
      ∧ (∀ p ∈ (endContext c o s).lib.orders, ∃ p' ∈ s.lib.orders, p.waiters = p'.waiters.filter (· != c)) := by
  let s1 := s.modContext c (Context.close o)
  let s2 := (leaveOrders c (detach c (dropReads c s1))).modContext c Context.discard
  have hu : endContext c o s = settleCharge (s.context c) o s2 := by
    simp only [endContext, hl, if_true]; rfl
  rw [hu, settleCharge_ctx, settleCharge_drives, settleCharge_lib, settleCharge_fil, settleCharge_mu]
  refine ⟨?_, ?_, ?_, ?_, ?_, ?_, ?_⟩
  · simp [s2, leaveOrders, detach, dropReads, s1, List.modify_modify_eq]; rfl
  · simp [s2, leaveOrders, detach, dropReads, s1, List.map_map]
  · simp [s2, leaveOrders, detach, dropReads, s1]
  · simp [s2, leaveOrders, detach, dropReads, s1]
  · simp [s2, leaveOrders, detach, dropReads, s1]
  · simp [s2, leaveOrders, detach, dropReads, s1]
  · intro p hp
    simp only [s2, modContext_lib, leaveOrders, reprioritise_orders, List.mem_map, List.mem_filter] at hp
    obtain ⟨o1, ⟨⟨o2, h2, rfl⟩, _⟩, rfl⟩ := hp
    exact ⟨o2, h2, rfl⟩

end Sys2Proof.Machine
end

