-- ==== Sys2Proof/WellFormed.lean ====
section
/-! DEFINITION. The bounds the operands of a command have because a frame field or a message of that width
carried them (R184, R185, R24, R43). A value inside its field but outside what a rule allows is well formed:
the rule refuses it. -/

namespace Sys2Proof

/-- A value of a field of `w` bytes. -/
def fits (w n : Nat) : Bool := n < 256 ^ w

/-- A frame header that admission lets through: requester id 0-31, two-byte tag (R152). -/
def headerFits (r t : Nat) : Bool := r ≤ 31 && fits 2 t

/-- One sector of 1,024 bytes. -/
def sectorFits (d : Sector) : Bool := d.length == 1024

/-- The fields of a FETCH body (R185). -/
def FetchBody.fits (b : FetchBody) : Bool :=
  Sys2Proof.fits 1 b.kind && Sys2Proof.fits 1 b.priority && Sys2Proof.fits 1 b.rangeCount
    && Sys2Proof.fits 4 b.account && Sys2Proof.fits 4 b.instrument && b.places.length == 4
    && b.places.all fun p => Sys2Proof.fits 1 p.1 && Sys2Proof.fits 1 p.2

/-- The fields of a PAGE body: 1-8 data sectors (R185). -/
def PageBody.fits (b : PageBody) : Bool :=
  Sys2Proof.fits 1 b.page && Sys2Proof.fits 1 b.format && Sys2Proof.fits 1 b.sectors
    && Sys2Proof.fits 1 b.offset && (1 ≤ b.data.length && b.data.length ≤ 8) && b.data.all sectorFits

/-- The fields of a LOAD-SIDE (R18, R184). -/
def SideLoad.fits : SideLoad → Bool
  | .remove side => Sys2Proof.fits 1 side
  | .store side serial state dataHigh written skips spoiled _ =>
    Sys2Proof.fits 1 side && Sys2Proof.fits 4 serial && Sys2Proof.fits 1 state && Sys2Proof.fits 4 dataHigh
      && Sys2Proof.fits 2 written && Sys2Proof.fits 1 skips.length && skips.all (Sys2Proof.fits 2)
      && Sys2Proof.fits 4 spoiled

/-- The figures of one class (R145, R184). -/
def ClassFigures.fits (c : ClassFigures) : Bool :=
  c.normal.length == 4 && c.bulk.length == 4 && c.normal.all (Sys2Proof.fits 2) && c.bulk.all (Sys2Proof.fits 2)
    && Sys2Proof.fits 2 c.threshold && Sys2Proof.fits 3 c.deedFee && Sys2Proof.fits 3 c.certFee
    && Sys2Proof.fits 3 c.minimum && Sys2Proof.fits 3 c.cap

/-- A parameter given or omitted, in a field of `w` bytes. -/
def optionFits (w : Nat) : Option Nat → Bool
  | none => true
  | some n => fits w n

/-- The seven parameters (R184). -/
def ParamValues.fits (v : ParamValues) : Bool :=
  optionFits 4 v.idleUnmount && optionFits 4 v.holdLimit && optionFits 4 v.gatherIdle && optionFits 4 v.quietDelay
    && optionFits 4 v.quietDuration && optionFits 4 v.channelStall && optionFits 1 v.filingPriority

/-- A sector a result names lies on a side (R25). -/
def DriveResult.fits : DriveResult → Bool
  | .blank n | .mediaError n | .verifyFailed n => n ≤ 299999
  | .ok | .notReady | .noCartridge => true

/-- Well-formed commands. -/
def wellFormed : Instr → Bool
  | .memoryCheckDone (some n) => n < 4096
  | .fetch r t b => headerFits r t && b.fits
  | .page r t b => headerFits r t && b.fits
  | .fileEnd r t n => headerFits r t && fits 1 n
  | .hold r t | .resume r t | .cancel r t | .fileOpen r t | .fileAbort r t => headerFits r t
  | .bind r t | .clearRanges r t | .clearPicker r t | .filingResume r t | .restart r t | .clearFault r t
  | .queryStatus r t | .queryContexts r t | .queryFilings r t | .querySchedules r t => headerFits r t
  | .setState r t target _ => headerFits r t && fits 1 target
  | .setParams r t v => headerFits r t && v.fits
  | .loadRequester r t id _ p l => headerFits r t && fits 1 id && fits 1 p && fits 1 l
  | .dropRequester r t n | .driveOffline r t n | .driveRetry r t n | .querySide r t n | .queryDrive r t n =>
    headerFits r t && fits 1 n
  | .loadSide r t l => headerFits r t && l.fits
  | .loadRange r t f l side _ => headerFits r t && fits 4 f && fits 4 l && fits 1 side
  | .setNextInstrument r t n | .closeAccount r t n | .queryAccount r t n => headerFits r t && fits 4 n
  | .loadAccount r t n c l st _ => headerFits r t && fits 4 n && fits 1 c && fits 6 l && fits 1 st
  | .setAccountState r t n st => headerFits r t && fits 4 n && fits 1 st
  | .loadSchedule r t e fs => headerFits r t && fits 2 e && fs.length == 8 && fs.all ClassFigures.fits
  | .dayClose r t d => headerFits r t && fits 2 d
  | .dataBlock _ d => sectorFits d
  | .result _ res => res.fits
  | .occupancy fs => fs.length == 64
  | .powerOnReset | .memoryCheckDone none | .frameAdmission _ | .linkDown | .linkUp | .frameSent
  | .driveWaitingToSend _ | .channelStall _ | .takenFromSlot | .emptySlot | .inserted | .ejected | .placed
  | .motionDone | .pickerFault | .holdBegun | .holdEnded | .idleTimerExpiry _ | .holdTimerExpiry _
  | .gatherIdleExpiry _ => true

end Sys2Proof
end

