-- ==== Sys2Proof/Laws/PerInstr.lean ====
section
/-! SUPPORT. The statement made of every command as syntax, one lemma for each. -/

namespace Sys2Proof.Laws.Header

open Sys2Proof Sys2Proof.Machine

/-- A well-formed request carries a requester id up to 31 and a two-byte tag (R152, R185), and a command with a request
code, which runs from 1 to 27 (11.3), carries such a header. -/
def Statement (i : Instr) : Prop :=
  wellFormed i = true →
    (∀ h, requestHeader i = some h → h.1 ≤ 31 ∧ h.2 < 65536)
      ∧ ∀ c, manageCode i = some c → 1 ≤ c ∧ c ≤ 27 ∧ (requestHeader i).isSome = true

/-- The header that admission lets through. -/
theorem of_fits {r t : Nat} (h : headerFits r t = true) : r ≤ 31 ∧ t < 65536 := by
  simpa [headerFits, fits] using h

/-- A command with a header and perhaps a request code. -/
theorem of_header {i : Instr} {r t : Nat} (hi : requestHeader i = some (r, t))
    (hw : wellFormed i = true → headerFits r t = true) (hc : ∀ c, manageCode i = some c → 1 ≤ c ∧ c ≤ 27) :
    Statement i := fun w =>
  ⟨fun h e => by rw [hi] at e; cases e; exact of_fits (hw w), fun c e => ⟨(hc c e).1, (hc c e).2, by rw [hi]; rfl⟩⟩

/-- An event has neither. -/
theorem of_event {i : Instr} (hi : requestHeader i = none) (hc : manageCode i = none) : Statement i := by
  intro _
  refine ⟨fun h e => ?_, fun c e => ?_⟩
  · rw [hi] at e; cases e
  · rw [hc] at e; cases e

theorem powerOnReset : Statement .powerOnReset := of_event rfl rfl
theorem memoryCheckDone (v0 : Option Nat) : Statement (.memoryCheckDone v0) := of_event rfl rfl
theorem frameAdmission (v0 : List Byte) : Statement (.frameAdmission v0) := of_event rfl rfl
theorem linkDown : Statement .linkDown := of_event rfl rfl
theorem linkUp : Statement .linkUp := of_event rfl rfl
theorem frameSent : Statement .frameSent := of_event rfl rfl
theorem fetch (r t : Nat) (v2 : FetchBody) : Statement (.fetch r t v2) :=
  of_header rfl (by simp +contextual [wellFormed]) (by simp [manageCode])
theorem hold (r t : Nat) : Statement (.hold r t) :=
  of_header rfl (by simp +contextual [wellFormed]) (by simp [manageCode])
theorem resume (r t : Nat) : Statement (.resume r t) :=
  of_header rfl (by simp +contextual [wellFormed]) (by simp [manageCode])
theorem cancel (r t : Nat) : Statement (.cancel r t) :=
  of_header rfl (by simp +contextual [wellFormed]) (by simp [manageCode])
theorem fileOpen (r t : Nat) : Statement (.fileOpen r t) :=
  of_header rfl (by simp +contextual [wellFormed]) (by simp [manageCode])
theorem page (r t : Nat) (v2 : PageBody) : Statement (.page r t v2) :=
  of_header rfl (by simp +contextual [wellFormed]) (by simp [manageCode])
theorem fileEnd (r t : Nat) (v2 : Nat) : Statement (.fileEnd r t v2) :=
  of_header rfl (by simp +contextual [wellFormed]) (by simp [manageCode])
theorem fileAbort (r t : Nat) : Statement (.fileAbort r t) :=
  of_header rfl (by simp +contextual [wellFormed]) (by simp [manageCode])
theorem bind (r t : Nat) : Statement (.bind r t) :=
  of_header rfl (by simp +contextual [wellFormed]) (by simp [manageCode])
theorem setState (r t : Nat) (v2 : Nat) (v3 : Bool) : Statement (.setState r t v2 v3) :=
  of_header rfl (by simp +contextual [wellFormed]) (by simp [manageCode])
theorem setParams (r t : Nat) (v2 : ParamValues) : Statement (.setParams r t v2) :=
  of_header rfl (by simp +contextual [wellFormed]) (by simp [manageCode])
theorem loadRequester (r t : Nat) (v2 : Nat) (v3 : Rights) (v4 v5 : Nat) : Statement (.loadRequester r t v2 v3 v4 v5) :=
  of_header rfl (by simp +contextual [wellFormed]) (by simp [manageCode])
theorem dropRequester (r t : Nat) (v2 : Nat) : Statement (.dropRequester r t v2) :=
  of_header rfl (by simp +contextual [wellFormed]) (by simp [manageCode])
theorem loadSide (r t : Nat) (v2 : SideLoad) : Statement (.loadSide r t v2) :=
  of_header rfl (by simp +contextual [wellFormed]) (by simp [manageCode])
theorem loadRange (r t : Nat) (v2 v3 v4 : Nat) (v5 : Bool) : Statement (.loadRange r t v2 v3 v4 v5) :=
  of_header rfl (by simp +contextual [wellFormed]) (by simp [manageCode])
theorem clearRanges (r t : Nat) : Statement (.clearRanges r t) :=
  of_header rfl (by simp +contextual [wellFormed]) (by simp [manageCode])
theorem setNextInstrument (r t : Nat) (v2 : Nat) : Statement (.setNextInstrument r t v2) :=
  of_header rfl (by simp +contextual [wellFormed]) (by simp [manageCode])
theorem loadAccount (r t : Nat) (v2 v3 v4 v5 : Nat) (v6 : Bool) : Statement (.loadAccount r t v2 v3 v4 v5 v6) :=
  of_header rfl (by simp +contextual [wellFormed]) (by simp [manageCode])
theorem setAccountState (r t : Nat) (v2 v3 : Nat) : Statement (.setAccountState r t v2 v3) :=
  of_header rfl (by simp +contextual [wellFormed]) (by simp [manageCode])
theorem closeAccount (r t : Nat) (v2 : Nat) : Statement (.closeAccount r t v2) :=
  of_header rfl (by simp +contextual [wellFormed]) (by simp [manageCode])
theorem loadSchedule (r t : Nat) (v2 : Nat) (v3 : List ClassFigures) : Statement (.loadSchedule r t v2 v3) :=
  of_header rfl (by simp +contextual [wellFormed]) (by simp [manageCode])
theorem dayClose (r t : Nat) (v2 : Nat) : Statement (.dayClose r t v2) :=
  of_header rfl (by simp +contextual [wellFormed]) (by simp [manageCode])
theorem driveOffline (r t : Nat) (v2 : Nat) : Statement (.driveOffline r t v2) :=
  of_header rfl (by simp +contextual [wellFormed]) (by simp [manageCode])
theorem driveRetry (r t : Nat) (v2 : Nat) : Statement (.driveRetry r t v2) :=
  of_header rfl (by simp +contextual [wellFormed]) (by simp [manageCode])
theorem clearPicker (r t : Nat) : Statement (.clearPicker r t) :=
  of_header rfl (by simp +contextual [wellFormed]) (by simp [manageCode])
theorem filingResume (r t : Nat) : Statement (.filingResume r t) :=
  of_header rfl (by simp +contextual [wellFormed]) (by simp [manageCode])
theorem restart (r t : Nat) : Statement (.restart r t) :=
  of_header rfl (by simp +contextual [wellFormed]) (by simp [manageCode])
theorem clearFault (r t : Nat) : Statement (.clearFault r t) :=
  of_header rfl (by simp +contextual [wellFormed]) (by simp [manageCode])
theorem queryStatus (r t : Nat) : Statement (.queryStatus r t) :=
  of_header rfl (by simp +contextual [wellFormed]) (by simp [manageCode])
theorem queryAccount (r t : Nat) (v2 : Nat) : Statement (.queryAccount r t v2) :=
  of_header rfl (by simp +contextual [wellFormed]) (by simp [manageCode])
theorem querySide (r t : Nat) (v2 : Nat) : Statement (.querySide r t v2) :=
  of_header rfl (by simp +contextual [wellFormed]) (by simp [manageCode])
theorem queryDrive (r t : Nat) (v2 : Nat) : Statement (.queryDrive r t v2) :=
  of_header rfl (by simp +contextual [wellFormed]) (by simp [manageCode])
theorem queryContexts (r t : Nat) : Statement (.queryContexts r t) :=
  of_header rfl (by simp +contextual [wellFormed]) (by simp [manageCode])
theorem queryFilings (r t : Nat) : Statement (.queryFilings r t) :=
  of_header rfl (by simp +contextual [wellFormed]) (by simp [manageCode])
theorem querySchedules (r t : Nat) : Statement (.querySchedules r t) :=
  of_header rfl (by simp +contextual [wellFormed]) (by simp [manageCode])
theorem driveWaitingToSend (v0 : Fin 4) : Statement (.driveWaitingToSend v0) := of_event rfl rfl
theorem dataBlock (v0 : Fin 4) (v1 : Sector) : Statement (.dataBlock v0 v1) := of_event rfl rfl
theorem result (v0 : Fin 4) (v1 : DriveResult) : Statement (.result v0 v1) := of_event rfl rfl
theorem channelStall (v0 : Fin 4) : Statement (.channelStall v0) := of_event rfl rfl
theorem takenFromSlot : Statement .takenFromSlot := of_event rfl rfl
theorem emptySlot : Statement .emptySlot := of_event rfl rfl
theorem inserted : Statement .inserted := of_event rfl rfl
theorem ejected : Statement .ejected := of_event rfl rfl
theorem placed : Statement .placed := of_event rfl rfl
theorem motionDone : Statement .motionDone := of_event rfl rfl
theorem occupancy (v0 : List SlotFinding) : Statement (.occupancy v0) := of_event rfl rfl
theorem pickerFault : Statement .pickerFault := of_event rfl rfl
theorem holdBegun : Statement .holdBegun := of_event rfl rfl
theorem holdEnded : Statement .holdEnded := of_event rfl rfl
theorem idleTimerExpiry (v0 : Fin 4) : Statement (.idleTimerExpiry v0) := of_event rfl rfl
theorem holdTimerExpiry (v0 : Fin 16) : Statement (.holdTimerExpiry v0) := of_event rfl rfl
theorem gatherIdleExpiry (v0 : Fin 8) : Statement (.gatherIdleExpiry v0) := of_event rfl rfl

end Sys2Proof.Laws.Header
end

