-- ==== Sys2Proof/Laws/Wanes.lean ====
section
/-! SUPPORT. What the loss of a drive, a side or an order can do to drives, contexts, orders and sides: the relation `Wanes`,
reflexive and transitive. -/

namespace Sys2Proof.Machine

/-- Drives keep their states and lose work; a context that is not live keeps its state and outcome; a waiter was one
before; a record that is STUCK stays so. -/
structure Wanes (s t : State) : Prop where
  drives : ∀ d, (t.drive d).state = (s.drive d).state ∧ (t.drive d).cause = (s.drive d).cause
    ∧ (t.drive d).cartridge = (s.drive d).cartridge ∧ (t.drive d).channel = (s.drive d).channel
    ∧ (t.drive d).waitTake = (s.drive d).waitTake ∧ (t.drive d).waitSend = (s.drive d).waitSend
    ∧ (t.drive d).stall = (s.drive d).stall ∧ (t.drive d).current = (s.drive d).current
    ∧ (t.drive d).owed = (s.drive d).owed ∧ (t.drive d).idle = (s.drive d).idle
    ∧ (t.drive d).queue ⊆ (s.drive d).queue ∧ (t.drive d).attached ⊆ (s.drive d).attached
    ∧ (t.drive d).incoming ⊆ (s.drive d).incoming
  ctx : ∀ c, (s.context c).state.live = false →
    (t.context c).state = (s.context c).state ∧ (t.context c).outcome = (s.context c).outcome
  length : t.ctx.length = s.ctx.length
  orders : ∀ p ∈ t.lib.orders, ∀ c ∈ p.waiters, ∃ p' ∈ s.lib.orders, c ∈ p'.waiters
  sides : ∀ n r, s.side n = some r → ∃ r', t.side n = some r' ∧ (r.state = .stuck → r'.state = .stuck)

variable {s t u : State}

theorem Wanes.refl (s : State) : Wanes s s :=
  ⟨fun d => by simp, fun c h => ⟨rfl, rfl⟩, rfl, fun p hp c hc => ⟨p, hp, hc⟩, fun n r h => ⟨r, h, id⟩⟩

theorem Wanes.trans (h : Wanes s t) (g : Wanes t u) : Wanes s u where
  drives d := by
    obtain ⟨h1, h2, h3, h4, h5, h6, h7, h8, h9, h10, h11, h12, h13⟩ := h.drives d
    obtain ⟨g1, g2, g3, g4, g5, g6, g7, g8, g9, g10, g11, g12, g13⟩ := g.drives d
    exact ⟨g1.trans h1, g2.trans h2, g3.trans h3, g4.trans h4, g5.trans h5, g6.trans h6, g7.trans h7, g8.trans h8,
      g9.trans h9, g10.trans h10, fun x hx => h11 (g11 hx), fun x hx => h12 (g12 hx), fun x hx => h13 (g13 hx)⟩
  ctx c hc := by
    obtain ⟨h1, h2⟩ := h.ctx c hc
    obtain ⟨g1, g2⟩ := g.ctx c (by rw [h1]; exact hc)
    exact ⟨g1.trans h1, g2.trans h2⟩
  length := g.length.trans h.length
  orders p hp c hc := by
    obtain ⟨p1, h1, h2⟩ := g.orders p hp c hc
    exact h.orders p1 h1 c h2
  sides n r hr := by
    obtain ⟨r1, h1, h2⟩ := h.sides n r hr
    obtain ⟨r2, g1, g2⟩ := g.sides n r1 h1
    exact ⟨r2, g1, fun i => g2 (h2 i)⟩

/-- A change of none of the tables looked at. -/
theorem Wanes.same (hd : t.drives = s.drives) (hc : t.ctx = s.ctx) (hs : t.lib.sides = s.lib.sides)
    (ho : ∀ p ∈ t.lib.orders, ∀ c ∈ p.waiters, ∃ p' ∈ s.lib.orders, c ∈ p'.waiters) : Wanes s t where
  drives d := by simp [State.drive, hd]
  ctx c _ := by simp [State.context, hc]
  length := by rw [hc]
  orders := ho
  sides n r hr := ⟨r, by simpa [State.side, hs] using hr, id⟩

theorem Wanes.unseen (hd : t.drives = s.drives) (hc : t.ctx = s.ctx) (hl : t.lib = s.lib) : Wanes s t :=
  .same hd hc (by rw [hl]) (by rw [hl]; exact fun p hp c hc => ⟨p, hp, hc⟩)

theorem drive_map (f : Drive → Drive) (hf : f Drive.reset = Drive.reset) (hd : t.drives = s.drives.map f) (d : Nat) :
    t.drive d = f (s.drive d) := by
  simp only [State.drive, hd, List.getD_eq_getElem?_getD, List.getElem?_map]
  cases s.drives[d]? <;> simp [hf]

/-- A live context stands in the table. -/
theorem live_lt (h : (s.context n).state.live = true) : n < s.ctx.length := by
  by_contra g
  rw [context_out _ _ (by omega)] at h; cases h

theorem context_endContext {c : Nat} {o : Ending} (i : Nat) (hl : (s.context c).state.live = true) :
    (endContext c o s).context i = if i = c then (Context.close o (s.context c)).discard else s.context i := by
  have : (endContext c o s).context i = (s.modContext c fun y => (Context.close o y).discard).context i := by
    simp only [State.context, (endContext_spec hl).1]; rfl
  rw [this, context_modContext]
  by_cases g : i = c
  · subst g; rw [if_pos ⟨rfl, live_lt hl⟩, if_pos rfl]
  · rw [if_neg g, if_neg]; intro g'; exact g g'.1.symm

theorem endContext_idle {c : Nat} {o : Ending} (h : (s.context c).state.live = false) : endContext c o s = s := by
  simp [endContext, h]

theorem Wanes.endContext {c : Nat} {o : Ending} : Wanes s (endContext c o s) := by
  by_cases hl : (s.context c).state.live = true
  · obtain ⟨h1, h2, h3, h4, h5, h6, h7⟩ := endContext_spec (o := o) hl
    refine ⟨fun d => ?_, fun i hi => ?_, by rw [h1]; simp, fun p hp i hi => ?_, fun n r hr => ⟨r, ?_, id⟩⟩
    · rw [drive_map _ (by simp [Drive.reset]) h2]
      simp
    · rw [context_endContext i hl, if_neg]
      · exact ⟨rfl, rfl⟩
      · rintro rfl; rw [hl] at hi; cases hi
    · obtain ⟨p', g1, g2⟩ := h7 p hp
      rw [g2] at hi
      exact ⟨p', g1, (List.mem_filter.1 hi).1⟩
    · simpa [State.side, h3] using hr
  · rw [endContext_idle (by simpa using hl)]; exact .refl s

/-- Several contexts end: each that was live turns ENDING with the outcome, the others stay. -/
theorem endContexts_spec (cs : List Nat) (o : Ending) (s : State) :
    Wanes s (endContexts cs o s)
      ∧ (∀ c ∈ cs, (s.context c).state.live = true →
        ((endContexts cs o s).context c).state = .ending ∧ ((endContexts cs o s).context c).outcome = some o)
      ∧ (∀ c, c ∉ cs → (endContexts cs o s).context c = s.context c)
      ∧ (endContexts cs o s).mu = s.mu ∧ (endContexts cs o s).fil = s.fil
      ∧ (endContexts cs o s).lib.picker = s.lib.picker ∧ (endContexts cs o s).drives.length = s.drives.length
      ∧ (endContexts cs o s).lib.sides = s.lib.sides := by
  induction cs generalizing s with
  | nil => exact ⟨.refl s, by simp, fun _ _ => rfl, rfl, rfl, rfl, rfl, rfl⟩
  | cons a cs ih =>
    obtain ⟨i1, i2, i3, i4, i5, i6, i7, i8⟩ := ih (Sys2Proof.Machine.endContext a o s)
    have e : endContexts (a :: cs) o s = endContexts cs o (Sys2Proof.Machine.endContext a o s) := rfl
    rw [e]
    by_cases hl : (s.context a).state.live = true
    · obtain ⟨h1, h2, h3, h4, h5, h6, h7⟩ := endContext_spec (o := o) hl
      refine ⟨Wanes.endContext.trans i1, ?_, ?_, i4.trans h6, i5.trans h5, i6.trans h4, i7.trans (by rw [h2]; simp), i8.trans h3⟩
      · intro c hc hcl
        by_cases g : c = a
        · subst g
          have := context_endContext (o := o) c hl
          rw [if_pos rfl] at this
          have hn : ((Sys2Proof.Machine.endContext c o s).context c).state.live = false := by rw [this]; rfl
          obtain ⟨j1, j2⟩ := i1.ctx c hn
          rw [j1, j2, this]; exact ⟨rfl, rfl⟩
        · have := context_endContext (o := o) c hl
          rw [if_neg g] at this
          refine i2 c ?_ (by rw [this]; exact hcl)
          simpa [g] using hc
      · intro c hc
        rw [i3 c (by simp_all), context_endContext c hl, if_neg (by simp_all)]
    · have e2 : Sys2Proof.Machine.endContext a o s = s := endContext_idle (by simpa using hl)
      rw [e2] at i1 i2 i3 i4 i5 i6 i7 i8 ⊢
      refine ⟨i1, ?_, fun c hc => i3 c (by simp_all), i4, i5, i6, i7, i8⟩
      intro c hc hcl
      have : c ≠ a := by rintro rfl; exact hl hcl
      exact i2 c (by simpa [this] using hc) hcl

theorem Wanes.endContexts {cs : List Nat} {o : Ending} : Wanes s (endContexts cs o s) := (endContexts_spec cs o s).1

theorem Wanes.compose {r g : Nat} {b : OutBody} : Wanes s (compose r g b s) := .unseen rfl rfl rfl

theorem Wanes.raise {d : NoticeDetails} : Wanes s (raise_ d s) := .unseen (by simp) (by simp) (by simp)

theorem Wanes.foldl {α : Type} (f : State → α → State) (hf : ∀ t a, Wanes t (f t a)) (l : List α) (s : State) :
    Wanes s (l.foldl f s) := by
  induction l generalizing s with
  | nil => exact .refl s
  | cons a l ih => exact (hf s a).trans (ih _)

theorem Wanes.answerLate {w : LateKind → Bool} {c : LateKind → Nat} {b : LateKind → List Byte} : Wanes s (answerLate w c b s) := by
  unfold Sys2Proof.Machine.answerLate
  extract_lets due
  refine Wanes.trans ?_ (Wanes.foldl _ (fun t a => Wanes.compose) _ _)
  exact .unseen rfl rfl rfl

theorem Wanes.reprioritise : Wanes s (reprioritise s) := by
  refine .same (by simp) (by simp) (by simp) ?_
  rw [reprioritise_orders]
  intro p hp c hc
  obtain ⟨p', h, rfl⟩ := List.mem_map.1 hp
  exact ⟨p', h, hc⟩

theorem Wanes.withdrawMarker : Wanes s (withdrawMarker s) := by
  unfold Sys2Proof.Machine.withdrawMarker
  dsimp only
  have h : Wanes s { s with
    lib.orders := (s.lib.orders.map fun o => { o with marker := false }).filter fun o => !o.abandoned
    drives := s.drives.map fun d => { d with incomingMarker := false }
    fil.mountFor := none } := by
    refine ⟨fun d => ?_, fun _ _ => ⟨rfl, rfl⟩, rfl, ?_, fun n r h => ⟨r, h, id⟩⟩
    · rw [drive_map _ rfl rfl]; simp
    · intro p hp c hc
      obtain ⟨p', h, rfl⟩ := List.mem_map.1 (List.mem_filter.1 hp).1
      exact ⟨p', h, hc⟩
  split
  · exact (h.trans .reprioritise).trans (.unseen rfl rfl rfl)
  · exact h.trans .reprioritise

theorem Wanes.setHalt {x : Halt} : Wanes s (setHalt x s) := by
  unfold Sys2Proof.Machine.setHalt
  extract_lets f s1
  have h1 : Wanes s s1 := by
    simp only [s1]; split
    · exact .refl s
    · refine Wanes.trans ?_ .raise
      exact .unseen rfl rfl rfl
  split
  · exact h1
  · exact h1.trans .withdrawMarker

theorem Wanes.callReadiness : Wanes s s.callReadiness := .unseen rfl rfl rfl

theorem Wanes.returnMarker : Wanes s (returnMarker s) := by
  unfold Sys2Proof.Machine.returnMarker
  split <;> exact .unseen rfl rfl rfl

theorem Wanes.removeOrder {id : Nat} : Wanes s (removeOrder id s) :=
  .same rfl rfl rfl fun p hp _ hc => ⟨p, (List.mem_filter.1 hp).1, hc⟩

theorem Wanes.dropAbandoned : Wanes s (dropAbandoned s) :=
  .same rfl rfl rfl fun p hp _ hc => ⟨p, (List.mem_filter.1 hp).1, hc⟩

theorem Wanes.modOrder {id : Nat} {f : Order → Order} (hf : ∀ o, (f o).waiters = o.waiters) : Wanes s (modOrder id f s) := by
  refine .same rfl rfl rfl fun p hp c hc => ?_
  obtain ⟨p', h, rfl⟩ := List.mem_map.1 hp
  refine ⟨p', h, ?_⟩
  split at hc
  · rwa [hf] at hc
  · exact hc

theorem Wanes.dropOrder {o : Order} : Wanes s (dropOrder o s) := by
  unfold Sys2Proof.Machine.dropOrder
  dsimp only
  split
  · exact (Wanes.removeOrder.trans .endContexts).trans .returnMarker
  · exact Wanes.removeOrder.trans .endContexts

theorem Wanes.removeMount {n : Nat} : Wanes s (removeMount n s) := by
  unfold Sys2Proof.Machine.removeMount
  split
  · exact .refl s
  · split
    · exact .refl s
    · exact .dropOrder

theorem Wanes.sideGone {n : Nat} {b : Bool} : Wanes s (sideGone n b s) := by
  unfold Sys2Proof.Machine.sideGone
  extract_lets s1
  have h1 : Wanes s s1 := by
    simp only [s1]
    refine Wanes.trans ?_ .removeMount
    split
    · exact .unseen rfl rfl rfl
    · exact .refl s
  split
  · exact h1.trans .setHalt
  · exact h1

theorem Wanes.modSide {n : Nat} {f : SideRecord → SideRecord} (hf : ∀ r, r.state = .stuck → (f r).state = .stuck) :
    Wanes s (s.modSide n f) := by
  refine ⟨fun d => by simp [State.drive], fun _ _ => ⟨rfl, rfl⟩, rfl, fun p hp c hc => ⟨p, hp, hc⟩, fun i r hr => ?_⟩
  rw [side_modSide, hr]
  split
  · exact ⟨f r, rfl, hf r⟩
  · exact ⟨r, rfl, id⟩

theorem Wanes.turnStuck {c : Nat} : Wanes s (turnStuck c s) := by
  unfold Sys2Proof.Machine.turnStuck
  refine Wanes.trans ?_ (Wanes.foldl _ (fun t n => Wanes.sideGone) _ _)
  have hs : ∀ r : SideRecord, r.state = .stuck → r.stick.state = .stuck := fun r h => by simp [SideRecord.stick, h]
  exact (Wanes.modSide hs).trans (Wanes.modSide hs)

theorem Wanes.callArbiter : Wanes s s.callArbiter := .unseen rfl rfl rfl

theorem Wanes.endSequence : Wanes s (endSequence s) := .unseen rfl rfl rfl

theorem Wanes.spoilExtent {f : Nat} : Wanes s (spoilExtent f s) := by
  unfold Sys2Proof.Machine.spoilExtent
  dsimp only
  split
  · exact .unseen rfl rfl rfl
  · exact Wanes.trans (Wanes.modSide (by simp)) (.unseen rfl rfl rfl)

theorem Wanes.freeFiling {f : Nat} : Wanes s (freeFiling f s) := by
  unfold Sys2Proof.Machine.freeFiling
  dsimp only
  split
  · exact .unseen rfl rfl rfl
  · exact .unseen rfl rfl rfl

theorem Wanes.discardFiling {f : Nat} {c : FileCause} : Wanes s (discardFiling f c s) :=
  Wanes.trans .compose .freeFiling

theorem Wanes.skip {n : Nat} : Wanes s (s.modSide n SideRecord.skip) :=
  .modSide fun r h => by unfold SideRecord.skip; split <;> exact h

theorem Wanes.giveUpIndex {n : Nat} : Wanes s (giveUpIndex n s) := by
  unfold Sys2Proof.Machine.giveUpIndex
  have h : Wanes s (s.modSide n SideRecord.skip) := .skip
  dsimp only
  split
  · exact h.trans (.unseen rfl rfl rfl)
  · exact h

theorem Wanes.loseIndex : Wanes s (loseIndex s) := by
  unfold Sys2Proof.Machine.loseIndex
  split
  · exact .refl s
  · split
    · split
      · exact .giveUpIndex
      · exact .skip
    · exact .refl s

theorem Wanes.filingLost : Wanes s (filingLost s) := by
  unfold Sys2Proof.Machine.filingLost
  split
  · dsimp only
    rename_i f _ _
    have h : Wanes s (Sys2Proof.Machine.endSequence (Sys2Proof.Machine.spoilExtent f s)) :=
      Wanes.trans .spoilExtent .endSequence
    split
    · exact h.trans .discardFiling
    · refine Wanes.trans (h.trans ?_) .setHalt
      exact .unseen rfl rfl rfl
  · exact .endSequence
  · exact (Wanes.loseIndex.trans .endSequence).trans .setHalt
  · exact (Wanes.loseIndex.trans .endSequence).trans .setHalt
  · exact .unseen rfl rfl rfl
  · exact .refl s
  · exact .refl s

theorem Wanes.abandonMotion {d : Nat} : Wanes s (abandonMotion d s) := by
  unfold Sys2Proof.Machine.abandonMotion
  split
  · exact .refl s
  · split
    · exact .refl s
    · extract_lets s1 s2
      have h1 : Wanes s s1 := .same rfl rfl rfl fun p hp c hc => ⟨p, hp, hc⟩
      refine Wanes.trans ?_ .callArbiter
      simp only [s2]
      split
      · exact h1
      · split
        · exact h1
        · split
          · refine Wanes.trans ?_ .dropAbandoned
            exact h1.trans (.modOrder fun _ => rfl)
          · exact h1.trans .removeOrder

end Sys2Proof.Machine
end

