-- ==== Sys2Proof/Tests/Slice0.lean ====
section
/-! SUPPORT. The tests: each check of `WellFormed` refuses an ill-formed command; worked cases of the reference, each with its
source; and for every statement with hypotheses a witness that meets them, clause by clause. -/

namespace Sys2Proof.Tests

set_option Elab.async false

open Sys2Proof Sys2Proof.Machine

/-! ### A small part -/

/-- Every right. -/
def rights : Rights := { copy := true, view := true, file := true }

/-- A requester of priority 2 at most and two contexts. -/
def requester : Requester := { rights := rights, maxPriority := 2, contextLimit := 2 }

/-- Side 0, FILLED, in drive 0. -/
def side : SideRecord :=
  { serial := 7, state := .filled, prior := none, location := .drive 0, dataHigh := 1000, written := 2, skips := []
    spoiled := 0, incomplete := false }

/-- The class figures of the worked cases of chapter 7. -/
def rates : ClassFigures :=
  { normal := [1250, 0, 6000, 0], bulk := [900, 0, 4500, 0], threshold := 200, deedFee := 2000, certFee := 5000
    minimum := 3000, cap := 15000 }

/-- Account 30,442 before the credit stop (chapter 8, worked case). -/
def account : Account :=
  { number := 30442, cls := 1, state := .opened, limit := 250000, charged := 248900, residue := 7, dayPages := 198
    dayCents := 0, dayDeeds := 0, prevPages := 0, prevCents := 0, prevDeeds := 0, inFlight := 0 }

/-- A drive that is READY with side 0. -/
def ready : Drive :=
  { Drive.reset with state := .ready, cartridge := some 0, face := some 0, idle := some { start := 0, limit := 60000 } }

/-- A requester table with the records of ids 0 and 31. -/
def table : List (Option Requester) := some requester :: (List.replicate 30 none ++ [some requester])

/-- A part that is SERVING under manager 0. -/
def served : State :=
  { State.reset with
    memory := .passed
    mu := { Mu.reset with manager := some 0, service := .serving, requesters := table }
    lib := { Lib.reset with sides := some side :: List.replicate 127 none }
    drives := ready :: List.replicate 3 { Drive.reset with state := .empty }
    loc := { ranges := [{ first := 1, last := 100, side := 0, openFlag := false }], cache := [], entries := [] }
    fil := { Fil.reset with nNext := some 101 }
    tal := { slots := { role := .active, generation := 1, effective := 1, refs := 0, figures := List.replicate 8 rates }
                      :: List.replicate 2 Slot.reset
             nextGeneration := 2, accounts := [account], feeDay := 412 } }

/-- The same part in STANDBY. -/
def standing : State := { served with mu.service := .standby }

/-- The state after a command. -/
def after (i : Instr) (s : State) : State :=
  match exec i s with
  | .next t => t
  | .fault _ | .refused _ => s

/-- A FETCH of instrument 50 on the account of the worked cases. -/
def fetchBody : FetchBody :=
  { kind := 0, certified := true, priority := 3, rangeCount := 0, account := 30442, instrument := 50
    places := [(0, 0), (0, 0), (0, 0), (0, 0)] }

/-- A page of one sector. -/
def pageBody : PageBody := { page := 1, format := 0, sectors := 1, offset := 0, data := [List.replicate 1024 0] }

/-- A STREAMING copy that has delivered pages 1 and 2. -/
def streaming : Context :=
  { Context.reset with
    state := .streaming, tag := 5, kind := .copy, certified := true, account := 30442, feeClass := 1
    generation := some 1, priority := 2, instrument := 50, side := 0, k := 49
    directory := some { address := 10, pages := [{ format := 0, offset := 1, sectors := 1 },
                                                 { format := 0, offset := 2, sectors := 1 },
                                                 { format := 2, offset := 3, sectors := 1 }] }
    chosen := [1, 2, 3], nextPage := some 3, delivered := 2, subtotal := 2500 }

/-- The part with contexts. -/
def withContexts (xs : List Context) : State :=
  { served with ctx := xs ++ List.replicate (16 - xs.length) Context.reset }

/-- The part with filings. -/
def withFilings (xs : List Filing) : State :=
  { served with fil.records := xs ++ List.replicate (8 - xs.length) Filing.reset }

/-- A filing that gathers, with one whole page. -/
def gathering : Filing :=
  { Filing.reset with
    state := .gathering, tag := 5, pages := [{ format := 0, sectors := 1, received := 1 }]
    frames := [List.replicate 1024 0], timer := some { start := 0, limit := 900000 } }

/-- A frame of the control list. -/
def frame : ControlFrame := { seq := 0, frame := { requester := 0, tag := 0, body := .refused .busy 1 } }

/-- The part with frames waiting in the control list. -/
def crowded (n : Nat) : State := { served with rli.control := List.replicate n frame }

/-- The part with frames waiting in the inbound buffer. -/
def queued (qs : List Request) (n : Nat) : State :=
  { served with rli.inbound := qs, rli.control := List.replicate n frame }

/-- The part with a command on the channel of drive 0. -/
def onChannel (channel : ChannelState) (c : Current) : State :=
  { served with drives := { ready with channel := channel, current := some c, stall := some { start := 0, limit := 10000 } }
                  :: List.replicate 3 { Drive.reset with state := .empty } }

/-- A READ of two sectors for context 0. -/
def readEntry : QueueEntry :=
  { issuer := .page 0, op := .read, first := 11, count := 2, data := [], priority := 2, age := 0, retries := 0
    notReady := 0, have_ := 0 }

/-- It is in flight. -/
def reading : Current := { entry := readEntry, sent := true, blocks := 0, got := [] }

/-- The part with a motion in progress. -/
def moving (m : Motion) (held : Option Nat) : State :=
  { served with lib.picker := { Picker.reset with state := .moving, motion := some m, held := held } }

/-- A motion of cartridge 1 and drive 1. -/
def motion (kind : MotionKind) (last : Option PickerEvent) : Motion :=
  { kind := kind, order := none, served := none, cartridge := some 1, drive := some 1, face := some 0, last := last, started := true }

/-! ### Each check refuses an ill-formed command -/

theorem test_memory_frame_refused : wellFormed (.memoryCheckDone (some 4096)) = false := by decide
theorem test_requester_refused : wellFormed (.hold 32 0) = false := by decide
theorem test_tag_refused : wellFormed (.cancel 0 65536) = false := by decide
theorem test_fetch_kind_refused : wellFormed (.fetch 0 0 { fetchBody with kind := 256 }) = false := by decide
theorem test_fetch_priority_refused : wellFormed (.fetch 0 0 { fetchBody with priority := 256 }) = false := by decide
theorem test_fetch_count_refused : wellFormed (.fetch 0 0 { fetchBody with rangeCount := 256 }) = false := by decide
theorem test_fetch_account_refused : wellFormed (.fetch 0 0 { fetchBody with account := 2 ^ 32 }) = false := by decide
theorem test_fetch_instrument_refused : wellFormed (.fetch 0 0 { fetchBody with instrument := 2 ^ 32 }) = false := by
  decide
theorem test_fetch_places_refused : wellFormed (.fetch 0 0 { fetchBody with places := [(1, 2)] }) = false := by decide
theorem test_fetch_place_refused :
    wellFormed (.fetch 0 0 { fetchBody with places := [(0, 0), (0, 0), (0, 0), (0, 256)] }) = false := by decide
theorem test_fetch_formed : wellFormed (.fetch 31 65535 fetchBody) = true := by decide
theorem test_page_number_refused : wellFormed (.page 0 0 { pageBody with page := 256 }) = false := by decide
theorem test_page_format_refused : wellFormed (.page 0 0 { pageBody with format := 256 }) = false := by decide
theorem test_page_sectors_refused : wellFormed (.page 0 0 { pageBody with sectors := 256 }) = false := by decide
theorem test_page_offset_refused : wellFormed (.page 0 0 { pageBody with offset := 256 }) = false := by decide
theorem test_page_data_refused : wellFormed (.page 0 0 { pageBody with data := [] }) = false := by decide
theorem test_page_sector_refused : wellFormed (.page 0 0 { pageBody with data := [[0]] }) = false := by decide
theorem test_file_end_refused : wellFormed (.fileEnd 0 0 256) = false := by decide
theorem test_target_refused : wellFormed (.setState 0 0 256 false) = false := by decide
theorem test_time_refused :
    wellFormed (.setParams 0 0 { idleUnmount := none, holdLimit := some (2 ^ 32), gatherIdle := none, quietDelay := none
                                 quietDuration := none, channelStall := none, filingPriority := none }) = false := by
  decide
theorem test_param_priority_refused :
    wellFormed (.setParams 0 0 { idleUnmount := none, holdLimit := none, gatherIdle := none, quietDelay := none
                                 quietDuration := none, channelStall := none, filingPriority := some 256 }) = false := by
  decide
theorem test_requester_id_refused : wellFormed (.loadRequester 0 0 256 rights 3 16) = false := by decide
theorem test_requester_priority_refused : wellFormed (.loadRequester 0 0 1 rights 256 16) = false := by decide
theorem test_requester_limit_refused : wellFormed (.loadRequester 0 0 1 rights 3 256) = false := by decide
theorem test_unit_number_refused : wellFormed (.queryDrive 0 0 256) = false := by decide
theorem test_removed_side_refused : wellFormed (.loadSide 0 0 (.remove 256)) = false := by decide
theorem test_side_serial_refused : wellFormed (.loadSide 0 0 (.store 0 (2 ^ 32) 0 0 0 [] 0 false)) = false := by decide
theorem test_side_written_refused : wellFormed (.loadSide 0 0 (.store 0 0 1 1 65536 [] 0 false)) = false := by decide
theorem test_side_skip_refused : wellFormed (.loadSide 0 0 (.store 0 0 1 1 0 [65536] 0 false)) = false := by decide
theorem test_range_first_refused : wellFormed (.loadRange 0 0 (2 ^ 32) 0 0 false) = false := by decide
theorem test_range_side_refused : wellFormed (.loadRange 0 0 1 0 256 false) = false := by decide
theorem test_number_refused : wellFormed (.setNextInstrument 0 0 (2 ^ 32)) = false := by decide
theorem test_credit_limit_refused : wellFormed (.loadAccount 0 0 1 0 (2 ^ 48) 0 false) = false := by decide
theorem test_account_state_refused : wellFormed (.setAccountState 0 0 1 256) = false := by decide
theorem test_effective_day_refused : wellFormed (.loadSchedule 0 0 65536 (List.replicate 8 rates)) = false := by decide
theorem test_classes_refused : wellFormed (.loadSchedule 0 0 1 (List.replicate 7 rates)) = false := by decide
theorem test_rate_refused :
    wellFormed (.loadSchedule 0 0 1 (List.replicate 8 { rates with normal := [65536, 0, 0, 0] })) = false := by decide
theorem test_fee_refused :
    wellFormed (.loadSchedule 0 0 1 (List.replicate 8 { rates with cap := 2 ^ 24 })) = false := by decide
theorem test_day_refused : wellFormed (.dayClose 0 0 65536) = false := by decide
theorem test_block_refused : wellFormed (.dataBlock 0 [0]) = false := by decide
theorem test_result_refused : wellFormed (.result 0 (.mediaError 300000)) = false := by decide
theorem test_occupancy_refused : wellFormed (.occupancy [.empty]) = false := by decide

/-! ### Worked cases -/

/-- The check value of this CRC for the nine digits 1 to 9 (PRESUMED: the published check value of the polynomial with this
preset, from outside the reference). -/
theorem test_crc_of_digits : crc16 [0x31, 0x32, 0x33, 0x34, 0x35, 0x36, 0x37, 0x38, 0x39] = 0x29B1 := by decide +kernel

/-- Chapter 11, worked case: the FETCH of requester 6 with tag 4,410. -/
theorem test_small_fetch_read :
    readRequest 1 6 4410 (bigEndian 4 0x00000201 ++ bigEndian 4 40117 ++ bigEndian 4 20211500 ++ bigEndian 2 0x0203
        ++ List.replicate 6 0)
      = .known (.fetch 6 4410 { kind := 0, certified := false, priority := 2, rangeCount := 1, account := 40117
                                instrument := 20211500, places := [(2, 3), (0, 0), (0, 0), (0, 0)] }) := by decide

/-- Chapter 1, worked case 2: positions past the skip entries 37, 37, 82. -/
theorem test_positions_past_skips :
    let r : SideRecord := { side with written := 100, skips := [37, 37, 82] }
    [36, 37, 38, 82, 99, 40].map r.indexPosition = [299963, 299960, 299959, 299914, 299897, 299957]
      ∧ r.indexLow = 299896 := by decide

/-- Chapter 1, worked cases 1 and 3: a plain test, one met with equality, one that fails by one sector. -/
theorem test_space_test :
    let one : SideRecord := { side with state := .opened, dataHigh := 250000, written := 20 }
    let three : SideRecord := { side with state := .opened, dataHigh := 299800, written := 120, skips := [45, 119] }
    one.fits 40 10 = true ∧ three.fits 60 63 = true ∧ three.fits 61 63 = false := by decide

/-- Chapter 3, worked case: three insertions and ejections. -/
theorem test_windows_of_worked_case :
    addWindow { start := 1240, stop := 1540 } [{ start := 1040, stop := 1340 }] = [{ start := 1040, stop := 1540 }]
      ∧ addWindow { start := 1640, stop := 1940 } [{ start := 1040, stop := 1540 }]
        = [{ start := 1040, stop := 1540 }, { start := 1640, stop := 1940 }] := by decide

/-- Chapter 7, worked cases: certified and complete, cancelled after page 3, capped, the minimum over the cap, a small copy. -/
theorem test_deed_charges :
    deedCharge rates .copy 5 8800 true .complete = 15800 ∧ deedCharge rates .copy 3 7000 true .cancelled = 9000
      ∧ deedCharge rates .copy 30 37500 true .complete = 20000
      ∧ deedCharge { rates with deedFee := 500, cap := 2000 } .copy 1 1800 false .complete = 3000
      ∧ deedCharge { rates with deedFee := 0, minimum := 1000, cap := 0 } .copy 1 500 false .complete = 1000 := by decide

/-- Chapter 7, worked cases: a residue carried, and a posting at the ceiling. -/
theorem test_postings :
    (postFigures account 15800).charged = 250480 ∧ (postFigures account 15800).residue = 7
      ∧ (stopTest (postFigures account 15800)).state = .stopped
      ∧ (postFigures { account with charged := 999999999990, residue := 4 } 251).charged = 999999999999
      ∧ (postFigures { account with charged := 999999999990, residue := 4 } 251).residue = 5
      ∧ (postFigures { account with charged := 999999999990, residue := 4 } 251).dayCents = 25 := by decide

/-! ### One step of each kind of command -/

/-- R170: a passed memory check starts HOME and owes an INVENTORY; each drive is offered a LABEL (R37). -/
theorem test_memory_check :
    let t := after (.memoryCheckDone none) State.reset
    t.lib.picker.state = .moving ∧ (t.lib.picker.motion.map (·.kind)) = some .home ∧ t.lib.picker.inventoryOwed = true
      ∧ t.mu.service = .startup ∧ ((t.drive 3).current.map (·.entry.op)) = some .label
      ∧ (t.drive 3).channel = .offering := by decide +kernel

/-- R152: a frame of one byte is counted and dropped. -/
theorem test_short_frame_counted :
    (after (.frameAdmission [0]) served).rli.errors = 1 ∧ (after (.frameAdmission [0]) served).rli.inbound = [] := by
  decide +kernel

/-- R80, R46, R84: a FETCH whose side is READY attaches, and its locate offers the read of index sector 0 at 299,999. -/
theorem test_fetch_locates :
    let t := after (.fetch 0 5 fetchBody) served
    (t.context 0).state = .locating ∧ (t.context 0).priority = 2 ∧ (t.context 0).k = 49
      ∧ (t.drive 0).attached = [0] ∧ (t.drive 0).state = .active
      ∧ ((t.drive 0).current.map fun c => (c.entry.op, c.entry.first, c.entry.count)) = some (.read, 299999, 1) := by
  decide +kernel

/-- R79 check 3: a second FETCH of the same requester and tag is refused. -/
theorem test_fetch_duplicate_tag :
    ((after (.fetch 0 5 fetchBody) (withContexts [streaming])).rli.transmitter.map (·.body))
      = some (.refused .duplicateTag 1) := by decide +kernel

/-- R89, R91: HOLD starts the hold timer. -/
theorem test_hold_starts_timer :
    ((after (.hold 0 5) (withContexts [streaming])).context 0).timer = some { start := 0, limit := 120000 } := by
  decide +kernel

/-- Chapter 7, worked case: the deed cancelled; here after two pages, S = 2,500: charge 4,500, posted with residue 7 as 450
cents. -/
theorem test_cancel_charges :
    let t := after (.cancel 0 5) (withContexts [streaming])
    (t.rli.transmitter.map (·.body)) = some (.done .cancelled 2 4500 450 (some 1))
      ∧ ((t.account 30442).map fun a => (a.charged, a.residue, a.dayDeeds)) = some (249350, 7, 1)
      ∧ (t.context 0).state = .free := by decide +kernel

/-- R103: the second sector of a page out of its place is refused. -/
theorem test_page_order :
    ((after (.page 0 5 { pageBody with page := 3 }) (withFilings [gathering])).rli.transmitter.map (·.body))
      = some (.refused .order 6) := by decide +kernel

/-- R105: a filing of one page of one sector has e = 2. -/
theorem test_file_end_counts :
    let t := after (.fileEnd 0 5 1) (withFilings [gathering])
    (t.filing 0).body = some 2 ∧ (t.filing 0).timer = none ∧ t.fil.queue = [0] := by decide +kernel

/-- R106: FILE_ABORT frees the record and sends FILE-FAILED. -/
theorem test_file_abort :
    let t := after (.fileAbort 0 5) (withFilings [gathering])
    (t.filing 0).state = .free ∧ (t.rli.transmitter.map (·.body)) = some (.fileFailed .aborted none 0) := by
  decide +kernel

/-- R160: a second BIND is refused. -/
theorem test_bind_twice :
    ((after (.bind 3 1) served).rli.transmitter.map (·.body)) = some (.reply 1 (some .bound) []) := by decide +kernel

/-- Chapter 9, worked case: clamping. -/
theorem test_clamping :
    (after (.setParams 0 1 { idleUnmount := some 2500, holdLimit := some 90750, gatherIdle := some 1000000
                             quietDelay := some 47, quietDuration := some 2345, channelStall := none
                             filingPriority := some 5 }) served).mu.params
      = { idleUnmount := 5000, holdLimit := 90000, gatherIdle := 960000, quietDelay := 40, quietDuration := 2000
          channelStall := 10000, filingPriority := 3 } := by decide +kernel

/-- R18: a BLANK record at home. -/
theorem test_side_loaded :
    (after (.loadSide 0 1 (.store 5 9 0 0 0 [] 0 false)) standing).side 5
      = some { serial := 9, state := .blank, prior := none, location := .home, dataHigh := 0, written := 0, skips := []
               spoiled := 0, incomplete := false } := by decide +kernel

/-- R60: an entry that overlaps is refused. -/
theorem test_range_overlap :
    ((after (.loadRange 0 1 100 120 1 false) standing).rli.transmitter.map (·.body))
      = some (.reply 7 (some .overlap) []) := by decide +kernel

/-- Chapter 8, worked case: the limit raised above the charged total opens the account again; 251,000 leaves it STOPPED. -/
theorem test_open_test :
    let s := { served with tal.accounts := [{ account with state := .stopped, charged := 251380 }] }
    ((after (.loadAccount 0 1 30442 1 300000 0 false) s).account 30442).map (·.state) = some .opened
      ∧ ((after (.loadAccount 0 1 30442 1 251000 0 false) s).account 30442).map (·.state) = some .stopped := by
  decide +kernel

/-- Chapter 8, worked case: a correction takes the PENDING slot, with the next generation. -/
theorem test_schedule_corrected :
    let s := { served with
      tal.slots := (served.tal.slots.set 1 { role := .waiting, generation := 2, effective := 413, refs := 0, figures := [] })
      tal.nextGeneration := 3 }
    let t := after (.loadSchedule 0 1 413 (List.replicate 8 rates)) s
    (t.tal.slots.map fun x => (x.role, x.generation)) = [(.active, 1), (.waiting, 3), (.empty, 0)]
      ∧ t.tal.nextGeneration = 4 := by decide +kernel

/-- Chapter 8, worked case: DAY-CLOSE 413 with generation 1 referenced and generation 3 due. -/
theorem test_day_close_switches :
    let s := { served with tal.slots :=
      [{ role := .active, generation := 1, effective := 1, refs := 1, figures := [] },
       { role := .waiting, generation := 3, effective := 413, refs := 0, figures := [] }, Slot.reset] }
    let t := after (.dayClose 0 1 413) s
    (t.tal.slots.map fun x => (x.role, x.generation)) = [(.retired, 1), (.active, 3), (.empty, 0)] ∧ t.tal.feeDay = 413
      ∧ ((t.account 30442).map fun a => (a.prevPages, a.dayPages, a.charged)) = some (198, 0, 248900)
      ∧ (t.rli.transmitter.map (·.body)) = some (.notice (.scheduleActivated 3 413) 0 0) := by decide +kernel

/-- R35: DRIVE_OFFLINE of a READY drive sets offline pending and makes a firm unmount order, which is granted at once. -/
theorem test_drive_offline :
    let t := after (.driveOffline 0 1 0) served
    (t.drive 0).offlinePending = true ∧ (t.drive 0).state = .unloading
      ∧ (t.lib.orders.map (·.kind)) = [.unmount 0 true] := by decide +kernel

/-- R42: CLEAR_PICKER starts HOME. -/
theorem test_clear_picker :
    let t := after (.clearPicker 0 1) { served with lib.picker := { Picker.reset with state := .fault } }
    t.lib.picker.state = .moving ∧ t.mu.late = [{ kind := .clearPicker, requester := 0, tag := 1 }] := by decide +kernel

/-- R150: QUERY_ACCOUNT of a number without a record. -/
theorem test_query_account :
    ((after (.queryAccount 0 1 8) served).rli.transmitter.map (·.body)) = some (.reply 22 (some .noAccount) []) := by
  decide +kernel

/-- R20, R24: the drive takes the READ message, and the engine awaits it. -/
theorem test_command_message_taken :
    let t := after (.driveWaitingToSend 0) (onChannel .offering { reading with sent := false })
    (t.drive 0).channel = .awaiting ∧ ((t.drive 0).current.map (·.sent)) = some true := by decide +kernel

/-- R21: a block where a message was offered is a desynchronised channel. -/
theorem test_desynchronised :
    let t := after (.dataBlock 0 []) (onChannel .offering reading)
    (t.drive 0).state = .fault ∧ (t.drive 0).cause = some .channel ∧ ((t.side 0).map (·.state)) = some .stuck := by
  decide +kernel

/-- R26: a MEDIA-ERROR at the second sector is retried from it. -/
theorem test_media_error_retried :
    let s := { onChannel .awaiting { reading with entry := { readEntry with have_ := 1 }, blocks := 1 } with
      ctx := { streaming with read := .inFlight, filling := 1, holding := [[1]] } :: List.replicate 15 Context.reset }
    ((after (.result 0 (.mediaError 12)) s).drive 0).current.map
        (fun c => (c.entry.first, c.entry.count, c.entry.retries)) = some (12, 1, 1) := by decide +kernel

/-- R39, R12: TAKEN_FROM_SLOT of a MOUNT. -/
theorem test_taken :
    let t := after .takenFromSlot (moving (motion .mount none) none)
    t.lib.picker.held = some 1 ∧ (t.lib.picker.motion.bind (·.last)) = some .taken := by decide +kernel

/-- R39, R56: INSERTED leaves the drive LOADING and schedules a quiet hold. -/
theorem test_inserted :
    let t := after .inserted (moving (motion .mount (some .taken)) (some 1))
    (t.drive 1).state = .loading ∧ (t.drive 1).cartridge = some 1 ∧ t.lib.picker.held = none
      ∧ t.lib.windows = [{ start := 40, stop := 340 }] := by decide +kernel

/-- R38: an event that is not expected is a FAULT. -/
theorem test_unexpected_event :
    (after .placed (moving (motion .mount (some .taken)) (some 1))).lib.picker.state = .fault := by decide +kernel

/-- R155, R92: LINK_DOWN holds every live context. -/
theorem test_link_down :
    let t := after .linkDown (withContexts [streaming])
    t.rli.downs = 1 ∧ (t.context 0).heldByLink = true ∧ (t.context 0).timer = some { start := 0, limit := 120000 } := by
  decide +kernel

/-- R91: the hold timer ends its context ABANDONED, at its limit. -/
theorem test_hold_timer :
    let t := after (.holdTimerExpiry 0)
      (withContexts [{ streaming with heldByHold := true, timer := some { start := 5, limit := 1000 } }])
    t.now = 1005 ∧ ((t.rli.transmitter.map (·.body)) = some (.done .abandoned 2 4500 450 (some 1))) := by decide +kernel

/-- R55: the idle timer makes an idle unmount order, which is granted with the picker PARKED. -/
theorem test_idle_timer :
    let t := after (.idleTimerExpiry 0) served
    t.now = 60000 ∧ (t.lib.orders.map fun o => (o.kind, o.age)) = [(.unmount 0 false, 60000)]
      ∧ (t.drive 0).state = .unloading := by decide +kernel

/-- R161, R182: a BIND in QUIESCENT. -/
theorem test_quiescent_bind :
    ((after (.bind 3 1) { served with mu.service := .quiescent }).rli.transmitter.map (·.body))
      = some (.reply 1 (some .wrongState) []) := by decide +kernel

/-- R182: no idle timer runs in QUIESCENT. -/
theorem test_quiescent_idle :
    let t := after (.setState 0 1 5 false) standing
    t.mu.service = .quiescent ∧ (t.drive 0).state = .ready ∧ (t.drive 0).idle = none := by decide +kernel

/-- R45: the PLACED of HOME completes the firm order of a drive whose cartridge another motion had taken out. -/
theorem test_home_completes_unmount :
    (after .placed { moving (motion .home none) (some 1) with
      lib.orders := [{ id := 0, kind := .unmount 1 true, waiters := [], marker := false, priority := 0, age := 0
                       forced := none, inService := false, target := none }] }).lib.orders = [] := by decide +kernel

/-- R41: a mount order whose cartridge is in the gripper is removed, its faces STUCK before, and its marker returned. -/
theorem test_gripper_order_removed :
    let t := after .pickerFault { moving { motion .turn (some .ejected) with order := some 3 } (some 1) with
      lib.sides := none :: none :: some { side with state := .stuck, prior := some .filled } :: List.replicate 125 none
      fil.mountFor := some .attempt, fil.activity := .mounting
      lib.orders := [{ id := 3, kind := .mount 2, waiters := [], marker := true, priority := 0, age := 0
                       forced := some 1, inService := true, target := some 1 }] }
    t.lib.orders = [] ∧ t.fil.mountFor = none ∧ t.fil.activity = .idle := by decide +kernel

/-- R35: behind the OK of an EJECT-PREP no second one is left for a drive that goes OFFLINE. -/
theorem test_second_eject_prep_leaves :
    let e : QueueEntry := { readEntry with issuer := .library, op := .ejectPrep }
    let x : Drive := { ready with state := .unloading, offlinePending := true, channel := .awaiting, queue := [e]
                                  current := some { entry := e, sent := true, blocks := 0, got := [] } }
    let t := after (.result 0 .ok) { served with drives := [x] }
    (t.drive 0).queue = [] ∧ (t.drive 0).channel = .idle := by decide +kernel

/-- R57: HOLD_BEGUN at the first window. -/
theorem test_hold_begun :
    let t := after .holdBegun { served with lib.windows := [{ start := 40, stop := 340 }] }
    t.fil.hold = true ∧ t.now = 40 := by decide +kernel

/-! ### Witnesses

For every statement with hypotheses a state and operands that meet them, clause by clause, with boundary values. -/

/-- Every clause of `exec`'s outcome being a next state. -/
theorem exec_after (i : Instr) (s : State) (h : (match exec i s with | .next _ => true | _ => false) = true) :
    exec i s = .next (after i s) := by
  unfold after
  cases e : exec i s <;> simp_all

theorem witness_StepRunsFront : ({ served with pending := [.linkUp] } : State).pending = .linkUp :: [] := rfl

/-- 63 reservations, a known and an unknown frame; 64 reservations. -/
theorem witness_IdleStepHandsOnOrTicks :
    let s := queued [.known (.hold 0 5)] 63
    let u := queued [.unknown 0 1 28] 63
    let v := queued [.known (.hold 0 5)] 64
    (s.pending = [] ∧ s.reservations < Config.controlLimit ∧ s.rli.inbound = .known (.hold 0 5) :: [])
      ∧ (u.pending = [] ∧ u.reservations < Config.controlLimit ∧ u.rli.inbound = .unknown 0 1 28 :: [] ∧ 28 ≠ 1
        ∧ u.mu.manager = some 0)
      ∧ v.pending = [] ∧ Config.controlLimit ≤ v.reservations ∧ served.pending = [] ∧ served.rli.inbound = [] := by
  decide +kernel

/-- The part with a full control list is orderly. -/
theorem crowded_orderly : (crowded 64).orderly := by
  constructor
  case queueHolds =>
    intro f
    by_cases hf : f < 8
    · have all : ∀ f < 8, f ∈ (crowded 64).fil.queue ↔ ((crowded 64).filing f).state.inQueue = true := by decide +kernel
      exact all f hf
    · have e : (crowded 64).filing f = Filing.reset := by
        simp only [State.filing, List.getD_eq_getElem?_getD]
        rw [List.getElem?_eq_none (by simpa [crowded, served, State.reset, State.powerOn, Fil.reset] using hf)]
        rfl
      rw [e]
      simp [crowded, served, State.reset, State.powerOn, Fil.reset, Filing.reset, FilingState.inQueue]
  all_goals decide +kernel

theorem witness_OrderlyKept :
    (crowded 64).orderly ∧ step (crowded 64) = .next (tick (crowded 64)) ∧ (crowded 64).rli.control.length = 64 :=
  ⟨crowded_orderly, by rfl, by decide +kernel⟩

theorem witness_TablesWrittenOnlyByTheirCommands :
    exec .linkDown served = .next (after .linkDown served) ∧ Instr.linkDown ≠ .powerOnReset :=
  ⟨exec_after _ _ (by decide +kernel), by decide⟩

theorem witness_AccountStandingWrittenOnlyByItsRequests :
    exec (.dayClose 0 1 413) served = .next (after (.dayClose 0 1 413) served) ∧ Instr.dayClose 0 1 413 ≠ .powerOnReset :=
  ⟨exec_after _ _ (by decide +kernel), by decide⟩

theorem witness_SideRecordsOnlyAccumulate :
    exec .pickerFault served = .next (after .pickerFault served) ∧ Instr.pickerFault ≠ .powerOnReset
      ∧ ∀ r g l, Instr.pickerFault ≠ .loadSide r g l :=
  ⟨exec_after _ _ (by decide +kernel), by decide, by intros; simp⟩

/-- A change by SET_STATE, by RESTART, by a failed memory check, and at a drain's end. -/
theorem witness_ServiceChangesOnlyAsListed :
    (exec (.setState 0 1 5 false) standing = .next (after (.setState 0 1 5 false) standing)
        ∧ (after (.setState 0 1 5 false) standing).mu.service ≠ standing.mu.service)
      ∧ (after (.restart 0 1) served).mu.service ≠ served.mu.service
      ∧ (after (.memoryCheckDone (some 9)) State.reset).mu.service ≠ State.reset.mu.service
      ∧ (after .linkUp { served with mu.service := .draining, mu.drain := some .plain, rli.link := .down }).mu.service
        = .standby :=
  ⟨⟨exec_after _ _ (by decide +kernel), by decide +kernel⟩, by decide +kernel, by decide +kernel, by decide +kernel⟩

theorem witness_MemoryCheckEndsStartUp :
    State.reset.memory = .running ∧ State.reset.mu.service = .startup ∧ 3 < State.reset.drives.length := by decide +kernel

/-- 15 frames wait; a good frame and one whose check fails. -/
theorem witness_FramesAdmittedOrCounted :
    let s := queued (List.replicate 15 (.known (.hold 0 5))) 0
    let covered := bigEndian 1 2 ++ bigEndian 1 31 ++ bigEndian 2 65535 ++ bigEndian 2 0
    s.rli.link = .up ∧ s.rli.inbound.length < Config.inboundLimit
      ∧ readFrame (covered ++ bigEndian 2 (crc16 covered).toNat) = some (.known (.hold 31 65535))
      ∧ readFrame (covered ++ [0, 0]) = none
      ∧ (crc16 ((covered ++ [0, 0]).take 6)).toNat ≠ fieldAt (covered ++ [0, 0]) 6 2
      ∧ fieldAt [0] 0 1 = 0 ∧ 9 < fieldAt [10] 0 1 ∧ 31 < fieldAt [1, 32] 1 1
      ∧ 8220 < fieldAt [1, 0, 0, 0, 32, 29] 4 2 ∧ bodyLengthAllowed 2 1 = false := by decide +kernel

/-- Each inbound kind at the length of its body, the longest where it varies. -/
theorem witness_FramesReadAsSent :
    31 ≤ 31 ∧ 65535 < 65536 ∧ ([(1, 20), (2, 0), (3, 0), (4, 0), (5, 0), (6, 1028), (6, 8196), (7, 1), (8, 0), (9, 1), (9, 1024)].all
      fun p => 1 ≤ p.1 && p.1 ≤ 9 && bodyLengthAllowed p.1 (List.replicate p.2 (0 : Byte)).length) = true := by decide +kernel

theorem witness_LineEvents :
    let held := withContexts [streaming, { streaming with heldByHold := true, tag := 6, timer := some { start := 0, limit := 9 } }]
    held.rli.link = .up ∧ ({ held with rli.link := .down } : State).rli.link = .down
      ∧ ({ held with rli.transmitter := some frame.frame } : State).rli.transmitter.isSome = true := by decide +kernel

/-- 15 frames in front; the frame alone with 63 reservations, and with 64. -/
theorem witness_RequestsWaitTheirTurn :
    let i : Instr := .cancel 31 65535
    let s := queued (List.replicate 15 (.known (.hold 0 5))) 0
    let u := queued [.known i] 63
    let v := queued [.known i] 64
    requestHeader i = some (31, 65535)
      ∧ (s.rli.inbound = .known (.hold 0 5) :: List.replicate 14 (.known (.hold 0 5)) ∧ Request.known (.hold 0 5) ≠ .known i
        ∧ s.rli.inbound.length < Config.inboundLimit)
      ∧ (u.rli.inbound = [.known i] ∧ u.reservations < Config.controlLimit)
      ∧ v.rli.inbound = [.known i] ∧ Config.controlLimit ≤ v.reservations := by decide +kernel

/-- The hypotheses of `FetchAccepted`, but for the requester and account found. -/
def fetchMeets (s : State) (r t : Nat) (b : FetchBody) (q : Requester) (a : Account) (c side k : Nat) : Bool :=
  decide (s.handsOn ∧ fetchValid b = true ∧ s.mu.service = .serving ∧ s.requester r = some q)
    && (if b.kind = 0 then q.rights.copy else q.rights.view)
    && ((List.range 16).all fun i =>
      (s.context i).state == .free || !((s.context i).requester == r && (s.context i).tag == t))
    && decide (s.activeOf r < q.contextLimit ∧ c < 16 ∧ (s.context c).state = .free)
    && ((List.range c).all fun i => (s.context i).state != .free)
    && decide (s.account b.account = some a ∧ (b.kind = 0 → a.state = .opened))
    && decide (s.lookup b.instrument = some (side, k) ∧ s.answerNeed side true ≠ .unavailable)

/-- The first context and the last; a COPY with the line DOWN, and a VIEW of instrument 100 without an ACTIVE schedule. -/
theorem witness_FetchAccepted :
    fetchMeets { served with rli.link := .down } 0 5 fetchBody requester account 0 0 49 = true
      ∧ fetchMeets { withContexts (List.replicate 15 { streaming with requester := 31 }) with
          tal.slots := List.replicate 3 Slot.reset } 0 5 { fetchBody with kind := 1, instrument := 100 }
          requester account 15 0 99 = true := by decide +kernel

/-- Every refusal of a FETCH, in the order of R79. -/
theorem witness_FetchRefused :
    let one := withContexts [streaming]
    let sixteen := withContexts (List.replicate 16 { streaming with requester := 31 })
    let refused : State → Nat → Nat → FetchBody → Option Reason := fun s r t b =>
      if s.handsOn then s.fetchRefusal r t b else none
    refused served 0 5 { fetchBody with kind := 2 } = some .badValue
      ∧ refused standing 0 5 fetchBody = some .notServing ∧ refused served 1 5 fetchBody = some .noRight
      ∧ refused one 0 5 fetchBody = some .duplicateTag
      ∧ refused (withContexts [streaming, streaming]) 0 6 fetchBody = some .requesterLimit
      ∧ refused sixteen 0 6 fetchBody = some .busy
      ∧ refused served 0 5 { fetchBody with account := 8 } = some .noAccount
      ∧ refused { served with tal.accounts := [{ account with state := .stopped }] } 0 5 fetchBody = some .accountStopped
      ∧ refused served 0 5 { fetchBody with instrument := 101 } = some .notFound
      ∧ refused { served with lib.sides := List.replicate 128 none } 0 5 fetchBody = some .unavailable := by decide +kernel

/-- Context 15 alone is named, held and not; no context is named. -/
theorem witness_LiveContextRequests :
    let named : State → Nat → Bool := fun s c =>
      (s.context c).state.live && (s.context c).requester == 0 && (s.context c).tag == 5
    let s := withContexts (List.replicate 15 Context.reset ++ [streaming])
    s.handsOn ∧ named s 15 = true ∧ (∀ i < 16, i ≠ 15 → named s i = false) ∧ served.handsOn
      ∧ ∀ c < 16, named served c = false := by decide +kernel

/-- A copy of generation 1 with pages delivered whose charge stops its account, a RETIRED slot with one reference, an issued
read; an ENDING context whose DONE has gone, one whose DONE waits, one with a read in flight. -/
theorem witness_EndingLeavesContext :
    let s : State := { withContexts [{ streaming with read := .offered, filling := 1 }] with
      tal.slots := [{ role := .retired, generation := 1, effective := 1, refs := 1, figures := List.replicate 8 rates },
                    Slot.reset, Slot.reset]
      tal.accounts := [{ account with limit := 249000 }] }
    let u := withContexts [{ streaming with state := .ending, doneSent := true }, { streaming with state := .ending },
      { streaming with state := .ending, doneSent := true, read := .inFlight }]
    (0 < s.ctx.length ∧ (s.context 0).state.live = true ∧ (s.context 0).kind = .copy ∧ 1 ≤ (s.context 0).delivered
        ∧ (s.context 0).generation = some 1 ∧ (s.account 30442).map (·.state) = some .opened ∧ s.mu.manager ≠ none
        ∧ (stopTest (postFigures { account with limit := 249000 } 4500)).state = .stopped)
      ∧ (∀ c < 3, c < u.ctx.length ∧ (u.context c).state = .ending)
      ∧ ((u.context 0).doneSent = true ∧ (u.context 0).read = .none) ∧ (u.context 1).doneSent = false
      ∧ (u.context 2).read ≠ .none := by decide +kernel

/-- A context that locates instrument 50 on side 0, with this step and entry. -/
def locating (step : LocateStep) (entry : Option IndexEntry) : Context :=
  { streaming with
    state := .locating, directory := none, chosen := [], nextPage := none, delivered := 0, subtotal := 0
    locate := some { side := 0, k := 49, j := 0, slot := 49, step := step, entry := entry } }

/-- Such a context attached to drive 0. -/
def locatingAt (x : Context) : State :=
  { withContexts [x] with drives := { ready with attached := [0] } :: List.replicate 3 { Drive.reset with state := .empty } }

/-- The index entry of instrument 50, of two body sectors at sector 10. -/
def entry50 : IndexEntry := makeEntry 50 10 2 1

/-- A context attached in each step: an entry that passes, pending and cached, one that does not, a directory that passes. -/
theorem witness_LocatesGoOn :
    let s := locatingAt (locating .entry none)
    let pend : State := { s with loc.entries := [{ side := 0, k := 49, entry := entry50 }] }
    let slots : List IndexEntry := List.replicate 49 emptySlot ++ entry50 :: List.replicate 14 emptySlot
    let hit : State := { s with loc.cache := [{ side := 0, j := 0, entries := slots }] }
    let read := locatingAt (locating .indexRead none)
    let dir := locatingAt (locating .directoryRead (some entry50))
    let found : DirectoryRead :=
      { pages := 1, serial := 7, body := 2, list := [{ format := 0, offset := 1, sectors := 1 }] }
    (0 < s.ctx.length ∧ s.attachedTo 0 = some 0 ∧ (s.context 0).state = .locating ∧ (s.context 0).side = 0
        ∧ s.side 0 = some side ∧ (s.context 0).read = .none ∧ s.loc.entries = [] ∧ s.cached 0 0 = none)
      ∧ (pend.loc.entries.map fun q => (q.side, q.k)) = [(0, 49)]
      ∧ (0 < side.written ∧ hit.cached 0 0 = some { side := 0, j := 0, entries := slots }
        ∧ entryPasses (slots.getD 49 emptySlot) 50 side.dataHigh = true ∧ entryPasses emptySlot 50 side.dataHigh = false)
      ∧ ((read.context 0).locate.map (·.step)) = some .indexRead
      ∧ ((dir.context 0).locate.map fun l => (l.step, l.entry)) = some (.directoryRead, some entry50)
      ∧ readDirectory (directorySector 412 7 2 found.list) = some found ∧ directoryPasses found entry50 side.serial = true
      ∧ clampSelection (dir.context 0).selection 1 = [1] ∧ clampSelection [(2, 3)] 1 = [] := by decide +kernel

/-- A streaming context with three pages to read, one with its next page wholly held, the last page, and a DONE to hand over. -/
theorem witness_DeliveryGoesOn :
    let x : Context := { streaming with nextRead := some (1, 0), nextPage := some 1, delivered := 0 }
    let s := locatingAt x
    let held : Context := { streaming with primed := true, holding := [[]] }
    let u := withContexts [held]
    let done : ControlFrame := { seq := 0, frame := { requester := 0, tag := 5, body := .done .complete 3 0 0 none } }
    let v := withContexts [{ streaming with state := .ending }]
    (0 < s.ctx.length ∧ s.attachedTo 0 = some 0 ∧ (s.context 0).state = .streaming ∧ (s.context 0).read = .none
        ∧ (s.context 0).nextRead = some (1, 0))
      ∧ (0 < u.ctx.length ∧ u.context 0 = held ∧ held.candidate = true ∧ held.nextPage = some 3
        ∧ held.nextSend + 1 = (held.item 3).sectors ∧ held.chosen.find? (3 < ·) = none)
      ∧ (0 < v.ctx.length ∧ (v.context 0).state = .ending ∧ (v.context 0).requester = done.frame.requester
        ∧ (v.context 0).tag = done.frame.tag) := by decide +kernel

/-- A filing whose last page is incomplete. -/
def partway : Filing :=
  { gathering with pages := [{ format := 0, sectors := 1, received := 1 }, { format := 1, sectors := 96, received := 95 }] }

/-- Record 7 is the lowest that is FREE. -/
theorem witness_FilingRequestsTaken_open :
    let s := withFilings (List.replicate 7 { gathering with requester := 31 })
    s.handsOn ∧ s.mu.service = .serving ∧ s.requester 0 = some requester ∧ requester.rights.file = true
      ∧ (∀ i < 8, (s.filing i).state ≠ .free → ¬((s.filing i).requester = 0 ∧ (s.filing i).tag = 5))
      ∧ 7 < 8 ∧ (s.filing 7).state = .free ∧ ∀ i < 7, (s.filing i).state ≠ .free := by decide +kernel

/-- A new page 2 with the filing share filled by it, and the last sector of an incomplete one. -/
theorem witness_FilingRequestsTaken_page :
    let s := withFilings [{ gathering with frames := List.replicate 3551 [] }]
    let b : PageBody := { pageBody with page := 2 }
    let u := withFilings [partway]
    let e : PageBody := { page := 2, format := 1, sectors := 96, offset := 95, data := [List.replicate 1024 0] }
    (s.handsOn ∧ pageValid b = true ∧ (s.filing 0).state = .gathering ∧ (s.filing 0).requester = 0 ∧ (s.filing 0).tag = 5
        ∧ s.filingFrames + b.data.length = Config.filingShare ∧ (∀ p ∈ (s.filing 0).pages, p.received = p.sectors)
        ∧ b.page = (s.filing 0).pages.length + 1 ∧ b.offset = 0)
      ∧ (u.handsOn ∧ pageValid e = true ∧ (u.filing 0).state = .gathering
        ∧ u.filingFrames + e.data.length ≤ Config.filingShare
        ∧ (u.filing 0).pages = [{ format := 0, sectors := 1, received := 1 }] ++ [{ format := 1, sectors := 96, received := 95 }]
        ∧ 1 ≤ e.offset) := by decide +kernel

/-- The last record, and 240 pages. -/
theorem witness_FilingRequestsTaken_end :
    let x := { gathering with pages := List.replicate 240 { format := 0, sectors := 1, received := 1 } }
    let s := withFilings (List.replicate 7 Filing.reset ++ [x])
    s.handsOn ∧ (s.filing 7).state = .gathering ∧ (s.filing 7).requester = 0 ∧ (s.filing 7).tag = 5
      ∧ (∀ i < 7, (s.filing i).state ≠ .gathering) ∧ (s.filing 7).pages ≠ []
      ∧ (∀ p ∈ (s.filing 7).pages, p.received = p.sectors) ∧ 240 = (s.filing 7).pages.length := by decide +kernel

/-- A GATHERING filing with its timer, and a QUEUED one. -/
theorem witness_FilingRequestsTaken_discarded :
    let s := withFilings [gathering]
    let u := withFilings [{ gathering with state := .queued, timer := none }]
    (s.handsOn ∧ (s.filing 0).state = .gathering ∧ (s.filing 0).requester = 0 ∧ (s.filing 0).tag = 5
        ∧ 0 < s.fil.records.length ∧ (s.filing 0).timer = some { start := 0, limit := 900000 })
      ∧ u.handsOn ∧ (u.filing 0).state = .queued := by decide +kernel

/-- Every refusal of the filing requests. -/
theorem witness_FilingRequestsRefused :
    let one := withFilings [gathering]
    let eight := withFilings (List.replicate 8 { gathering with requester := 31 })
    let writing := withFilings [{ gathering with state := .writing }]
    (standing.handsOn ∧ standing.mu.service ≠ .serving)
      ∧ (served.handsOn ∧ served.mu.service = .serving ∧ (served.requester 1).any (·.rights.file) = false)
      ∧ (one.handsOn ∧ (one.requester 0).any (·.rights.file) = true ∧ (one.filing 0).state ≠ .free
        ∧ (one.filing 0).requester = 0 ∧ (one.filing 0).tag = 5)
      ∧ (eight.handsOn ∧ ∀ f < 8, (eight.filing f).state ≠ .free ∧ (eight.filing f).requester ≠ 0)
      ∧ (pageValid { pageBody with page := 0 } = false ∧ pageValid { pageBody with page := 241 } = false
        ∧ pageValid pageBody = true)
      ∧ (∀ f < 8, (served.filing f).state = .free)
      ∧ writing.handsOn ∧ (writing.filing 0).state = .writing ∧ (writing.filing 0).tag = 5 := by decide +kernel

/-- Each refusal of a GATHERING filing's PAGE and FILE_END. -/
theorem witness_FilingRequestsRefused_gathering :
    let whole : State → Nat := fun s => ((s.filing 0).pages.filter fun p => p.received == p.sectors).length
    let s := withFilings [gathering]
    let u := withFilings [partway]
    let full := withFilings [{ gathering with frames := List.replicate 3552 [] }]
    let none_ := withFilings [{ gathering with pages := [], frames := [] }]
    s.handsOn ∧ (s.filing 0).state = .gathering ∧ whole s = 1
      ∧ pageValid { pageBody with page := 1 } = true
      ∧ (s.filing 0).expected ≠ (3, 0)
      ∧ ((u.filing 0).expected = (2, 95) ∧ ∀ p, (u.filing 0).pages.getLast? = some p → p.format ≠ 0)
      ∧ ((full.filing 0).expected = (2, 0) ∧ Config.filingShare < full.filingFrames + 1)
      ∧ (none_.handsOn ∧ whole none_ = 0) ∧ whole u ≠ (u.filing 0).pages.length := by
  refine ⟨by decide +kernel, by decide +kernel, by decide +kernel, by decide +kernel, by decide +kernel,
    ⟨by decide +kernel, ?_⟩, by decide +kernel, by decide +kernel, by decide +kernel⟩
  intro p hp
  cases hp
  decide

/-- The part with side 0 OPEN in drive 0, 40 filings' worth of place left, and one filing in this state behind one pass. -/
def filingPart (x : Filing) (activity : Activity) (p : Option Pass) : State :=
  { withFilings [x] with
    lib.sides := some { side with state := .opened } :: List.replicate 127 none
    loc.ranges := [{ first := 1, last := 100, side := 0, openFlag := true }]
    fil.queue := [0], fil.activity := activity, fil.pass := p
    fil.working := [directorySector 412 7 2 [], trailerSector 101 1000 412 2] }

/-- Its filing, two body sectors at sector 1,000, the trailer built. -/
def writing (attempts : Nat) : Filing :=
  { gathering with
    state := .writing, timer := none, body := some 2, attempts := attempts, extentStart := some 1000
    tentative := some 101 }

/-- A pass that its drive has been issued. -/
def issued (number : Nat) (op : DriveOp) (disturbed : Bool) : Pass :=
  { number := number, op := op, first := 1000, count := 2, state := .inFlight, disturbed := disturbed }

/-- Each activity with its side READY, an attempt that fits with nothing to spare, and a side record with eight skips. -/
theorem witness_PassesKeepWriteOnceLaw :
    let s := filingPart (writing 0) .attempt none
    let flush := filingPart (writing 0) .flush none
    let opening : State := { filingPart (writing 0) .opening none with fil.opening := some 0 }
    let planned : State → Nat → Bool := fun s n => (s.passPlan n).isSome && (s.sequenceSide.bind s.mountedReady).isSome
    let r : SideRecord := { side with dataHigh := 299978, skips := [0, 1, 2], written := 2 }
    planned s 1 = true ∧ planned s 6 = true ∧ planned flush 2 = true ∧ planned opening 3 = true
      ∧ s.fil.queue.head? = some 0 ∧ (s.filing 0).extentStart = some 1000 ∧ (s.filing 0).body = some 2
      ∧ s.side 0 = some { side with state := .opened } ∧ 0 < s.fil.records.length
      ∧ ({ side with state := .opened } : SideRecord).fits 2 (s.pendingOf 0).length = true
      ∧ r.written + r.skips.length ≤ 299999 ∧ 1 < r.written := by decide +kernel

/-- The engine IDLE at each step of the test: halted; a close owed with nothing to write, and one turned to; an unusable side;
an index-incomplete one; 64 pending entries; an empty queue; numbers, buffer, range table and media at their ends; a side to
open; a body that fits and one that does not; a close with an entry to write; the side away, asked for, arriving, MISSING. -/
theorem witness_ReadinessTestInOrder :
    let queued_ : Filing := { gathering with state := .queued, timer := none, body := some 2 }
    let s : State := { filingPart queued_ .idle none with todo.readiness := true }
    let entry (k : Nat) : PendingEntry := { side := 0, k := k, entry := entry50 }
    let with_ (r : SideRecord) : State := { s with lib.sides := some r :: List.replicate 127 none }
    let closed : State := { s with loc.ranges := [], lib.sides := some { side with state := .blank } :: List.replicate 127 none }
    let r : SideRecord := { side with state := .opened }
    let serves : State → Bool := fun s => s.fil.closeOwed == none && s.fil.queue == [0] && !s.sideUnusable 0
      && ((s.side 0).all fun r => !r.incomplete) && decide ((s.pendingOf 0).length < 64)
    (s.todo.readiness = true ∧ s.fil.activity = .idle ∧ s.stopping = false ∧ s.mu.service ≠ .opening ∧ s.fil.halt = none)
      ∧ (({ s with fil.closeOwed := some .filled } : State).openSide = some 0 ∧ s.pendingOf 0 = [])
      ∧ (with_ { r with state := .missing }).sideUnusable 0 = true
      ∧ ((with_ { r with incomplete := true }).sideUnusable 0 = false ∧ (with_ { r with incomplete := true }).openSide = some 0)
      ∧ (({ s with loc.entries := (List.range 64).map entry } : State).pendingOf 0).length = 64
      ∧ s.mountedReady 0 = some 0 ∧ serves s = true ∧ ({ s with fil.queue := [] } : State).fil.queue = []
      ∧ 99999999 < 100000000 ∧ (List.replicate 128 (entry 0)).length = 128
      ∧ (closed.openSide = none ∧ serves closed = true ∧ closed.loc.ranges.length < 512
        ∧ (closed.side 0).any (·.state == .blank) = true ∧ closed.inBadDrive { side with state := .blank } = false)
      ∧ (∀ n < 128, (s.side n).all (·.state != .blank) = true)
      ∧ r.dataHigh + 2 + 17 + ((s.pendingOf 0).length + 64) / 64 ≤ r.indexLow + 1
      ∧ (let full : SideRecord := { r with dataHigh := 299979 }
        full.indexLow + 1 < full.dataHigh + 2 + 17 + ((s.pendingOf 0).length + 64) / 64)
      ∧ (let away : State := { s with drives := List.replicate 4 { Drive.reset with state := .empty } }
        let o : Order := { id := 1, kind := .mount 0, waiters := [], marker := false, priority := 0, age := 0, forced := none
                           inService := false, target := none }
        let loading : Drive := { ready with state := .loading }
        (∀ v ∈ [s, away], ({ v with fil.closeOwed := some .filled, loc.entries := [entry 0] } : State).pendingOf 0 ≠ [])
          ∧ away.mountedReady 0 = none ∧ away.answerNeed 0 false = .fresh ∧ serves away = true
          ∧ ({ away with lib.orders := [o] } : State).answerNeed 0 false = .order 1
          ∧ ({ away with drives := [loading] } : State).answerNeed 0 false = .incoming 0
          ∧ ({ away with lib.sides := [some { r with state := .missing }] } : State).answerNeed 0 false = .unavailable) := by
  decide +kernel

/-- An attempt at each of its passes, the trailer built, a first and a third failure, a disturbed VERIFY. -/
theorem witness_AttemptPassesDo :
    let s (attempts : Nat) (p : Pass) : State := filingPart (writing attempts) .attempt (some p)
    let a := s 0 (issued 6 .verify false)
    (a.fil.activity = .attempt ∧ a.fil.queue = 0 :: [] ∧ a.fil.pass = some (issued 6 .verify false) ∧ a.openSide = some 0
        ∧ a.side 0 = some { side with state := .opened } ∧ 0 < a.fil.records.length
        ∧ (a.filing 0).extentStart = some 1000 ∧ (a.filing 0).body = some 2 ∧ a.stopping = false
        ∧ (a.filing 0).tentative = some 101 ∧ a.fil.nNext = some 101
        ∧ a.fil.working.getD 1 [] = trailerSector 101 1000 412 2 ∧ (a.pendingOf 0).length < 63)
      ∧ ((s 2 (issued 1 .erase false)).filing 0).attempts = 2 ∧ (s 2 (issued 1 .erase false)).pendingOf 0 = []
      ∧ ((s 0 (issued 3 .verify true)).fil.pass.map (·.disturbed)) = some true := by decide +kernel

/-- A flush and a close at their passes, with no and with eight skips; an opening of a BLANK side. -/
theorem witness_IndexWritesAndOpenings :
    let s (activity : Activity) (r : SideRecord) (p : Pass) : State := { filingPart (writing 0) activity (some p) with
      lib.sides := some r :: List.replicate 127 none }
    let r : SideRecord := { side with state := .opened }
    let flush := s .flush r (issued 3 .verify false)
    let close : State := { s .closing { r with skips := List.replicate 8 2 } (issued 1 .erase false) with
      fil.closeOwed := some .filled }
    let blank : SideRecord := { side with state := .blank, dataHigh := 0, written := 0 }
    let opening : State := { s .opening blank (issued 3 .verify false) with fil.opening := some 0 }
    (flush.fil.activity = .flush ∧ flush.openSide = some 0 ∧ flush.side 0 = some r
        ∧ flush.fil.pass = some (issued 3 .verify false) ∧ r.skips.length < 8 ∧ r.incomplete = false
        ∧ flush.cached 0 r.written = none)
      ∧ (close.fil.activity = .closing ∧ close.openSide = some 0 ∧ close.fil.closeOwed = some .filled
        ∧ (close.side 0).map (·.skips.length) = some 8 ∧ ∀ q ∈ close.loc.entries, q.side ≠ 0)
      ∧ (opening.fil.activity = .opening ∧ opening.fil.opening = some 0 ∧ opening.side 0 = some blank ∧ blank.state = .blank
        ∧ blank.dataHigh = 0 ∧ opening.fil.nNext = some 101) ∧ flush.mu.manager ≠ none := by decide +kernel

/-- Unbound, bound, also in QUIESCENT, another requester than the manager, a tag in use, and a state that admits no LOAD_SIDE. -/
theorem witness_ManageRequestsChecked :
    let unbound : State := { served with mu.manager := none }
    let quiet : State := { served with mu.service := .quiescent }
    let late : State := { served with mu.late := [{ kind := .clearPicker, requester := 0, tag := 1 }] }
    requestHeader (.querySide 0 1 0) = some (0, 1) ∧ manageCode (.querySide 0 1 0) = some 23
      ∧ (unbound.handsOn ∧ unbound.mu.manager = none) ∧ manageCode (.bind 0 1) = some 1
      ∧ (quiet.handsOn ∧ quiet.mu.manager ≠ none ∧ quiet.mu.service = .quiescent)
      ∧ (served.handsOn ∧ served.mu.manager ≠ none ∧ served.mu.manager = some 0 ∧ 0 ≠ 31)
      ∧ (late.handsOn ∧ (late.mu.late.any fun l => l.requester == 0 && l.tag == 1) = true)
      ∧ (served.mu.late.any fun l => l.requester == 0 && l.tag == 1) = false ∧ codeAccepted 6 served.mu.service = false := by
  decide +kernel

theorem witness_ManageRequestsChecked_bind :
    let s : State := { served with mu.manager := none }
    s.handsOn ∧ s.mu.manager = none ∧ s.mu.service ≠ .quiescent
      ∧ (s.mu.late.any fun l => l.requester == 31 && l.tag == 65535) = false := by decide +kernel

/-- STANDBY with tables that pass, SERVING, a PLAIN drain, QUIESCENT. -/
theorem witness_SetStateChanges :
    let draining : State := { served with mu.service := .draining, mu.drain := some .plain }
    let quiet : State := { served with mu.service := .quiescent }
    (standing.handsOn ∧ standing.admits 0 1 2 ∧ standing.mu.service = .standby ∧ standing.servingRefusal = none)
      ∧ (served.handsOn ∧ served.admits 0 1 2 ∧ served.mu.service = .serving)
      ∧ (draining.handsOn ∧ draining.admits 0 1 2 ∧ draining.mu.drain = some .plain)
      ∧ quiet.handsOn ∧ quiet.admits 0 1 2 ∧ quiet.mu.service = .quiescent := by decide +kernel

/-- An entry check that fails, and a pairing of each state that is not listed. -/
theorem witness_SetStateRefused :
    let noDay : State := { standing with tal.feeDay := 0 }
    let draining : State := { served with mu.service := .draining, mu.drain := some .restart }
    let quiet : State := { served with mu.service := .quiescent }
    (noDay.handsOn ∧ noDay.admits 0 1 2 ∧ noDay.servingRefusal = some .noFeeDay)
      ∧ (standing.admits 0 1 2 ∧ standing.mu.service = .standby) ∧ (served.handsOn ∧ served.admits 0 1 2)
      ∧ (draining.handsOn ∧ draining.admits 0 1 2 ∧ draining.mu.drain ≠ some .plain)
      ∧ quiet.handsOn ∧ quiet.admits 0 1 2 := by decide +kernel

/-- Each of the eight entry checks, the first that fails, in order. -/
theorem witness_SetStateRefused_checks :
    let opened (n : Nat) (s : State) : State :=
      { s with lib.sides := s.lib.sides.set n (some { side with state := .opened, location := .home }) }
    standing.shaped = true ∧ standing.servingRefusal = none
      ∧ ({ standing with mu.manager := none, tal.slots := [] } : State).servingRefusal = some .notBound
      ∧ ({ standing with tal.slots := [], tal.feeDay := 0 } : State).servingRefusal = some .noSchedule
      ∧ ({ standing with tal.feeDay := 0, lib.sides := [] } : State).servingRefusal = some .noFeeDay
      ∧ ({ standing with lib.sides := List.replicate 128 none } : State).servingRefusal = some .noSides
      ∧ ({ standing with lib.sides := none :: some side :: List.replicate 126 none } : State).servingRefusal
        = some .rangeSide
      ∧ (opened 1 (opened 2 standing)).servingRefusal = some .twoOpen
      ∧ (opened 1 standing).servingRefusal = some .openRange
      ∧ ({ standing with fil.nNext := some 100 } : State).servingRefusal = some .noNext := by decide +kernel

theorem witness_SetParamsClampsAndRounds :
    served.handsOn ∧ served.admits 0 1 3 ∧ served.mu.params.legal = true := by decide +kernel

/-- Values at and past their bounds, and a limit below the contexts in use. -/
theorem witness_RequesterTableWritten_load :
    served.handsOn ∧ served.admits 0 1 4
      ∧ (31 < 32 ∧ 3 < 4 ∧ 0 < 1 ∧ 16 < 17) ∧ ¬(31 < 31 ∨ 3 < 3 ∨ 16 < 1 ∨ 16 < 16) ∧ served.activeOf 31 ≤ 16
      ∧ (withContexts [streaming, streaming]).handsOn ∧ (withContexts [streaming, streaming]).admits 0 1 4
      ∧ 1 < (withContexts [streaming, streaming]).activeOf 0 := by decide +kernel

/-- Ids 31 and 32, an empty position, a context in ENDING, a filing, and a FETCH of a dropped requester. -/
theorem witness_RequesterTableWritten_drop :
    let ending := withContexts [{ streaming with state := .ending }]
    let filing := withFilings [gathering]
    (served.handsOn ∧ served.admits 0 1 5 ∧ served.requester 31 ≠ none ∧ served.requester 1 = none
        ∧ (∀ c < 16, (served.context c).state = .free) ∧ ∀ x ∈ served.fil.records, x.state = .free)
      ∧ (ending.handsOn ∧ ending.admits 0 1 5 ∧ ending.requester 0 ≠ none ∧ (ending.context 0).state = .ending
        ∧ (ending.context 0).requester = 0)
      ∧ (filing.handsOn ∧ filing.admits 0 1 5 ∧ ∃ x ∈ filing.fil.records, x.state ≠ .free ∧ x.requester = 0)
      ∧ (served.requester 1 = none ∧ served.mu.service = .serving ∧ fetchValid fetchBody = true) := by decide +kernel

/-- A side that is free, one whose sibling is in a loaded drive, values at their bounds, and a removal. -/
theorem witness_LoadSideStoresOrRefuses :
    standing.handsOn ∧ standing.admits 0 1 6 ∧ standing.side 127 = none ∧ standing.side (siblingOf 127) = none
      ∧ (1 ≤ 295305 ∧ 4687 ≤ 4687 ∧ 295297 + 16 + 4687 + 0 ≤ 300000 ∧ 295296 ≤ 295297 - 1)
      ∧ standing.side 0 = some side ∧ side.location = .drive 0 ∧ (standing.drive 0).cartridge ≠ none
      ∧ siblingOf 1 = 0 := by decide +kernel

/-- An entry behind the one loaded, the first free number, and a side that is OPEN, nowhere and somewhere. -/
theorem witness_RangesAndNextStored :
    let e : RangeEntry := { first := 101, last := 100, side := 127, openFlag := false }
    let opened : State := { standing with lib.sides := standing.lib.sides.set 127 (some { side with state := .opened }) }
    (opened.handsOn ∧ opened.admits 0 1 9 ∧ (opened.side 127).any (·.state == .opened) = true)
      ∧ (∃ e ∈ standing.loc.ranges, 100 ≤ e.last) ∧ standing.handsOn ∧ standing.admits 0 1 7 ∧ standing.rangeRefusal e = none ∧ standing.admits 0 1 8 ∧ standing.admits 0 1 9
      ∧ (∀ n < 128, (standing.side n).all (·.state != .opened) = true) ∧ ∀ e ∈ standing.loc.ranges, e.last < 101 := by
  decide +kernel

/-- Each outcome of the six checks, at the bounds; the full table in the next theorem. -/
theorem witness_RangesAndNextStored_checks :
    let check : Nat → Nat → Nat → Bool → Option Reason := fun f l n o =>
      standing.rangeRefusal { first := f, last := l, side := n, openFlag := o }
    let open_ : State := { standing with loc.ranges := [{ first := 50, last := 60, side := 1, openFlag := true }] }
    check 0 1 1 false = some .badValue ∧ check 102 100 1 false = some .badValue
      ∧ check 100000000 100000000 1 false = some .badValue ∧ check 101 101 128 false = some .badValue
      ∧ check 100 101 1 false = some .overlap ∧ check 101 101 0 false = some .badValue
      ∧ open_.rangeRefusal { first := 70, last := 71, side := 2, openFlag := true } = some .badValue
      ∧ open_.rangeRefusal { first := 70, last := 71, side := 2, openFlag := false } = some .badValue
      ∧ check 101 100 1 true = none ∧ check 99999999 99999999 127 true = none := by decide +kernel

theorem witness_RangesAndNextStored_full :
    let full : State := { standing with loc.ranges := List.replicate 512 { first := 1, last := 0, side := 0, openFlag := false } }
    full.rangeRefusal { first := 101, last := 101, side := 1, openFlag := false } = some .tableFull := by decide +kernel

/-- OPEN and STOPPED asked of accounts below, at and above their bounds. -/
theorem witness_OpenTestDecides :
    let s := { served with tal.accounts := [{ account with limit := 0, charged := 999999999999, state := .stopped }] }
    (served.handsOn ∧ served.admits 0 1 11 ∧ served.admits 0 1 10 ∧ served.account 30442 = some account)
      ∧ s.handsOn ∧ s.admits 0 1 11 ∧ s.account 30442 ≠ none ∧ 1 ≤ 30442 ∧ 30442 ≤ 999999 := by decide +kernel

/-- Account 999,999 absent with room, absent from a full table, and values out of range. -/
theorem witness_AccountsMadeAndRemoved_made :
    let full : State := { served with tal.accounts := List.replicate 1024 account }
    (served.handsOn ∧ served.admits 0 1 10 ∧ served.account 999999 = none ∧ served.tal.accounts.length < 1024)
      ∧ (full.handsOn ∧ full.admits 0 1 10 ∧ full.account 999999 = none ∧ 1024 ≤ full.tal.accounts.length)
      ∧ ¬(1 ≤ 0 ∧ 0 ≤ 999999) ∧ ¬(1 ≤ 1000000 ∧ 1000000 ≤ 999999)
      ∧ served.admits 0 1 11 ∧ served.account 30442 ≠ none ∧ 1 < 2 := by decide +kernel

/-- No record, deliveries in flight, none in flight, and a FETCH on it. -/
theorem witness_AccountsMadeAndRemoved_removed :
    let busy : State := { served with tal.accounts := [{ account with inFlight := 1 }] }
    (served.handsOn ∧ served.admits 0 1 12 ∧ served.account 8 = none)
      ∧ (busy.handsOn ∧ busy.admits 0 1 12 ∧ (busy.account 30442).any (0 < ·.inFlight) = true)
      ∧ served.account 30442 = some account ∧ account.inFlight = 0 ∧ fetchBody.account = 30442
      ∧ served.fetchBarred 0 5 fetchBody = none := by decide +kernel

/-- The first EMPTY slot, the PENDING slot, and no slot ACTIVE; the generation at its end; no slot, and a day out of range. -/
theorem witness_LoadScheduleTakesSlot :
    let waiting : State := { served with tal.slots :=
      [{ role := .active, generation := 1, effective := 1, refs := 0, figures := [] }, Slot.reset,
       { role := .waiting, generation := 2, effective := 1, refs := 0, figures := [] }] }
    let fresh : State := { served with tal.slots := List.replicate 3 Slot.reset, tal.nextGeneration := 65535 }
    let role : State → Nat → Role := fun s i => (s.tal.slots.getD i Slot.reset).role
    let gone : Slot := { role := .retired, generation := 1, effective := 1, refs := 1, figures := [] }
    let taken : State := { served with tal.slots := List.replicate 3 gone }
    (∀ f ∈ List.replicate 8 rates, figuresGood f = true)
      ∧ (taken.handsOn ∧ taken.admits 0 1 13 ∧ ∀ x ∈ taken.tal.slots, x.role ≠ .waiting ∧ x.role ≠ .empty)
      ∧ ¬(1 ≤ 0 ∧ 0 ≤ 65535)
      ∧ (served.handsOn ∧ served.admits 0 1 13 ∧ served.tal.slots.length = 3 ∧ 1 ≤ served.tal.nextGeneration
        ∧ (∀ x ∈ served.tal.slots, x.role ≠ .waiting) ∧ role served 1 = .empty ∧ role served 0 ≠ .empty)
      ∧ (waiting.handsOn ∧ waiting.admits 0 1 13 ∧ waiting.tal.slots.length = 3 ∧ role waiting 2 = .waiting
        ∧ ∀ i < 2, role waiting i ≠ .waiting)
      ∧ fresh.handsOn ∧ fresh.admits 0 1 13 ∧ fresh.tal.nextGeneration ≤ 65535 ∧ role fresh 0 = .empty := by decide +kernel

/-- Days at the bounds; a PENDING schedule due on the day, and one a day later. -/
theorem witness_DayCloseTurnsDay :
    let pending_ : State := { served with tal.slots :=
      [{ role := .active, generation := 1, effective := 1, refs := 1, figures := [] },
       { role := .waiting, generation := 2, effective := 413, refs := 0, figures := [] }, Slot.reset] }
    let due : Nat → Bool := fun day => pending_.tal.slots.any fun x => x.role == .waiting && decide (x.effective ≤ day)
    pending_.handsOn ∧ pending_.admits 0 1 14 ∧ pending_.tal.feeDay < 413 ∧ due 413 = true
      ∧ served.handsOn ∧ served.admits 0 1 14 ∧ 412 ≤ served.tal.feeDay
      ∧ (served.tal.slots.any fun x => x.role == .waiting && decide (x.effective ≤ 413)) = false := by decide +kernel

/-- A range table and counts that meet their rules, an entry accepted, an open range to commit to, and what may become of a
context. -/
theorem witness_TablesKept :
    let open_ := filingPart (writing 0) .attempt none
    let free : State := { served with tal.accounts := [account] }
    let live : State := { withContexts [streaming] with
      tal.slots := served.tal.slots.map fun x => if x.role = .active then { x with refs := 1 } else x
      tal.accounts := [{ account with inFlight := 1 }] }
    (rangesKept served.loc.ranges ∧ served.rangeRefusal { first := 101, last := 120, side := 1, openFlag := true } = none
        ∧ served.fil.nNext = some 101 ∧ served.openRange = none ∧ served.loc.ranges.length < 512
        ∧ ∀ x ∈ served.loc.ranges, x.last < 101)
      ∧ (rangesKept open_.loc.ranges ∧ open_.side 0 ≠ none ∧ (open_.rangeOf 0).any (·.openFlag) = true)
      ∧ (free.ctx.length = 16 ∧ free.countsAgree ∧ (free.context 0).state = .free)
      ∧ live.ctx.length = 16 ∧ live.countsAgree ∧ (live.context 0).state = .streaming := by decide +kernel

/-- The part with drive 0 as given. -/
def withDrive (x : Drive) : State := { served with drives := x :: List.replicate 3 { Drive.reset with state := .empty } }

/-- READY, EMPTY, FAULT, a LABEL fault, OFFLINE; attached, LOADING, OCCUPIED-UNKNOWN; D3 and past it. -/
theorem witness_DriveOfflineActs :
    let states : List Drive := [ready, { Drive.reset with state := .empty }, { ready with state := .fault, cause := some .drive },
      { ready with state := .fault, cause := some .label }, { ready with state := .offline },
      { ready with state := .loading }, { ready with state := .occupiedUnknown }, { ready with attached := [0] },
      { ready with incoming := [15] }]
    (∀ x ∈ states, (withDrive x).handsOn ∧ (withDrive x).admits 0 1 15 ∧ 0 < (withDrive x).drives.length
        ∧ (withDrive x).drive 0 = x ∧ (withDrive x).lib.orders = [])
      ∧ (withDrive ready).fil.queue = [] ∧ (withDrive ready).fil.activity = .idle
      ∧ (served.drive 3).state = .empty ∧ 3 < 4 := by decide +kernel

/-- A drive OFFLINE and one in FAULT, a picker in FAULT, a start-up finding PICKER, and a SERVING and an OPENING part. -/
theorem witness_LateRequestsBegin :
    let off := withDrive { Drive.reset with state := .offline }
    let bad := withDrive { ready with state := .fault, cause := some .channel }
    let stuck : State := { served with lib.picker := { Picker.reset with state := .fault } }
    let found : State := { standing with mu.startFinding := .picker, lib.picker := { Picker.reset with state := .fault } }
    let opening : State := { served with mu.service := .opening }
    (off.handsOn ∧ off.admits 0 1 16 ∧ (off.drive 0).state = .offline ∧ (off.drive 0).probing = false)
      ∧ (bad.handsOn ∧ bad.admits 0 1 16 ∧ (bad.drive 0).state = .fault ∧ (bad.drive 0).cause ≠ some .label
        ∧ (bad.drive 0).probing = false)
      ∧ (stuck.handsOn ∧ stuck.admits 0 1 17 ∧ stuck.lib.picker.state = .fault)
      ∧ (found.handsOn ∧ found.admits 0 1 20 ∧ found.mu.startFinding = .picker ∧ found.lib.picker.state ≠ .moving)
      ∧ (served.handsOn ∧ served.admits 0 1 19 ∧ served.mu.drain ≠ some .restart)
      ∧ opening.handsOn ∧ opening.admits 0 1 19 ∧ opening.mu.drain ≠ some .restart := by decide +kernel

/-- Every refusal of these requests. -/
theorem witness_LateRequestsBegin_refused :
    let entry : QueueEntry := { readEntry with issuer := .probe, op := .label }
    let probed := withDrive { Drive.reset with state := .offline, queue := [entry] }
    let restarting : State := { served with mu.service := .draining, mu.drain := some .restart }
    let turning : State := { standing with mu.startFinding := .picker, lib.picker.state := .moving }
    (served.handsOn ∧ served.admits 0 1 16 ∧ (served.drive 3).state = .empty)
      ∧ (probed.handsOn ∧ probed.admits 0 1 16 ∧ (probed.drive 0).state = .offline ∧ (probed.drive 0).probing = true)
      ∧ (served.admits 0 1 17 ∧ served.lib.picker.state ≠ .fault)
      ∧ (restarting.handsOn ∧ restarting.admits 0 1 19 ∧ restarting.mu.drain = some .restart)
      ∧ (standing.handsOn ∧ standing.admits 0 1 20 ∧ standing.mu.startFinding ≠ .picker)
      ∧ turning.handsOn ∧ turning.admits 0 1 20 ∧ turning.mu.startFinding = .picker ∧ turning.lib.picker.state = .moving := by
  decide +kernel

/-- No halt, a halt that holds, and one that holds no more. -/
theorem witness_FilingResumeRetests :
    let holds : State := { served with fil.halt := some .noMedia }
    let gone : State := { served with fil.halt := some .pendingFull }
    (served.handsOn ∧ served.admits 0 1 18 ∧ served.todo.readiness = false ∧ served.fil.halt = none)
      ∧ (holds.handsOn ∧ holds.admits 0 1 18 ∧ holds.todo.readiness = false ∧ holds.haltHolds .noMedia = true)
      ∧ gone.handsOn ∧ gone.admits 0 1 18 ∧ gone.todo.readiness = false ∧ gone.haltHolds .pendingFull = false := by
  decide +kernel

theorem witness_QueriesReport :
    served.handsOn ∧ (∀ code ∈ [21, 22, 23, 24, 25, 26, 27], codeAccepted code served.mu.service = true)
      ∧ served.admits 0 1 21 ∧ served.account 30442 = some account ∧ served.account 999999 = none := by decide +kernel

/-- A READ offered, one awaited with a fresh block for a STREAMING context and for another issuer, and an unwatched channel. -/
theorem witness_TransfersMoveOn :
    let offered := onChannel .offering { reading with sent := false }
    let awaited : State := { onChannel .awaiting reading with ctx := streaming :: List.replicate 15 Context.reset }
    let other := onChannel .awaiting { reading with entry := { readEntry with issuer := .recovery } }
    let again := onChannel .awaiting { reading with blocks := 2 }
    let off := withDrive { Drive.reset with state := .offline }
    let watched : State → Bool := fun s =>
      ((s.drive 0).state != .fault && (s.drive 0).state != .offline) || (s.drive 0).probing
    (watched offered = true ∧ (offered.drive 0).channel = .offering
        ∧ (offered.drive 0).current = some { reading with sent := false })
      ∧ (watched awaited = true ∧ (awaited.drive 0).channel = .awaiting ∧ (awaited.drive 0).current = some reading
        ∧ reading.entry.have_ ≤ reading.blocks ∧ reading.blocks < reading.entry.count ∧ readEntry.issuer = .page 0
        ∧ (awaited.context 0).state = .streaming)
      ∧ (watched other = true ∧ (other.drive 0).channel = .awaiting ∧ (other.drive 0).current.isSome = true)
      ∧ (watched again = true ∧ (again.drive 0).channel = .awaiting ∧ ¬(2 < reading.entry.count))
      ∧ watched off = false := by decide +kernel

/-- A first and a third NOT-READY, a first and a third MEDIA-ERROR, and an OK, awaited on a watched channel. -/
theorem witness_ResultsEndCommands :
    let s := onChannel .awaiting reading
    let third := onChannel .awaiting { reading with entry := { readEntry with notReady := 2, retries := 2 } }
    ((s.drive 0).state ≠ .fault ∧ (s.drive 0).state ≠ .offline ∧ (s.drive 0).channel = .awaiting
        ∧ (s.drive 0).current = some reading ∧ readEntry.notReady ≤ 1 ∧ readEntry.op = .read ∧ readEntry.retries ≤ 1
        ∧ (s.drive 0).cartridge ≠ none ∧ readEntry.issuer ≠ .probe)
      ∧ (third.drive 0).channel = .awaiting
      ∧ ((third.drive 0).current.map fun c => (c.entry.notReady, c.entry.retries)) = some (2, 2) := by decide +kernel

/-- An idle channel, an offered and an awaited message, a running stall timer, and a fault with a manager, a record and an
attached live context. -/
theorem witness_DriveFaultsEndWork :
    let s := withDrive ready
    let offered := onChannel .offering reading
    let awaited := onChannel .awaiting reading
    let work : State := { withDrive { ready with attached := [0] } with ctx := streaming :: List.replicate 15 Context.reset }
    ((s.drive 0).state ≠ .fault ∧ (s.drive 0).state ≠ .offline ∧ (s.drive 0).channel = .idle)
      ∧ ((offered.drive 0).channel ≠ .awaiting ∧ (offered.drive 0).stall = some { start := 0, limit := 10000 })
      ∧ (awaited.drive 0).channel ≠ .offering
      ∧ 0 < work.drives.length ∧ (work.drive 0).cartridge = some (slotOf 0) ∧ work.side 0 = some side
      ∧ (work.drive 0).attached = [0] ∧ (work.context 0).state.live = true ∧ work.mu.manager ≠ none := by decide +kernel

/-- A picker that waits for the EJECT-PREP of a drive, with an order that keeps a waiter and with one that has none: the fault
leaves the first WAITING. -/
theorem witness_DriveFaultsEndWork_waiting :
    let o (ws : List Nat) : Order := { id := 3, kind := .mount 2, waiters := ws, marker := false, priority := 0, age := 0
                                       forced := none, inService := true, target := some 0 }
    let m : Motion := { motion .unmount none with order := some 3, drive := some 0, started := false }
    let s (ws : List Nat) : State := { withDrive ready with
      lib.orders := [o ws], lib.picker.state := .moving, lib.picker.motion := some m
      ctx := { streaming with state := .mountWait } :: List.replicate 15 Context.reset }
    ((s [0]).lib.picker.motion = some m ∧ m.started = false ∧ m.drive = some 0)
      ∧ ((driveFault 0 .drive (s [0])).lib.orders.map fun o => (o.id, o.inService, o.waiters)) = [(3, false, [0])]
      ∧ (driveFault 0 .drive (s [])).lib.orders = [] := by decide +kernel

/-- A side ready, one arriving, one with an order, one with none; an order with waiters and marker; a parked context that has
read all. -/
theorem witness_MountNeedsAnswered :
    let o : Order := { id := 0, kind := .mount 2, waiters := [0], marker := true, priority := 2, age := 0, forced := none
                       inService := false, target := none }
    let home : SideRecord := { side with location := .home }
    let x : Context := { streaming with state := .mountWait, parked := true, read := .queued, readStart := some (1, 0) }
    let s : State := { withContexts [x] with
      lib.sides := some side :: none :: some home :: List.replicate 125 none, lib.orders := [o] }
    let bare : State := { s with lib.orders := [] }
    let loading : State := { s with drives := { ready with state := .loading } :: List.replicate 3 Drive.reset }
    let left := withContexts [{ streaming with parked := true }]
    s.answerNeed 1 true = .unavailable ∧ s.answerNeed 0 true = .mounted 0 ∧ loading.answerNeed 0 true = .incoming 0
      ∧ ({ loading with lib.picker.state := .fault } : State).answerNeed 0 true = .unavailable
      ∧ s.answerNeed 2 true = .order 0 ∧ bare.answerNeed 2 true = .fresh
      ∧ ({ bare with lib.picker.state := .fault } : State).answerNeed 2 true = .unavailable
      ∧ s.orderFor 2 = some o ∧ (s.context 0).state = .mountWait ∧ 0 < s.ctx.length
      ∧ (s.context 0).read = .queued ∧ (left.context 0).parked = true ∧ (left.context 0).nextRead = none
      ∧ (left.context 0).read = .none := by decide +kernel

/-- The grants of a MOUNT into an EMPTY drive, of a TURN, of a MOUNT behind an UNMOUNT, of an unmount order; no target. -/
theorem witness_GrantsDo :
    let o (kind : OrderKind) : Order :=
      { id := 0, kind := kind, waiters := [], marker := true, priority := 3, age := 0
        forced := if kind = .mount 1 then some 0 else none, inService := false, target := none }
    let s (kind : OrderKind) (second : DriveState) (x : Drive) : State := { served with
      lib.sides := some side :: some side :: some { side with location := .home } :: List.replicate 125 none
      lib.orders := [o kind], lib.nextOrder := 1, drives := x :: List.replicate 3 { Drive.reset with state := second } }
    let target : State → Option Nat := fun s => (s.lib.orders.head?).bind s.target
    let busy : Drive := { ready with state := .active, attached := [0] }
    let held (s : State) : State := { s with
      fil.activity := .attempt, loc.ranges := [{ first := 1, last := 0, side := 0, openFlag := true }] }
    target (s (.mount 2) .empty ready) = some 1 ∧ target (s (.mount 1) .offline ready) = some 0
      ∧ target (s (.mount 2) .offline ready) = some 0 ∧ target (s (.mount 2) .offline busy) = some 0
      ∧ target (s (.mount 2) .offline { busy with offlinePending := true }) = none
      ∧ target (s (.unmount 0 true) .offline ready) = some 0 ∧ target (s (.unmount 0 false) .offline ready) = some 0
      ∧ target (held (s (.unmount 0 true) .offline ready)) = some 0
      ∧ target (held (s (.unmount 0 false) .offline ready)) = none
      ∧ (s (.mount 2) .empty ready).drives.length = 4 ∧ busy.mounted ≠ none := by decide +kernel

/-- A drive in CHECKING with and without waiters; a label that matches and one that does not; a BLANK side; a probe. -/
theorem witness_LabelsDecide :
    let checking : Drive := { ready with state := .checking, incoming := [0] }
    let s := withDrive checking
    let stuck : SideRecord := { side with state := .stuck, prior := some .blank }
    (s.drives.length = 4 ∧ (s.drive 0).state = .checking ∧ (s.drive 0).mounted = some 0 ∧ s.side 0 = some side)
      ∧ side.labelMatches 0 .ok [labelSector 7 0] = true ∧ side.labelMatches 0 .ok [labelSector 7 1] = false
      ∧ side.labelMatches 0 .ok [labelSector 8 0] = false ∧ side.labelMatches 0 (.blank 0) [] = false
      ∧ stuck.labelMatches 0 (.blank 0) [] = true ∧ s.mu.manager ≠ none
      ∧ (withDrive { ready with incoming := [], state := .fault }).side 0 = some side
      ∧ ((withDrive { checking with incoming := [] }).drive 0).incoming = []
      ∧ ({ withDrive { checking with incoming := [] } with mu.service := .quiescent } : State).mu.service = .quiescent
      ∧ ((withDrive Drive.reset).drive 0).cartridge = none := by decide +kernel

/-! ### Opening and endings -/

/-- A part in OPENING that walks side 0, OPEN at entry, in drive 0. -/
def walking (phase : WalkPhase) : State :=
  { served with
    mu.service := .opening
    lib.sides := some { side with state := .opened } :: List.replicate 127 none
    loc.ranges := [{ first := 1, last := 100, side := 0, openFlag := true }]
    recovery := { Recovery.reset with
      phase := .walking, openAtEntry := some 0
      walk := some { side := 0, phase := phase, p := 1000, k := 128, mark0 := 1000 } } }

/-- A label read of a drive without a cartridge that matches side 0 and one that does not; a conflict; both identifications
ended and not; the next side to walk. -/
theorem witness_OpeningIdentifies :
    let empty : Drive := { Drive.reset with state := .checking }
    let s : State := { withDrive empty with mu.service := .opening, recovery.phase := .identifying }
    let home : State := { s with lib.sides := some { side with location := .home } :: List.replicate 127 none }
    let found : State := { walking .mounting with recovery.phase := .identifying, recovery.matched := [(0, 0)]
                                                  lib.picker.occupancy := List.replicate 64 .occupied }
    let next : State := { walking .mounting with recovery.walk := none, recovery.left := [0] }
    (s.drives.length = 4 ∧ (s.drive 0).state = .checking ∧ (s.drive 0).cartridge = none)
      ∧ (readLabel (labelSector 7 0) = some (side.serial, 0) ∧ home.side 0 = some { side with location := .home })
      ∧ readLabel (labelSector 8 0) ≠ some (side.serial, 0)
      ∧ found.lib.picker.occupancy.getD 0 .unknown = .occupied ∧ (found.drive 0).cartridge = some 0
      ∧ s.identified = false ∧ found.identified = true
      ∧ (next.mu.service = .opening ∧ next.recovery.phase = .walking ∧ next.recovery.walk = none
        ∧ next.recovery.left = 0 :: [] ∧ (next.side 0).isSome = true) := by decide +kernel

/-- Each phase of a walk on a mounted side; an index sector full, partial and wrong; a directory and a trailer that can be used. -/
theorem witness_RecoveryWalks :
    let s := walking .catchUp
    let full := (List.range 64).map fun j => makeEntry (129 + j) (1000 + 3 * j) 2 1
    let dir := directorySector 412 7 2 [{ format := 0, offset := 1, sectors := 1 }]
    (s.mu.service = .opening ∧ (s.recovery.walk.map (·.side)) = some 0 ∧ (s.side 0).isSome = true
        ∧ s.rangeOf 0 = some { first := 1, last := 100, side := 0, openFlag := true } ∧ s.mountedReady 0 = some 0
        ∧ s.openSide = some 0 ∧ s.walkUnreachable 0 = false)
      ∧ (usedRun full = some 64 ∧ (full.getD 0 emptySlot).instrument = 1 + 64 * side.written)
      ∧ usedRun (fillSlots (full.take 63)) = some 63 ∧ usedRun (emptySlot :: full) = none
      ∧ entryPasses (makeEntry 128 997 2 1) 128 1001 = true
      ∧ ((readDirectory dir).map fun x => (x.serial, x.body)) = some (7, 2)
      ∧ goodTrailer (trailerSector 129 1000 412 2) 1000 2 = some 129 ∧ goodTrailer [] 1000 2 = none
      ∧ 1000 + 19 ≤ side.indexLow := by decide +kernel

/-- A recovery at its end, with a SET-STATE and a RESTART awaiting their replies; start-up and a drain at their ends. -/
theorem witness_ServiceEndings :
    let late (s : State) : State := { s with
      mu.late := [{ kind := .restart, requester := 0, tag := 2 }, { kind := .setState, requester := 0, tag := 1 }] }
    let s := late (walking .mounting)
    let d := late { served with mu.service := .draining, mu.drain := some .restart }
    let u : State := { State.reset with memory := .passed }
    let back : State := { withDrive { ready with state := .unloading } with
      lib.orders := [{ id := 0, kind := .unmount 0 false, waiters := [], marker := false, priority := 0, age := 0
                       forced := none, inService := false, target := none }] }
    (s.mu.recoveryFinding = .none ∧ s.recovery.openAtEntry = some 0 ∧ (s.rangeOf 0).isSome = true ∧ s.mu.manager ≠ none)
      ∧ RecoveryFinding.unreachable 0 ≠ .none
      ∧ ((s.drive 0).cartridge ≠ none ∧ (s.drive 0).state = .ready)
      ∧ ((enterStandby .drainEnd back).lib.orders.map (·.kind)) = [.unmount 0 true]
      ∧ (u.mu.service = .startup ∧ u.startedUp = true) ∧ d.mu.service = .draining ∧ d.drained = true := by decide +kernel

/-- Every motion at every event it expects. -/
theorem witness_PickerEventsApplied :
    let meets : Motion → Option Nat → Bool := fun m held =>
      (moving m held).lib.picker.state == .moving && (moving m held).lib.picker.motion == some m && m.started
        && (moving m held).lib.picker.held == held && decide (1 < (moving m held).drives.length)
    ([(motion .mount none, none), (motion .mount (some .taken), some 1), (motion .mount (some .inserted), none),
        (motion .turn none, none), (motion .turn (some .ejected), some 1), (motion .turn (some .inserted), none),
        (motion .unmount none, none), (motion .unmount (some .ejected), some 1), (motion .unmount (some .placed), none),
        (motion .home none, some 1), (motion .home none, none), (motion .home (some .placed), none),
        (motion .inventory none, none), (motion .inventory (some .occupancy), none)].all fun p => meets p.1 p.2) = true
      ∧ (served.drive 1).state = .empty ∧ (served.drive 0).state = .ready := by decide +kernel

/-- A MOUNT that serves an order with a live waiter, quiet holds with and without a duration; an UNMOUNT with the MOUNT that
follows it; a drive UNLOADING with and without offline pending. -/
theorem witness_PickerEventsApplied_served :
    let o : Order := { id := 3, kind := .mount 2, waiters := [0], marker := false, priority := 2, age := 0, forced := none
                       inService := true, target := some 1 }
    let m : Motion := { motion .mount none with order := some 3, served := some 2 }
    let s : State := { moving m none with
      lib.orders := [o], ctx := { streaming with state := .mountWait } :: List.replicate 15 Context.reset }
    let none_ : State := { s with mu.params.quietDuration := 0 }
    let two : State := { moving (motion .unmount (some .placed)) none with
      lib.picker.second := some { m with started := false } }
    let leaving (pending_ : Bool) : Drive := { ready with state := .unloading, offlinePending := pending_ }
    (s.lib.picker.state = .moving ∧ s.lib.picker.motion = some m ∧ m.started = true ∧ m.order = some 3
        ∧ s.orderOf 3 = some o ∧ 0 < s.ctx.length ∧ (s.context 0).state.live = true ∧ s.mu.params.quietDuration ≠ 0
        ∧ none_.mu.params.quietDuration = 0)
      ∧ two.lib.picker.motion = some (motion .unmount (some .placed)) ∧ two.lib.picker.second.isSome = true
      ∧ ((withDrive (leaving true)).drive 0).offlinePending = true
      ∧ ((withDrive (leaving false)).drive 0).offlinePending = false := by decide +kernel

/-- PARKED, FAULT, a motion that expects another event, and a held cartridge with a record and a manager. -/
theorem witness_PickerFaultsEndMotions :
    let stuck : State := { served with lib.picker := { Picker.reset with state := .fault } }
    let s := moving (motion .unmount none) none
    let held : State := { moving (motion .mount (some .taken)) (some 0) with
      lib.orders := [{ id := 0, kind := .mount 1, waiters := [0], marker := false, priority := 0, age := 0, forced := none
                       inService := false, target := none }]
      ctx := { streaming with state := .mountWait } :: List.replicate 15 Context.reset }
    stuck.lib.picker.state = .fault ∧ served.lib.picker.state = .parked
      ∧ (s.lib.picker.state = .moving ∧ s.lib.picker.motion = some (motion .unmount none)
        ∧ ([PickerEvent.taken, .emptySlot, .inserted, .placed, .done, .occupancy].all fun e =>
          (motion .unmount none).expects (s.mu.service == .startup) s.lib.picker.held e == false) = true)
      ∧ held.lib.picker.held = some (slotOf 0) ∧ held.side 0 = some side ∧ held.mu.manager ≠ none
      ∧ (held.context 0).state.live = true := by decide +kernel

/-- A first window before and in the hold, passes of each state, an idle timer without an order, a live context's timer. -/
theorem witness_TimersAct :
    let w : Window := { start := 40, stop := 340 }
    let pass : PassState → DriveOp → Pass := fun st op =>
      { number := 0, op := op, first := 1000, count := 2, state := st, disturbed := false }
    let holding : Pass → Bool → State := fun p hold =>
      { served with lib.windows := [w], loc.ranges := [{ first := 1, last := 100, side := 0, openFlag := true }]
                    fil := { served.fil with hold := hold, pass := some p, activity := .attempt } }
    let timed := withContexts [{ streaming with heldByHold := true, timer := some { start := 0, limit := 1 } }]
    ((holding (pass .queued .write) false).lib.windows = [w] ∧ (holding (pass .queued .write) false).fil.hold = false
        ∧ (holding (pass .inFlight .verify) false).fil.pass = some (pass .inFlight .verify))
      ∧ ((holding (pass .withheld .write) true).fil.hold = true
        ∧ (holding (pass .withheld .write) true).sequenceSide = some 0
        ∧ (holding (pass .withheld .write) true).mountedReady 0 = some 0
        ∧ ({ holding (pass .withheld .write) true with lib.windows := [w, { start := 341, stop := 400 }], now := 341 }
          : State).lib.windows = w :: [{ start := 341, stop := 400 }])
      ∧ ((served.drive 0).idle = some { start := 0, limit := 60000 } ∧ 0 < served.drives.length ∧ served.lib.orders = [])
      ∧ (timed.context 0).timer = some { start := 0, limit := 1 } ∧ (timed.context 0).state.live = true := by decide +kernel

/-- A window of one instant that touches one of two; two notices, one pending again and again, without and with a manager. -/
theorem witness_WindowsAndNoticesMerged :
    let w : Window := { start := 5, stop := 5 }
    let ws : List Window := [{ start := 0, stop := 5 }, { start := 6, stop := 7 }]
    let n : Notice := { details := .scheduleActivated 1 1, repeats := 255, raised := 0, seq := 0 }
    let s : State := { served with
      rli.notices := [{ n with details := .sideOpened 0 7, repeats := 0, seq := 1 }] ++ n :: [] }
    (w.start ≤ w.stop ∧ windowsApart ws ∧ ¬(6 ≤ w.stop ∧ w.start ≤ 7))
      ∧ noticesApart s.rli.notices ∧ s.mu.manager ≠ none ∧ n.details.kind = (NoticeDetails.scheduleActivated 2 2).kind
      ∧ (∀ k ∈ s.rli.notices, k.details.kind ≠ (NoticeDetails.stateChanged .standby .opening .setState).kind)
      ∧ ({ s with mu.manager := none } : State).mu.manager = none := by decide +kernel

/-- Two entries apart; an instrument at the end of one below N_next, one in no entry, one at N_next; skip entries up to W; the last
index sector with a position and the first without. -/
theorem witness_PlacesLookupAndClamp :
    let e : RangeEntry := { first := 1, last := 100, side := 0, openFlag := false }
    let r : SideRecord := { side with written := 100, skips := [37, 37, 100] }
    served.loc.ranges.Pairwise (fun a b => a.overlaps b = false) ∧ e ∈ served.loc.ranges ∧ e.first ≤ 100 ∧ 100 ≤ e.last
      ∧ served.fil.nNext = some 101 ∧ 100 < 101 ∧ ¬(e.first ≤ 101 ∧ 101 ≤ e.last)
      ∧ (∀ v ∈ r.skips, v ≤ r.written) ∧ r.written + r.skips.length ≤ 299999
      ∧ 299996 + (r.skips.filter (· ≤ 299996)).length ≤ 299999 ∧ 299999 < 299997 + (r.skips.filter (· ≤ 299997)).length := by
  decide +kernel

/-- One page, no page; a copy whose next page is followed by another, one on an account. -/
theorem witness_FeeArithmetic :
    let s := withContexts [{ streaming with nextPage := some 2 }]
    1 ≤ 1 ∧ 0 < s.ctx.length ∧ (s.context 0).kind = .copy ∧ (s.context 0).nextPage = some 2
      ∧ (s.context 0).chosen.find? (2 < ·) = some 3 ∧ s.account (s.context 0).account = some account := by decide +kernel

/-- The highest serial, day and body, 240 pages, 64 index slots. -/
theorem witness_RecordsReadBack :
    2 ^ 32 - 1 < 2 ^ 32 ∧ 1 ≤ 1 ∧ 65535 < 2 ^ 16
      ∧ (List.replicate 240 ({ format := 255, offset := 65535, sectors := 255 } : PageItem)).length ≤ 240
      ∧ (List.replicate 64 ({ marker := 255, instrument := 0, address := 0, body := 0, pages := 0, check := 0 }
          : IndexEntry)).length = 64
      ∧ (List.replicate 64 (makeEntry (2 ^ 32 - 1) (2 ^ 32 - 1) 65535 255)).length ≤ 64 := by decide +kernel

/-- An owed command, a library command behind another, two of equal priority; two orders that are eligible; a control frame,
a notice, a candidate. -/
theorem witness_ChoicesMade :
    let label : QueueEntry := { readEntry with issuer := .library, op := .label }
    let order : Nat → Order := fun id =>
      { id := id, kind := .mount (2 * id), waiters := [0], marker := false, priority := 1, age := 0, forced := none
        inService := false, target := none }
    let s : State := { served with
      lib.sides := List.replicate 128 (some { side with location := .home }), lib.orders := [order 2, order 1] }
    let notice : Notice := { details := .scheduleActivated 1 1, repeats := 0, raised := 0, seq := 0 }
    let run := withContexts [{ streaming with primed := true, holding := [[]] }]
    ({ ready with owed := some readEntry } : Drive).pick false = some readEntry
      ∧ ({ ready with queue := [readEntry, label] } : Drive).pick false = some label
      ∧ ({ ready with queue := [readEntry, { readEntry with first := 99 }] } : Drive).pick false = some readEntry
      ∧ (s.arbiterChoice.map (·.id)) = some 1
      ∧ (crowded 1).choice = some (.control frame)
      ∧ ({ served with rli.notices := [notice] } : State).choice = some (.notice notice)
      ∧ run.rli.lastServed ≤ 15 ∧ run.choice = some (.run 0)
      ∧ ({ run with rli.link := .down } : State).choice = none
      ∧ (run.rli.transmitter = none ∧ run.rli.link = .up ∧ (run.context 0).candidate = true ∧ served.mu.manager = some 0)
      ∧ (crowded 1).rli.control ≠ [] ∧ (crowded 1).rli.transmitter = none := by decide +kernel

end Sys2Proof.Tests
end

section
/-! SUPPORT. Side records under every command (R6, R8, R11, R16): the relation `SidesFollow` between the side tables before and
after, for each operation that a command calls, and for every command but POWER_ON_RESET and LOAD_SIDE. -/

namespace Sys2Proof.Machine

variable {s t u : State}

/-- Position by position, the side table of `t` follows from that of `s`. -/
def SidesFollow (s t : State) : Prop := List.Forall₂ sideFollows s.lib.sides t.lib.sides

/-! ### How the relation is made -/

theorem Follows.sidesFollow (h : Follows s t) : SidesFollow s t := h.sides

theorem SidesFollow.trans (h : SidesFollow s t) (g : SidesFollow t u) : SidesFollow s u :=
  forall₂_trans (r := sideFollows) (fun _ _ _ => sideFollows_trans) h g

theorem SidesFollow.of_eq (e : t.lib.sides = s.lib.sides) : SidesFollow s t := by
  unfold SidesFollow
  rw [e]
  exact (Basic.refl s).sides

theorem SidesFollow.refl (s : State) : SidesFollow s s := .of_eq rfl

/-- A change that leaves the side table, and what follows it. -/
theorem SidesFollow.from (h : SidesFollow u t) (e : u.lib.sides = s.lib.sides) : SidesFollow s t :=
  (SidesFollow.of_eq e).trans h

theorem SidesFollow.settle (h : SidesFollow s t) : SidesFollow s (settle t) := h.trans (Follows.refl t).settle.sidesFollow

theorem SidesFollow.publish (h : SidesFollow s t) : SidesFollow s (publish t) := h.trans (Follows.refl t).publish.sidesFollow

theorem SidesFollow.settled (e : u.lib.sides = s.lib.sides) : SidesFollow s (Machine.settle u) := (SidesFollow.of_eq e).settle

theorem SidesFollow.published (e : u.lib.sides = s.lib.sides) : SidesFollow s (Machine.publish u) :=
  (SidesFollow.of_eq e).publish

theorem SidesFollow.of_next {u : State} (h : (.next u : Out) = .next t) (g : SidesFollow s u) : SidesFollow s t :=
  Host.Outcome.next.inj h ▸ g

/-! ### Requests -/

theorem SidesFollow.handOn {i : Instr} {act : State → State} (h : ∀ v, SidesFollow v (act v)) :
    SidesFollow s (handOn i act s) := by
  rcases handOn_cases i act s with ⟨-, -, e⟩ | ⟨qs, -, -, e⟩ | ⟨l, e, -⟩ <;> rw [e]
  · exact h s
  · exact (h { s with rli.inbound := qs }).from rfl
  · exact .of_eq rfl

theorem SidesFollow.manage {r g code : Nat} {act : State → State} (h : SidesFollow s (act s)) :
    SidesFollow s (manage r g code act s) := by
  rcases manage_cases r g code act s with e | ⟨reason, e⟩ <;> rw [e]
  · exact h
  · exact .published rfl

/-- A management request handed on. -/
theorem SidesFollow.managed {i : Instr} {r g code : Nat} {act : State → State} (h : ∀ v, SidesFollow v (act v)) :
    SidesFollow s (Machine.handOn i (Machine.manage r g code act) s) := .handOn fun v => .manage (h v)

theorem SidesFollow.answer {r g code : Nat} {refusal : Option Reason} {effect : State → State} {data : State → List Byte}
    (h : SidesFollow s (effect s)) : SidesFollow s (answer r g code refusal effect data s) := by
  unfold Machine.answer
  split
  · exact .published rfl
  · exact .publish (h.trans (.of_eq rfl))

theorem SidesFollow.answerLater {r g code : Nat} {k : LateKind} {refusal : Option Reason} {effect : State → State}
    (h : ∀ v, SidesFollow v (effect v)) : SidesFollow s (answerLater r g code k refusal effect s) := by
  unfold Machine.answerLater
  split
  · exact .published rfl
  · exact ((h (awaitReply k r g s)).from rfl).settle

theorem SidesFollow.query {r g code : Nat} {refusal : Option Reason} {data : State → List Byte} :
    SidesFollow s (query r g code refusal data s) := .answer (.refl s)

theorem SidesFollow.pickerEvent {e : PickerEvent} {act : Motion → State → State} (h : ∀ m v, SidesFollow v (act m v)) :
    SidesFollow s (pickerEvent e act s) := by
  rcases pickerEvent_cases e act s with e1 | e1 | ⟨m, -, -, -, e1⟩ <;> rw [e1]
  · exact .refl s
  · exact (Follows.refl s).pickerFaulted.settle.sidesFollow
  · exact (h m _).from rfl

/-! ### Part and line -/

theorem sidesFollow_startUp : SidesFollow s (startUp s) := by
  have h1 : SidesFollow s (startHome { s with memory := .passed }) :=
    (Follows.refl _).startHome.sidesFollow.from rfl
  have h2 := h1.trans (SidesFollow.of_eq (t := (startHome { s with memory := .passed }).modPicker fun p =>
    { p with inventoryOwed := true }) rfl)
  exact h2.trans (Follows.fold _ (fun v _ => (Follows.refl v).startProbe) _ (Follows.refl _)).sidesFollow

theorem sidesFollow_changeService {n : Service} {c : ChangeCause} : SidesFollow s (changeService n c s) :=
  .of_eq (by simp [changeService])

theorem sidesFollow_memoryCheckDone {f : Option Nat} (h : execMemoryCheckDone f s = .next t) : SidesFollow s t := by
  unfold execMemoryCheckDone at h
  split at h
  · exact .of_next h (.refl s)
  · split at h
    · exact .of_next h (SidesFollow.settle (sidesFollow_changeService.from rfl))
    · exact .of_next h sidesFollow_startUp.settle

theorem sidesFollow_admitFrame {bs : List Byte} : SidesFollow s (admitFrame bs s) := by
  unfold admitFrame
  split
  · exact .refl s
  · split <;> exact .of_eq rfl

theorem sidesFollow_lineDown : SidesFollow s (lineDown s) := by
  unfold lineDown
  split <;> exact .of_eq rfl

theorem sidesFollow_lineUp : SidesFollow s (lineUp s) := by
  unfold lineUp
  split
  · exact .refl s
  · exact .settled rfl

theorem sidesFollow_frameFinished : SidesFollow s (frameFinished s) := by
  unfold frameFinished
  split
  · exact .refl s
  · exact .settled rfl

/-! ### Contexts -/

theorem takeContext_lib {c : Nat} {x : Context} : (takeContext c x s).lib = s.lib := by
  unfold takeContext
  dsimp only
  split <;> rfl

theorem sidesFollow_fetchTaken {r g : Nat} {b : FetchBody} : SidesFollow s (fetchTaken r g b s) := by
  unfold fetchTaken
  split
  · exact .published rfl
  · unfold acceptFetch
    split
    · exact .refl s
    · exact .settle ((Follows.refl _).applyAnswer.sidesFollow.from (by rw [takeContext_lib]))

theorem sidesFollow_holdTaken {r g : Nat} : SidesFollow s (holdTaken r g s) := by
  unfold holdTaken
  split
  · exact .published rfl
  · exact .of_eq rfl

theorem sidesFollow_resumeTaken {r g : Nat} : SidesFollow s (resumeTaken r g s) := by
  unfold resumeTaken
  split
  · exact .published rfl
  · exact .settled rfl

theorem sidesFollow_cancelTaken {r g : Nat} : SidesFollow s (cancelTaken r g s) := by
  unfold cancelTaken
  split
  · exact .published rfl
  · exact (Follows.refl s).endContext.settle.sidesFollow

theorem sidesFollow_holdExpired {c : Nat} : SidesFollow s (holdExpired c s) := by
  unfold holdExpired
  split
  · exact .refl s
  · split
    · exact .settle ((Follows.refl (s.reach _)).endContext.sidesFollow.from rfl)
    · exact .refl s

/-! ### Filings -/

theorem sidesFollow_openFiling {r g : Nat} : SidesFollow s (openFiling r g s) := by
  unfold openFiling
  split_ifs
  iterate 3 exact .of_eq rfl
  split <;> exact .of_eq rfl

theorem sidesFollow_filePage {r g : Nat} {b : PageBody} : SidesFollow s (filePage r g b s) := by
  unfold filePage
  split
  · exact .of_eq rfl
  · split
    · exact .of_eq rfl
    · dsimp only
      split_ifs <;> exact .of_eq rfl

theorem sidesFollow_endFiling {r g n : Nat} : SidesFollow s (endFiling r g n s) := by
  unfold endFiling
  split
  · exact .of_eq rfl
  · split
    · exact .of_eq rfl
    · dsimp only
      split_ifs <;> exact .of_eq rfl

theorem freeFiling_lib {f : Nat} : (freeFiling f s).lib = s.lib := by
  unfold freeFiling
  dsimp only
  split <;> rfl

theorem discardFiling_lib {f : Nat} {c : FileCause} : (discardFiling f c s).lib = s.lib := freeFiling_lib

theorem sidesFollow_abortFiling {r g : Nat} : SidesFollow s (abortFiling r g s) := by
  unfold abortFiling
  split
  · exact .of_eq rfl
  · split
    · exact .of_eq rfl
    · exact (Follows.refl _).markerIfNeeded.sidesFollow.from (by rw [discardFiling_lib])

theorem sidesFollow_gatherExpired {f : Nat} : SidesFollow s (gatherExpired f s) := by
  unfold gatherExpired
  split
  · exact .of_eq (by rw [discardFiling_lib]; rfl)
  · exact .refl s

/-! ### Service states -/

theorem sidesFollow_beginDrain {b : Bool} : SidesFollow s (beginDrain b s) := by
  unfold beginDrain
  have h : SidesFollow s (changeService .draining .setState { s with mu.drain := some .plain }) :=
    sidesFollow_changeService.from rfl
  split
  · exact h.trans (Follows.refl _).abortWork.sidesFollow
  · exact h

theorem sidesFollow_enterOpening : SidesFollow s (enterOpening s) := by
  unfold enterOpening
  extract_lets opened m1 l1 r1 s1 s2
  have h1 : SidesFollow s s1 := sidesFollow_changeService.from rfl
  exact h1.trans (Follows.refl s1).beginIdentify.sidesFollow

theorem sidesFollow_enterQuiescent : SidesFollow s (enterQuiescent s) :=
  sidesFollow_changeService.from rfl

theorem sidesFollow_enterStandby {c : ChangeCause} : SidesFollow s (enterStandby c s) := by
  have h : SidesFollow s (changeService .standby c { s with mu.drain := none }) := sidesFollow_changeService.from rfl
  exact h.trans (Follows.refl _).standbyEntry.sidesFollow

theorem sidesFollow_setStateTaken {r g n : Nat} {b : Bool} : SidesFollow s (setStateTaken r g n b s) := by
  unfold setStateTaken
  split
  · exact .answerLater fun _ => sidesFollow_enterOpening
  · exact .answer sidesFollow_enterQuiescent
  · exact .answerLater fun _ => sidesFollow_beginDrain
  · split
    · exact .answerLater fun _ => sidesFollow_changeService.trans (Follows.refl _).abortWork.sidesFollow
    · exact .published rfl
  · exact (SidesFollow.answer sidesFollow_enterStandby).settle
  iterate 3 exact .published rfl

theorem sidesFollow_restartWork : SidesFollow s (restartWork s) := by
  unfold restartWork
  extract_lets s1 m1 s2 s3
  have h1 : SidesFollow s s1 := (Follows.refl s).stopRecovery.sidesFollow
  have h2 : SidesFollow s s2 := h1.trans (sidesFollow_changeService.from rfl)
  exact h2.trans (Follows.fold _ (fun v _ => (Follows.refl v).restartQueue) _
    (Follows.refl s2).endAllContexts.restartLibrary.stopFiling).sidesFollow

/-! ### Management -/

theorem sidesFollow_setParamsTaken {r g : Nat} {v : ParamValues} : SidesFollow s (setParamsTaken r g v s) :=
  .settle (.answer (.of_eq (reprioritise_sides { s with mu.params := s.mu.params.taking v })))

theorem sidesFollow_storeAccount {n c l : Nat} {a : AccountState} {b : Bool} : SidesFollow s (storeAccount n c l a b s) := by
  unfold storeAccount
  split <;> exact .of_eq rfl

theorem sidesFollow_storeSchedule {e : Nat} {fs : List ClassFigures} : SidesFollow s (storeSchedule e fs s) := by
  unfold storeSchedule
  split
  · exact .refl s
  · dsimp only
    split
    · exact .of_eq (by rw [raise_lib])
    · exact .of_eq rfl

theorem switchSchedule_lib : (switchSchedule s).lib = s.lib := by
  unfold switchSchedule
  dsimp only
  split
  · rfl
  · rw [raise_lib]

theorem sidesFollow_turnDay {d : Nat} : SidesFollow s (turnDay d s) := by
  unfold turnDay
  dsimp only
  split
  · exact .of_eq (by rw [switchSchedule_lib])
  · exact .of_eq rfl

theorem sidesFollow_takeOffline {d : Nat} : SidesFollow s (takeOffline d s) := by
  have home : SidesFollow s (newUnmount d true (s.modDrive d fun x => { x with offlinePending := true })) :=
    (Follows.refl _).newUnmount.sidesFollow.from rfl
  have atOnce : SidesFollow s (haltIfOpenIn d (s.modDrive d Drive.offlineNow)) :=
    (Follows.refl _).haltIfOpenIn.sidesFollow.from rfl
  unfold takeOffline
  dsimp only
  split
  · exact atOnce
  · exact home
  · exact home
  · split
    · exact home
    · exact atOnce
  iterate 5 exact .refl s

theorem sidesFollow_clearFaultWork : SidesFollow s (clearFaultWork s) := by
  unfold clearFaultWork
  split
  · exact (Follows.refl s).startHome.sidesFollow.trans (.of_eq rfl)
  · exact .of_eq rfl

/-! ### Drives -/

theorem sidesFollow_driveWaitingToSend {d : Fin 4} (h : execDriveWaitingToSend d s = .next t) : SidesFollow s t := by
  unfold execDriveWaitingToSend at h
  split at h
  · exact .of_next h (.of_eq rfl)
  · exact .of_next h (Follows.refl s).offerTaken.sidesFollow
  · exact .of_next h (Follows.refl s).channelFault.settle.sidesFollow

theorem sidesFollow_dataBlock {d : Fin 4} {b : Sector} (h : execDataBlock d b s = .next t) : SidesFollow s t := by
  unfold execDataBlock at h
  split at h
  · exact .of_next h (.of_eq rfl)
  · exact .of_next h (Follows.refl s).blockTaken.publish.sidesFollow
  · exact .of_next h (Follows.refl s).channelFault.settle.sidesFollow

theorem sidesFollow_result {d : Fin 4} {res : DriveResult} (h : execResult d res s = .next t) : SidesFollow s t := by
  unfold execResult at h
  split at h
  · exact .of_next h (.of_eq rfl)
  · exact .of_next h (Follows.refl s).resultTaken.settle.sidesFollow
  · exact .of_next h (Follows.refl s).channelFault.settle.sidesFollow

theorem sidesFollow_channelStall {d : Fin 4} (h : execChannelStall d s = .next t) : SidesFollow s t := by
  unfold execChannelStall at h
  split at h
  · exact .of_next h (.refl s)
  · exact .of_next h (.settle ((Follows.refl (s.reach _)).channelFault.sidesFollow.from rfl))

theorem sidesFollow_idleTimerExpiry {d : Fin 4} (h : execIdleTimerExpiry d s = .next t) : SidesFollow s t := by
  unfold execIdleTimerExpiry at h
  split at h
  · exact .of_next h (.refl s)
  · exact .of_next h (.settle ((Follows.refl _).newUnmount.sidesFollow.from rfl))

/-! ### Picker and quiet holds -/

theorem scheduleHold_sides : (scheduleHold s).lib.sides = s.lib.sides := by
  unfold scheduleHold
  dsimp only
  split <;> rfl

theorem handOrder_sides {d : Nat} {m : Motion} : (handOrder d m s).lib.sides = s.lib.sides := by
  unfold handOrder
  split <;> rfl

theorem sidesFollow_insertedInto {m : Motion} : SidesFollow s (insertedInto m s) := by
  unfold insertedInto
  split
  · next d c _ _ =>
    extract_lets s1 s2 s3
    have h1 : SidesFollow s s1 := (Follows.locate ((Follows.refl s).modPicker id)).sidesFollow
    have h2 : SidesFollow s s2 := h1.trans (.of_eq rfl)
    have h3 : SidesFollow s s3 := h2.trans (.of_eq (by rw [handOrder_sides, scheduleHold_sides]))
    split
    · exact h3
    · exact h3.trans (Follows.refl s3).dismissIncoming.haltIfOpenIn.sidesFollow
  · exact .refl s

theorem sidesFollow_insertedThen {m : Motion} : SidesFollow s (insertedThen m s) := by
  unfold insertedThen
  split
  · exact sidesFollow_insertedInto
  · exact sidesFollow_insertedInto.settle

theorem sidesFollow_ejectedFrom {m : Motion} : SidesFollow s (ejectedFrom m s) := by
  unfold ejectedFrom
  split
  · exact (Follows.modDrive emptied_sane (Follows.locate ((Follows.refl s).modPicker id))).sidesFollow.trans
      (.of_eq scheduleHold_sides)
  · exact .refl s

theorem sidesFollow_placedThen {m : Motion} : SidesFollow s (placedThen m s) := by
  unfold placedThen
  split
  · exact (Follows.refl s).placedHome.settle.sidesFollow
  · exact (Follows.refl s).placedHome.sidesFollow

theorem sidesFollow_pickerFault : SidesFollow s (if s.lib.picker.state = .fault then s else settle (pickerReportsFault s)) := by
  split
  · exact .refl s
  · exact (Follows.refl s).pickerReportsFault.settle.sidesFollow

theorem sidesFollow_beginHold : SidesFollow s (beginHold s) := by
  unfold beginHold
  dsimp only
  split
  · exact .of_eq rfl
  · split
    · exact .of_eq rfl
    · split <;> exact .of_eq rfl
    · exact .of_eq rfl

theorem sidesFollow_endHold : SidesFollow s (endHold s) := by
  unfold endHold
  dsimp only
  split
  · exact .of_eq rfl
  · split
    · exact (Follows.refl _).queuePass.sidesFollow.from rfl
    · exact .of_eq rfl

theorem sidesFollow_holdBegins : SidesFollow s (holdBegins s) := by
  unfold holdBegins
  split
  · exact .refl s
  · split
    · exact .refl s
    · exact (sidesFollow_beginHold (s := s.reach _)).from rfl

theorem sidesFollow_holdEnds : SidesFollow s (holdEnds s) := by
  unfold holdEnds
  split
  · exact .refl s
  · split
    · exact sidesFollow_endHold.from rfl
    · exact .refl s

/-! ### Every command -/

/-- Every command but POWER_ON_RESET and LOAD_SIDE. -/
theorem exec_sidesFollow {i : Instr} (h : exec i s = .next t) (hp : i ≠ .powerOnReset) (hl : ∀ r g l, i ≠ .loadSide r g l) :
    SidesFollow s t := by
  cases i with
  | powerOnReset => exact absurd rfl hp
  | loadSide r g l => exact absurd rfl (hl r g l)
  | memoryCheckDone f => exact sidesFollow_memoryCheckDone h
  | frameAdmission bs => exact .of_next h sidesFollow_admitFrame
  | linkDown => exact .of_next h sidesFollow_lineDown
  | linkUp => exact .of_next h sidesFollow_lineUp
  | frameSent => exact .of_next h sidesFollow_frameFinished
  | fetch r g b => exact .of_next h (.handOn fun _ => sidesFollow_fetchTaken)
  | hold r g => exact .of_next h (.handOn fun _ => sidesFollow_holdTaken)
  | resume r g => exact .of_next h (.handOn fun _ => sidesFollow_resumeTaken)
  | cancel r g => exact .of_next h (.handOn fun _ => sidesFollow_cancelTaken)
  | fileOpen r g => exact .of_next h (.handOn fun _ => sidesFollow_openFiling.publish)
  | page r g b => exact .of_next h (.handOn fun _ => sidesFollow_filePage.publish)
  | fileEnd r g n => exact .of_next h (.handOn fun _ => sidesFollow_endFiling.settle)
  | fileAbort r g => exact .of_next h (.handOn fun _ => sidesFollow_abortFiling.settle)
  | bind r g => exact .of_next h (.managed fun _ => .answer (.of_eq rfl))
  | setState r g n b => exact .of_next h (.managed fun _ => sidesFollow_setStateTaken)
  | setParams r g v => exact .of_next h (.managed fun _ => sidesFollow_setParamsTaken)
  | loadRequester r g n x p l => exact .of_next h (.managed fun _ => .answer (.of_eq rfl))
  | dropRequester r g n => exact .of_next h (.managed fun _ => .answer (.of_eq rfl))
  | loadRange r g a b n o => exact .of_next h (.managed fun _ => .answer (.of_eq rfl))
  | clearRanges r g => exact .of_next h (.managed fun _ => .answer (.of_eq rfl))
  | setNextInstrument r g v => exact .of_next h (.managed fun _ => .answer (.of_eq rfl))
  | loadAccount r g n c l x b => exact .of_next h (.managed fun _ => .answer sidesFollow_storeAccount)
  | setAccountState r g n x => exact .of_next h (.managed fun _ => .answer (.of_eq rfl))
  | closeAccount r g n => exact .of_next h (.managed fun _ => .answer (.of_eq rfl))
  | loadSchedule r g e fs => exact .of_next h (.managed fun _ => .answer sidesFollow_storeSchedule)
  | dayClose r g d => exact .of_next h (.managed fun _ => .answer sidesFollow_turnDay)
  | driveOffline r g d => exact .of_next h (.managed fun _ => (SidesFollow.answer sidesFollow_takeOffline).settle)
  | driveRetry r g d => exact .of_next h (.managed fun _ => .answerLater fun v => (Follows.refl v).startProbe.sidesFollow)
  | clearPicker r g => exact .of_next h (.managed fun _ => .answerLater fun v => (Follows.refl v).startHome.sidesFollow)
  | filingResume r g =>
    exact .of_next h (.managed fun v => (SidesFollow.answer (Follows.refl v).retestHalt.runReadiness.sidesFollow).settle)
  | restart r g => exact .of_next h (.managed fun _ => .answerLater fun _ => sidesFollow_restartWork)
  | clearFault r g => exact .of_next h (.managed fun _ => .answerLater fun _ => sidesFollow_clearFaultWork)
  | queryStatus r g => exact .of_next h (.managed fun _ => .query)
  | queryAccount r g n => exact .of_next h (.managed fun _ => .query)
  | querySide r g n => exact .of_next h (.managed fun _ => .query)
  | queryDrive r g d => exact .of_next h (.managed fun _ => .query)
  | queryContexts r g => exact .of_next h (.managed fun _ => .query)
  | queryFilings r g => exact .of_next h (.managed fun _ => .query)
  | querySchedules r g => exact .of_next h (.managed fun _ => .query)
  | driveWaitingToSend d => exact sidesFollow_driveWaitingToSend h
  | dataBlock d b => exact sidesFollow_dataBlock h
  | result d res => exact sidesFollow_result h
  | channelStall d => exact sidesFollow_channelStall h
  | takenFromSlot => exact .of_next h (.pickerEvent fun _ v => (Follows.refl v).taken.sidesFollow)
  | emptySlot => exact .of_next h (.pickerEvent fun _ v => (Follows.refl v).slotEmpty.settle.sidesFollow)
  | inserted => exact .of_next h (.pickerEvent fun _ _ => sidesFollow_insertedThen)
  | ejected => exact .of_next h (.pickerEvent fun _ _ => sidesFollow_ejectedFrom)
  | placed => exact .of_next h (.pickerEvent fun _ _ => sidesFollow_placedThen)
  | motionDone => exact .of_next h (.pickerEvent fun _ v => (Follows.refl v).motionDone.settle.sidesFollow)
  | occupancy l => exact .of_next h (.pickerEvent fun _ _ => .of_eq rfl)
  | pickerFault => exact .of_next h sidesFollow_pickerFault
  | holdBegun => exact .of_next h sidesFollow_holdBegins.settle
  | holdEnded => exact .of_next h sidesFollow_holdEnds.settle
  | idleTimerExpiry d => exact sidesFollow_idleTimerExpiry h
  | holdTimerExpiry c => exact .of_next h sidesFollow_holdExpired
  | gatherIdleExpiry f => exact .of_next h sidesFollow_gatherExpired.settle

/-- What `sideFollows` says of two positions, with the index low mark that W and the skip list give (R7). -/
theorem sideFollows_accumulates {a b : Option SideRecord} (h : sideFollows a b) :
    (a = none ∧ b = none) ∨ ∃ x y, a = some x ∧ b = some y ∧ y.serial = x.serial ∧ x.skips <+: y.skips
      ∧ x.spoiled ≤ y.spoiled ∧ (x.incomplete = true → y.incomplete = true) ∧ x.dataHigh ≤ y.dataHigh
      ∧ x.written ≤ y.written ∧ y.indexLow ≤ x.indexLow :=
  match a, b, h with
  | none, none, _ => .inl ⟨rfl, rfl⟩
  | some x, some y, ⟨serial, skips, spoiled, incomplete, high, written⟩ => by
    refine .inr ⟨x, y, rfl, rfl, serial, skips, spoiled, incomplete, high, written, ?_⟩
    have := skips.length_le
    unfold SideRecord.indexLow
    omega

/-- Settles O9: every command's side table follows, position by position. -/
theorem sideRecordsOnlyAccumulate : Obligations.SideRecordsOnlyAccumulate := fun _ _ _ h hp hl =>
  (exec_sidesFollow h hp hl).imp fun _ _ => sideFollows_accumulates

end Sys2Proof.Machine
end

section
/-! SUPPORT. LOAD_SIDE (R18): what its checks say, and its settling. -/

namespace Sys2Proof.Machine

variable {s : State}

theorem nonDecreasing_iff (l : List Nat) : nonDecreasing l = true ↔ l.Pairwise (· ≤ ·) := by
  rw [← List.isChain_iff_pairwise]
  induction l with
  | nil => simp [nonDecreasing]
  | cons a l ih =>
    cases l with
    | nil => simp [nonDecreasing]
    | cons b l => simp [nonDecreasing, ih]

/-- The third check of R18: the record is not STUCK, not at the picker, not in a drive whose record names a cartridge. -/
theorem replaceable_iff (m : Nat) : s.replaceable m = true ↔ ∀ x, s.side m = some x → x.state ≠ .stuck ∧ x.location ≠ .picker
    ∧ ∀ d, x.location = .drive d → (s.drive d).cartridge = none := by
  unfold State.replaceable
  cases hs : s.side m with
  | none => simp
  | some x => cases hl : x.location <;> simp [hl]

/-- The values of a BLANK record. -/
theorem sideValuesGood_blank (h w : Nat) (skips : List Nat) (sp : Nat) (inc : Bool) :
    sideValuesGood .blank h w skips sp inc = true ↔ h = 0 ∧ w = 0 ∧ skips = [] ∧ sp = 0 ∧ inc = false := by
  simp [sideValuesGood, and_assoc]

/-- The values of any other record. -/
theorem sideValuesGood_used {st : SideState} (hst : st ≠ .blank) (h w : Nat) (skips : List Nat) (sp : Nat) (inc : Bool) :
    sideValuesGood st h w skips sp inc = true ↔ 1 ≤ h ∧ w ≤ 4687 ∧ skips.length ≤ 8 ∧ skips.Pairwise (· ≤ ·)
      ∧ (∀ k ∈ skips, k ≤ w) ∧ h + 16 + w + skips.length ≤ 300000 ∧ sp ≤ h - 1 := by
  have hl : Config.skipLimit = 8 := rfl
  have ht : Config.topSector = 299999 := rfl
  simp only [sideValuesGood, hst, ↓reduceIte, Bool.and_eq_true, decide_eq_true_eq, nonDecreasing_iff, List.all_eq_true,
    and_assoc, hl, ht]

theorem loadableState_of_le {code : Nat} (h : code ≤ 3) :
    loadableState code = some ([SideState.blank, .opened, .filled, .suspect].getD code .blank) := by
  interval_cases code <;> rfl

theorem loadableState_of_gt {code : Nat} (h : 3 < code) : loadableState code = none := by
  match code, h with
  | n + 4, _ => rfl

/-- The values of a store pass the checks of R18. -/
def loadGood (n code h w : Nat) (skips : List Nat) (sp : Nat) (inc : Bool) : Prop :=
  n ≤ 127 ∧ code ≤ 3
    ∧ (code = 0 → h = 0 ∧ w = 0 ∧ skips = [] ∧ sp = 0 ∧ inc = false)
    ∧ (1 ≤ code → 1 ≤ h ∧ w ≤ 4687 ∧ skips.length ≤ 8 ∧ skips.Pairwise (· ≤ ·) ∧ (∀ k ∈ skips, k ≤ w)
      ∧ h + 16 + w + skips.length ≤ 300000 ∧ sp ≤ h - 1)

theorem loadGood_iff {n code h w : Nat} {skips : List Nat} {sp : Nat} {inc : Bool} : loadGood n code h w skips sp inc ↔
    n ≤ 127 ∧ ∃ st, loadableState code = some st ∧ sideValuesGood st h w skips sp inc = true := by
  unfold loadGood
  by_cases hc : code ≤ 3
  · simp only [hc, true_and, loadableState_of_le hc, Option.some.injEq, exists_eq_left']
    refine and_congr_right fun _ => ?_
    by_cases h0 : code = 0
    · subst h0
      simp [sideValuesGood_blank]
    · have hst : [SideState.blank, .opened, .filled, .suspect].getD code .blank ≠ .blank := by
        interval_cases code <;> simp_all
      rw [sideValuesGood_used hst]
      simp [h0, Nat.one_le_iff_ne_zero]
  · simp [hc, loadableState_of_gt (Nat.lt_of_not_le hc)]

/-- The refusals of a store. -/
theorem sideRefusal_store (n serial code h w sp : Nat) (skips : List Nat) (inc : Bool) :
    s.sideRefusal (.store n serial code h w skips sp inc) =
      open Classical in
      if ¬loadGood n code h w skips sp inc then some .badValue
      else if s.replaceable n && s.replaceable (siblingOf n) then none else some .inUse := by
  rw [loadGood_iff]
  unfold State.sideRefusal
  dsimp only
  cases hst : loadableState code with
  | none => simp
  | some st =>
    by_cases hv : sideValuesGood st h w skips sp inc = true <;> by_cases hn : n ≤ 127 <;>
      simp [hv, hn, Nat.not_lt.2, Nat.lt_of_not_le]

/-- The refusals of a removal. -/
theorem sideRefusal_remove (n : Nat) : s.sideRefusal (.remove n) =
    if 127 < n then some .badValue
    else if s.replaceable n && s.replaceable (siblingOf n) then none else some .inUse := rfl

/-- A LOAD_SIDE of the manager is handed on, passes the checks of R160 and is answered at once. -/
theorem exec_loadSide {r t : Nat} {l : SideLoad} (h : s.handsOn) (ha : s.admits r t 6) : exec (.loadSide r t l) s
    = .next (answer r t 6 (s.sideRefusal l) (storeSide l) (loadedReply (sideNamed l)) s) := by
  show Host.Outcome.next (handOn _ (manage r t 6 (loadSideTaken r t l)) s) = _
  rw [handOn_taken h, manage_admitted ha (by decide)]
  rfl

/-- Settles O33: the refusal that the checks give, or the effect of R18. -/
theorem loadSideStoresOrRefuses : Obligations.LoadSideStoresOrRefuses := by
  intro s r t n serial code h w sp skips inc hh ha good free i j
  have hgood : good ↔ loadGood n code h w skips sp inc := Iff.rfl
  have hfree : ∀ m, free m ↔ s.replaceable m = true := fun m => (replaceable_iff m).symm
  have hi : ∀ reason, s.sideRefusal (.store n serial code h w skips sp inc) = some reason →
      exec i s = .next (publish (reject r t 6 reason s)) := fun reason e => by
    rw [exec_loadSide hh ha, e, answer_refused]
  have hj : ∀ reason, s.sideRefusal (.remove n) = some reason → exec j s = .next (publish (reject r t 6 reason s)) :=
    fun reason e => by rw [exec_loadSide hh ha, e, answer_refused]
  simp only [hgood, hfree]
  refine ⟨fun hg => hi _ ?_, fun hg hf => hi _ ?_, fun hg h1 h2 u hu => ?_, fun hn => hj _ ?_, fun hn hf => hj _ ?_,
    fun hn h1 h2 u hu => ?_⟩
  · simp [sideRefusal_store, hg]
  · have : (s.replaceable n && s.replaceable (siblingOf n)) = false := by simpa using hf
    simp [sideRefusal_store, hg, this]
  · have e : storeSide (.store n serial code h w skips sp inc) s = u := by
      obtain ⟨-, hc, -⟩ := hg
      subst hu
      unfold storeSide
      simp only [loadableState_of_le hc]
      cases s.side (siblingOf n) <;> rfl
    rw [exec_loadSide hh ha, sideRefusal_store]
    simp [hg, h1, h2, answer_accepted, e, sideNamed]
  · simp [sideRefusal_remove, hn]
  · have : (s.replaceable n && s.replaceable (siblingOf n)) = false := by simpa using hf
    simp [sideRefusal_remove, Nat.not_lt.2 hn, this]
  · have e : storeSide (.remove n) s = u := by subst hu; rfl
    rw [exec_loadSide hh ha, sideRefusal_remove, if_neg (Nat.not_lt.2 hn)]
    simp [h1, h2, answer_accepted, e, sideNamed]

end Sys2Proof.Machine
end

section
/-! SUPPORT. Places on a side, the range lookup and the page clamp (R7, R9, R62, R83). -/

namespace Sys2Proof.Machine

variable {s : State}

/-! ### Places on a side -/

theorem indexLow_eq (r : SideRecord) : r.indexLow = 299999 - r.written - r.skips.length := rfl

/-- Where j and the skip entries not above it leave a place (R7). -/
theorem indexPosition_of_le {r : SideRecord} {j : Nat} (h : j + (r.skips.filter fun v => v ≤ j).length ≤ 299999) :
    r.indexPosition j = 299999 - j - (r.skips.filter fun v => v ≤ j).length := if_pos h

/-- Where they leave none (log 60). -/
theorem indexPosition_of_lt {r : SideRecord} {j : Nat} (h : 299999 < j + (r.skips.filter fun v => v ≤ j).length) :
    r.indexPosition j = (Config.positionBeyond j (r.skips.filter fun v => v ≤ j).length).toNat := if_neg (Nat.not_le.2 h)

/-- With every skip entry counted, the next index sector stands at the index low mark. -/
theorem indexPosition_written {r : SideRecord} (hk : ∀ v ∈ r.skips, v ≤ r.written)
    (h : r.written + r.skips.length ≤ 299999) : r.indexPosition r.written = r.indexLow := by
  have e : (r.skips.filter fun v => v ≤ r.written) = r.skips := List.filter_eq_self.2 fun v hv => by simpa using hk v hv
  rw [indexPosition_of_le (by rwa [e]), e, indexLow_eq]

/-- The index low mark lies below every index sector written (R7, R8). -/
theorem indexLow_lt_indexPosition {r : SideRecord} {j : Nat} (h : r.written + r.skips.length ≤ 299999) (hj : j < r.written) :
    r.indexLow < r.indexPosition j := by
  have := List.length_filter_le (fun v => decide (v ≤ j)) r.skips
  rw [indexPosition_of_le (by omega), indexLow_eq]
  omega

/-- The space test (R9). -/
theorem fits_iff (r : SideRecord) (e p : Nat) :
    r.fits e p = true ↔ r.dataHigh + e + 1 + 16 + (p + 64) / 64 ≤ r.indexLow + 1 := decide_eq_true_iff

/-! ### Range lookup -/

theorem overlaps_comm (a b : RangeEntry) : a.overlaps b = b.overlaps a := by
  rw [Bool.eq_iff_iff]
  simp only [RangeEntry.overlaps, Bool.and_eq_true, decide_eq_true_eq]
  omega

/-- Of entries that share no instrument, the one that holds it is found. -/
theorem find_range {rs : List RangeEntry} {e : RangeEntry} {i : Nat} (h : rs.Pairwise fun a b => a.overlaps b = false)
    (he : e ∈ rs) (h1 : e.first ≤ i) (h2 : i ≤ e.last) : rs.find? (fun r => r.first ≤ i && i ≤ r.last) = some e := by
  obtain ⟨r, hr⟩ : ∃ r, rs.find? (fun r => r.first ≤ i && i ≤ r.last) = some r :=
    Option.isSome_iff_exists.1 (List.find?_isSome.2 ⟨e, he, by simp [h1, h2]⟩)
  have hi := List.find?_some hr
  simp only [Bool.and_eq_true, decide_eq_true_eq] at hi
  rw [hr]
  by_contra hne
  have hne' : r ≠ e := fun x => hne (congrArg some x)
  have sym : Std.Symm fun a b : RangeEntry => a.overlaps b = false := ⟨fun a b hab => by rwa [overlaps_comm]⟩
  have hd := h.forall (List.mem_of_find?_eq_some hr) he hne'
  simp only [RangeEntry.overlaps, Bool.and_eq_false_iff, decide_eq_false_iff_not] at hd
  omega

theorem lookup_of_mem {e : RangeEntry} {i n : Nat} (h : s.loc.ranges.Pairwise fun a b => a.overlaps b = false)
    (he : e ∈ s.loc.ranges) (h1 : e.first ≤ i) (h2 : i ≤ e.last) (hn : s.fil.nNext = some n) (hi : i < n) :
    s.lookup i = some (e.side, i - e.first) := by
  simp [State.lookup, find_range h he h1 h2, hn, hi]

theorem lookup_of_no_range {i : Nat} (h : ∀ e ∈ s.loc.ranges, ¬(e.first ≤ i ∧ i ≤ e.last)) : s.lookup i = none := by
  have : s.loc.ranges.find? (fun r => r.first ≤ i && i ≤ r.last) = none :=
    List.find?_eq_none.2 fun e he => by simpa using h e he
  simp [State.lookup, this]

theorem lookup_of_unassigned {i : Nat} (h : ∀ n, s.fil.nNext = some n → n ≤ i) : s.lookup i = none := by
  unfold State.lookup
  split
  · next n _ hn => rw [if_neg (Nat.not_lt.2 (h n hn))]
  · rfl

/-! ### The page clamp -/

theorem clampSelection_ascending (selection : List (Nat × Nat)) (pages : Nat) :
    (clampSelection selection pages).Pairwise (· < ·) := by
  refine List.Pairwise.filter _ (List.pairwise_map.2 ?_)
  exact List.pairwise_lt_range.imp fun h => by omega

theorem mem_clampSelection {selection : List (Nat × Nat)} {pages p : Nat} : p ∈ clampSelection selection pages ↔
    1 ≤ p ∧ p ≤ pages ∧ (selection = [] ∨ ∃ r ∈ selection, r.1 ≤ p ∧ p ≤ r.2) := by
  have hp : (∃ a < pages, a + 1 = p) ↔ 1 ≤ p ∧ p ≤ pages :=
    ⟨by rintro ⟨a, ha, rfl⟩; omega, fun ⟨h1, h2⟩ => ⟨p - 1, by omega, by omega⟩⟩
  simp [clampSelection, hp, and_assoc]

/-- Settles O57, from the lemmas above. -/
theorem placesLookupAndClamp : Obligations.PlacesLookupAndClamp := by
  refine ⟨fun r => ⟨fun j => ⟨indexPosition_of_le, indexPosition_of_lt⟩, indexLow_eq r, indexPosition_written, fits_iff r⟩,
    fun s i h => ⟨fun e n he h1 h2 hn hi => lookup_of_mem h he h1 h2 hn hi, ?_⟩,
    fun selection pages => ⟨clampSelection_ascending selection pages, fun p => mem_clampSelection⟩⟩
  rintro (h | h)
  · exact lookup_of_no_range h
  · exact lookup_of_unassigned h

end Sys2Proof.Machine
end

section
/-! SUPPORT. The records written on a side (R2 to R5, R184, R186): numbers in fields, check values, and what each record reads
back as. -/

namespace Sys2Proof.Machine

/-! ### Numbers in fields -/

theorem bigEndian_length (w n : Nat) : (bigEndian w n).length = w := by
  induction w with
  | zero => rfl
  | succ w ih => simp [bigEndian, ih]

@[simp] theorem number_length (w n : Nat) : (number w n).length = w := by
  unfold number
  split <;> exact bigEndian_length _ _

/-- The bytes written spell the number, behind what was spelled before them. -/
theorem foldl_bigEndian (w n v : Nat) :
    (bigEndian w n).foldl (fun v b => v * 256 + b.toNat) v = v * 256 ^ w + n % 256 ^ w := by
  induction w generalizing v with
  | zero => simp [bigEndian, Nat.mod_one]
  | succ w ih =>
    have hm : n % 256 ^ (w + 1) = n % 256 ^ w + 256 ^ w * (n / 256 ^ w % 256) := by
      rw [Nat.pow_succ, Nat.mod_mul]
    rw [bigEndian, List.foldl_cons, ih, hm, BitVec.toNat_ofNat, Nat.pow_succ]
    ring

theorem bigEndianValue_number {w n : Nat} (h : n < 256 ^ w) : bigEndianValue (number w n) = n := by
  rw [number, if_pos h, bigEndianValue, foldl_bigEndian, Nat.mod_eq_of_lt h]
  simp

/-- A field at the front. -/
theorem fieldAt_number {w n : Nat} (rest : List Byte) (h : n < 256 ^ w) : fieldAt (number w n ++ rest) 0 w = n := by
  rw [fieldAt, List.drop_zero, List.take_left' (number_length w n), bigEndianValue_number h]

/-- A field behind others. -/
theorem fieldAt_append {bs : List Byte} {k at_ : Nat} (hk : bs.length = k) (rest : List Byte) (h : k ≤ at_) (w : Nat) :
    fieldAt (bs ++ rest) at_ w = fieldAt rest (at_ - k) w := by
  subst hk
  rw [fieldAt, List.drop_append, List.drop_eq_nil_of_le h, List.nil_append, fieldAt]

/-- A field whose bytes are known to stand behind the first `at_`. -/
theorem fieldAt_middle {bs rest : List Byte} {at_ w n : Nat} (hb : bs.length = at_) (h : n < 256 ^ w) :
    fieldAt (bs ++ (number w n ++ rest)) at_ w = n := by
  rw [fieldAt_append hb _ (Nat.le_refl _), Nat.sub_self, fieldAt_number rest h]

theorem fieldAt_drop (bs : List Byte) (k at_ w : Nat) : fieldAt (bs.drop k) at_ w = fieldAt bs (k + at_) w := by
  rw [fieldAt, fieldAt, List.drop_drop]

/-! ### Check values -/

theorem checkValue_lt {kind : Nat} (bs : List Byte) (h : kind < Config.checkModulus) :
    checkValue kind bs < Config.checkModulus := by
  unfold checkValue
  induction bs generalizing kind with
  | nil => exact h
  | cons b bs ih => exact ih (Nat.mod_lt _ (by decide))

theorem checkValue_fits {kind : Nat} (bs : List Byte) (h : kind < Config.checkModulus) :
    checkValue kind bs < 256 ^ 4 := (checkValue_lt bs h).trans (by decide)

theorem sealRecord_length {kind : Nat} {covered : List Byte} (h : covered.length ≤ 1020) :
    (sealRecord kind covered).length = 1024 := by
  simp only [sealRecord, List.length_append, number_length, List.length_replicate, Config.sectorBytes]
  omega

/-- A record begins with its covered bytes. -/
theorem sealRecord_eq (kind : Nat) (covered : List Byte) : ∃ rest, sealRecord kind covered
    = covered ++ (number 4 (checkValue kind covered) ++ rest) := ⟨_, List.append_assoc _ _ _⟩

/-- A sealed record whose first covered byte holds its kind has a valid check value. -/
theorem checkHolds_sealRecord {kind n : Nat} {covered : List Byte} (hn : (number 1 kind ++ covered).length = n)
    (hk : kind < 256) : checkHolds kind n (sealRecord kind (number 1 kind ++ covered)) = true := by
  obtain ⟨rest, e⟩ := sealRecord_eq kind (number 1 kind ++ covered)
  have hc := checkValue_fits (number 1 kind ++ covered) (hk.trans (by decide))
  have h1 : fieldAt (sealRecord kind (number 1 kind ++ covered)) 0 1 = kind := by
    rw [e, List.append_assoc, fieldAt_number _ hk]
  have h2 : fieldAt (sealRecord kind (number 1 kind ++ covered)) n 4 = checkValue kind (number 1 kind ++ covered) := by
    rw [e, fieldAt_middle hn hc]
  have h3 : (sealRecord kind (number 1 kind ++ covered)).take n = number 1 kind ++ covered := by
    rw [e, List.take_left' hn]
  simp [checkHolds, h1, h2, h3]

/-! ### Label -/

theorem labelSector_length (serial face : Nat) : (labelSector serial face).length = 1024 :=
  sealRecord_length (by simp)

theorem readLabel_labelSector {serial face : Nat} (hs : serial < 2 ^ 32) (hf : face ≤ 1) :
    readLabel (labelSector serial face) = some (serial, face) := by
  have hc : checkHolds 1 6 (labelSector serial face) = true := by
    unfold labelSector
    rw [List.append_assoc]
    exact checkHolds_sealRecord (by simp) (by decide)
  obtain ⟨rest, e⟩ := sealRecord_eq 1 (number 1 1 ++ number 1 face ++ number 4 serial)
  have h1 : fieldAt (labelSector serial face) 2 4 = serial := by
    rw [labelSector, e]
    simp only [List.append_assoc]
    rw [← List.append_assoc, fieldAt_middle (by simp) hs]
  have h2 : fieldAt (labelSector serial face) 1 1 = face := by
    rw [labelSector, e]
    simp only [List.append_assoc]
    rw [fieldAt_middle (by simp) (by omega)]
  simp [readLabel, hc, h1, h2]

/-! ### Directory -/

theorem pageItem_bytes_length (p : PageItem) : p.bytes.length = 4 := by simp [PageItem.bytes]

/-- Entries of `k` bytes each: their bytes in all. -/
theorem flatMap_length {α : Type} {f : α → List Byte} {k : Nat} (hf : ∀ a, (f a).length = k) (l : List α) :
    (l.flatMap f).length = k * l.length := by
  simp [List.length_flatMap, hf, Nat.mul_comm]

/-- The bytes from entry `i` on. -/
theorem drop_flatMap {α : Type} {f : α → List Byte} {k : Nat} (hf : ∀ a, (f a).length = k) (l : List α) (i : Nat) :
    (l.flatMap f).drop (k * i) = (l.drop i).flatMap f := by
  induction l generalizing i with
  | nil => simp
  | cons a l ih =>
    cases i with
    | zero => simp
    | succ i =>
      rw [List.flatMap_cons, Nat.mul_succ, Nat.add_comm, List.drop_append, List.drop_eq_nil_of_le (by rw [hf]; omega), hf]
      simp [ih]

/-- A field of entry `i` of a run of entries of `k` bytes each. -/
theorem fieldAt_flatMap {α : Type} {f : α → List Byte} {k : Nat} (hf : ∀ a, (f a).length = k) {l : List α} {i : Nat}
    (hi : i < l.length) (rest : List Byte) (at_ w : Nat) :
    ∃ rest', fieldAt (l.flatMap f ++ rest) (k * i + at_) w = fieldAt (f l[i] ++ rest') at_ w := by
  have hl : k * i ≤ (l.flatMap f).length := by rw [flatMap_length hf]; exact Nat.mul_le_mul_left _ (by omega)
  refine ⟨(l.drop (i + 1)).flatMap f ++ rest, ?_⟩
  rw [← fieldAt_drop, List.drop_append_of_le_length hl, drop_flatMap hf, List.drop_eq_getElem_cons hi, List.flatMap_cons,
    List.append_assoc]

/-- The covered bytes of a directory (11.4) in front of its check value. -/
theorem directorySector_eq (day serial body : Nat) (pages : List PageItem) : ∃ rest,
    directorySector day serial body pages = number 1 2 ++ (number 1 pages.length ++ (number 2 day ++ (number 4 serial
      ++ (number 2 body ++ (pages.flatMap PageItem.bytes ++ rest))))) := by
  have covered (bs : List Byte) : bs <+: sealRecord 2 bs := by
    obtain ⟨rest, e⟩ := sealRecord_eq 2 bs
    exact ⟨_, e.symm⟩
  obtain ⟨rest, e⟩ := (List.prefix_append _ _).trans (covered (number 1 2 ++ number 1 pages.length ++ number 2 day
    ++ number 4 serial ++ number 2 body ++ pages.flatMap PageItem.bytes
    ++ List.replicate (960 - (pages.flatMap PageItem.bytes).length) 0))
  exact ⟨rest, e.symm.trans (by simp only [List.append_assoc])⟩

theorem directoryList_length {pages : List PageItem} (hp : pages.length ≤ 240) : (pages.flatMap PageItem.bytes).length
    + (List.replicate (960 - (pages.flatMap PageItem.bytes).length) (0 : Byte)).length = 960 := by
  rw [flatMap_length pageItem_bytes_length, List.length_replicate]
  omega

theorem directorySector_length (day serial body : Nat) {pages : List PageItem} (hp : pages.length ≤ 240) :
    (directorySector day serial body pages).length = 1024 := by
  have := directoryList_length hp
  refine sealRecord_length ?_
  simp only [List.length_append, number_length] at this ⊢
  omega

theorem checkHolds_directorySector (day serial body : Nat) {pages : List PageItem} (hp : pages.length ≤ 240) :
    checkHolds 2 970 (directorySector day serial body pages) = true := by
  have := directoryList_length hp
  unfold directorySector
  simp only [List.append_assoc]
  refine checkHolds_sealRecord ?_ (by decide)
  simp only [List.length_append, number_length] at this ⊢
  omega

/-- A place of the page list reads back. -/
theorem directory_place {day serial body : Nat} {pages : List PageItem} (hp : pages.length ≤ 240)
    (hv : ∀ p ∈ pages, p.format < 2 ^ 8 ∧ p.offset < 2 ^ 16 ∧ p.sectors < 2 ^ 8) {i : Nat} (hi : i < pages.length) :
    let d := directorySector day serial body pages
    fieldAt d (10 + 4 * i) 1 = pages[i].format ∧ fieldAt d (11 + 4 * i) 2 = pages[i].offset
      ∧ fieldAt d (13 + 4 * i) 1 = pages[i].sectors := by
  obtain ⟨rest, e⟩ := directorySector_eq day serial body pages
  obtain ⟨hf, ho, hs⟩ := hv _ (List.getElem_mem hi)
  have place : ∀ at_ w, ∃ rest', fieldAt (directorySector day serial body pages) (10 + at_ + 4 * i) w
      = fieldAt (pages[i].bytes ++ rest') at_ w := fun at_ w => by
    obtain ⟨rest', e'⟩ := fieldAt_flatMap pageItem_bytes_length hi rest at_ w
    refine ⟨rest', ?_⟩
    rw [← e', e, ← List.append_assoc, ← List.append_assoc, ← List.append_assoc, ← List.append_assoc,
      fieldAt_append (k := 10) (by simp) _ (by omega)]
    congr 1
    omega
  obtain ⟨r1, e1⟩ := place 0 1
  obtain ⟨r2, e2⟩ := place 1 2
  obtain ⟨r3, e3⟩ := place 3 1
  dsimp only
  refine ⟨e1.trans ?_, e2.trans ?_, e3.trans ?_⟩ <;> simp only [PageItem.bytes, List.append_assoc]
  · exact fieldAt_number _ hf
  · exact fieldAt_middle (by simp) ho
  · rw [← List.append_assoc]
    exact fieldAt_middle (by simp) hs

theorem readDirectory_directorySector {day serial body : Nat} {pages : List PageItem} (hs : serial < 2 ^ 32)
    (hb : body < 2 ^ 16) (hp : pages.length ≤ 240)
    (hv : ∀ p ∈ pages, p.format < 2 ^ 8 ∧ p.offset < 2 ^ 16 ∧ p.sectors < 2 ^ 8) :
    readDirectory (directorySector day serial body pages)
      = some { pages := pages.length, serial := serial, body := body, list := pages } := by
  obtain ⟨rest, e⟩ := directorySector_eq day serial body pages
  have h1 : fieldAt (directorySector day serial body pages) 1 1 = pages.length := by
    rw [e]
    exact fieldAt_middle (by simp) (by omega)
  have h2 : fieldAt (directorySector day serial body pages) 4 4 = serial := by
    rw [e, ← List.append_assoc, ← List.append_assoc]
    exact fieldAt_middle (by simp) hs
  have h3 : fieldAt (directorySector day serial body pages) 8 2 = body := by
    rw [e, ← List.append_assoc, ← List.append_assoc, ← List.append_assoc]
    exact fieldAt_middle (by simp) hb
  simp only [readDirectory, checkHolds_directorySector day serial body hp, ↓reduceIte, h1, h2, h3, Nat.min_eq_left hp]
  congr 2
  refine List.ext_getElem (by simp) fun i hi hi' => ?_
  obtain ⟨hf, ho, hs⟩ := directory_place (day := day) (serial := serial) (body := body) hp hv hi'
  simp [hf, ho, hs]

/-! ### Commit trailer -/

theorem trailerSector_length (instrument address day body : Nat) : (trailerSector instrument address day body).length = 1024 :=
  sealRecord_length (by simp)

theorem goodTrailer_trailerSector {instrument address day body : Nat} (hi : instrument < 2 ^ 32) (ha : address < 2 ^ 32)
    (hb : body < 2 ^ 16) : goodTrailer (trailerSector instrument address day body) address body = some instrument := by
  have hc : checkHolds 3 13 (trailerSector instrument address day body) = true := by
    unfold trailerSector
    simp only [List.append_assoc]
    exact checkHolds_sealRecord (by simp) (by decide)
  obtain ⟨rest, e⟩ := sealRecord_eq 3 (number 1 3 ++ number 4 instrument ++ number 4 address ++ number 2 day ++ number 2 body)
  have e' : trailerSector instrument address day body = number 1 3 ++ (number 4 instrument ++ (number 4 address
      ++ (number 2 day ++ (number 2 body ++ (number 4 (checkValue 3 (number 1 3 ++ number 4 instrument ++ number 4 address
        ++ number 2 day ++ number 2 body)) ++ rest))))) := by
    rw [trailerSector, e]
    simp only [List.append_assoc]
  have h1 : fieldAt (trailerSector instrument address day body) 1 4 = instrument := by
    rw [e']
    exact fieldAt_middle (by simp) hi
  have h2 : fieldAt (trailerSector instrument address day body) 5 4 = address := by
    rw [e', ← List.append_assoc]
    exact fieldAt_middle (by simp) ha
  have h3 : fieldAt (trailerSector instrument address day body) 11 2 = body := by
    rw [e', ← List.append_assoc, ← List.append_assoc, ← List.append_assoc]
    exact fieldAt_middle (by simp) hb
  simp [goodTrailer, hc, h1, h2, h3]

/-! ### Index sector -/

theorem indexEntry_bytes_length (e : IndexEntry) : e.bytes.length = 16 := by simp [IndexEntry.bytes, IndexEntry.covered]

/-- The fields of an index slot have their widths (11.4). -/
def IndexEntry.inWidth (e : IndexEntry) : Prop :=
  e.marker < 2 ^ 8 ∧ e.instrument < 2 ^ 32 ∧ e.address < 2 ^ 32 ∧ e.body < 2 ^ 16 ∧ e.pages < 2 ^ 8 ∧ e.check < 2 ^ 32

/-- A slot reads back. -/
theorem readSlot_indexSector {slots : List IndexEntry} {i : Nat} (hi : i < slots.length) (hv : slots[i].inWidth) :
    readSlot (indexSector slots) i = slots[i] := by
  obtain ⟨hm, hn, ha, hb, hp, hc⟩ := hv
  have place : ∀ at_ w, ∃ rest', fieldAt (indexSector slots) (16 * i + at_) w = fieldAt (slots[i].bytes ++ rest') at_ w :=
    fun at_ w => by
      obtain ⟨rest', e⟩ := fieldAt_flatMap indexEntry_bytes_length hi [] at_ w
      exact ⟨rest', by rw [← e, List.append_nil]; rfl⟩
  obtain ⟨r1, e1⟩ := place 0 1
  obtain ⟨r2, e2⟩ := place 1 4
  obtain ⟨r3, e3⟩ := place 5 4
  obtain ⟨r4, e4⟩ := place 9 2
  obtain ⟨r5, e5⟩ := place 11 1
  obtain ⟨r6, e6⟩ := place 12 4
  rw [Nat.add_zero] at e1
  unfold readSlot
  rw [e1, e2, e3, e4, e5, e6]
  simp only [IndexEntry.bytes, IndexEntry.covered, List.append_assoc]
  congr 1
  · exact fieldAt_number _ hm
  · exact fieldAt_middle (by simp) hn
  · rw [← List.append_assoc]
    exact fieldAt_middle (by simp) ha
  · rw [← List.append_assoc, ← List.append_assoc]
    exact fieldAt_middle (by simp) hb
  · rw [← List.append_assoc, ← List.append_assoc, ← List.append_assoc]
    exact fieldAt_middle (by simp) hp
  · rw [← List.append_assoc, ← List.append_assoc, ← List.append_assoc, ← List.append_assoc]
    exact fieldAt_middle (by simp) hc

theorem indexSector_length {slots : List IndexEntry} (h : slots.length = 64) : (indexSector slots).length = 1024 := by
  rw [indexSector, flatMap_length indexEntry_bytes_length, h]

theorem readIndex_indexSector {slots : List IndexEntry} (h : slots.length = 64) (hv : ∀ e ∈ slots, e.inWidth) :
    readIndex (indexSector slots) = slots := by
  refine List.ext_getElem (by simp [readIndex, h]) fun i hi hi' => ?_
  simp [readIndex, readSlot_indexSector hi' (hv _ (List.getElem_mem hi'))]

/-! ### The entries the part builds -/

theorem makeEntry_inWidth {i a b p : Nat} (hi : i < 2 ^ 32) (ha : a < 2 ^ 32) (hb : b < 2 ^ 16) (hp : p < 2 ^ 8) :
    (makeEntry i a b p).inWidth :=
  ⟨(by decide : 4 < 2 ^ 8), hi, ha, hb, hp, checkValue_fits _ (by decide)⟩

theorem makeEntry_valid (i a b p : Nat) : (makeEntry i a b p).valid = true := by
  simp [IndexEntry.valid, makeEntry, IndexEntry.covered]

theorem emptySlot_inWidth : emptySlot.inWidth := by simp [IndexEntry.inWidth, emptySlot]

theorem fillSlots_length {es : List IndexEntry} (h : es.length ≤ 64) : (fillSlots es).length = 64 := by
  simp only [fillSlots, List.length_append, List.length_replicate]
  omega

theorem fillSlots_inWidth {es : List IndexEntry} (h : ∀ e ∈ es, e.inWidth) : ∀ e ∈ fillSlots es, e.inWidth := by
  intro e he
  rcases List.mem_append.1 he with he | he
  · exact h e he
  · rw [(List.mem_replicate.1 he).2]
    exact emptySlot_inWidth

/-- Empty slots are a run of no used slot. -/
theorem usedRun_empty (n : Nat) : usedRun (List.replicate n emptySlot) = some 0 := by
  cases n with
  | zero => rfl
  | succ n =>
    have hv : emptySlot.valid = false := rfl
    have hm : (emptySlot.marker == 0) = true := rfl
    have ha : (List.replicate n emptySlot).all (fun e => e.marker == 0) = true :=
      List.all_eq_true.2 fun e he => (List.mem_replicate.1 he).2 ▸ hm
    rw [List.replicate_succ, usedRun, hv, hm, ha]
    rfl

/-- Valid entries in front of empty slots are the run of used slots. -/
theorem usedRun_fill {es : List IndexEntry} (h : ∀ e ∈ es, e.valid = true) (n : Nat) :
    usedRun (es ++ List.replicate n emptySlot) = some es.length := by
  induction es with
  | nil => exact usedRun_empty n
  | cons e es ih =>
    rw [List.cons_append, usedRun, if_pos (h e (by simp)), ih fun x hx => h x (by simp [hx])]
    rfl

/-- Settles O59, record by record. -/
theorem recordsReadBack : Obligations.RecordsReadBack := by
  refine ⟨fun serial face hs hf => ⟨labelSector_length serial face, readLabel_labelSector hs hf⟩,
    fun day serial body pages _ hs hb hp hv =>
      ⟨directorySector_length day serial body hp, readDirectory_directorySector hs hb hp hv⟩,
    fun instrument address day body hi ha _ hb =>
      ⟨trailerSector_length instrument address day body, goodTrailer_trailerSector hi ha hb⟩,
    fun slots h hv => ⟨indexSector_length h, readIndex_indexSector h hv⟩, fun es h hv => ?_⟩
  have made : ∀ e ∈ es, e.inWidth ∧ e.valid = true := fun e he => by
    obtain ⟨i, a, b, p, hi, ha, hb, hp, rfl⟩ := hv e he
    exact ⟨makeEntry_inWidth hi ha hb hp, makeEntry_valid i a b p⟩
  have hback : readIndex (indexSector (fillSlots es)) = fillSlots es :=
    readIndex_indexSector (fillSlots_length h) (fillSlots_inWidth fun e he => (made e he).1)
  dsimp only
  rw [hback]
  refine ⟨rfl, fun e he => ?_, usedRun_fill (fun e he => (made e he).2) _⟩
  rw [fillSlots, List.take_left' rfl] at he
  exact (made e he).2

end Sys2Proof.Machine
end

section
/-! SUPPORT. The filing engine's shared operations: what the withdrawal of its marker, a halt, a lost attempt and the placing of
a pass do, table by table; and the write-once law (R8, R9, R16, R111, R112, R118 to R121). -/

namespace Sys2Proof.Machine

variable {s : State}

/-! ### The marker -/

@[simp] theorem withdrawMarker_fil (s : State) : (withdrawMarker s).fil =
    { s.fil with mountFor := none, activity := if s.fil.activity = .mounting then .idle else s.fil.activity } := by
  unfold withdrawMarker
  simp only [reprioritise_fil]
  split <;> simp_all

@[simp] theorem withdrawMarker_sides (s : State) : (withdrawMarker s).lib.sides = s.lib.sides := by
  unfold withdrawMarker
  dsimp only
  split <;> simp

@[simp] theorem withdrawMarker_picker (s : State) : (withdrawMarker s).lib.picker = s.lib.picker := by
  unfold withdrawMarker
  dsimp only
  split <;> simp

@[simp] theorem withdrawMarker_drives (s : State) :
    (withdrawMarker s).drives = s.drives.map fun d => { d with incomingMarker := false } := by
  unfold withdrawMarker
  dsimp only
  split <;> simp

@[simp] theorem withdrawMarker_ctx (s : State) : (withdrawMarker s).ctx = s.ctx := by
  unfold withdrawMarker
  dsimp only
  split <;> simp

@[simp] theorem withdrawMarker_rli (s : State) : (withdrawMarker s).rli = s.rli := by
  unfold withdrawMarker
  dsimp only
  split <;> simp

@[simp] theorem reprioritise_loc (s : State) : (reprioritise s).loc = s.loc := by
  unfold reprioritise
  dsimp only
  split <;> rfl

@[simp] theorem reprioritise_recovery (s : State) : (reprioritise s).recovery = s.recovery := by
  unfold reprioritise
  dsimp only
  split <;> rfl

@[simp] theorem withdrawMarker_loc (s : State) : (withdrawMarker s).loc = s.loc := by
  unfold withdrawMarker
  dsimp only
  split <;> simp

@[simp] theorem withdrawMarker_recovery (s : State) : (withdrawMarker s).recovery = s.recovery := by
  unfold withdrawMarker
  dsimp only
  split <;> simp

/-! ### Halts -/

@[simp] theorem raise_loc (d : NoticeDetails) (s : State) : (raise_ d s).loc = s.loc := by
  unfold raise_
  split_ifs <;> rfl

@[simp] theorem raise_recovery (d : NoticeDetails) (s : State) : (raise_ d s).recovery = s.recovery := by
  unfold raise_
  split_ifs <;> rfl

@[simp] theorem raise_todo (d : NoticeDetails) (s : State) : (raise_ d s).todo = s.todo := by
  unfold raise_
  split_ifs <;> rfl

/-- A halt that may be held already (log 25): its cause, and the notice of a new one. -/
def haltHeld (h : Halt) (s : State) : State :=
  if s.fil.halt = some h then s
  else raise_ (.filingHalted h (if h = .driveFault then s.openSide else none)) { s with fil.halt := some h }

theorem setHalt_eq (h : Halt) (s : State) :
    setHalt h s = if s.fil.mountFor = some .walk then haltHeld h s else withdrawMarker (haltHeld h s) := by
  have e : (haltHeld h s).fil.mountFor = s.fil.mountFor := by
    unfold haltHeld
    split <;> simp
  rw [← e]
  rfl

theorem haltHeld_fil (h : Halt) (s : State) : (haltHeld h s).fil = { s.fil with halt := some h } := by
  unfold haltHeld
  split
  · next e => rw [← e]
  · simp

theorem haltHeld_lib (h : Halt) (s : State) : (haltHeld h s).lib = s.lib := by
  unfold haltHeld
  split <;> simp

theorem haltHeld_loc (h : Halt) (s : State) : (haltHeld h s).loc = s.loc := by
  unfold haltHeld
  split <;> simp

theorem setHalt_fil (h : Halt) (s : State) : (setHalt h s).fil =
    if s.fil.mountFor = some .walk then { s.fil with halt := some h }
    else { s.fil with
      halt := some h, mountFor := none, activity := if s.fil.activity = .mounting then .idle else s.fil.activity } := by
  rw [setHalt_eq]
  split <;> simp [haltHeld_fil]

@[simp] theorem setHalt_sides (h : Halt) (s : State) : (setHalt h s).lib.sides = s.lib.sides := by
  rw [setHalt_eq]
  split <;> simp [haltHeld_lib]

@[simp] theorem setHalt_loc (h : Halt) (s : State) : (setHalt h s).loc = s.loc := by
  rw [setHalt_eq]
  split <;> simp [haltHeld_loc]

@[simp] theorem setHalt_halt (h : Halt) (s : State) : (setHalt h s).fil.halt = some h := by
  rw [setHalt_fil]
  split <;> rfl

@[simp] theorem setHalt_pass (h : Halt) (s : State) : (setHalt h s).fil.pass = s.fil.pass := by
  rw [setHalt_fil]
  split <;> rfl

@[simp] theorem setHalt_working (h : Halt) (s : State) : (setHalt h s).fil.working = s.fil.working := by
  rw [setHalt_fil]
  split <;> rfl

@[simp] theorem setHalt_closeOwed (h : Halt) (s : State) : (setHalt h s).fil.closeOwed = s.fil.closeOwed := by
  rw [setHalt_fil]
  split <;> rfl

theorem setHalt_idle {h : Halt} (hs : s.fil.activity = .idle) : (setHalt h s).fil.activity = .idle := by
  rw [setHalt_fil]
  split <;> simp [hs]

/-! ### A lost attempt -/

theorem freeFiling_fil_pass (f : Nat) (s : State) : (freeFiling f s).fil.pass = s.fil.pass := by
  unfold freeFiling
  dsimp only
  split <;> rfl

/-- A spoiled extent changes the count of spoiled sectors alone of a side record (R114). -/
theorem spoilExtent_side {f n : Nat} {r : SideRecord} (h : s.side n = some r) :
    ∃ x, (spoilExtent f s).side n = some { r with spoiled := x } := by
  unfold spoilExtent
  dsimp only
  split
  · exact ⟨r.spoiled, h⟩
  · next m _ =>
    refine (?_ : ∃ x, (s.modSide m _).side n = some { r with spoiled := x })
    rw [side_modSide, h]
    split
    · exact ⟨_, rfl⟩
    · exact ⟨r.spoiled, rfl⟩

/-- An attempt lost with its drive leaves no pass, and of the side records changes what its spoiled extent changes (R116). -/
theorem filingLost_attempt {f : Nat} (ha : s.fil.activity = .attempt) (hf : s.fil.queue.head? = some f) :
    (filingLost s).fil.pass = none ∧ (filingLost s).lib.sides = (spoilExtent f s).lib.sides := by
  unfold filingLost
  simp only [ha, hf]
  split
  · refine ⟨?_, ?_⟩
    · show (freeFiling f _).fil.pass = none
      rw [freeFiling_fil_pass]
      rfl
    · rw [discardFiling_lib]
      rfl
  · simp only [setHalt_pass, setHalt_sides]
    exact ⟨rfl, rfl⟩

/-! ### Placing a pass -/

theorem passPlan_attempt {f k : Nat} (ha : s.fil.activity = .attempt) (hf : s.fil.queue.head? = some f) :
    s.passPlan k = some (if k ≤ 3 then newPass k ((s.filing f).extentStart.getD 0) ((s.filing f).body.getD 0)
      else newPass k ((s.filing f).extentStart.getD 0 + (s.filing f).body.getD 0) 1) := by
  simp [State.passPlan, ha, hf]

theorem passPlan_index {n k : Nat} {r : SideRecord} (ha : s.fil.activity = .flush ∨ s.fil.activity = .closing)
    (ho : s.openSide = some n) (hr : s.side n = some r) : s.passPlan k = some (newPass k r.indexLow 1) := by
  rcases ha with ha | ha <;> simp [State.passPlan, ha, ho, hr]

theorem passPlan_opening {k : Nat} (ha : s.fil.activity = .opening) : s.passPlan k = some (newPass k 0 1) := by
  simp [State.passPlan, ha]

/-- The pass planned is the pass of its number. -/
theorem passPlan_number {k : Nat} {p : Pass} (h : s.passPlan k = some p) :
    ∃ first count, p = newPass k first count := by
  unfold State.passPlan at h
  split at h
  · obtain ⟨f, -, hp⟩ := Option.map_eq_some_iff.1 h
    dsimp only at hp
    split at hp
    · exact ⟨_, _, hp.symm⟩
    · exact ⟨_, _, hp.symm⟩
  · obtain ⟨r, -, hp⟩ := Option.map_eq_some_iff.1 h
    exact ⟨_, _, hp.symm⟩
  · obtain ⟨r, -, hp⟩ := Option.map_eq_some_iff.1 h
    exact ⟨_, _, hp.symm⟩
  · exact ⟨_, _, (Option.some.inj h).symm⟩
  · cases h
  · cases h

theorem passOp_erase {k : Nat} (h : k % 3 = 1) : passOp k = .erase := by simp [passOp, h]

theorem passOp_write {k : Nat} (h : k % 3 = 2) : passOp k = .write := by simp [passOp, h]

theorem passOp_verify {k : Nat} (h : k % 3 = 0) : passOp k = .verify := by simp [passOp, h]

theorem queuePass_of_mounted {p : Pass} {d : Nat} (h : s.sequenceSide.bind s.mountedReady = some d) :
    queuePass p s = pushCommand d (newEntry s .filing p.op p.first p.count 0 (s.passData p))
      { s with fil.pass := some { p with state := .queued } } := by
  simp [queuePass, h]

theorem queuePass_of_unmounted {p : Pass} (h : s.sequenceSide.bind s.mountedReady = none) :
    queuePass p s = filingLost { s with fil.pass := some { p with state := .withheld } } := by
  simp [queuePass, h]

theorem holdsPasses_iff : s.holdsPasses = true ↔
    s.fil.hold = true ∨ ∃ w ws, s.lib.windows = w :: ws ∧ w.start ≤ s.now := by
  cases hw : s.lib.windows <;> simp [State.holdsPasses, hw]

theorem placePass_of_plan {k : Nat} {p : Pass} (h : s.passPlan k = some p) :
    placePass k s = if s.holdsPasses then { s with fil.pass := some p } else queuePass p s := by
  simp [placePass, h]

/-- A planned pass on the side of the sequence is made due (R112). -/
theorem passDue_placePass {v : State} {n k first count : Nat} {data : List Sector} (hn : v.sequenceSide = some n)
    (hp : v.passPlan k = some (newPass k first count)) (hd : v.passData (newPass k first count) = data) :
    passDue v n (passOp k) k first count data (placePass k v) := by
  rw [placePass_of_plan hp]
  refine ⟨fun hh => ?_, fun hh hw d hm => ?_⟩
  · rw [if_pos (holdsPasses_iff.2 hh)]
    rfl
  · have hno : ¬v.holdsPasses = true := fun h => by
      rcases holdsPasses_iff.1 h with h | ⟨w, ws, hws, hle⟩
      · exact absurd h (by simp [hh])
      · exact absurd hle (Nat.not_le.2 (hw w ws hws))
    rw [if_neg hno, queuePass_of_mounted (by rw [hn]; exact hm), hd]
    rfl

/-- Whatever becomes of a pass of an attempt, the side records change in their spoiled counts alone, and a current pass is
the one planned. -/
theorem placePass_attempt {f k n : Nat} {p : Pass} {r : SideRecord} (ha : s.fil.activity = .attempt)
    (hf : s.fil.queue.head? = some f) (hp : s.passPlan k = some p) (hr : s.side n = some r) :
    (∃ x, (placePass k s).side n = some { r with spoiled := x })
      ∧ ∀ q, (placePass k s).fil.pass = some q → q.op = p.op ∧ q.first = p.first ∧ q.count = p.count := by
  rw [placePass_of_plan hp]
  split
  · exact ⟨⟨r.spoiled, hr⟩, by rintro q ⟨⟩; exact ⟨rfl, rfl, rfl⟩⟩
  · cases hd : s.sequenceSide.bind s.mountedReady with
    | some d =>
      rw [queuePass_of_mounted hd]
      exact ⟨⟨r.spoiled, hr⟩, by rintro q ⟨⟩; exact ⟨rfl, rfl, rfl⟩⟩
    | none =>
      rw [queuePass_of_unmounted hd]
      obtain ⟨hnone, hsides⟩ := filingLost_attempt (s := { s with fil.pass := some { p with state := .withheld } }) ha hf
      refine ⟨?_, fun q hq => ?_⟩
      · unfold State.side
        rw [hsides]
        exact spoilExtent_side (s := { s with fil.pass := some { p with state := .withheld } }) hr
      · rw [hnone] at hq
        cases hq

/-! ### The start of an attempt -/

/-- The state in which the first pass of an attempt is made due (R110). -/
def attemptBegun (f n : Nat) (r : SideRecord) (s : State) : State :=
  { s with
    lib.sides := s.lib.sides.modify n (Option.map fun r => { r with dataHigh := r.dataHigh + (s.filing f).body.getD 0 + 1 })
    fil.records := s.fil.records.modify f fun x => { x with state := .writing, extentStart := some r.dataHigh }
    fil.activity := .attempt
    fil.working := [directorySector s.tal.feeDay r.serial ((s.filing f).body.getD 0) (layPages 1 (s.filing f).pages)] }

theorem startAttempt_eq {f n : Nat} {r : SideRecord} (h : s.side n = some r) :
    startAttempt f n s = placePass 1 (attemptBegun f n r s) := by
  unfold startAttempt
  rw [h]
  rfl

theorem attemptBegun_filing {f n : Nat} {r : SideRecord} (hf : f < s.fil.records.length) :
    (attemptBegun f n r s).filing f = { s.filing f with state := .writing, extentStart := some r.dataHigh } := by
  refine (filing_modFiling s f f _).trans ?_
  rw [if_pos ⟨rfl, hf⟩]

theorem attemptBegun_side {f n : Nat} {r : SideRecord} (h : s.side n = some r) :
    (attemptBegun f n r s).side n = some { r with dataHigh := r.dataHigh + (s.filing f).body.getD 0 + 1 } := by
  have hn : n < s.lib.sides.length := by
    by_contra hc
    simp [State.side, List.getD_eq_getElem?_getD, List.getElem?_eq_none (Nat.le_of_not_lt hc)] at h
  refine (side_modSide s n n _).trans ?_
  rw [if_pos ⟨rfl, hn⟩, h]
  rfl

theorem attemptBegun_plan {f n : Nat} {r : SideRecord} (hf : s.fil.queue.head? = some f) (hl : f < s.fil.records.length) :
    (attemptBegun f n r s).passPlan 1 = some (newPass 1 r.dataHigh ((s.filing f).body.getD 0)) := by
  rw [passPlan_attempt (s := attemptBegun f n r s) rfl hf, attemptBegun_filing hl]
  rfl

/-! ### The write-once law -/

theorem queued_pass_sectors {n d : Nat} {p : Pass} (hp : s.passPlan n = some p)
    (hd : s.sequenceSide.bind s.mountedReady = some d) :
    ∃ e : QueueEntry, queuePass p s = { s with
        fil.pass := some { p with state := .queued }, drives := s.drives.modify d fun x => { x with queue := x.queue ++ [e] } }
      ∧ e.issuer = .filing ∧ e.op = p.op ∧ e.first = p.first ∧ e.count = p.count
      ∧ p.number = n ∧ (n % 3 = 1 → p.op = .erase) ∧ (n % 3 = 2 → p.op = .write) ∧ (n % 3 = 0 → p.op = .verify)
      ∧ (s.fil.activity = .attempt → ∃ f, s.fil.queue.head? = some f ∧ ∀ a b, (s.filing f).extentStart = some a →
        (s.filing f).body = some b →
        (n ≤ 3 → p.first = a ∧ p.count = b) ∧ (4 ≤ n → p.first = a + b ∧ p.count = 1))
      ∧ (s.fil.activity = .flush ∨ s.fil.activity = .closing → ∃ m r, s.openSide = some m ∧ s.side m = some r
        ∧ p.first = r.indexLow ∧ p.count = 1)
      ∧ (s.fil.activity = .opening → p.first = 0 ∧ p.count = 1) := by
  refine ⟨_, queuePass_of_mounted hd, rfl, rfl, rfl, rfl, ?_⟩
  obtain ⟨first, count, rfl⟩ := passPlan_number hp
  refine ⟨rfl, passOp_erase, passOp_write, passOp_verify, fun ha => ?_, fun ha => ?_, fun ha => ?_⟩
  · cases hf : s.fil.queue.head? with
    | none => simp [State.passPlan, ha, hf] at hp
    | some f =>
      refine ⟨f, rfl, fun a b hea heb => ?_⟩
      rw [passPlan_attempt ha hf, hea, heb] at hp
      refine ⟨fun hn => ?_, fun hn => ?_⟩
      · rw [if_pos hn] at hp
        cases hp
        exact ⟨rfl, rfl⟩
      · rw [if_neg (by omega)] at hp
        cases hp
        exact ⟨rfl, rfl⟩
  · have he : s.passPlan n = (s.openSide.bind s.side).map fun r => newPass n r.indexLow 1 := by
      rcases ha with ha | ha <;> simp [State.passPlan, ha]
    obtain ⟨r, hr, hpr⟩ := Option.map_eq_some_iff.1 (he.symm.trans hp)
    obtain ⟨m, hm, hmr⟩ := Option.bind_eq_some_iff.1 hr
    cases hpr
    exact ⟨m, r, hm, hmr, rfl, rfl⟩
  · rw [passPlan_opening ha] at hp
    cases hp
    exact ⟨rfl, rfl⟩

theorem startAttempt_extent {f n : Nat} {r : SideRecord} {b : Nat} (hr : s.side n = some r) (hl : f < s.fil.records.length)
    (hf : s.fil.queue.head? = some f) (hb : (s.filing f).body = some b) (hfit : r.fits b (s.pendingOf n).length = true) :
    ∃ r', (startAttempt f n s).side n = some r' ∧ r'.dataHigh = r.dataHigh + b + 1 ∧ r'.indexLow = r.indexLow
      ∧ r'.dataHigh + 16 ≤ r'.indexLow
      ∧ ∀ p, (startAttempt f n s).fil.pass = some p → p.op = .erase ∧ p.first = r.dataHigh ∧ p.count = b := by
  have hspace := (fits_iff r b _).1 hfit
  have hplan := attemptBegun_plan (n := n) (r := r) hf hl
  have hside := attemptBegun_side (f := f) hr
  rw [hb] at hplan hside
  obtain ⟨⟨x, hx⟩, hpass⟩ := placePass_attempt (s := attemptBegun f n r s) rfl hf hplan hside
  rw [startAttempt_eq hr]
  refine ⟨_, hx, rfl, rfl, ?_, hpass⟩
  show r.dataHigh + b + 1 + 16 ≤ r.indexLow
  omega

/-- Settles O10: where each pass lies, the extent an attempt takes, and the index low mark. -/
theorem passesKeepWriteOnceLaw : Obligations.PassesKeepWriteOnceLaw :=
  ⟨fun _ _ _ _ hp hd => queued_pass_sectors hp hd, fun _ _ _ _ _ hr hl hf hb hfit => startAttempt_extent hr hl hf hb hfit,
    fun _ h _ hj => indexLow_lt_indexPosition h hj⟩

end Sys2Proof.Machine
end

section
/-! SUPPORT. The readiness test (R109, R110, R119, R120): one equation for each of its steps, what work on a side does, and its
settling. -/

namespace Sys2Proof.Machine

variable {s : State}

/-! ### Work on a side -/

theorem withMount_mounted {n d : Nat} {why : MountFor} {go : State → State} (h : s.mountedReady n = some d) :
    withMount n why go s = go (withdrawIdle d s) := by
  simp [withMount, h]

theorem withMount_unmounted {n : Nat} {why : MountFor} {go : State → State} (h : s.mountedReady n = none) :
    withMount n why go s = placeMarker n why s := by
  simp [withMount, h]

/-- The engine waits for a mount: the state in which its marker is placed (R108). -/
def mountAwaited (why : MountFor) (v : State) : State := { v with fil.activity := .mounting, fil.mountFor := some why }

theorem placeMarker_fresh {n : Nat} {why : MountFor} (h : s.answerNeed n false = .fresh) :
    placeMarker n why s = newMount n [] true (s.forcedFor n) (mountAwaited why s) := by
  simp [placeMarker, h, mountAwaited]

theorem placeMarker_order {n id : Nat} {why : MountFor} (h : s.answerNeed n false = .order id) :
    placeMarker n why s = reprioritise { mountAwaited why s with
      lib.orders := (mountAwaited why s).lib.orders.map fun o => if o.id = id then { o with marker := true } else o } := by
  simp [placeMarker, h, mountAwaited, modOrder]

theorem placeMarker_incoming {n d : Nat} {why : MountFor} (h : s.answerNeed n false = .incoming d) :
    placeMarker n why s = { mountAwaited why s with
      drives := (mountAwaited why s).drives.modify d fun x => { x with incomingMarker := true } } := by
  simp [placeMarker, h, mountAwaited, State.modDrive]

theorem placeMarker_unavailable {n : Nat} {why : MountFor} (hw : why ≠ .opening) (hk : why ≠ .walk)
    (h : s.answerNeed n false = .unavailable) : placeMarker n why s = setHalt .driveFault s := by
  cases why <;> simp_all [placeMarker]

/-- A test that ends with work on a side mounted READY or ACTIVE. -/
theorem readiness_starts {v : State} {n d : Nat} {why : MountFor} {go : State → State}
    (h : readinessOnce s = (withMount n why go v, false)) (hm : v.mountedReady n = some d) :
    readinessOnce s = (go (withdrawIdle d v), false) := by
  rw [h, withMount_mounted hm]

/-- A test that ends with the engine's marker (R46, R108). -/
theorem readiness_marked {v : State} {n : Nat} {why : MountFor} (hk : why ≠ .walk)
    (h : readinessOnce s = (placeMarker n why v, false)) :
    (v.answerNeed n false = .fresh →
        readinessOnce s = (newMount n [] true (v.forcedFor n) (mountAwaited why v), false))
      ∧ (∀ id, v.answerNeed n false = .order id → readinessOnce s = (reprioritise { mountAwaited why v with
          lib.orders := (mountAwaited why v).lib.orders.map fun o =>
            if o.id = id then { o with marker := true } else o }, false))
      ∧ (∀ d, v.answerNeed n false = .incoming d → readinessOnce s = ({ mountAwaited why v with
          drives := (mountAwaited why v).drives.modify d fun x => { x with incomingMarker := true } }, false))
      ∧ (why ≠ .opening → v.answerNeed n false = .unavailable → readinessOnce s = (setHalt .driveFault v, false)) := by
  refine ⟨fun ha => ?_, fun id ha => ?_, fun d ha => ?_, fun hw ha => ?_⟩
  · rw [h, placeMarker_fresh ha]
  · rw [h, placeMarker_order ha]
  · rw [h, placeMarker_incoming ha]
  · rw [h, placeMarker_unavailable hw hk ha]

theorem passData_of_not_write {p : Pass} (h : p.op ≠ .write) : s.passData p = [] := by simp [State.passData, h]

/-- The state in which the first pass of an index write is made due (R118, R119). -/
def flushBegun (act : Activity) (slots : List IndexEntry) (s : State) : State :=
  { s with fil.activity := act, fil.working := [indexSector slots], fil.flushed := slots }

theorem startFlush_eq {act : Activity} {n : Nat} {r : SideRecord} (h : s.side n = some r) :
    startFlush act n s = placePass 1 (flushBegun act (fillSlots (s.entriesOf n r.written)) s) := by
  unfold startFlush
  rw [h]
  rfl

theorem sequenceSide_index (h : s.fil.activity = .flush ∨ s.fil.activity = .closing) : s.sequenceSide = s.openSide := by
  rcases h with h | h <;> simp [State.sequenceSide, h]

/-- The first pass of an index write. -/
theorem passDue_startFlush {act : Activity} {n : Nat} {r : SideRecord} (ha : act = .flush ∨ act = .closing)
    (ho : s.openSide = some n) (hr : s.side n = some r) :
    passDue (flushBegun act (fillSlots (s.entriesOf n r.written)) s) n .erase 1 r.indexLow 1 [] (startFlush act n s) := by
  rw [startFlush_eq hr]
  exact passDue_placePass ((sequenceSide_index ha).trans ho) (passPlan_index ha ho hr) (passData_of_not_write (by simp [newPass, passOp]))

/-- The state in which the first pass of an opening is made due (R120). -/
def labelBegun (n : Nat) (r : SideRecord) (s : State) : State :=
  { s with fil.activity := .opening, fil.working := [labelSector r.serial (n % 2)] }

theorem passDue_startLabel {n : Nat} {r : SideRecord} (ho : s.fil.opening = some n) (hr : s.side n = some r) :
    passDue (labelBegun n r s) n .erase 1 0 1 [] (startLabel n s) := by
  have e : startLabel n s = placePass 1 (labelBegun n r s) := by
    unfold startLabel
    rw [hr]
    rfl
  rw [e]
  exact passDue_placePass (v := labelBegun n r s) ho (passPlan_opening rfl) (passData_of_not_write (by simp [newPass, passOp]))

theorem passDue_startAttempt {f n : Nat} {r : SideRecord} (ho : s.openSide = some n) (hr : s.side n = some r)
    (hf : s.fil.queue.head? = some f) (hl : f < s.fil.records.length) :
    passDue (attemptBegun f n r s) n .erase 1 r.dataHigh ((s.filing f).body.getD 0) [] (startAttempt f n s) := by
  rw [startAttempt_eq hr]
  exact passDue_placePass (v := attemptBegun f n r s) ho (attemptBegun_plan hf hl) (passData_of_not_write (by simp [newPass, passOp]))

/-! ### A close owed -/

theorem readinessOnce_close {n : Nat} {owed : SideState} (hc : s.fil.closeOwed = some owed) (ho : s.openSide = some n)
    (h : s.pendingOf n = [] ∨ ∃ r, s.side n = some r ∧ r.incomplete = true) :
    readinessOnce s = (finishClose n owed s, true) := by
  have : (s.pendingOf n).isEmpty = true ∨ (s.side n).any (·.incomplete) = true := by
    rcases h with h | ⟨r, hr, hi⟩
    · simp [h]
    · simp [hr, hi]
  simp only [readinessOnce, hc, continueClose, ho]
  rw [if_pos this]

theorem readinessOnce_closeFlush {n : Nat} {owed : SideState} {r : SideRecord} (hc : s.fil.closeOwed = some owed)
    (ho : s.openSide = some n) (hr : s.side n = some r) (hi : r.incomplete = false) (hp : s.pendingOf n ≠ []) :
    readinessOnce s = (withMount n .close (startFlush .closing n) s, false) := by
  simp [readinessOnce, hc, continueClose, ho, hr, hi, hp]

/-! ### The OPEN side -/

theorem readinessOnce_unusable {n : Nat} (hc : s.fil.closeOwed = none) (ho : s.openSide = some n)
    (hu : s.sideUnusable n = true) : readinessOnce s = (setHalt .driveFault s, false) := by
  simp [readinessOnce, hc, serveSide, ho, hu]

theorem readinessOnce_incomplete {n : Nat} {r : SideRecord} (hc : s.fil.closeOwed = none) (ho : s.openSide = some n)
    (hu : s.sideUnusable n = false) (hr : s.side n = some r) (hi : r.incomplete = true) :
    readinessOnce s = ({ s with fil.closeOwed := some .suspect }, true) := by
  simp [readinessOnce, hc, serveSide, ho, hu, hr, hi]

theorem readinessOnce_flush {n : Nat} {r : SideRecord} (hc : s.fil.closeOwed = none) (ho : s.openSide = some n)
    (hu : s.sideUnusable n = false) (hr : s.side n = some r) (hi : r.incomplete = false) (hp : 64 ≤ (s.pendingOf n).length) :
    readinessOnce s = (withMount n .flush (startFlush .flush n) s, false) := by
  simp [readinessOnce, hc, serveSide, ho, hu, hr, hi, Config.entriesPerSector, hp]

/-! ### The head filing -/

/-- The test reaches the filing queue: no close is owed, and an OPEN side can be used and needs no flush (R109). -/
def State.serves (s : State) : Prop :=
  s.fil.closeOwed = none ∧ ∀ n, s.openSide = some n → s.sideUnusable n = false
    ∧ (∀ r, s.side n = some r → r.incomplete = false) ∧ (s.pendingOf n).length < 64

/-- The head filing of the queue, if there is one, is served. -/
theorem readinessOnce_head (h : s.serves) :
    readinessOnce s = s.fil.queue.head?.elim (s, false) fun f => serveHead f s := by
  obtain ⟨hc, hs⟩ := h
  cases ho : s.openSide with
  | none => cases hq : s.fil.queue.head? <;> simp [readinessOnce, hc, serveSide, ho, hq]
  | some n =>
    obtain ⟨hu, hi, hp⟩ := hs n ho
    have hany : (s.side n).any (·.incomplete) = false := by
      cases hr : s.side n with
      | none => rfl
      | some r => simpa using hi r hr
    have hlen : ¬Config.entriesPerSector ≤ (s.pendingOf n).length := Nat.not_le.2 hp
    cases hq : s.fil.queue.head? <;> simp [readinessOnce, hc, serveSide, ho, hu, hany, hlen, hq]

theorem readinessOnce_empty (h : s.serves) (hq : s.fil.queue = []) : readinessOnce s = (s, false) := by
  rw [readinessOnce_head h, hq, List.head?_nil, Option.elim_none]

theorem readinessOnce_filing {f : Nat} {fs : List Nat} (h : s.serves) (hq : s.fil.queue = f :: fs) :
    readinessOnce s = serveHead f s := by
  rw [readinessOnce_head h, hq, List.head?_cons, Option.elim_some]

theorem serveHead_exhausted {f i : Nat} (hi : s.fil.nNext = some i) (h : 99999999 < i) :
    serveHead f s = (setHalt .numbersExhausted s, false) := by
  simp [serveHead, hi, Config.topInstrument, h]

/-- The numbers are not exhausted (R109 step 5). -/
def State.numbersLeft (s : State) : Prop := ∀ i, s.fil.nNext = some i → i ≤ 99999999

theorem numbersLeft_any (h : s.numbersLeft) : s.fil.nNext.any (Config.topInstrument < ·) = false := by
  cases hn : s.fil.nNext with
  | none => rfl
  | some i => exact decide_eq_false (Nat.not_lt.2 (h i hn))

theorem serveHead_full {f : Nat} (hn : s.numbersLeft) (h : 128 ≤ s.loc.entries.length) :
    serveHead f s = (setHalt .pendingFull s, false) := by
  simp [serveHead, numbersLeft_any hn, Config.pendingLimit, h]

theorem serveHead_choose {f : Nat} (hn : s.numbersLeft) (h : s.loc.entries.length < 128) (ho : s.openSide = none) :
    serveHead f s = (chooseSide s, false) := by
  have : ¬Config.pendingLimit ≤ s.loc.entries.length := Nat.not_le.2 h
  simp [serveHead, numbersLeft_any hn, this, ho]

theorem serveHead_open {f n : Nat} {r : SideRecord} (hn : s.numbersLeft) (h : s.loc.entries.length < 128)
    (ho : s.openSide = some n) (hr : s.side n = some r) :
    serveHead f s = if r.fits ((s.filing f).body.getD 0) (s.pendingOf n).length then
        (withMount n .attempt (startAttempt f n) s, false)
      else ({ s with fil.closeOwed := some .filled }, true) := by
  have : ¬Config.pendingLimit ≤ s.loc.entries.length := Nat.not_le.2 h
  simp [serveHead, numbersLeft_any hn, this, ho, hr]

/-! ### The choice of a side -/

/-- A side that may be opened (R120). -/
def State.openable (s : State) (n : Nat) : Prop := ∃ r, s.side n = some r ∧ r.state = .blank ∧ s.inBadDrive r = false

theorem openable_iff {n : Nat} :
    (s.side n).any (fun r => r.state == .blank && !s.inBadDrive r) = true ↔ s.openable n := by
  cases hr : s.side n <;> simp [State.openable, hr]

theorem blankSide_eq : s.blankSide
    = (List.range 128).find? fun n => (s.side n).any fun r => r.state == .blank && !s.inBadDrive r := by
  unfold State.blankSide
  congr 1
  funext n
  cases s.side n <;> rfl

theorem blankSide_none (h : ∀ n < 128, ¬s.openable n) : s.blankSide = none := by
  rw [blankSide_eq]
  exact List.find?_eq_none.2 fun n hn he => h n (List.mem_range.1 hn) (openable_iff.1 he)

/-- The lowest number below a bound that meets a condition is the one found. -/
theorem find_range_lowest {p : Nat → Bool} {m n : Nat} (hn : n < m) (hp : p n = true) (hl : ∀ k < n, p k = false) :
    (List.range m).find? p = some n := by
  rw [List.find?_range_eq_some]
  exact ⟨hp, List.mem_range.2 hn, fun k hk => by simp [hl k hk]⟩

theorem blankSide_lowest {n : Nat} (hn : n < 128) (h : s.openable n) (hl : ∀ m < n, ¬s.openable m) :
    s.blankSide = some n := by
  rw [blankSide_eq]
  refine find_range_lowest hn (openable_iff.2 h) fun m hm => ?_
  rw [← Bool.not_eq_true]
  exact fun he => hl m hm (openable_iff.1 he)

theorem chooseSide_full (h : 512 ≤ s.loc.ranges.length) : chooseSide s = setHalt .rangeFull s := if_pos h

theorem chooseSide_none (h : s.loc.ranges.length < 512) (hb : s.blankSide = none) : chooseSide s = setHalt .noMedia s := by
  unfold chooseSide
  rw [if_neg (show ¬Config.rangeLimit ≤ s.loc.ranges.length from Nat.not_le.2 h), hb]

theorem chooseSide_some {n : Nat} (h : s.loc.ranges.length < 512) (hb : s.blankSide = some n) :
    chooseSide s = withMount n .opening (startLabel n) { s with fil.opening := some n } := by
  unfold chooseSide
  rw [if_neg (show ¬Config.rangeLimit ≤ s.loc.ranges.length from Nat.not_le.2 h), hb]

/-! ### The test as it is called -/

theorem runReadiness_of_idle (ht : s.todo.readiness = true) (ha : s.fil.activity = .idle) (hs : s.stopping = false)
    (ho : s.mu.service ≠ .opening) : runReadiness s = if s.fil.halt.isSome then { s with todo.readiness := false }
      else readinessTest 8 { s with todo.readiness := false } := by
  have hs' : ({ s with todo.readiness := false } : State).stopping = false := hs
  unfold runReadiness
  simp only [ht, ↓reduceIte, ha, ne_eq, not_true_eq_false, hs', Bool.false_eq_true, ho]

theorem readinessTest_end {n : Nat} {u : State} (h : readinessOnce s = (u, false)) : readinessTest (n + 1) s = u := by
  simp [readinessTest, h]

theorem readinessTest_again {n : Nat} {u : State} (h : readinessOnce s = (u, true)) :
    readinessTest (n + 1) s = readinessTest n u := by
  simp [readinessTest, h]

/-- An index write on a side mounted READY or ACTIVE starts at once. -/
theorem readiness_sector {act : Activity} {n d : Nat} {r : SideRecord} {why : MountFor} (ha : act = .flush ∨ act = .closing)
    (ho : s.openSide = some n) (hr : s.side n = some r) (hm : s.mountedReady n = some d)
    (h : readinessOnce s = (withMount n why (startFlush act n) s, false)) :
    ∃ u slots, readinessOnce s = (u, false) ∧ passDue (flushBegun act slots (withdrawIdle d s)) n .erase 1 r.indexLow 1 [] u
      ∧ slots = ((s.pendingOf n).filter fun p => p.k / 64 == r.written).map (·.entry)
        ++ List.replicate (64 - ((s.pendingOf n).filter fun p => p.k / 64 == r.written).length) emptySlot := by
  refine ⟨_, _, readiness_starts h hm, passDue_startFlush (s := withdrawIdle d s) ha ho hr, ?_⟩
  show fillSlots (s.entriesOf n r.written) = _
  rw [fillSlots, State.entriesOf, List.length_map]

/-- Settles O25, step by step. -/
theorem readinessTestInOrder : Obligations.ReadinessTestInOrder := by
  intro s once serve numbers marked sector
  have mark : ∀ {v : State} {n : Nat} {why : MountFor} {go : State → State}, why ≠ .walk → v.mountedReady n = none →
      readinessOnce s = (withMount n why go v, false) → marked v n why := fun hk hm h =>
    readiness_marked hk (h.trans (by rw [withMount_unmounted hm]))
  refine ⟨?called, ?close, ?openSide, fun hs hq => readinessOnce_empty hs hq, ?head⟩
  case called =>
    intro ht ha hst hsv v
    rw [runReadiness_of_idle ht ha hst hsv]
    refine ⟨fun hh => ?_, fun u hh => ?_⟩
    · rw [if_pos (Option.isSome_iff_ne_none.2 hh)]
    · rw [if_neg (by simp [hh])]
      exact ⟨readinessTest_end, readinessTest_again⟩
  case close =>
    intro n owed hc ho
    refine ⟨readinessOnce_close hc ho, fun r hr hi hp => ?_⟩
    have h := readinessOnce_closeFlush hc ho hr hi hp
    exact ⟨fun hm => mark (by decide) hm h, fun d hm => readiness_sector (.inr rfl) ho hr hm h⟩
  case openSide =>
    intro n hc ho
    refine ⟨readinessOnce_unusable hc ho, fun r hu hr => ⟨readinessOnce_incomplete hc ho hu hr, fun hi hp => ?_⟩⟩
    have h := readinessOnce_flush hc ho hu hr hi hp
    exact ⟨fun hm => mark (by decide) hm h, fun d hm => readiness_sector (.inl rfl) ho hr hm h⟩
  case head =>
    intro f fs hs hq
    have hf : s.fil.queue.head? = some f := by rw [hq]; rfl
    have hhead := readinessOnce_filing hs hq
    refine ⟨?_, fun hn he => hhead.trans (serveHead_full hn he), fun hn he ho => ⟨fun hl => ?_, fun hl => ⟨fun hb => ?_, ?_⟩⟩, ?_⟩
    · rintro ⟨i, hi, hlt⟩
      exact hhead.trans (serveHead_exhausted hi hlt)
    · exact hhead.trans (by rw [serveHead_choose hn he ho, chooseSide_full hl])
    · exact hhead.trans (by rw [serveHead_choose hn he ho, chooseSide_none hl (blankSide_none hb)])
    · intro n r hlt hfit hlow hr
      have h := hhead.trans (serveHead_choose hn he ho)
      rw [chooseSide_some hl (blankSide_lowest hlt hfit hlow)] at h
      refine ⟨fun hm => mark (by decide) hm h, fun d hm => ⟨_, readiness_starts h hm, ?_⟩⟩
      exact passDue_startLabel (s := withdrawIdle d { s with fil.opening := some n }) rfl hr
    · intro n r hn he ho hr e
      have h := hhead.trans (serveHead_open hn he ho hr)
      have hspace := fits_iff r e (s.pendingOf n).length
      refine ⟨fun hno => ?_, fun hyes => ⟨fun hm => ?_, fun d hm hlen => ?_⟩⟩
      · rw [if_neg fun hfit => by have := hspace.1 hfit; omega] at h
        exact h
      all_goals rw [if_pos (hspace.2 (by omega))] at h
      · exact mark (by decide) hm h
      · exact ⟨_, _, readiness_starts h hm,
          passDue_startAttempt (s := withdrawIdle d s) ho hr hf hlen, rfl⟩

end Sys2Proof.Machine
end

section
/-! SUPPORT. The results of the passes of flushes, closes and openings (R6, R64, R112, R113, R118 to R120), and their
settling. -/

namespace Sys2Proof.Machine

variable {s : State}

/-! ### One record, one notice -/

/-- A side with a record stands in the table. -/
theorem side_lt {n : Nat} {r : SideRecord} (h : s.side n = some r) : n < s.lib.sides.length := by
  by_contra hc
  simp [State.side, List.getD_eq_getElem?_getD, List.getElem?_eq_none (Nat.le_of_not_lt hc)] at h

theorem side_modSide_self {n : Nat} {r : SideRecord} (f : SideRecord → SideRecord) (h : s.side n = some r) :
    (s.modSide n f).side n = some (f r) := by
  rw [side_modSide, if_pos ⟨rfl, side_lt h⟩, h]
  rfl

/-- Two changes that agree on the record held make one state. -/
theorem modSide_congr {n : Nat} {r : SideRecord} {f g : SideRecord → SideRecord} (h : s.side n = some r) (hfg : f r = g r) :
    s.modSide n f = s.modSide n g := by
  have hl : s.lib.sides[n]? = some (some r) := by
    have hn := side_lt h
    simpa [State.side, List.getD_eq_getElem?_getD, List.getElem?_eq_getElem hn] using h
  have : s.lib.sides.modify n (Option.map f) = s.lib.sides.modify n (Option.map g) := by
    refine List.ext_getElem? fun i => ?_
    rw [List.getElem?_modify, List.getElem?_modify]
    by_cases hi : n = i
    · subst hi
      simp [hl, hfg]
    · simp [hi]
  unfold State.modSide
  rw [this]

/-- With a manager bound, a notice raised is pending with its details (R166). -/
theorem raise_pending {d : NoticeDetails} (h : s.mu.manager ≠ none) : ∃ m ∈ (raise_ d s).rli.notices, m.details = d := by
  unfold raise_
  rw [if_neg (by simpa using h)]
  split
  · next ha =>
    obtain ⟨n, hn, hk⟩ := List.any_eq_true.1 ha
    refine ⟨n.again d, List.mem_map.2 ⟨n, hn, if_pos (by simpa using hk)⟩, rfl⟩
  · exact ⟨_, List.mem_append_right _ (List.mem_singleton.2 rfl), rfl⟩

/-! ### The cache -/

/-- A sector the cache is filled with is there (R65). -/
theorem fillCache_mem {n j : Nat} {es : List IndexEntry} : ∃ c ∈ (fillCache n j es s).loc.cache, c.side = n ∧ c.j = j := by
  unfold fillCache
  split
  · next e he =>
    have := List.find?_some he
    simp only [Bool.and_eq_true, beq_iff_eq] at this
    exact ⟨e, List.mem_cons_self, this⟩
  · exact ⟨_, List.mem_cons_self, rfl, rfl⟩

theorem fillCache_cached {n j : Nat} {es : List IndexEntry} (h : s.cached n j = none) :
    (fillCache n j es s).cached n j = some { side := n, j := j, entries := es } := by
  unfold fillCache
  rw [h]
  simp [State.cached]

/-- A fill changes the cache alone. -/
theorem fillCache_eq {n j : Nat} {es : List IndexEntry} : ∃ l, fillCache n j es s = { s with loc.cache := l } := by
  unfold fillCache
  split <;> exact ⟨_, rfl⟩

/-! ### The close as one event -/

/-- The close raised, with the state owed on the record (R14, R119). -/
def closeRaised (n : Nat) (owed : SideState) (r : SideRecord) (s : State) : State :=
  raise_ (SideRecord.closedDetails n { r with state := owed }) (s.modSide n fun r => { r with state := owed })

/-- The open range is open no more (R61, R119). -/
def closeOpen (rs : List RangeEntry) : List RangeEntry := rs.map fun y => if y.openFlag then { y with openFlag := false } else y

theorem finishClose_eq {n : Nat} {owed : SideState} {r : SideRecord} (h : s.side n = some r) :
    finishClose n owed s = { closeRaised n owed r s with
      loc.ranges := closeOpen s.loc.ranges
      fil := { s.fil with closeOwed := none, pass := none, working := [], flushed := [], activity := .idle }
      todo.arbiter := s.todo.arbiter || s.closeEndsSequence } := by
  have hl : (closeRaised n owed r s).loc = s.loc := raise_loc _ _
  have hf : (closeRaised n owed r s).fil = s.fil := raise_fil _ _
  have ht : (closeRaised n owed r s).todo = s.todo := raise_todo _ _
  unfold finishClose
  simp only [side_modSide_self _ h]
  change (if s.closeEndsSequence = true then
      (leaveSequence { (closeRaised n owed r s).modOpenRange fun r => { r with openFlag := false } with
        fil.closeOwed := none }).callArbiter
    else leaveSequence { (closeRaised n owed r s).modOpenRange fun r => { r with openFlag := false } with
        fil.closeOwed := none }) = _
  cases s.closeEndsSequence <;>
    simp [leaveSequence, State.callArbiter, State.modOpenRange, closeOpen, hl, hf, ht]

theorem finishClose_side {n : Nat} {owed : SideState} {r : SideRecord} (h : s.side n = some r) :
    (finishClose n owed s).side n = some { r with state := owed } := by
  have e : (finishClose n owed s).side n = (closeRaised n owed r s).side n := by rw [finishClose_eq h]; rfl
  rw [e]
  unfold closeRaised State.side
  rw [raise_lib]
  exact side_modSide_self _ h

theorem finishClose_pending {n : Nat} {owed : SideState} {r : SideRecord} (h : s.side n = some r)
    (hm : s.mu.manager ≠ none) : ∃ m ∈ (finishClose n owed s).rli.notices, m.details
      = .sideClosed n owed r.dataHigh r.written r.skips.length r.spoiled r.incomplete := by
  rw [finishClose_eq h]
  exact raise_pending (s := s.modSide n fun r => { r with state := owed }) hm

/-! ### What a result is given to -/

theorem passResult_index {n : Nat} {p : Pass} (res : DriveResult) (ha : s.fil.activity = .flush ∨ s.fil.activity = .closing)
    (ho : s.openSide = some n) (hp : s.fil.pass = some p) : passResult res s =
      if p.disturbed then placePass p.number s
      else if res = .ok then seriesOk p (flushOk n) s else flushFailed n s := by
  rcases ha with ha | ha <;> simp only [passResult, hp, ha, ho]

theorem passResult_opening {n : Nat} {p : Pass} (res : DriveResult) (ha : s.fil.activity = .opening)
    (ho : s.fil.opening = some n) (hp : s.fil.pass = some p) : passResult res s =
      if p.disturbed then placePass p.number s
      else if res = .ok then seriesOk p (openingOk n) s else openingFailed n s := by
  simp only [passResult, hp, ha, ho]

theorem seriesOk_next {p : Pass} {done : State → State} (h : p.number ≠ 3) : seriesOk p done s = placePass (p.number + 1) s :=
  if_neg h

theorem seriesOk_last {p : Pass} {done : State → State} (h : p.number = 3) : seriesOk p done s = done s := if_pos h

/-- A pass of an index write is made due at the index low mark. -/
theorem passDue_index {n k : Nat} {r : SideRecord} {data : List Sector} (ha : s.fil.activity = .flush ∨ s.fil.activity = .closing)
    (ho : s.openSide = some n) (hr : s.side n = some r) (hd : s.passData (newPass k r.indexLow 1) = data) :
    passDue s n (passOp k) k r.indexLow 1 data (placePass k s) :=
  passDue_placePass ((sequenceSide_index ha).trans ho) (passPlan_index ha ho hr) hd

theorem passDue_opening {n k : Nat} {data : List Sector} (ha : s.fil.activity = .opening) (ho : s.fil.opening = some n)
    (hd : s.passData (newPass k 0 1) = data) : passDue s n (passOp k) k 0 1 data (placePass k s) :=
  passDue_placePass (by simp [State.sequenceSide, ha, ho]) (passPlan_opening ha) hd

/-- A WRITE outside an attempt writes the working frame. -/
theorem passData_working {p : Pass} (hw : p.op = .write) (ha : s.fil.activity ≠ .attempt) : s.passData p = s.fil.working := by
  unfold State.passData
  rw [if_neg (by simp [hw])]
  split
  · next h _ => exact absurd h ha
  · next h _ => exact absurd h ha
  · rfl

theorem index_ne_attempt (ha : s.fil.activity = .flush ∨ s.fil.activity = .closing) : s.fil.activity ≠ .attempt := by
  rcases ha with ha | ha <;> simp [ha]

/-! ### A sector written -/

/-- The engine has left its passes. -/
def State.passesLeft (u : State) : Prop := u.fil.activity = .idle ∧ u.fil.pass = none ∧ u.fil.working = []

theorem endSequence_left (s : State) : (endSequence s).passesLeft := ⟨rfl, rfl, rfl⟩

theorem finishClose_left {n : Nat} {owed : SideState} {r : SideRecord} (h : s.side n = some r) :
    (finishClose n owed s).passesLeft := by
  rw [finishClose_eq h]
  exact ⟨rfl, rfl, rfl⟩

/-- The state in which the cache is filled with a sector written: W raised, its entries gone (R64). -/
def sectorCounted (n : Nat) (r : SideRecord) (s : State) : State :=
  { s.modSide n fun r => { r with written := r.written + 1 } with
    loc.entries := s.loc.entries.filter fun q => !(q.side == n && q.k / 64 == r.written) }

theorem indexWritten_eq {n : Nat} {r : SideRecord} (h : s.side n = some r) :
    ∃ l, indexWritten n s = { sectorCounted n r s with loc.cache := l }
      ∧ (∃ c ∈ l, c.side = n ∧ c.j = r.written)
      ∧ (s.cached n r.written = none →
        l.find? (fun e => e.side == n && e.j == r.written) = some { side := n, j := r.written, entries := s.fil.flushed }) := by
  have e : indexWritten n s = fillCache n r.written s.fil.flushed (sectorCounted n r s) := by
    unfold indexWritten
    rw [h]
    rfl
  obtain ⟨l, hl⟩ := fillCache_eq (s := sectorCounted n r s) (n := n) (j := r.written) (es := s.fil.flushed)
  have hc : (fillCache n r.written s.fil.flushed (sectorCounted n r s)).loc.cache = l := by rw [hl]
  refine ⟨l, e.trans hl, ?_, fun hn => ?_⟩
  · rw [← hc]
    exact fillCache_mem
  · rw [← hc]
    exact fillCache_cached (s := sectorCounted n r s) hn

theorem sectorCounted_side {n : Nat} {r : SideRecord} (h : s.side n = some r) :
    (sectorCounted n r s).side n = some { r with written := r.written + 1 } := side_modSide_self _ h

/-- The end of a full flush. -/
theorem flushOk_flush {n : Nat} (ha : s.fil.activity = .flush) :
    flushOk n s = (endSequence (indexWritten n s)).callReadiness := by
  simp [flushOk, ha]

/-- The end of the partial flush of a close, with no entry of the side left. -/
theorem flushOk_closing {n : Nat} {r : SideRecord} (ha : s.fil.activity = .closing) (hr : s.side n = some r)
    (hmine : ∀ q ∈ s.loc.entries, q.side = n → (q.side == n && q.k / 64 == r.written) = true) :
    flushOk n s = (finishClose n (s.fil.closeOwed.getD .suspect) (indexWritten n s)).callReadiness := by
  obtain ⟨l, e, -⟩ := indexWritten_eq hr
  have hp : ((indexWritten n s).pendingOf n).isEmpty = true := by
    rw [List.isEmpty_iff, State.pendingOf, List.filter_eq_nil_iff, e]
    intro q hq hn
    obtain ⟨hmem, hno⟩ := List.mem_filter.1 hq
    rw [hmine q hmem (by simpa using hn)] at hno
    cases hno
  have hc : (indexWritten n s).fil.closeOwed = s.fil.closeOwed := by
    rw [e]
    rfl
  simp [flushOk, ha, hp, hc]

/-- Index sector W of side `n` has been counted in `u`, the record in state `st`, and the engine has left its passes (R64). -/
def SectorDone (n : Nat) (r : SideRecord) (st : SideState) (s u : State) : Prop :=
  u.side n = some { r with state := st, written := r.written + 1 }
    ∧ u.loc.entries = s.loc.entries.filter (fun q => !(q.side == n && q.k / 64 == r.written)) ∧ u.passesLeft
    ∧ u.todo.readiness = true ∧ (∃ c ∈ u.loc.cache, c.side = n ∧ c.j = r.written)
    ∧ (s.cached n r.written = none → u.cached n r.written
      = some { side := n, j := r.written, entries := s.fil.flushed })

theorem flushOk_flush_done {n : Nat} {r : SideRecord} (ha : s.fil.activity = .flush) (hr : s.side n = some r) :
    SectorDone n r r.state s (flushOk n s) ∧ (flushOk n s).loc.ranges = s.loc.ranges
      ∧ (flushOk n s).fil.closeOwed = s.fil.closeOwed := by
  obtain ⟨l, e, hm, hc⟩ := indexWritten_eq hr
  rw [flushOk_flush ha, e]
  exact ⟨⟨sectorCounted_side hr, rfl, endSequence_left _, rfl, hm, hc⟩, rfl, rfl⟩

theorem flushOk_closing_done {n : Nat} {r : SideRecord} (ha : s.fil.activity = .closing) (hr : s.side n = some r)
    (hmine : ∀ q ∈ s.loc.entries, q.side = n → (q.side == n && q.k / 64 == r.written) = true) :
    SectorDone n r (s.fil.closeOwed.getD .suspect) s (flushOk n s) ∧ (flushOk n s).fil.closeOwed = none
      ∧ (flushOk n s).loc.ranges = closeOpen s.loc.ranges
      ∧ (s.mu.manager ≠ none → ∃ m ∈ (flushOk n s).rli.notices, m.details = .sideClosed n (s.fil.closeOwed.getD .suspect)
        r.dataHigh (r.written + 1) r.skips.length r.spoiled r.incomplete) := by
  obtain ⟨l, e, hm, hc⟩ := indexWritten_eq hr
  have hside : (indexWritten n s).side n = some { r with written := r.written + 1 } := by
    rw [e]
    exact sectorCounted_side hr
  have hsides := finishClose_side (owed := s.fil.closeOwed.getD .suspect) hside
  have hnotice := finishClose_pending (owed := s.fil.closeOwed.getD .suspect) hside
  rw [flushOk_closing ha hr hmine]
  refine ⟨⟨hsides, ?_, finishClose_left hside, rfl, ?_, fun hn => ?_⟩, ?_, ?_, fun hman => hnotice (by rw [e]; exact hman)⟩
  all_goals rw [State.callReadiness, finishClose_eq hside]
  · show (closeRaised _ _ _ _).loc.entries = _
    rw [closeRaised, raise_loc, e]
    rfl
  · show ∃ c ∈ (closeRaised _ _ _ _).loc.cache, _
    rw [closeRaised, raise_loc, e]
    exact hm
  · show (closeRaised _ _ _ _).loc.cache.find? _ = _
    rw [closeRaised, raise_loc, e]
    exact hc hn
  · show closeOpen (indexWritten n s).loc.ranges = _
    rw [e]
    rfl

/-! ### A sector that failed, or is lost -/

theorem skip_appends {r : SideRecord} (h : r.skips.length < 8) : r.skip = { r with skips := r.skips ++ [r.written] } := if_pos h

theorem skip_full {r : SideRecord} (h : 8 ≤ r.skips.length) : r.skip = { r with incomplete := true } :=
  if_neg (Nat.not_lt.2 h)

theorem giveUpIndex_appends {n : Nat} {r : SideRecord} (hr : s.side n = some r) (h : r.skips.length < 8)
    (hi : r.incomplete = false) :
    giveUpIndex n s = s.modSide n fun r => { r with skips := r.skips ++ [r.written] } := by
  have hs := side_modSide_self SideRecord.skip hr
  unfold giveUpIndex
  simp only [hs, skip_appends h, Option.any_some, hi, Bool.false_eq_true, ↓reduceIte]
  exact modSide_congr hr (skip_appends h)

theorem giveUpIndex_incomplete {n : Nat} {r : SideRecord} (hr : s.side n = some r) (h : r.skip.incomplete = true) :
    giveUpIndex n s = { s.modSide n SideRecord.skip with fil.closeOwed := some .suspect } := by
  have hs := side_modSide_self SideRecord.skip hr
  unfold giveUpIndex
  simp only [hs, Option.any_some, h, ↓reduceIte]

/-- A counted failure with a place left in the skip list: the same sector again, at the new index low mark. -/
theorem flushFailed_again {n : Nat} {r : SideRecord} (ha : s.fil.activity = .flush ∨ s.fil.activity = .closing)
    (ho : s.openSide = some n) (hr : s.side n = some r) (h : r.skips.length < 8) (hi : r.incomplete = false) :
    passDue (s.modSide n fun r => { r with skips := r.skips ++ [r.written] }) n .erase 1
      (299999 - r.written - (r.skips.length + 1)) 1 [] (flushFailed n s) := by
  have hs := side_modSide_self (fun r => { r with skips := r.skips ++ [r.written] }) hr
  have e : flushFailed n s = placePass 1 (s.modSide n fun r => { r with skips := r.skips ++ [r.written] }) := by
    unfold flushFailed
    simp only [giveUpIndex_appends hr h hi, hs, Option.any_some, hi, Bool.false_eq_true, ↓reduceIte]
  have hlow : 299999 - r.written - (r.skips.length + 1)
      = SideRecord.indexLow { r with skips := r.skips ++ [r.written] } := by
    simp [SideRecord.indexLow, Config.topSector]
  rw [e, hlow]
  exact passDue_index (s := s.modSide n fun r => { r with skips := r.skips ++ [r.written] }) ha ho hs
    (passData_of_not_write (by simp [newPass, passOp]))

/-- The ninth failure (R6, R118, R119). -/
theorem flushFailed_full {n : Nat} {r : SideRecord} (hr : s.side n = some r) (h : 8 ≤ r.skips.length) :
    flushFailed n s
      = (endSequence { s.modSide n SideRecord.skip with fil.closeOwed := some .suspect }).callReadiness := by
  have hi : r.skip.incomplete = true := by rw [skip_full h]
  have hs := side_modSide_self SideRecord.skip hr
  unfold flushFailed
  rw [giveUpIndex_incomplete hr hi]
  refine if_pos ?_
  show ((s.modSide n SideRecord.skip).side n).any _ = true
  rw [hs, Option.any_some, hi]

theorem filingLost_index (ha : s.fil.activity = .flush ∨ s.fil.activity = .closing) :
    filingLost s = setHalt .driveFault (endSequence (loseIndex s)) := by
  rcases ha with ha | ha <;> simp [filingLost, ha]

theorem loseIndex_unissued {n : Nat} {p : Pass} (ho : s.openSide = some n) (hp : s.fil.pass = some p)
    (h : ¬(2 ≤ p.number ∨ p.state = .inFlight)) : loseIndex s = s := by
  have : p.eraseIssued = false := by simpa [Pass.eraseIssued] using h
  simp [loseIndex, ho, hp, this]

theorem loseIndex_issued {n : Nat} {p : Pass} (ho : s.openSide = some n) (hp : s.fil.pass = some p)
    (h : 2 ≤ p.number ∨ p.state = .inFlight) :
    loseIndex s = if s.fil.activity = .closing then giveUpIndex n s else s.modSide n SideRecord.skip := by
  have : p.eraseIssued = true := by simpa [Pass.eraseIssued] using h
  simp [loseIndex, ho, hp, this]

/-- A position given up takes the skip, whatever becomes of the close. -/
theorem loseIndex_side {n : Nat} {p : Pass} {r : SideRecord} (ho : s.openSide = some n) (hp : s.fil.pass = some p)
    (hr : s.side n = some r) (h : 2 ≤ p.number ∨ p.state = .inFlight) : (loseIndex s).side n = some r.skip := by
  have hs := side_modSide_self SideRecord.skip hr
  rw [loseIndex_issued ho hp h]
  split
  · unfold giveUpIndex
    dsimp only
    split <;> exact hs
  · exact hs

theorem giveUpIndex_entries {n : Nat} : (giveUpIndex n s).loc = s.loc := by
  unfold giveUpIndex
  dsimp only
  split <;> rfl

theorem loseIndex_loc : (loseIndex s).loc = s.loc := by
  unfold loseIndex
  split
  · rfl
  · split
    · split
      · exact giveUpIndex_entries
      · rfl
    · rfl

/-- What a lost drive leaves of an index write (R118, R119; log 50). -/
theorem filingLost_index_result {n : Nat} {p : Pass} {r : SideRecord}
    (ha : s.fil.activity = .flush ∨ s.fil.activity = .closing) (ho : s.openSide = some n) (hr : s.side n = some r)
    (hp : s.fil.pass = some p) :
    let u := filingLost s
    let issued : Prop := 2 ≤ p.number ∨ p.state = .inFlight
    u.passesLeft ∧ u.fil.halt = some .driveFault ∧ u.loc.entries = s.loc.entries
      ∧ (¬issued → u.side n = some r)
      ∧ (issued → r.skips.length < 8 → u.side n = some { r with skips := r.skips ++ [r.written] })
      ∧ (issued → 8 ≤ r.skips.length → u.side n = some { r with incomplete := true })
      ∧ (s.fil.activity = .flush ∨ ¬issued ∨ (r.skips.length < 8 ∧ r.incomplete = false) →
        u.fil.closeOwed = s.fil.closeOwed)
      ∧ (s.fil.activity = .closing → issued → 8 ≤ r.skips.length → u.fil.closeOwed = some .suspect) := by
  intro u issued
  have hu : u = setHalt .driveFault (endSequence (loseIndex s)) := filingLost_index ha
  have hside : u.side n = (loseIndex s).side n := by
    rw [hu]
    unfold State.side
    rw [setHalt_sides]
    rfl
  have howed : u.fil.closeOwed = (loseIndex s).fil.closeOwed := by
    rw [hu, setHalt_closeOwed]
    rfl
  refine ⟨?_, ?_, ?_, fun hno => ?_, fun hi hl => ?_, fun hi hl => ?_, fun h => ?_, fun hc hi hl => ?_⟩
  · rw [hu]
    exact ⟨setHalt_idle rfl, setHalt_pass _ _, setHalt_working _ _⟩
  · rw [hu, setHalt_halt]
  · rw [hu, setHalt_loc]
    exact congrArg Loc.entries loseIndex_loc
  · rw [hside, loseIndex_unissued ho hp hno, hr]
  · rw [hside, loseIndex_side ho hp hr hi, skip_appends hl]
  · rw [hside, loseIndex_side ho hp hr hi, skip_full hl]
  · rw [howed]
    by_cases hi : issued
    · rw [loseIndex_issued ho hp hi]
      rcases h with h | h | ⟨hl, hinc⟩
      · rw [if_neg (by simp [h])]
        rfl
      · exact absurd hi h
      · rw [giveUpIndex_appends hr hl hinc]
        split <;> rfl
    · rw [loseIndex_unissued ho hp hi]
  · rw [howed, loseIndex_issued ho hp hi, if_pos hc, giveUpIndex_incomplete hr (by rw [skip_full hl])]

/-! ### Openings -/

/-- The opening side has been given up or opened, and the engine has left its passes (R120). -/
def State.openingLeft (u : State) : Prop :=
  u.fil.opening = none ∧ u.fil.activity = .idle ∧ u.fil.pass = none ∧ u.fil.working = [] ∧ u.todo.readiness = true

theorem openingOk_result {n i : Nat} {r : SideRecord} (hr : s.side n = some r) (hh : r.dataHigh = 0)
    (hi : s.fil.nNext = some i) :
    (openingOk n s).openingLeft ∧ (openingOk n s).side n = some { r with state := .opened, dataHigh := 1 }
      ∧ (openingOk n s).loc.ranges = s.loc.ranges ++ [{ first := i, last := i - 1, side := n, openFlag := true }]
      ∧ (s.mu.manager ≠ none → ∃ m ∈ (openingOk n s).rli.notices, m.details = .sideOpened n r.serial) := by
  have hs := side_modSide_self (fun r => { r with state := .opened, dataHigh := max 1 r.dataHigh }) hr
  unfold openingOk
  simp only [hs]
  refine ⟨⟨rfl, rfl, rfl, rfl, rfl⟩, ?_, ?_, fun hm => ?_⟩
  · show (raise_ _ _).lib.sides.getD n none = _
    rw [raise_lib]
    refine hs.trans ?_
    simp [hh]
  · show (raise_ _ _).loc.ranges ++ _ = _
    rw [raise_loc, hi]
    rfl
  · exact raise_pending (s := s.modSide n fun r => { r with state := .opened, dataHigh := max 1 r.dataHigh }) hm

theorem openingFailed_result {n : Nat} {r : SideRecord} (hr : s.side n = some r) :
    (openingFailed n s).openingLeft ∧ (openingFailed n s).side n = some { r with state := .suspect }
      ∧ (openingFailed n s).loc.ranges = s.loc.ranges :=
  ⟨⟨rfl, rfl, rfl, rfl, rfl⟩, side_modSide_self (fun r => { r with state := .suspect }) hr, rfl⟩

theorem filingLost_opening (ha : s.fil.activity = .opening) :
    filingLost s = (endSequence { s with fil.opening := none }).callReadiness := by
  simp [filingLost, ha]

/-- Settles O27, result by result. -/
theorem indexWritesAndOpenings : Obligations.IndexWritesAndOpenings := by
  refine ⟨?index, ?opening⟩
  case index =>
    intro s n p r ha ho hr hp mine left
    have hres := fun res => passResult_index res ha ho hp
    refine ⟨fun hd hn res => ?_, fun hd => ⟨fun hn => ?_, fun hn => ?_, fun hn hm => ?_, fun res hno => ⟨fun hl hi => ?_, fun hl => ?_⟩⟩,
      filingLost_index_result ha ho hr hp⟩
    · rw [hres, if_pos hd, hn]
      exact passDue_index ha ho hr (passData_of_not_write (by simp [newPass, passOp]))
    all_goals rw [hres, if_neg (by simp [hd])]
    · rw [if_pos rfl, seriesOk_next (by omega), hn]
      exact passDue_index ha ho hr (passData_working rfl (index_ne_attempt ha))
    · rw [if_pos rfl, seriesOk_next (by omega), hn]
      exact passDue_index ha ho hr (passData_of_not_write (by simp [newPass, passOp]))
    · rw [if_pos rfl, seriesOk_last hn]
      rcases ha with ha | ha
      · obtain ⟨⟨hside, hent, hleft, htodo, hmem, hcached⟩, hranges, howed⟩ := flushOk_flush_done ha hr
        refine ⟨⟨_, hside, rfl, rfl, rfl⟩, hent, hleft, htodo, hmem, hcached, fun _ => ⟨hranges, howed, by rw [hside]; rfl⟩,
          fun owed hc => absurd hc (by simp [ha])⟩
      · obtain ⟨⟨hside, hent, hleft, htodo, hmem, hcached⟩, howed, hranges, hnotice⟩ :=
          flushOk_closing_done ha hr (hm.resolve_left (by simp [ha]))
        refine ⟨⟨_, hside, rfl, rfl, rfl⟩, hent, hleft, htodo, hmem, hcached, fun hf => absurd hf (by simp [ha]),
          fun owed _ hc => ?_⟩
        rw [hc, Option.getD_some] at hside hnotice
        exact ⟨by rw [hside]; rfl, howed, hranges, hnotice⟩
    · rw [if_neg hno]
      exact flushFailed_again ha ho hr hl hi
    · rw [if_neg hno, flushFailed_full hr hl]
      refine ⟨(side_modSide_self SideRecord.skip hr).trans (by rw [skip_full hl]), rfl, endSequence_left _, rfl, rfl⟩
  case opening =>
    intro s n i p r ha ho hr _ hh hp hi given
    have hres := fun res => passResult_opening res ha ho hp
    have hcounted (hd : p.disturbed = false) (res : DriveResult) : passResult res s =
        if res = .ok then seriesOk p (openingOk n) s else openingFailed n s := by rw [hres, if_neg (by simp [hd])]
    have hlost := filingLost_opening ha
    refine ⟨fun hd hn res => ?_, fun hd => ⟨fun hn => ?_, fun hn => ?_, fun hn => ?_, fun res hno => ?_⟩, ?_, ?_, ?_⟩
    · rw [hres, if_pos hd, hn]
      exact passDue_opening ha ho (passData_of_not_write (by simp [newPass, passOp]))
    · rw [hcounted hd, if_pos rfl, seriesOk_next (by omega), hn]
      exact passDue_opening ha ho (passData_working rfl (by simp [ha]))
    · rw [hcounted hd, if_pos rfl, seriesOk_next (by omega), hn]
      exact passDue_opening ha ho (passData_of_not_write (by simp [newPass, passOp]))
    · rw [hcounted hd, if_pos rfl, seriesOk_last hn]
      exact openingOk_result hr hh hi
    · rw [hcounted hd, if_neg hno]
      exact openingFailed_result hr
    · rw [hlost]
      exact ⟨rfl, rfl, rfl, rfl, rfl⟩
    · rw [hlost]
      rfl
    · rw [hlost]
      exact hr

end Sys2Proof.Machine
end

section
/-! SUPPORT. What the loss of a mount order leaves unchanged: `Spares`, which sharpens `Wanes` for the operations that leave
every side record as it is (orders removed, waiters ended UNAVAILABLE, markers returned, halts). -/

namespace Sys2Proof.Machine

variable {s t u : State}

/-! ### Notices -/

/-- A notice of a kind that neither an ending nor a halt raises: it keeps its details while they do. -/
def NoticeDetails.lasts (d : NoticeDetails) : Bool := d.kind != 1 && d.kind != 4

/-- Raising another kind leaves a pending notice. -/
theorem mem_raise {d : NoticeDetails} {m : Notice} (hm : m ∈ s.rli.notices) (hk : m.details.kind ≠ d.kind) :
    m ∈ (raise_ d s).rli.notices := by
  unfold raise_
  split
  · exact hm
  · split
    · exact List.mem_map.2 ⟨m, hm, if_neg hk⟩
    · exact List.mem_append_left _ hm

theorem mem_post {n q : Nat} {m : Notice} (hm : m ∈ s.rli.notices) (hk : m.details.lasts = true) :
    m ∈ (post n q s).rli.notices := by
  unfold post
  split
  · exact hm
  · next a _ =>
    dsimp only
    split
    · exact hm
    · next d hd =>
      refine mem_raise (s := s.modAccount n _) hm ?_
      have hkind : d.kind = 1 := by
        unfold stopNotice at hd
        split at hd
        · obtain ⟨c, -, rfl⟩ := Option.map_eq_some_iff.1 hd
          rfl
        · cases hd
      simp only [NoticeDetails.lasts, Bool.and_eq_true, bne_iff_ne] at hk
      rw [hkind]
      exact hk.1

/-! ### The relation -/

/-- What neither the loss of a mount order nor a halt touches. -/
def State.sparedPart (s : State) :=
  (s.lib.sides, s.lib.picker.occupancy, s.mu, s.loc.ranges, s.loc.entries, { s.recovery with markerBack := false })

/-- `Wanes` without a change of a side record, a face, a range or a pending entry; a live context stays live among its
incoming waiters, or ends UNAVAILABLE; a pending notice of another block stays. -/
structure Spares (s t : State) : Prop extends Wanes s t where
  part : t.sparedPart = s.sparedPart
  faces : t.drives.length = s.drives.length ∧ ∀ d, (t.drive d).face = (s.drive d).face
  contexts : ∀ c, (s.context c).state.live = true →
    ((t.context c).state.live = true ∧ ∀ d, c ∈ (s.drive d).incoming → c ∈ (t.drive d).incoming)
      ∨ ((t.context c).state = .ending ∧ (t.context c).outcome = some .unavailable)
  notices : ∀ m ∈ s.rli.notices, m.details.lasts = true → m ∈ t.rli.notices

theorem Spares.refl (s : State) : Spares s s :=
  { Wanes.refl s with
    part := rfl, faces := ⟨rfl, fun _ => rfl⟩, contexts := fun _ h => .inl ⟨h, fun _ => id⟩, notices := fun _ h _ => h }

theorem Spares.trans (h : Spares s t) (g : Spares t u) : Spares s u :=
  { h.toWanes.trans g.toWanes with
    part := g.part.trans h.part
    faces := ⟨g.faces.1.trans h.faces.1, fun d => (g.faces.2 d).trans (h.faces.2 d)⟩
    contexts := fun c hc => by
      rcases h.contexts c hc with ⟨hl, hi⟩ | ⟨he, ho⟩
      · rcases g.contexts c hl with ⟨gl, gi⟩ | ge
        · exact .inl ⟨gl, fun d hd => gi d (hi d hd)⟩
        · exact .inr ge
      · obtain ⟨ge, go⟩ := g.ctx c (by rw [he]; rfl)
        exact .inr ⟨ge.trans he, go.trans ho⟩
    notices := fun m hm hk => g.notices m (h.notices m hm hk) hk }

/-- A change that drives and contexts do not show. -/
theorem Spares.unseen (hw : Wanes s t) (hd : t.drives = s.drives) (hc : t.ctx = s.ctx) (hp : t.sparedPart = s.sparedPart)
    (hn : ∀ m ∈ s.rli.notices, m.details.lasts = true → m ∈ t.rli.notices) : Spares s t :=
  { hw with
    part := hp
    faces := by simp [State.drive, hd]
    contexts := fun c h => .inl (by simpa [State.drive, hd, State.context, hc] using h)
    notices := hn }

theorem Spares.foldl {α : Type} (f : State → α → State) (hf : ∀ t a, Spares t (f t a)) (l : List α) (s : State) :
    Spares s (l.foldl f s) := by
  induction l generalizing s with
  | nil => exact .refl s
  | cons a l ih => exact (hf s a).trans (ih _)

/-! ### Readings -/

theorem Spares.side (h : Spares s t) (n : Nat) : t.side n = s.side n :=
  congrArg (fun p : List (Option SideRecord) × _ => p.1.getD n none) h.part

theorem Spares.sideTable (h : Spares s t) : t.lib.sides = s.lib.sides := congrArg (·.1) h.part

theorem Spares.occupancy (h : Spares s t) : t.lib.picker.occupancy = s.lib.picker.occupancy := congrArg (·.2.1) h.part

theorem Spares.mu (h : Spares s t) : t.mu = s.mu := congrArg (·.2.2.1) h.part

theorem Spares.recovery (h : Spares s t) :
    ({ t.recovery with markerBack := false } : Recovery) = { s.recovery with markerBack := false } :=
  congrArg (·.2.2.2.2.2) h.part

/-! ### The ending of contexts -/

theorem endContext_settled (c : Nat) (o : Ending) (s : State) : ∃ v, endContext c o s = settleCharge (s.context c) o v
      ∧ v.rli = s.rli ∧ v.sparedPart = s.sparedPart
    ∨ endContext c o s = s := by
  by_cases hl : (s.context c).state.live = true
  · refine ⟨(leaveOrders c (detach c (dropReads c (s.modContext c (Context.close o))))).modContext c Context.discard,
      .inl ⟨?_, ?_, ?_⟩⟩
    · simp only [endContext, hl, if_true]
    · simp [leaveOrders, detach, dropReads]
    · simp [State.sparedPart, leaveOrders, detach, dropReads, State.modContext]
  · exact ⟨s, .inr (endContext_idle (by simpa using hl))⟩

theorem settleCharge_sparedPart (x : Context) (o : Ending) (s : State) :
    (settleCharge x o s).sparedPart = s.sparedPart := by
  have hp : ∀ n q, (post n q s).sparedPart = s.sparedPart := fun n q => by
    unfold post
    split
    · rfl
    · dsimp only
      split <;> simp [State.sparedPart, State.modAccount]
  have hr : ∀ g (v : State), (releaseReference g v).sparedPart = v.sparedPart := fun g v => by
    unfold releaseReference
    split <;> rfl
  unfold settleCharge
  dsimp only
  refine (hr _ _).trans ?_
  split
  · exact hp _ _
  · rfl

theorem mem_settleCharge {x : Context} {o : Ending} {m : Notice} (hm : m ∈ s.rli.notices) (hk : m.details.lasts = true) :
    m ∈ (settleCharge x o s).rli.notices := by
  unfold settleCharge
  dsimp only
  show m ∈ (releaseReference x.generation _).rli.notices
  rw [rel_rli]
  split
  · exact mem_post hm hk
  · exact hm

theorem Spares.endContext {c : Nat} : Spares s (endContext c .unavailable s) := by
  refine { Wanes.endContext with part := ?part, faces := ?faces, contexts := ?contexts, notices := ?notices }
  case part =>
    obtain ⟨v, ⟨e, -, hv⟩ | e⟩ := endContext_settled c .unavailable s
    · rw [e, settleCharge_sparedPart, hv]
    · rw [e]
  case notices =>
    intro m hm hk
    obtain ⟨v, ⟨e, hv, -⟩ | e⟩ := endContext_settled c .unavailable s
    · rw [e]
      exact mem_settleCharge (hv ▸ hm) hk
    · rwa [e]
  case faces =>
    by_cases hl : (s.context c).state.live = true
    · obtain ⟨-, hd, -⟩ := endContext_spec (o := .unavailable) hl
      refine ⟨by rw [hd, List.length_map], fun d => ?_⟩
      rw [drive_map _ (by simp [Drive.reset]) hd]
    · rw [endContext_idle (by simpa using hl)]
      exact ⟨rfl, fun _ => rfl⟩
  case contexts =>
    intro i hi
    by_cases hl : (s.context c).state.live = true
    · obtain ⟨-, hd, -⟩ := endContext_spec (o := .unavailable) hl
      rw [context_endContext i hl]
      by_cases h : i = c
      · rw [if_pos h]
        exact .inr ⟨rfl, rfl⟩
      · rw [if_neg h]
        refine .inl ⟨hi, fun d hd' => ?_⟩
        rw [drive_map _ (by simp [Drive.reset]) hd]
        exact List.mem_filter.2 ⟨hd', by simpa using h⟩
    · rw [endContext_idle (by simpa using hl)]
      exact .inl ⟨hi, fun _ => id⟩

theorem Spares.endContexts {cs : List Nat} : Spares s (endContexts cs .unavailable s) :=
  .foldl _ (fun _ _ => .endContext) cs s

/-! ### Orders, markers, halts -/

theorem Spares.returnMarker : Spares s (returnMarker s) := by
  have hw : Wanes s (Sys2Proof.Machine.returnMarker s) := .returnMarker
  revert hw
  unfold Sys2Proof.Machine.returnMarker
  split <;> exact fun hw => .unseen hw rfl rfl rfl fun _ h _ => h

theorem Spares.removeOrder {id : Nat} : Spares s (removeOrder id s) := .unseen .removeOrder rfl rfl rfl fun _ h _ => h

theorem Spares.dropOrder {o : Order} : Spares s (dropOrder o s) := by
  unfold Sys2Proof.Machine.dropOrder
  dsimp only
  split
  · exact (Spares.removeOrder.trans .endContexts).trans .returnMarker
  · exact Spares.removeOrder.trans .endContexts

theorem Spares.removeMount {n : Nat} : Spares s (removeMount n s) := by
  unfold Sys2Proof.Machine.removeMount
  split
  · exact .refl s
  · split
    · exact .refl s
    · exact .dropOrder

theorem Spares.withdrawMarker : Spares s (withdrawMarker s) :=
  { Wanes.withdrawMarker with
    part := by simp [State.sparedPart, Machine.withdrawMarker_mu]
    faces := by
      refine ⟨by simp, fun d => ?_⟩
      rw [drive_map _ rfl (withdrawMarker_drives s)]
    contexts := fun c h => .inl (by
      refine ⟨by simpa [State.context] using h, fun d hd => ?_⟩
      rwa [drive_map _ rfl (withdrawMarker_drives s)])
    notices := fun m h _ => by rwa [withdrawMarker_rli] }

theorem Spares.raise {d : NoticeDetails} (hd : d.lasts = false) : Spares s (raise_ d s) := by
  refine .unseen .raise (by simp) (by simp) (by simp [State.sparedPart]) fun m hm hk => mem_raise hm ?_
  intro he
  unfold NoticeDetails.lasts at hd hk
  rw [he, hd] at hk
  cases hk

theorem Spares.setHalt {h : Halt} : Spares s (setHalt h s) := by
  have h1 : Spares s (haltHeld h s) := by
    unfold haltHeld
    split
    · exact .refl s
    · exact Spares.trans (t := { s with fil.halt := some h }) (.unseen (.unseen rfl rfl rfl) rfl rfl rfl fun _ hm _ => hm) (.raise rfl)
  rw [setHalt_eq]
  split
  · exact h1
  · exact h1.trans .withdrawMarker

theorem Spares.dropCache {n : Nat} : Spares s (dropCache n s) :=
  .unseen (.unseen rfl rfl rfl) rfl rfl rfl fun _ h _ => h

theorem Spares.sideGone {n : Nat} {b : Bool} : Spares s (sideGone n b s) := by
  unfold Sys2Proof.Machine.sideGone
  extract_lets s1
  have h1 : Spares s s1 := by
    refine Spares.trans ?_ .removeMount
    split
    · exact .dropCache
    · exact .refl s
  split
  · exact h1.trans .setHalt
  · exact h1

theorem Spares.removeForced {d : Nat} : Spares s (removeForced d s) := by
  unfold Sys2Proof.Machine.removeForced
  split
  · exact .refl s
  · exact .foldl _ (fun _ _ => .removeMount) _ _

theorem Spares.haltIfOpenIn {d : Nat} : Spares s (haltIfOpenIn d s) := by
  unfold Sys2Proof.Machine.haltIfOpenIn
  split
  · exact .setHalt
  · exact .refl s

end Sys2Proof.Machine
end

section
/-! SUPPORT. Labels and probes (R2, R15, R29, R36, R54): what their operations do to the drive, to the side records, to the
waiters, and the settling of the label comparison. -/

namespace Sys2Proof.Machine

variable {s t : State}

/-! ### The comparison -/

theorem labelMatches_blank {r : SideRecord} {face : Nat} {res : DriveResult} {got : List Sector}
    (h : r.prior.getD r.state = .blank) : r.labelMatches face res got = true ↔ ∃ b, res = .blank b := by
  unfold SideRecord.labelMatches
  rw [if_pos h]
  cases res <;> simp

theorem labelMatches_used {r : SideRecord} {face : Nat} {res : DriveResult} {got : List Sector}
    (h : r.prior.getD r.state ≠ .blank) :
    r.labelMatches face res got = true ↔ res = .ok ∧ readLabel (got.headD []) = some (r.serial, face) := by
  unfold SideRecord.labelMatches
  rw [if_neg h]
  simp

theorem labelGood_of_side {n : Nat} {r : SideRecord} {res : DriveResult} {got : List Sector} (h : s.side n = some r) :
    s.labelGood n res got = r.labelMatches (n % 2) res got := by
  simp [State.labelGood, h, faceOf]

/-! ### One drive -/

theorem drive_modDrive_self {d : Nat} (f : Drive → Drive) (hd : d < s.drives.length) :
    (s.modDrive d f).drive d = f (s.drive d) := by
  rw [drive_modDrive, if_pos ⟨rfl, hd⟩]

/-- A READY drive does not start its idle timer (R30, R52, R182). -/
theorem keptFromIdle_iff (d : Nat) : s.keptFromIdle d = true ↔ s.mu.service = .quiescent
    ∨ ∃ m, (s.drive d).mounted = some m
      ∧ ((s.openSide = some m ∧ s.fil.queue ≠ []) ∨ s.fil.opening = some m ∨ s.sequenceSide = some m) := by
  unfold State.keptFromIdle State.holdsWanted State.sequenceOn State.filingsWaiting
  cases hm : (s.drive d).mounted with
  | none => cases hq : s.sequenceSide <;> simp
  | some m =>
    cases hq : s.sequenceSide with
    | none => simp [or_comm]
    | some k =>
      simp only [Bool.or_eq_true, Bool.and_eq_true, beq_iff_eq, Option.some.injEq, exists_eq_left', Bool.not_eq_true',
        List.isEmpty_eq_false_iff, @eq_comm _ m k]
      tauto

/-- The drive that enters READY (R30). -/
theorem enterReady_drive {d : Nat} (hd : d < s.drives.length) : (enterReady d s).drive d =
    { s.drive d with
      state := .ready, lastReady := s.now
      idle := if s.keptFromIdle d then none else some { start := s.now, limit := s.mu.params.idleUnmount }
      idleHeld := s.keptFromIdle d } := by
  have hk : (s.modDrive d fun x => { x with state := .ready, lastReady := s.now }).keptFromIdle d = s.keptFromIdle d := by
    rw [Bool.eq_iff_iff, keptFromIdle_iff, keptFromIdle_iff, drive_modDrive_self _ hd]
    rfl
  have e : (enterReady d s).drive d = ((s.modDrive d fun x => { x with state := .ready, lastReady := s.now }).modDrive d
      fun x => { x with
        idle := if s.keptFromIdle d then none else some { start := s.now, limit := s.mu.params.idleUnmount }
        idleHeld := s.keptFromIdle d }).drive d := by
    unfold enterReady
    dsimp only
    rw [hk]
    rfl
  rw [e, drive_modDrive_self _ (by simpa using hd), drive_modDrive_self _ hd]

/-! ### A label fault -/

/-- The drive in FAULT with cause LABEL and its notice, before orders and halts follow (R29, R34). -/
def labelFaulted (d : Nat) (mounted : Option Nat) (s : State) : State :=
  raise_ (.driveFault d .label mounted)
    (s.modDrive d fun x => { x with state := .fault, cause := some .label, idle := none, idleHeld := false })

theorem labelFault_spares (d : Nat) (m : Option Nat) (s : State) : Spares (labelFaulted d m s) (labelFault d m s) :=
  Spares.removeForced.trans .haltIfOpenIn

theorem labelFaulted_drive {d : Nat} {m : Option Nat} (hd : d < s.drives.length) : (labelFaulted d m s).drive d =
    { s.drive d with state := .fault, cause := some .label, idle := none, idleHeld := false } := by
  unfold labelFaulted State.drive
  rw [raise_drives]
  exact drive_modDrive_self _ hd

theorem labelFaulted_side (d : Nat) (m : Option Nat) (n : Nat) : (labelFaulted d m s).side n = s.side n := by
  unfold labelFaulted State.side
  rw [raise_lib]
  rfl

theorem labelFaulted_context (d : Nat) (m : Option Nat) (c : Nat) : (labelFaulted d m s).context c = s.context c := by
  unfold labelFaulted State.context
  rw [raise_ctx]
  rfl

theorem labelFault_side (d : Nat) (m : Option Nat) (n : Nat) : (labelFault d m s).side n = s.side n :=
  ((labelFault_spares d m s).side n).trans (labelFaulted_side d m n)

theorem labelFault_drive {d : Nat} {m : Option Nat} (hd : d < s.drives.length) :
    ((labelFault d m s).drive d).state = .fault ∧ ((labelFault d m s).drive d).cause = some .label
      ∧ ((labelFault d m s).drive d).cartridge = (s.drive d).cartridge := by
  obtain ⟨hs, hc, hk, -⟩ := (labelFault_spares d m s).drives d
  rw [labelFaulted_drive hd] at hs hc hk
  exact ⟨hs, hc, hk⟩

theorem labelFault_length (d : Nat) (m : Option Nat) : (labelFault d m s).drives.length = s.drives.length := by
  rw [(labelFault_spares d m s).faces.1, labelFaulted, raise_drives, modDrive_drives, List.length_modify]

/-! ### Sides out of service and back -/

/-- A face that has turned MISMATCH (R14). -/
def SideRecord.mismatched (r : SideRecord) : SideRecord := { r with state := .mismatch, prior := none }

theorem turnMismatch_spares (n : Nat) (s : State) : Spares (s.modSide n SideRecord.mismatched) (turnMismatch n s) := .sideGone

theorem turnMismatch_side {n : Nat} {r : SideRecord} (h : s.side n = some r) :
    (turnMismatch n s).side n = some r.mismatched :=
  ((turnMismatch_spares n s).side n).trans (side_modSide_self _ h)

theorem turnMismatch_side_other {n m : Nat} (h : m ≠ n) : (turnMismatch n s).side m = s.side m := by
  rw [(turnMismatch_spares n s).side, side_modSide, if_neg fun hc => h hc.1.symm]

theorem turnMismatch_drive (n d : Nat) : ((turnMismatch n s).drive d).state = (s.drive d).state
    ∧ ((turnMismatch n s).drive d).cause = (s.drive d).cause := by
  obtain ⟨hs, hc, -⟩ := (turnMismatch_spares n s).drives d
  exact ⟨hs, hc⟩

/-- The record of each face of a cartridge is changed, and no other. -/
theorem side_modCartridge {c n : Nat} (f : SideRecord → SideRecord) :
    (s.modCartridge c f).side n = if slotOf n = c then (s.side n).map f else s.side n := by
  have hout : ¬n < s.lib.sides.length → s.side n = none := fun h => by
    simp [State.side, List.getD_eq_getElem?_getD, List.getElem?_eq_none (Nat.le_of_not_lt h)]
  have h0 : sideOf c 0 = n ↔ n = 2 * c := by simp [sideOf, eq_comm]
  have h1 : sideOf c 1 = n ↔ n = 2 * c + 1 := by simp [sideOf, eq_comm]
  have hs : slotOf n = c ↔ n = 2 * c ∨ n = 2 * c + 1 := by
    unfold slotOf
    omega
  unfold State.modCartridge
  simp only [side_modSide, modSide_sides, List.length_modify, h0, h1, hs]
  by_cases hl : n < s.lib.sides.length
  · by_cases e0 : n = 2 * c
    · subst e0
      simp [hl]
    · simp [e0, hl]
  · simp [hl, hout hl]

theorem retestHalt_lib : (retestHalt s).lib = s.lib ∧ (retestHalt s).drives = s.drives ∧ (retestHalt s).mu = s.mu := by
  unfold retestHalt
  split
  · exact ⟨rfl, rfl, rfl⟩
  · split <;> exact ⟨rfl, rfl, rfl⟩

theorem returnCartridge_lib (c : Nat) : (returnCartridge c s).lib.sides = (s.modCartridge c SideRecord.unstick).lib.sides
    ∧ (returnCartridge c s).drives = s.drives := by
  unfold returnCartridge
  dsimp only
  split
  · exact ⟨by rw [retestHalt_lib.1]; rfl, by rw [retestHalt_lib.2.1]; rfl⟩
  · exact ⟨rfl, rfl⟩

theorem unstick_eq (r : SideRecord) : r.unstick = { r with state := r.prior.getD r.state, prior := none } := by
  unfold SideRecord.unstick
  split
  · next h => rw [h]; cases r; simp_all
  · next h => rw [h]; rfl

theorem returnCartridge_side (c n : Nat) :
    (returnCartridge c s).side n = if slotOf n = c then (s.side n).map SideRecord.unstick else s.side n := by
  rw [← side_modCartridge]
  unfold State.side
  rw [(returnCartridge_lib c).1]

theorem returnCartridge_drive (c d : Nat) : (returnCartridge c s).drive d = s.drive d := by
  unfold State.drive
  rw [(returnCartridge_lib c).2]

/-- Both faces return to the states they held (R15, R36). -/
theorem returnCartridge_returns {c m : Nat} {y : SideRecord} (hm : slotOf m = c) (hy : s.side m = some y) :
    (returnCartridge c s).side m = some { y with state := y.prior.getD y.state, prior := none } := by
  rw [returnCartridge_side, if_pos hm, hy, Option.map_some, unstick_eq]

/-! ### Incoming waiters that are dismissed -/

/-- A drive whose incoming waiters are gone. -/
def Drive.unawaited (x : Drive) : Drive := { x with incoming := [], incomingMarker := false }

/-- The waiters of a drive end UNAVAILABLE (R54). -/
def waitersEnded (d : Nat) (s : State) : State := endContexts (s.drive d).incoming .unavailable (s.modDrive d Drive.unawaited)

theorem dismissIncoming_spares (d : Nat) (s : State) : Spares (waitersEnded d s) (dismissIncoming d s) := by
  unfold dismissIncoming
  dsimp only
  split
  · exact .returnMarker
  · exact .refl _

theorem dismissIncoming_ends {c d : Nat} (hc : c ∈ (s.drive d).incoming) (hl : (s.context c).state.live = true) :
    ((dismissIncoming d s).context c).state = .ending ∧ ((dismissIncoming d s).context c).outcome = some .unavailable := by
  obtain ⟨-, hends, -⟩ := endContexts_spec (s.drive d).incoming .unavailable (s.modDrive d Drive.unawaited)
  obtain ⟨he, ho⟩ := hends c hc hl
  obtain ⟨hs, hu⟩ := (dismissIncoming_spares d s).ctx c (by
    show ((endContexts _ _ _).context c).state.live = false
    rw [he]
    rfl)
  exact ⟨hs.trans he, hu.trans ho⟩

/-- A context that has ended before stays as it is. -/
theorem dismissIncoming_ended {c d : Nat} (hc : (s.context c).state.live = false) :
    ((dismissIncoming d s).context c).state = (s.context c).state
      ∧ ((dismissIncoming d s).context c).outcome = (s.context c).outcome := by
  have h1 := (Spares.endContexts (cs := (s.drive d).incoming) (s := s.modDrive d Drive.unawaited)).toWanes
  exact (h1.trans (dismissIncoming_spares d s).toWanes).ctx c hc

/-- From the state in which the waiters are gone from the drive. -/
theorem unawaited_spares (d : Nat) (s : State) : Spares (s.modDrive d Drive.unawaited) (dismissIncoming d s) :=
  Spares.endContexts.trans (dismissIncoming_spares d s)

theorem dismissIncoming_drive {d : Nat} (hd : d < s.drives.length) : ((dismissIncoming d s).drive d).state = (s.drive d).state
    ∧ ((dismissIncoming d s).drive d).cause = (s.drive d).cause ∧ ((dismissIncoming d s).drive d).incoming = [] := by
  obtain ⟨hs, hc, -, -, -, -, -, -, -, -, -, -, hi⟩ := (unawaited_spares d s).drives d
  rw [drive_modDrive_self _ hd] at hs hc hi
  exact ⟨hs, hc, List.subset_nil.1 hi⟩

theorem dismissIncoming_side (d n : Nat) : (dismissIncoming d s).side n = s.side n := (unawaited_spares d s).side n

/-! ### A label that matches at mount -/

theorem labelEnd_mounted {d n : Nat} {r : SideRecord} {res : DriveResult} {got : List Sector}
    (hc : (s.drive d).state = .checking) (hm : (s.drive d).mounted = some n) (hr : s.side n = some r) :
    labelEnd d res got s = if r.labelMatches (n % 2) res got then labelMatched d s else labelMismatched d n s := by
  simp [labelEnd, hc, hm, labelGood_of_side hr]

theorem labelMatched_alone {d : Nat} (hi : (s.drive d).incoming = []) (hk : (s.drive d).incomingMarker = false) :
    labelMatched d s = enterReady d (s.modDrive d Drive.unawaited) := by
  simp [labelMatched, hi, hk]
  rfl

theorem labelMatched_awaited {d : Nat} (h : (s.drive d).incoming ≠ [] ∨ (s.drive d).incomingMarker = true) :
    let v := (s.drive d).incoming.foldl (fun s c => attachContext d c s) { s with drives := s.drives.modify d fun x =>
      { x with incoming := [], incomingMarker := false, state := .active } }
    labelMatched d s = if (s.drive d).incomingMarker then engineMounted v else v := by
  have hno : ¬((s.drive d).incoming.isEmpty ∧ (s.drive d).incomingMarker = false) := by
    rintro ⟨h1, h2⟩
    rcases h with h | h
    · exact h (List.isEmpty_iff.1 h1)
    · rw [h2] at h
      cases h
  have e : ((s.modDrive d Drive.unawaited).modDrive d fun x => { x with state := .active })
      = { s with drives := s.drives.modify d fun x =>
          { x with incoming := [], incomingMarker := false, state := .active } } := by
    simp only [State.modDrive, List.modify_modify_eq]
    rfl
  unfold labelMatched
  dsimp only
  rw [if_neg hno, ← e]
  rfl

/-- A drive that enters READY from CHECKING, with no waiter. -/
theorem labelMatched_ready {d : Nat} (hd : d < s.drives.length) (hi : (s.drive d).incoming = [])
    (hk : (s.drive d).incomingMarker = false) :
    let y := (labelMatched d s).drive d
    y.state = .ready ∧ y.lastReady = s.now ∧ (s.keptFromIdle d = true → y.idle = none)
      ∧ (s.keptFromIdle d = false → y.idle = some { start := s.now, limit := s.mu.params.idleUnmount }) := by
  have hkept : (s.modDrive d Drive.unawaited).keptFromIdle d = s.keptFromIdle d := by
    rw [Bool.eq_iff_iff, keptFromIdle_iff, keptFromIdle_iff, drive_modDrive_self _ hd]
    rfl
  dsimp only
  rw [labelMatched_alone hi hk, enterReady_drive (by simpa using hd), hkept]
  exact ⟨rfl, rfl, fun h => if_pos h, fun h => if_neg (by simp [h])⟩

/-! ### A label that does not match at mount -/

theorem labelMismatched_drive {d n : Nat} (hd : d < s.drives.length) : ((labelMismatched d n s).drive d).state = .fault
    ∧ ((labelMismatched d n s).drive d).cause = some .label ∧ ((labelMismatched d n s).drive d).incoming = [] := by
  have hl : d < (turnMismatch n (labelFault d (some n) s)).drives.length := by
    rw [(turnMismatch_spares n _).faces.1, modSide_drives, labelFault_length]
    exact hd
  obtain ⟨hs, hc, hi⟩ := dismissIncoming_drive hl
  obtain ⟨ht, hu⟩ := turnMismatch_drive (s := labelFault d (some n) s) n d
  obtain ⟨hf, hg, -⟩ := labelFault_drive (s := s) (m := some n) hd
  exact ⟨hs.trans (ht.trans hf), hc.trans (hu.trans hg), hi⟩

theorem labelMismatched_side {d n : Nat} {r : SideRecord} (h : s.side n = some r) :
    (labelMismatched d n s).side n = some r.mismatched :=
  (dismissIncoming_side d n).trans (turnMismatch_side ((labelFault_side d _ n).trans h))

theorem labelMismatched_side_other {d n m : Nat} (h : m ≠ n) : (labelMismatched d n s).side m = s.side m :=
  (dismissIncoming_side d m).trans ((turnMismatch_side_other h).trans (labelFault_side d _ m))

/-- A waiter of a drive that has not been dismissed, or that has ended UNAVAILABLE with its order. -/
def State.awaitsOrEnded (s : State) (d c : Nat) : Prop :=
  ((s.context c).state.live = true ∧ c ∈ (s.drive d).incoming)
    ∨ ((s.context c).state = .ending ∧ (s.context c).outcome = some .unavailable)

theorem Spares.awaitsOrEnded {c d : Nat} (h : Spares s t) (ha : s.awaitsOrEnded d c) : t.awaitsOrEnded d c := by
  rcases ha with ⟨hl, hi⟩ | ⟨he, ho⟩
  · rcases h.contexts c hl with ⟨hl2, hi2⟩ | hend
    · exact .inl ⟨hl2, hi2 d hi⟩
    · exact .inr hend
  · obtain ⟨hs, hu⟩ := h.ctx c (by rw [he]; rfl)
    exact .inr ⟨hs.trans he, hu.trans ho⟩

theorem dismissIncoming_awaited {c d : Nat} (ha : s.awaitsOrEnded d c) :
    ((dismissIncoming d s).context c).state = .ending ∧ ((dismissIncoming d s).context c).outcome = some .unavailable := by
  rcases ha with ⟨hl, hi⟩ | ⟨he, ho⟩
  · exact dismissIncoming_ends hi hl
  · obtain ⟨hs, hu⟩ := dismissIncoming_ended (d := d) (c := c) (s := s) (by rw [he]; rfl)
    exact ⟨hs.trans he, hu.trans ho⟩

/-- A waiter either ends with the order that is lost to the fault, or stays a waiter until it is dismissed. -/
theorem labelMismatched_ends {c d n : Nat} (hd : d < s.drives.length) (hc : c ∈ (s.drive d).incoming)
    (hl : (s.context c).state.live = true) : ((labelMismatched d n s).context c).state = .ending
      ∧ ((labelMismatched d n s).context c).outcome = some .unavailable := by
  have h0 : (labelFaulted d (some n) s).awaitsOrEnded d c :=
    .inl ⟨by rw [labelFaulted_context]; exact hl, by rw [labelFaulted_drive hd]; exact hc⟩
  have h1 : (labelFault d (some n) s).awaitsOrEnded d c := (labelFault_spares d (some n) s).awaitsOrEnded h0
  have h2 : ((labelFault d (some n) s).modSide n SideRecord.mismatched).awaitsOrEnded d c := h1
  exact dismissIncoming_awaited ((turnMismatch_spares n _).awaitsOrEnded h2)

theorem labelMismatched_notice {d n : Nat} (h : s.mu.manager ≠ none) :
    ∃ m ∈ (labelMismatched d n s).rli.notices, m.details = .driveFault d .label (some n) := by
  obtain ⟨m, hm, hd⟩ := raise_pending (d := .driveFault d .label (some n))
    (s := s.modDrive d fun x => { x with state := .fault, cause := some .label, idle := none, idleHeld := false }) h
  have hk : m.details.lasts = true := by
    rw [hd]
    rfl
  have h1 := (labelFault_spares d (some n) s).notices m hm hk
  have h2 := (turnMismatch_spares n _).notices m h1 hk
  exact ⟨m, (unawaited_spares d _).notices m h2 hk, hd⟩

/-! ### Probes -/

/-- Late replies that are made change the lists of what is late and the control frames alone (R153). -/
theorem answerLate_kept (w : LateKind → Bool) (code : LateKind → Nat) (data : LateKind → List Byte) (s : State) :
    (answerLate w code data s).mu = { s.mu with late := s.mu.late.filter fun l => !w l.kind } ∧ (answerLate w code data s).drives = s.drives
      ∧ (answerLate w code data s).lib = s.lib ∧ (answerLate w code data s).todo = s.todo := by
  have h : ∀ (l : List Late) (t : State),
      let u := l.foldl (fun s l => accept l.requester l.tag (code l.kind) (data l.kind) s) t
      u.mu = t.mu ∧ u.drives = t.drives ∧ u.lib = t.lib ∧ u.todo = t.todo := by
    intro l
    induction l with
    | nil => exact fun t => ⟨rfl, rfl, rfl, rfl⟩
    | cons a l ih => exact fun t => ih _
  exact h _ _

theorem answerRetry_drive (d finding i : Nat) (s : State) : (answerRetry d finding s).drive i = s.drive i := by
  unfold State.drive
  rw [answerRetry, (answerLate_kept _ _ _ s).2.1]

theorem answerRetry_side (d finding n : Nat) (s : State) : (answerRetry d finding s).side n = s.side n := by
  unfold State.side
  rw [answerRetry, (answerLate_kept _ _ _ s).2.2.1]

theorem answerRetry_todo (d finding : Nat) (s : State) : (answerRetry d finding s).todo = s.todo :=
  (answerLate_kept _ _ _ s).2.2.2

theorem answerRetry_late {d finding : Nat} {l : Late} (h : l ∈ (answerRetry d finding s).mu.late) :
    l.kind ≠ .driveRetry d := by
  rw [answerRetry, (answerLate_kept _ _ _ s).1, List.mem_filter] at h
  simpa using h.2

/-- Whatever a probe finds, its request is answered (R37). -/
theorem probeEnd_late {d : Nat} {res : DriveResult} {got : List Sector} {l : Late} (h : l ∈ (probeEnd d res got s).mu.late) :
    l.kind ≠ .driveRetry d := by
  revert h
  unfold probeEnd
  split
  · split
    · exact answerRetry_late
    · split <;> exact answerRetry_late
  · split <;> exact answerRetry_late

theorem probeEnd_unidentified {d : Nat} {res : DriveResult} {got : List Sector} (h : (s.drive d).cartridge = none) :
    probeEnd d res got s = if res = .noCartridge then answerRetry d 1 (settleDrive d .empty s).callArbiter
      else answerRetry d 2 (settleDrive d .occupiedUnknown s) := by
  simp [probeEnd, h]

theorem probeEnd_identified {c d n : Nat} {r : SideRecord} {res : DriveResult} {got : List Sector}
    (hc : (s.drive d).cartridge = some c) (hm : (s.drive d).mounted = some n) (hr : s.side n = some r) :
    probeEnd d res got s = if res = .noCartridge then answerRetry d 1 (driveFault d .drive s)
      else if r.labelMatches (n % 2) res got then probeMatched d c s else probeMismatched d c n s := by
  simp [probeEnd, hc, hm, labelGood_of_side hr]

theorem settleDrive_state {d : Nat} {st : DriveState} (hd : d < s.drives.length) : ((settleDrive d st s).drive d).state = st := by
  rw [settleDrive, drive_modDrive_self _ hd]

/-- A lost read ends its context (R34). -/
theorem Wanes.lostRead {c : Nat} : Wanes s (lostRead c s) := by
  have w : Wanes s (s.modContext c fun x => { x with read := .none, filling := 0 }) := by
    refine ⟨(Wanes.refl s).drives, fun i _ => ?_, List.length_modify .., (Wanes.refl s).orders, (Wanes.refl s).sides⟩
    rw [context_modContext]
    split <;> exact ⟨rfl, rfl⟩
  exact w.trans .endContext

theorem Wanes.commandLost {e : QueueEntry} : Wanes s (commandLost e s) := by
  unfold Sys2Proof.Machine.commandLost
  split
  case h_1 | h_2 => exact .lostRead
  all_goals exact .refl s

theorem Wanes.ite {p : Prop} [Decidable p] {a b : State} (ha : Wanes s a) (hb : Wanes s b) : Wanes s (if p then a else b) := by
  split
  · exact ha
  · exact hb

/-- The drive first fails; what else a fault does only takes away (R34). -/
theorem Wanes.driveFault {d : Nat} {cause : DriveCause} : Wanes (s.modDrive d (Drive.failed cause)) (driveFault d cause s) := by
  unfold Sys2Proof.Machine.driveFault
  extract_lets x s1 s2 s3 s4 s5 s6 s7 s8 lib s9 s10
  have h2 : Wanes s1 s2 := .foldl _ (fun _ _ => .commandLost) _ _
  have h4 : Wanes s1 s4 := (h2.trans .endContexts).trans (.ite .filingLost (.refl _))
  have h7 : Wanes s1 s7 := ((h4.trans .abandonMotion).trans .endContexts).trans (.ite .returnMarker (.refl _))
  have h8 : Wanes s1 s8 := by
    show Wanes s1 (match x.cartridge with | none => s7 | some c => Machine.turnStuck c s7)
    split
    · exact h7
    · exact h7.trans .turnStuck
  have h9 : Wanes s8 s9 := .same rfl rfl rfl fun p hp c hc => ⟨p, (List.mem_filter.1 hp).1, hc⟩
  have h10 : Wanes s1 s10 := (h8.trans h9).trans .raise
  exact .ite (h10.trans .answerLate) h10

/-- The drive that a fault leaves (R34), whatever follows from it. -/
theorem driveFault_drive {d : Nat} {cause : DriveCause} (hd : d < s.drives.length) :
    ((driveFault d cause s).drive d).state = .fault ∧ ((driveFault d cause s).drive d).cause = some cause := by
  obtain ⟨hs, hc, -⟩ := (Wanes.driveFault (s := s) (d := d) (cause := cause)).drives d
  rw [drive_modDrive_self _ hd] at hs hc
  exact ⟨hs, hc⟩

theorem probeMatched_drive {c d : Nat} (hd : d < s.drives.length) :
    ((probeMatched d c s).drive d).state = .ready ∧ ((probeMatched d c s).drive d).cause = none := by
  rw [probeMatched, answerRetry_drive, returnCartridge_drive, enterReady_drive (by simpa using hd), drive_modDrive_self _ hd]
  exact ⟨rfl, rfl⟩

theorem probeMatched_side {c d m : Nat} {y : SideRecord} (hm : slotOf m = c) (hy : s.side m = some y) :
    (probeMatched d c s).side m = some { y with state := y.prior.getD y.state, prior := none } := by
  rw [probeMatched, answerRetry_side]
  exact returnCartridge_returns hm hy

theorem probeMismatched_drive {c d n : Nat} (hd : d < s.drives.length) :
    ((probeMismatched d c n s).drive d).state = .fault ∧ ((probeMismatched d c n s).drive d).cause = some .label := by
  have hl : d < (returnCartridge c (turnMismatch n s)).drives.length := by
    rw [(returnCartridge_lib c).2, (turnMismatch_spares n s).faces.1]
    exact hd
  rw [probeMismatched, answerRetry_drive]
  obtain ⟨hs, hc, -⟩ := labelFault_drive (m := some n) hl
  exact ⟨hs, hc⟩

theorem probeMismatched_side {c d n : Nat} {r : SideRecord} (hr : s.side n = some r) :
    (probeMismatched d c n s).side n = some r.mismatched := by
  rw [probeMismatched, answerRetry_side, labelFault_side, returnCartridge_side, turnMismatch_side hr, Option.map_some]
  have h : r.mismatched.unstick = r.mismatched := rfl
  rw [h, ite_self]

theorem probeMismatched_side_sibling {c d m n : Nat} {y : SideRecord} (hmn : m ≠ n) (hm : slotOf m = c)
    (hy : s.side m = some y) :
    (probeMismatched d c n s).side m = some { y with state := y.prior.getD y.state, prior := none } := by
  rw [probeMismatched, answerRetry_side, labelFault_side]
  exact returnCartridge_returns hm ((turnMismatch_side_other hmn).trans hy)

/-- Settles O49: the waiters that a mismatch ends are followed through the fault, the side's turn and their dismissal by
`Spares`. -/
theorem labelsDecide : Obligations.LabelsDecide := by
  refine ⟨fun r face res got => ⟨fun h => labelMatches_blank h, fun h => labelMatches_used h⟩, ?_⟩
  intro s d n r res got hd4 hlen x good
  have hd : d < s.drives.length := by omega
  refine ⟨fun hchk hm hr => ?_, fun l hl => probeEnd_late hl, fun hc => ⟨fun hres => ?_, fun hres => ?_⟩,
    fun c hc hm hr => ⟨fun hres => ?_, fun hres hgood => ?_, fun hres hbad => ?_⟩⟩
  · intro u kept
    have hu : u = if r.labelMatches (n % 2) res got then labelMatched d s else labelMismatched d n s :=
      labelEnd_mounted hchk hm hr
    have hkept : kept ↔ s.keptFromIdle d = true := (keptFromIdle_iff d).symm
    refine ⟨fun hgood hi hk => ?_, fun hgood hw => ?_, fun hbad => ?_⟩
    · rw [hu, if_pos hgood]
      obtain ⟨h1, h2, h3, h4⟩ := labelMatched_ready hd hi hk
      exact ⟨h1, h2, fun h => h3 (hkept.1 h), fun h => h4 (by simpa using mt hkept.2 h)⟩
    · rw [hu, if_pos hgood]
      exact labelMatched_awaited hw
    · rw [hu, if_neg hbad]
      obtain ⟨h1, h2, h3⟩ := labelMismatched_drive (s := s) (n := n) hd
      exact ⟨h1, h2, h3, labelMismatched_side hr, fun m hmn => labelMismatched_side_other hmn,
        fun c hc _ hl => labelMismatched_ends hd hc hl, labelMismatched_notice⟩
  · rw [probeEnd_unidentified hc, if_pos hres]
    refine ⟨?_, by rw [answerRetry_todo]; rfl⟩
    rw [answerRetry_drive]
    exact settleDrive_state hd
  · rw [probeEnd_unidentified hc, if_neg hres]
    refine ⟨?_, by rw [answerRetry_todo]; rfl⟩
    rw [answerRetry_drive]
    exact settleDrive_state hd
  · rw [probeEnd_identified hc hm hr, if_pos hres, answerRetry_drive]
    exact driveFault_drive hd
  · rw [probeEnd_identified hc hm hr, if_neg hres, if_pos hgood]
    obtain ⟨h1, h2⟩ := probeMatched_drive (s := s) (c := c) hd
    exact ⟨h1, h2, fun m y hslot hy => probeMatched_side hslot hy⟩
  · rw [probeEnd_identified hc hm hr, if_neg hres, if_neg hbad]
    obtain ⟨h1, h2⟩ := probeMismatched_drive (s := s) (c := c) (n := n) hd
    exact ⟨h1, h2, probeMismatched_side hr, fun m y hmn hslot hy => probeMismatched_side_sibling hmn hslot hy⟩

end Sys2Proof.Machine
end

section
/-! SUPPORT. The identifications of OPENING and their findings (R14, R43, R174, R175): the record a label matches, the side
records after a conflict or a missing cartridge, and what the findings leave of the recovery's state. -/

namespace Sys2Proof.Machine

variable {s t : State}

/-! ### The label read of a drive without an identified cartridge -/

/-- Record `n` is the one the label read in drive `d` names, and no other drive holds its cartridge (R174). -/
def State.identifies (s : State) (d : Nat) (res : DriveResult) (got : List Sector) (n : Nat) : Prop :=
  res = .ok ∧ ∃ r, s.side n = some r ∧ readLabel (got.headD []) = some (r.serial, n % 2)
    ∧ ∀ i, i ≠ d → r.location ≠ .drive i

theorem location_free_iff {l : Location} {d : Nat} :
    (l == .drive d || l == .home || l == .picker) = true ↔ ∀ i, i ≠ d → l ≠ .drive i := by
  cases l with
  | home | picker => simp
  | drive i =>
    simp only [Bool.or_eq_true, beq_iff_eq, Location.drive.injEq, reduceCtorEq, or_false, ne_eq]
    exact ⟨fun h j hj e => hj (e ▸ h), fun h => by_contra fun hi => h i hi rfl⟩

/-- The record found is the lowest-numbered one of those identified (log 62). -/
theorem matchRecord_lowest {d n : Nat} {res : DriveResult} {got : List Sector} (hn : n < 128)
    (h : s.identifies d res got n) (hl : ∀ m < n, ¬s.identifies d res got m) : s.matchRecord d res got = some n := by
  obtain ⟨rfl, r, hr, hlab, hloc⟩ := h
  unfold State.matchRecord
  rw [hlab]
  refine find_range_lowest hn ?_ fun m hm => ?_
  · simp only [hr, Option.any_some, beq_self_eq_true, faceOf, Bool.true_and]
    exact location_free_iff.2 hloc
  · rw [← Bool.not_eq_true, Option.any_eq_true]
    rintro ⟨q, hq, hp⟩
    simp only [Bool.and_eq_true, beq_iff_eq, faceOf] at hp
    obtain ⟨⟨hs, hf⟩, ho⟩ := hp
    exact hl m hm ⟨rfl, q, hq, by rw [hlab, hs, hf], location_free_iff.1 ho⟩

theorem matchRecord_none {d : Nat} {res : DriveResult} {got : List Sector}
    (h : ∀ n < 128, ¬s.identifies d res got n) : s.matchRecord d res got = none := by
  unfold State.matchRecord
  split
  · next serial face hlab =>
    refine List.find?_eq_none.2 fun n hn hp => h n (List.mem_range.1 hn) ?_
    obtain ⟨q, hq, hp⟩ := Option.any_eq_true _ _ |>.1 hp
    simp only [Bool.and_eq_true, beq_iff_eq, faceOf] at hp
    obtain ⟨⟨hs, hf⟩, ho⟩ := hp
    exact ⟨rfl, q, hq, by rw [hlab, hs, hf], location_free_iff.1 ho⟩
  · rfl

theorem labelEnd_unidentified {d : Nat} {res : DriveResult} {got : List Sector} (hs : (s.drive d).state = .checking)
    (hc : (s.drive d).cartridge = none) : labelEnd d res got s = identifyEnd d res got s := by
  simp [labelEnd, hs, Drive.mounted, hc]

/-- A drive whose label names a record, with the cartridge of that record at it, before it enters READY. -/
def identifiedIn (d n : Nat) (s : State) : State :=
  let s1 := (s.modDrive d fun x => { x with cartridge := some (slotOf n), face := some (faceOf n) }).locate
    (slotOf n) (.drive d)
  { s1 with recovery.matched := s1.recovery.matched ++ [(d, slotOf n)] }

theorem identifyEnd_matched {d n : Nat} {res : DriveResult} {got : List Sector} (hres : res = .ok)
    (hm : s.matchRecord d res got = some n) : identifyEnd d res got s = enterReady d (identifiedIn d n s) := by
  simp [identifyEnd, hres, hres ▸ hm, identifiedIn]

theorem identifyEnd_foreign {d : Nat} {res : DriveResult} {got : List Sector} (hres : res ≠ .noCartridge)
    (hm : s.matchRecord d res got = none) : identifyEnd d res got s = labelFault d none s := by
  simp [identifyEnd, hres, hm]

theorem identifiedIn_drive {d n : Nat} (hd : d < s.drives.length) :
    (identifiedIn d n s).drive d = { s.drive d with cartridge := some (n / 2), face := some (n % 2) } :=
  drive_modDrive_self (fun x => { x with cartridge := some (slotOf n), face := some (faceOf n) }) hd

theorem identifiedIn_side (d n m : Nat) : (identifiedIn d n s).side m =
    if slotOf m = n / 2 then (s.side m).map fun x => { x with location := .drive d } else s.side m :=
  side_modCartridge (s := s.modDrive d _) _

/-- The drive enters READY with the cartridge of the record. -/
theorem identifyEnd_ready {d n : Nat} {res : DriveResult} {got : List Sector} (hd : d < s.drives.length) (hres : res = .ok)
    (hm : s.matchRecord d res got = some n) :
    let u := identifyEnd d res got s
    (u.drive d).state = .ready ∧ (u.drive d).cartridge = some (n / 2) ∧ (u.drive d).face = some (n % 2)
      ∧ (u.drive d).lastReady = s.now ∧ u.recovery.matched = s.recovery.matched ++ [(d, n / 2)]
      ∧ ∀ m, u.side m = if slotOf m = n / 2 then (s.side m).map fun x => { x with location := .drive d } else s.side m := by
  have hl : d < (identifiedIn d n s).drives.length := by
    show d < (s.drives.modify d _).length
    rwa [List.length_modify]
  dsimp only
  rw [identifyEnd_matched hres hm, enterReady_drive hl, identifiedIn_drive hd]
  exact ⟨rfl, rfl, rfl, rfl, rfl, identifiedIn_side d n⟩

/-! ### The faces of a cartridge -/

theorem mem_faces {c n : Nat} : n ∈ s.faces c ↔ slotOf n = c ∧ (s.side n).isSome = true := by
  unfold State.faces sideOf slotOf
  simp only [List.mem_filter, List.mem_cons, List.not_mem_nil, or_false]
  exact and_congr_left fun _ => by omega

theorem faces_nodup (c : Nat) : (s.faces c).Nodup :=
  List.Nodup.filter _ (by simp [sideOf])

theorem side_modSide_map {n m : Nat} (f : SideRecord → SideRecord) :
    (s.modSide n f).side m = if m = n then (s.side m).map f else s.side m := by
  rw [side_modSide]
  by_cases hm : m = n
  · subst hm
    by_cases hl : m < s.lib.sides.length
    · simp [hl]
    · have hout : s.side m = none := by
        simp [State.side, List.getD_eq_getElem?_getD, List.getElem?_eq_none (Nat.le_of_not_lt hl)]
      simp [hl, hout]
  · rw [if_neg fun h => hm h.1.symm, if_neg hm]

/-- A change of one record after another changes the records of the list once each. -/
theorem foldl_side {f : Nat → State → State} {g : SideRecord → SideRecord}
    (hf : ∀ t n m, (f n t).side m = if m = n then (t.side m).map g else t.side m) {l : List Nat} (hl : l.Nodup) (s : State)
    (m : Nat) : (l.foldl (fun s n => f n s) s).side m = if m ∈ l then (s.side m).map g else s.side m := by
  induction l generalizing s with
  | nil => rfl
  | cons n l ih =>
    obtain ⟨hn, hl⟩ := List.nodup_cons.1 hl
    rw [List.foldl_cons, ih hl, hf]
    by_cases hm : m = n
    · subst hm
      simp [hn]
    · simp [hm]

theorem turnMismatch_side_map (n m : Nat) (s : State) :
    (turnMismatch n s).side m = if m = n then (s.side m).map SideRecord.mismatched else s.side m := by
  rw [(turnMismatch_spares n s).side, side_modSide_map]

/-! ### A conflict of the home slot -/

theorem Spares.openAtEntry (h : Spares s t) : t.recovery.openAtEntry = s.recovery.openAtEntry :=
  congrArg (·.2.2.2.2.2.openAtEntry) h.part

theorem Spares.modOrder {id : Nat} {f : Order → Order} (hf : ∀ o, (f o).waiters = o.waiters) :
    Spares s (modOrder id f s) := .unseen (.modOrder hf) rfl rfl rfl fun _ h _ => h

theorem Spares.dropAbandoned : Spares s (dropAbandoned s) := .unseen .dropAbandoned rfl rfl rfl fun _ h _ => h

theorem Spares.abandonMotion {d : Nat} : Spares s (abandonMotion d s) := by
  unfold Sys2Proof.Machine.abandonMotion
  split
  · exact .refl s
  · split
    · exact .refl s
    · extract_lets s1 s2
      have h1 : Spares s s1 := .unseen (.same rfl rfl rfl fun p hp c hc => ⟨p, hp, hc⟩) rfl rfl rfl fun _ h _ => h
      refine Spares.trans ?_ (t := s2) (.unseen .callArbiter rfl rfl rfl fun _ h _ => h)
      simp only [s2]
      split
      · exact h1
      · split
        · exact h1
        · split
          · refine Spares.trans ?_ .dropAbandoned
            exact h1.trans (.modOrder fun _ => rfl)
          · exact h1.trans .removeOrder

/-- The state in which the drive in conflict names no cartridge, before it faults. -/
def conflictDisowned (d : Nat) (s : State) : State := withdrawIdle d ((abandonMotion d s).modDrive d Drive.disowned)

theorem conflictDrive_of {c d : Nat} (hc : (s.drive d).cartridge = some c) (hs : (s.drive d).state ≠ .fault) :
    conflictDrive d c s = labelFault d (s.drive d).mounted (conflictDisowned d s) := if_pos ⟨hc, hs⟩

theorem labelFault_matched (d : Nat) (m : Option Nat) : (labelFault d m s).recovery.matched = s.recovery.matched := by
  have h : (labelFault d m s).recovery.matched = (labelFaulted d m s).recovery.matched :=
    congrArg (·.2.2.2.2.2.matched) (labelFault_spares d m s).part
  rw [h, labelFaulted, raise_recovery]
  rfl

theorem labelFault_openAtEntry (d : Nat) (m : Option Nat) :
    (labelFault d m s).recovery.openAtEntry = s.recovery.openAtEntry := by
  rw [(labelFault_spares d m s).openAtEntry, labelFaulted, raise_recovery]
  rfl

/-- What a conflict leaves of every record and of the recovery. -/
theorem conflictDrive_kept (d c : Nat) (s : State) : (∀ n, (conflictDrive d c s).side n = s.side n)
    ∧ (conflictDrive d c s).recovery.openAtEntry = s.recovery.openAtEntry := by
  have h : Spares s (abandonMotion d s) := .abandonMotion
  unfold conflictDrive
  dsimp only
  split
  · exact ⟨fun n => (labelFault_side d _ n).trans (h.side n), (labelFault_openAtEntry d _).trans h.openAtEntry⟩
  · exact ⟨fun _ => rfl, rfl⟩

/-- The drive in conflict: in FAULT with cause LABEL and no cartridge, no command on its channel (log 52). -/
def Drive.conflicted (x : Drive) : Prop :=
  x.state = .fault ∧ x.cause = some .label ∧ x.cartridge = none ∧ x.channel = .idle ∧ x.stall = none ∧ x.current = none
    ∧ x.owed = none ∧ x.queue = []

theorem Wanes.conflicted (h : Wanes s t) {d : Nat} (he : (s.drive d).conflicted) : (t.drive d).conflicted := by
  obtain ⟨h1, h2, h3, h4, -, -, h7, h8, h9, -, h11, -⟩ := h.drives d
  obtain ⟨e1, e2, e3, e4, e5, e6, e7, e8⟩ := he
  exact ⟨h1.trans e1, h2.trans e2, h3.trans e3, h4.trans e4, h7.trans e5, h8.trans e6, h9.trans e7,
    List.subset_nil.1 (e8 ▸ h11)⟩

theorem conflictDrive_conflicted {c d : Nat} (hd : d < s.drives.length) (hc : (s.drive d).cartridge = some c)
    (hs : (s.drive d).state ≠ .fault) : ((conflictDrive d c s).drive d).conflicted := by
  have ha : d < (abandonMotion d s).drives.length := by
    rw [(Spares.abandonMotion (s := s) (d := d)).faces.1]
    exact hd
  have hx : (conflictDisowned d s).drive d = ((abandonMotion d s).drive d).disowned := drive_modDrive_self _ ha
  have hl : d < (conflictDisowned d s).drives.length := by
    show d < ((abandonMotion d s).drives.modify d _).length
    rwa [List.length_modify]
  rw [conflictDrive_of hc hs]
  refine (labelFault_spares d _ _).toWanes.conflicted ?_
  rw [labelFaulted_drive hl, hx]
  exact ⟨rfl, rfl, rfl, rfl, rfl, rfl, rfl, rfl⟩

/-- The faces of a cartridge in conflict that turn MISMATCH: a STUCK record stays (log 52). -/
def State.conflicting (s : State) (c : Nat) : List Nat := (s.faces c).filter fun n => !(s.side n).any (·.state == .stuck)

theorem conflicting_nodup (c : Nat) : (s.conflicting c).Nodup := (faces_nodup c).filter _

theorem slotConflict_free {c d : Nat} (h : s.lib.picker.occupancy.getD c .unknown ≠ .occupied) : slotConflict d c s = s := by
  unfold slotConflict State.slotReads
  rw [if_neg (by simpa using h)]

theorem slotConflict_occupied {c d : Nat} (h : s.lib.picker.occupancy.getD c .unknown = .occupied) : slotConflict d c s =
    ((conflictDrive d c s).conflicting c).foldl (fun s n => turnMismatch n s) (conflictDrive d c s) := by
  unfold slotConflict State.slotReads
  rw [if_pos (by rw [h]; rfl)]
  rfl

theorem turnMismatch_conflicted {d n : Nat} (h : (s.drive d).conflicted) : ((turnMismatch n s).drive d).conflicted :=
  (turnMismatch_spares n s).toWanes.conflicted h

/-- What a fold of operations that keep a property keeps. -/
theorem foldl_kept {α : Type} {f : State → α → State} {P : State → Prop} (hf : ∀ t a, P t → P (f t a)) (l : List α)
    (h : P s) : P (l.foldl f s) := by
  induction l generalizing s with
  | nil => exact h
  | cons a l ih => exact ih (hf s a h)

theorem slotConflict_side {c d : Nat} (h : s.lib.picker.occupancy.getD c .unknown = .occupied) (n : Nat) :
    (slotConflict d c s).side n = if slotOf n = c then (s.side n).map fun r =>
      if r.state = .stuck then r else { r with state := .mismatch, prior := none } else s.side n := by
  have hside := (conflictDrive_kept d c s).1
  have hmem : n ∈ (conflictDrive d c s).conflicting c ↔ slotOf n = c ∧ ∃ r, s.side n = some r ∧ r.state ≠ .stuck := by
    unfold State.conflicting
    rw [List.mem_filter, mem_faces, hside]
    cases s.side n <;> simp
  rw [slotConflict_occupied h, foldl_side (fun t n m => turnMismatch_side_map n m t) (conflicting_nodup c), hside]
  by_cases hc : slotOf n = c
  · rw [if_pos hc]
    cases hr : s.side n with
    | none => simp
    | some r =>
      by_cases hk : r.state = .stuck
      · rw [if_neg (by rw [hmem, hr]; simp [hk])]
        simp [hk]
      · rw [if_pos (hmem.2 ⟨hc, r, hr, hk⟩)]
        simp [hk, SideRecord.mismatched]
  · rw [if_neg fun hm => hc (hmem.1 hm).1, if_neg hc]

theorem slotConflict_conflicted {c d : Nat} (hd : d < s.drives.length)
    (h : s.lib.picker.occupancy.getD c .unknown = .occupied) (hc : (s.drive d).cartridge = some c)
    (hs : (s.drive d).state ≠ .fault) : ((slotConflict d c s).drive d).conflicted := by
  rw [slotConflict_occupied h]
  exact foldl_kept (P := fun t => (t.drive d).conflicted) (fun _ _ => turnMismatch_conflicted) _
    (conflictDrive_conflicted hd hc hs)

/-! ### Missing cartridges -/

/-- A side that has turned MISSING (R14). -/
def SideRecord.missed (r : SideRecord) : SideRecord := { r with state := .missing, prior := none }

theorem turnMissing_spares (n : Nat) (s : State) : Spares (s.modSide n SideRecord.missed) (turnMissing n s) := .sideGone

theorem turnMissing_side_map (n m : Nat) (s : State) :
    (turnMissing n s).side m = if m = n then (s.side m).map SideRecord.missed else s.side m := by
  rw [(turnMissing_spares n s).side, side_modSide_map]

/-- A record stands at home and its slot reads empty (R43). -/
def State.readsMissing (s : State) (n : Nat) : Bool :=
  (s.side n).any fun r => r.location == .home && s.slotReads (slotOf n) .empty

theorem findMissing_side {n : Nat} (hn : n < 128) : (findMissing s).side n = (s.side n).map fun r =>
    if r.location = .home ∧ s.lib.picker.occupancy.getD (n / 2) .unknown = .empty then
      { r with state := .missing, prior := none } else r := by
  have hmem : n ∈ (List.range 128).filter s.readsMissing ↔ ∃ r, s.side n = some r ∧ r.location = .home
      ∧ s.lib.picker.occupancy.getD (n / 2) .unknown = .empty := by
    simp [State.readsMissing, State.slotReads, slotOf, hn, Option.any_eq_true]
  have h := foldl_side (fun t n m => turnMissing_side_map n m t) ((List.nodup_range (n := 128)).filter s.readsMissing) s n
  refine Eq.trans h ?_
  cases hr : s.side n with
  | none => simp
  | some r =>
    by_cases hk : r.location = .home ∧ s.lib.picker.occupancy.getD (n / 2) .unknown = .empty
    · rw [if_pos (hmem.2 ⟨r, hr, hk⟩), Option.map_some, Option.map_some, if_pos hk]
      rfl
    · rw [if_neg fun hm => ?_]
      · rw [Option.map_some, if_neg hk]
      · obtain ⟨q, hq, hp⟩ := hmem.1 hm
        rw [hr, Option.some.injEq] at hq
        exact hk (hq ▸ hp)

/-! ### The sides left to walk -/

/-- What the findings leave: the OPEN side at the entry, and which records are index-incomplete. -/
def State.sameWalks (s t : State) : Prop := t.recovery.openAtEntry = s.recovery.openAtEntry
  ∧ ∀ n, (t.side n).any (·.incomplete) = (s.side n).any (·.incomplete)

theorem State.sameWalks.trans {u : State} (h : s.sameWalks t) (g : t.sameWalks u) : s.sameWalks u :=
  ⟨g.1.trans h.1, fun n => (g.2 n).trans (h.2 n)⟩

/-- A side that turns out of service keeps its flag. -/
theorem sameWalks_of_spares {n : Nat} {f : SideRecord → SideRecord} (h : Spares (s.modSide n f) t)
    (hf : ∀ r, (f r).incomplete = r.incomplete) : s.sameWalks t := by
  refine ⟨h.openAtEntry, fun m => ?_⟩
  rw [h.side, side_modSide_map]
  split
  · cases s.side m <;> simp [hf]
  · rfl

theorem slotConflict_sameWalks (d c : Nat) (s : State) : s.sameWalks (slotConflict d c s) := by
  by_cases h : s.lib.picker.occupancy.getD c .unknown = .occupied
  · obtain ⟨hside, hopen⟩ := conflictDrive_kept d c s
    rw [slotConflict_occupied h]
    refine foldl_kept (P := s.sameWalks) (fun t n ht => ?_) _ ⟨hopen, fun n => by rw [hside]⟩
    exact ht.trans (sameWalks_of_spares (turnMismatch_spares n t) fun _ => rfl)
  · rw [slotConflict_free h]
    exact ⟨rfl, fun _ => rfl⟩

theorem findMissing_sameWalks (s : State) : s.sameWalks (findMissing s) :=
  foldl_kept (P := s.sameWalks) (fun t n ht => ht.trans (sameWalks_of_spares (turnMissing_spares n t) fun _ => rfl)) _
    ⟨rfl, fun _ => rfl⟩

/-- The findings applied together: the conflicts in the order of the matches, then the empty slots. -/
def foundState (s : State) : State := findMissing (s.recovery.matched.foldl (fun s m => slotConflict m.1 m.2 s) s)

theorem foundState_sameWalks (s : State) : s.sameWalks (foundState s) :=
  .trans (foldl_kept (P := s.sameWalks) (fun _ _ ht => ht.trans (slotConflict_sameWalks _ _ _)) _ ⟨rfl, fun _ => rfl⟩)
    (findMissing_sameWalks _)

/-- The index-incomplete sides, in ascending order, without the side that was OPEN (R175). -/
def State.incompleteOthers (s : State) : List Nat :=
  (List.range 128).filter fun n => (s.side n).any (·.incomplete) && s.recovery.openAtEntry != some n

theorem mem_incompleteOthers {n : Nat} : n ∈ s.incompleteOthers
    ↔ n < 128 ∧ s.recovery.openAtEntry ≠ some n ∧ ∃ r, s.side n = some r ∧ r.incomplete = true := by
  simp [State.incompleteOthers, Option.any_eq_true, and_comm]

theorem incompleteOthers_ascending (s : State) : s.incompleteOthers.Pairwise (· < ·) :=
  List.Pairwise.filter _ List.pairwise_lt_range

theorem applyFindings_eq (s : State) : applyFindings s = { foundState s with
    recovery.phase := .walking, recovery.left := s.recovery.openAtEntry.toList ++ s.incompleteOthers } := by
  obtain ⟨hopen, hinc⟩ := foundState_sameWalks s
  have h : (foundState s).sidesToWalk = s.recovery.openAtEntry.toList ++ s.incompleteOthers := by
    unfold State.sidesToWalk State.incompleteOthers
    simp only [hopen, hinc]
  rw [← h]
  rfl

/-! ### The steps of the recovery between the walks -/

theorem identified_iff : s.identified = true ↔ (∀ x ∈ s.drives, ¬(x.state = .checking ∧ x.cartridge = none))
    ∧ s.lib.picker.inventoryOwed = false ∧ ∀ m, s.lib.picker.motion = some m → m.kind ≠ .inventory := by
  unfold State.identified
  rw [Bool.and_eq_true, Bool.and_eq_true, List.all_eq_true, and_assoc]
  refine and_congr (forall₂_congr fun x _ => ?_) (and_congr (by simp) ?_)
  · cases x.cartridge <;> simp
  · cases s.lib.picker.motion <;> simp

theorem recoveryStep_identifying (hv : s.mu.service = .opening) (hp : s.recovery.phase = .identifying) :
    recoveryStep s = if s.identified then applyFindings s else s := by
  simp [recoveryStep, hv, hp]

theorem recoveryStep_ended (hv : s.mu.service = .opening) (hp : s.recovery.phase = .walking)
    (hw : s.recovery.walk = none) (hl : s.recovery.left = []) : recoveryStep s = recoveryDone s := by
  simp [recoveryStep, hv, hp, hw, hl]

theorem recoveryStep_begin {n : Nat} {rest : List Nat} (hv : s.mu.service = .opening) (hp : s.recovery.phase = .walking)
    (hw : s.recovery.walk = none) (hl : s.recovery.left = n :: rest) : recoveryStep s = beginWalk n rest s := by
  simp [recoveryStep, hv, hp, hw, hl]

theorem beginWalk_eq {n : Nat} {rest : List Nat} {r : SideRecord} (hr : s.side n = some r) :
    beginWalk n rest s = withMount n .walk id { s with
      recovery.left := rest
      recovery.walk := some { side := n, phase := .mounting, p := 0, k := 0, mark0 := r.dataHigh } } := by
  simp [beginWalk, hr]

/-- Settles O50: the conflicts and the missing cartridges are folds over distinct sides, each record read by `foldl_side`; they
leave what the sides to walk are computed from (`foundState_sameWalks`). -/
theorem openingIdentifies : Obligations.OpeningIdentifies := by
  refine ⟨?_, ?_, fun s n hn => findMissing_side hn, ?_⟩
  · intro s d res got hd4 hlen hs hc u matched
    have hd : d < s.drives.length := by omega
    have hu : u = identifyEnd d res got s := labelEnd_unidentified hs hc
    have hmatched (n : Nat) : matched n ↔ n < 128 ∧ s.identifies d res got n := Iff.rfl
    refine ⟨fun hres => ?_, fun n hn hl => ?_, fun hres hno => ?_⟩
    · rw [hu, identifyEnd, if_pos hres]
      exact congrArg Drive.state (drive_modDrive_self (fun x => { x with state := .empty }) hd)
    · obtain ⟨hlt, hid⟩ := hn
      rw [hu]
      exact identifyEnd_ready hd hid.1 (matchRecord_lowest hlt hid fun m hm hi => hl m hm ⟨by omega, hi⟩)
    · rw [hu, identifyEnd_foreign hres (matchRecord_none fun n hn hi => hno n ⟨hn, hi⟩)]
      obtain ⟨h1, h2, h3⟩ := labelFault_drive (s := s) (m := none) hd
      exact ⟨h1, h2, h3.trans hc, labelFault_matched d none⟩
  · intro s d c hd4 hlen u
    exact ⟨slotConflict_free, fun h => ⟨slotConflict_side h, fun hc hs => slotConflict_conflicted (by omega) h hc hs⟩⟩
  · intro s hv ended u
    have hended : ended ↔ s.identified = true := identified_iff.symm
    refine ⟨fun hp hno => ?_, fun hp he => ?_, fun hp hw hl => recoveryStep_ended hv hp hw hl,
      fun n rest r hp hw hl hr => ⟨_, (recoveryStep_begin hv hp hw hl).trans (beginWalk_eq hr), rfl⟩⟩
    · exact (recoveryStep_identifying hv hp).trans (if_neg (mt hended.2 hno))
    · refine ⟨s.incompleteOthers, ?_, incompleteOthers_ascending s, fun n => mem_incompleteOthers⟩
      exact ((recoveryStep_identifying hv hp).trans (if_pos (hended.1 he))).trans (applyFindings_eq s)

end Sys2Proof.Machine
end

section
/-! SUPPORT. The recovery walk of one side (R175 to R178): the reads it places, its ends, and the result of each of its
reads. -/

namespace Sys2Proof.Machine

variable {s t u : State} {w : Walk} {d n k : Nat} {r : SideRecord} {e : RangeEntry}

/-! ### The range of a side -/

theorem find_changeLast (n : Nat) {f : RangeEntry → RangeEntry} (hf : ∀ e, (f e).side = e.side) (l : List RangeEntry) :
    (changeLast n f l).reverse.find? (·.side == n) = (l.reverse.find? (·.side == n)).map f := by
  induction l with
  | nil => rfl
  | cons a l ih =>
    have hnone (h : l.all (·.side ≠ n) = true) : l.reverse.find? (·.side == n) = none := by
      simpa using h
    unfold changeLast
    split
    · next h =>
      obtain ⟨ha, hl⟩ := h
      rw [List.reverse_cons, List.reverse_cons, List.find?_append, List.find?_append, hnone hl]
      simp [hf, ha]
    · next h =>
      rw [List.reverse_cons, List.reverse_cons, List.find?_append, List.find?_append, ih]
      cases hl : l.reverse.find? (·.side == n) with
      | some x => rfl
      | none =>
        have ha : a.side ≠ n := fun ha => h ⟨ha, by simpa using hl⟩
        simp [ha]

theorem rangeOf_raiseLast {last : Nat} (h : s.rangeOf n = some e) :
    (raiseLast n last s).rangeOf n = some { e with last := max e.last last } := by
  have hf := find_changeLast n (f := fun y => { y with last := max y.last last }) (fun _ => rfl) s.loc.ranges
  rw [show s.loc.ranges.reverse.find? (·.side == n) = some e from h] at hf
  exact hf

/-- The range of a side after the open range has been closed. -/
theorem find_closeOpen (h : s.rangeOf n = some e) (ho : e.openFlag = true) :
    (closeOpen s.loc.ranges).reverse.find? (·.side == n) = some { e with openFlag := false } := by
  have hside (y : RangeEntry) : (if y.openFlag then { y with openFlag := false } else y).side = y.side := by split <;> rfl
  unfold closeOpen
  rw [← List.map_reverse, List.find?_map]
  have hc : ((·.side == n) ∘ fun y : RangeEntry => if y.openFlag then { y with openFlag := false } else y) = (·.side == n) := by
    funext y
    simp [hside]
  rw [hc, show s.loc.ranges.reverse.find? (·.side == n) = some e from h, Option.map_some, if_pos ho]

theorem rangeFirst_eq (h : s.rangeOf n = some e) : s.rangeFirst n = e.first := by simp [State.rangeFirst, h]

theorem rangeLast_eq (h : s.rangeOf n = some e) : s.rangeLast n = e.last := by simp [State.rangeLast, h]

/-! ### A walk in progress, and its reads -/

/-- The walk of a side with a record and a range, in the drive it is mounted in. -/
structure State.walks (s : State) (w : Walk) (d : Nat) (r : SideRecord) (e : RangeEntry) : Prop where
  service : s.mu.service = .opening
  walk : s.recovery.walk = some w
  side : s.side w.side = some r
  range : s.rangeOf w.side = some e
  drive : s.mountedReady w.side = some d

/-- The state with the walk changed and its read of one sector placed in the drive. -/
def readPlaced (d : Nat) (v : State) (w' : Walk) (first : Nat) : State := { v with
  recovery.walk := some w'
  drives := v.drives.modify d fun x => { x with queue := x.queue ++ [{ issuer := .recovery, op := .read, first := first
                                                                       count := 1, data := [], priority := 0
                                                                       age := v.now, retries := 0, notReady := 0
                                                                       have_ := 0 }] } }

theorem walkRead_placed {first : Nat} {f : Walk → Walk} (hw : s.recovery.walk = some w) (hd : s.mountedReady n = some d) :
    walkRead n first (modWalk f s) = readPlaced d s (f w) first := by
  have hd' : (modWalk f s).mountedReady n = some d := hd
  have hm : modWalk f s = { s with recovery.walk := some (f w) } := by
    unfold modWalk
    rw [hw]
    rfl
  unfold walkRead
  rw [hd', hm]
  rfl

theorem readIndexPosition_placed (h : s.walks w d r e) :
    readIndexPosition w.side s = readPlaced d s { w with phase := .catchUp } r.indexLow := by
  unfold readIndexPosition
  rw [h.side]
  exact walkRead_placed h.walk h.drive

/-! ### The ends of a walk -/

/-- The last of the range where the numbers found reach `k` (R178): raised for the side that was OPEN. -/
def State.raisedLast (s : State) (n k : Nat) (e : RangeEntry) : Nat :=
  if s.recovery.openAtEntry = some n then max e.last (e.first + k - 1) else e.last

/-- The walk has ended: the next side is due. -/
def State.walked (s : State) (n : Nat) (r : SideRecord) (e : RangeEntry) (u : State) (k mark : Nat) : Prop :=
  u.recovery.walk = none ∧ u.recovery.walked = s.recovery.walked + 1 ∧ u.side n = some { r with dataHigh := mark }
    ∧ u.rangeOf n = some { e with last := s.raisedLast n k e } ∧ u.loc.entries = s.loc.entries

/-- The end of a complete walk, which is RANGE-AHEAD when it falls short of its range. -/
def State.walkComplete (s : State) (n : Nat) (r : SideRecord) (e : RangeEntry) (u : State) (p k : Nat) : Prop :=
  (s.raisedLast n k e + 1 ≤ e.first + k → s.walked n r e u k (max p r.dataHigh))
    ∧ (e.first + k ≤ s.raisedLast n k e → u.mu.service = .standby ∧ u.mu.recoveryFinding = .rangeAhead n
      ∧ u.side n = some { r with dataHigh := max p r.dataHigh })

/-- The end of a walk at a sector that cannot be used. -/
def State.walkBroken (s : State) (w : Walk) (r : SideRecord) (e : RangeEntry) (u : State) (k : Nat) : Prop :=
  (s.openSide = some w.side → u = { s with
    fil.closeOwed := some .suspect, todo.readiness := true
    recovery.walk := some { w with phase := .closing, k := k } })
    ∧ (s.openSide ≠ some w.side → s.walked w.side r e u k (max (r.indexLow - 16) r.dataHigh))

theorem newUnmount_kept (d : Nat) (firm : Bool) (s : State) :
    (newUnmount d firm s).mu = s.mu ∧ (newUnmount d firm s).lib.sides = s.lib.sides := by
  have hadd (o : Order) (t : State) : (addOrder o t).mu = t.mu ∧ (addOrder o t).lib.sides = t.lib.sides := by
    unfold addOrder State.callArbiter
    simp
  unfold newUnmount
  extract_lets s0 s1
  have h1 : s1.mu = s.mu ∧ s1.lib.sides = s.lib.sides := by
    simp only [s1]
    split <;> exact ⟨rfl, rfl⟩
  split
  · exact h1
  · exact ⟨(hadd _ s1).1.trans h1.1, (hadd _ s1).2.trans h1.2⟩

/-- The entry to STANDBY keeps the side records and the finding held (R172). -/
theorem enterStandby_kept (cause : ChangeCause) (s : State) : (enterStandby cause s).mu.service = .standby
    ∧ (enterStandby cause s).mu.recoveryFinding = s.mu.recoveryFinding ∧ (enterStandby cause s).lib.sides = s.lib.sides := by
  have hm : (changeService .standby cause { s with mu.drain := none }).mu = { s.mu with drain := none, service := .standby } :=
    raise_mu ..
  have hl : (changeService .standby cause { s with mu.drain := none }).lib = s.lib := raise_lib ..
  have h : (enterStandby cause s).mu = { s.mu with drain := none, service := .standby }
      ∧ (enterStandby cause s).lib.sides = s.lib.sides := by
    unfold enterStandby standbyEntry
    refine foldl_kept (P := fun t => t.mu = { s.mu with drain := none, service := .standby } ∧ t.lib.sides = s.lib.sides)
      (fun t d ht => ?_) _ ⟨hm, (congrArg Lib.sides hl :)⟩
    obtain ⟨h1, h2⟩ := newUnmount_kept d true t
    exact ⟨h1.trans ht.1, h2.trans ht.2⟩
  rw [h.1, h.2]
  exact ⟨rfl, rfl, rfl⟩

/-- The finding told and the marker withdrawn, before the entry to STANDBY (R179). -/
def findingTold (f : RecoveryFinding) (s : State) : State :=
  let s1 := recoveryNotice f { s with mu.recoveryFinding := f }
  withdrawMarker { s1 with recovery := Recovery.reset, fil.closeOwed := none, drives := s1.drives.map Drive.forgetWalk }

theorem findingTold_kept (f : RecoveryFinding) (s : State) : (findingTold f s).mu = { s.mu with recoveryFinding := f }
    ∧ (findingTold f s).lib.sides = s.lib.sides := by
  unfold findingTold recoveryNotice
  dsimp only
  rw [withdrawMarker_mu, withdrawMarker_sides]
  exact ⟨raise_mu .., congrArg Lib.sides (raise_lib ..)⟩

/-- An OPENING that ends with a finding goes to STANDBY with it held, and leaves the side records (R179). -/
theorem recoveryFound_kept (f : RecoveryFinding) (s : State) : (recoveryFound f s).mu.service = .standby
    ∧ (recoveryFound f s).mu.recoveryFinding = f ∧ ∀ n, (recoveryFound f s).side n = s.side n := by
  obtain ⟨hm, hs⟩ := findingTold_kept f s
  obtain ⟨h1, h2, h3⟩ := enterStandby_kept .openingEnd (findingTold f s)
  obtain ⟨ha, -, hb, -⟩ := answerLate_kept (· == .setState) (fun _ => 2)
    (fun _ => stateReply (enterStandby .openingEnd (findingTold f s))) (enterStandby .openingEnd (findingTold f s))
  change (answerState (enterStandby .openingEnd (findingTold f s))).mu.service = _
    ∧ (answerState (enterStandby .openingEnd (findingTold f s))).mu.recoveryFinding = _
    ∧ ∀ n, (answerState (enterStandby .openingEnd (findingTold f s))).side n = _
  unfold State.side answerState
  rw [ha, hb, h3, hs]
  exact ⟨h1, h2.trans (congrArg Mu.recoveryFinding hm), fun _ => rfl⟩

/-- The state in which the range of the side that was OPEN holds the last number found. -/
def lastRaised (n k : Nat) (s : State) : State :=
  if s.recovery.openAtEntry = some n then raiseLast n (s.rangeFirst n + k - 1) s else s

theorem lastRaised_rangeOf (h : s.rangeOf n = some e) :
    (lastRaised n k s).rangeOf n = some { e with last := s.raisedLast n k e } := by
  unfold lastRaised State.raisedLast
  split
  · rw [rangeOf_raiseLast h, rangeFirst_eq h]
  · exact h

theorem lastRaised_kept (n k : Nat) (s : State) : (lastRaised n k s).recovery = s.recovery
    ∧ (lastRaised n k s).lib = s.lib ∧ (lastRaised n k s).loc.entries = s.loc.entries := by
  unfold lastRaised
  split <;> exact ⟨rfl, rfl, rfl⟩

theorem walkEnded_eq (h : s.rangeOf n = some e) (c : Bool) : walkEnded n k c s =
    if c = true ∧ e.first + k ≤ s.raisedLast n k e then
      recoveryFound (.rangeAhead n) { lastRaised n k s with recovery.walked := s.recovery.walked + 1 }
    else sideWalked (lastRaised n k s) := by
  have hl := rangeLast_eq (lastRaised_rangeOf (k := k) h)
  have hr := (lastRaised_kept n k s).1
  have hu : walkEnded n k c s = if c = true ∧ s.rangeFirst n + k < (lastRaised n k s).rangeLast n + 1 then
      recoveryFound (.rangeAhead n) { lastRaised n k s with recovery.walked := (lastRaised n k s).recovery.walked + 1 }
    else sideWalked (lastRaised n k s) := rfl
  rw [hu, hl, hr, rangeFirst_eq h]
  simp only [Nat.lt_succ_iff]

/-- A walk that ends without a finding leaves the records as its end has left them. -/
theorem sideWalked_walked {mark : Nat} (hs : t.side n = some { r with dataHigh := mark }) (hl : t.loc = s.loc)
    (hr : t.recovery = s.recovery) (h : s.rangeOf n = some e) : s.walked n r e (sideWalked (lastRaised n k t)) k mark := by
  have ht : t.rangeOf n = some e := by
    unfold State.rangeOf
    rw [hl]
    exact h
  have hraised : t.raisedLast n k e = s.raisedLast n k e := by
    unfold State.raisedLast
    rw [hr]
  obtain ⟨hrec, hlib, hent⟩ := lastRaised_kept n k t
  refine ⟨rfl, ?_, ?_, ?_, ?_⟩
  · show (lastRaised n k t).recovery.walked + 1 = _
    rw [hrec, hr]
  · show (lastRaised n k t).lib.sides.getD n none = _
    rw [hlib]
    exact hs
  · rw [← hraised]
    exact lastRaised_rangeOf ht
  · show (lastRaised n k t).loc.entries = _
    rw [hent, hl]

theorem walkEnded_broken {mark : Nat} (hs : t.side n = some { r with dataHigh := mark }) (hl : t.loc = s.loc)
    (hr : t.recovery = s.recovery) (h : s.rangeOf n = some e) : s.walked n r e (walkEnded n k false t) k mark := by
  have ht : t.rangeOf n = some e := by
    unfold State.rangeOf
    rw [hl]
    exact h
  rw [walkEnded_eq ht, if_neg (by simp)]
  exact sideWalked_walked hs hl hr h

/-- An end BLANK or GUARD (R178). -/
theorem endComplete_ends (hs : s.side n = some r) (h : s.rangeOf n = some e) (p : Nat) :
    s.walkComplete n r e (endComplete n p k s) p k := by
  have hside := side_modSide_self (fun x => { x with dataHigh := max p x.dataHigh }) hs
  unfold endComplete
  rw [walkEnded_eq (s := s.modSide n _) h]
  constructor
  · intro hk
    rw [if_neg fun hc => absurd hc.2 (Nat.not_le.2 hk)]
    exact sideWalked_walked hside rfl rfl h
  · intro hk
    rw [if_pos ⟨rfl, hk⟩]
    obtain ⟨h1, h2, h3⟩ := recoveryFound_kept (.rangeAhead n) { lastRaised n k (s.modSide n _) with
      recovery.walked := (s.modSide n fun x => { x with dataHigh := max p x.dataHigh }).recovery.walked + 1 }
    refine ⟨h1, h2, (h3 n).trans ?_⟩
    show (lastRaised n k (s.modSide n _)).lib.sides.getD n none = _
    rw [(lastRaised_kept n k _).2.1]
    exact hside

/-- An end UNREADABLE or OUT-OF-SEQUENCE (R178). -/
theorem endBroken_ends (h : s.walks w d r e) (k : Nat) : s.walkBroken w r e (endBroken w.side k s) k := by
  unfold endBroken
  constructor
  · intro ho
    rw [if_pos ho]
    unfold modWalk State.callReadiness
    dsimp only
    rw [h.walk]
    rfl
  · intro ho
    rw [if_neg ho]
    exact walkEnded_broken (side_modSide_self SideRecord.takeNoMore h.side) rfl rfl h.range

/-! ### A position of the walk (R177) -/

theorem walkPosition_guard {p : Nat} (h : s.walks w d r e) (hp : r.indexLow < p + 19) :
    walkPosition w.side p k s = endComplete w.side p k s := by
  simp [walkPosition, h.side, hp]

theorem walkPosition_past {p : Nat} (h : s.walks w d r e) (hp : p + 19 ≤ r.indexLow) (ho : s.openSide ≠ some w.side)
    (hk : e.last < e.first + k) : walkPosition w.side p k s = walkEnded w.side k false s := by
  simp [walkPosition, h.side, Nat.not_lt.2 hp, rangeFirst_eq h.range, rangeLast_eq h.range, ho, hk]

theorem walkPosition_reads {p : Nat} (h : s.walks w d r e) (hp : p + 19 ≤ r.indexLow)
    (hk : s.openSide = some w.side ∨ e.first + k ≤ e.last) :
    walkPosition w.side p k s = readPlaced d s { w with phase := .directory, p := p, k := k } p := by
  have hno : ¬(s.openSide ≠ some w.side ∧ s.rangeLast w.side < s.rangeFirst w.side + k) := by
    rw [rangeFirst_eq h.range, rangeLast_eq h.range]
    rintro ⟨ho, hlt⟩
    exact hk.elim ho (Nat.not_le.2 hlt)
  simp only [walkPosition, h.side, if_neg (Nat.not_lt.2 hp), if_neg hno]
  exact walkRead_placed h.walk h.drive

/-! ### The start of the directory walk (R177) -/

theorem startDirectories_first (h : s.walks w d r e) (hw : r.written = 0) :
    startDirectories w.side s = walkPosition w.side 1 0 s := by
  simp [startDirectories, h.side, hw]

theorem startDirectories_behind (h : s.walks w d r e) (hw : 1 ≤ r.written) : startDirectories w.side s =
    readPlaced d s { w with phase := .startEntry } (r.indexPosition (r.written - 1)) := by
  simp only [startDirectories, h.side, if_neg (Nat.one_le_iff_ne_zero.1 hw)]
  exact walkRead_placed h.walk h.drive

theorem walkResult_phase (h : s.walks w d r e) (res : DriveResult) (got : List Sector) :
    (w.phase = .catchUp → walkResult res got s = catchUpResult w.side res got s)
      ∧ (w.phase = .startEntry → walkResult res got s = startEntryResult w.side res got s)
      ∧ (w.phase = .directory → walkResult res got s = directoryResult w res got s)
      ∧ ∀ body pages, w.phase = .trailer body pages → walkResult res got s = trailerResult w body pages res got s := by
  refine ⟨fun hp => ?_, fun hp => ?_, fun hp => ?_, fun body pages hp => ?_⟩ <;> simp [walkResult, h.service, h.walk, hp]

theorem startEntryResult_eq (h : s.walks w d r e) (res : DriveResult) (got : Sector) :
    startEntryResult w.side res [got] s =
      if res = .ok ∧ entryPasses ((readIndex got).getD 63 emptySlot) (e.first + 64 * r.written - 1) r.dataHigh = true then
        walkPosition w.side (((readIndex got).getD 63 emptySlot).address + ((readIndex got).getD 63 emptySlot).body + 1)
          (64 * r.written) s
      else endBroken w.side (64 * r.written) s := by
  simp only [startEntryResult, h.side, rangeFirst_eq h.range]
  rfl

/-! ### Directories (R177) -/

theorem directoryResult_blank (h : s.walks w d r e) (b : Nat) (got : List Sector) :
    directoryResult w (.blank b) got s = endComplete w.side w.p w.k s := by
  simp [directoryResult, h.side]

theorem directoryResult_readable (h : s.walks w d r e) {got : List Sector} {x : DirectoryRead}
    (hx : readableDirectory r w.p got = some x) : directoryResult w .ok got s =
      readPlaced d s { w with phase := .trailer x.body x.pages } (w.p + x.body) := by
  simp only [directoryResult, h.side, hx]
  exact walkRead_placed h.walk h.drive

theorem directoryResult_unreadable (h : s.walks w d r e) {got : List Sector} (hx : readableDirectory r w.p got = none) :
    directoryResult w .ok got s = endBroken w.side w.k s := by
  simp [directoryResult, h.side, hx]

theorem directoryResult_other (h : s.walks w d r e) {res : DriveResult} {got : List Sector} (hok : res ≠ .ok)
    (hb : ∀ b, res ≠ .blank b) : directoryResult w res got s = endBroken w.side w.k s := by
  cases res with
  | ok => exact absurd rfl hok
  | blank b => exact absurd rfl (hb b)
  | mediaError | verifyFailed | notReady | noCartridge => simp [directoryResult, h.side]

/-- What a directory read must be for the walk to take it (R177). -/
def DirectoryRead.standsAt (x : DirectoryRead) (r : SideRecord) (p : Nat) : Prop :=
  x.serial = r.serial ∧ 2 ≤ x.body ∧ x.body ≤ 23041 ∧ p + x.body < r.indexLow

theorem readableDirectory_some {p : Nat} {got : Sector} {x : DirectoryRead} (hx : readDirectory got = some x)
    (h : x.standsAt r p) : readableDirectory r p [got] = some x := by
  unfold readableDirectory
  rw [List.headD_cons, hx]
  exact if_pos h

theorem readableDirectory_none {p : Nat} {got : Sector} (h : ∀ x, readDirectory got = some x → ¬x.standsAt r p) :
    readableDirectory r p [got] = none := by
  unfold readableDirectory
  rw [List.headD_cons]
  cases hx : readDirectory got with
  | none => rfl
  | some x => exact if_neg (h x hx)

/-! ### Trailers (R177) -/

theorem trailerResult_good (h : s.walks w d r e) {body pages i : Nat} {got : Sector}
    (hi : goodTrailer got w.p body = some i) : trailerResult w body pages .ok [got] s =
      if i = e.first + w.k then addFound w i body pages s else endBroken w.side w.k s := by
  simp [trailerResult, hi, rangeFirst_eq h.range]

theorem trailerResult_spoiled {body pages : Nat} {res : DriveResult} {got : Sector}
    (hr : res ≠ .ok ∨ goodTrailer got w.p body = none) : trailerResult w body pages res [got] s = stepOver w body s := by
  have hn : (if res = .ok then goodTrailer ([got].headD []) w.p body else none) = none := by
    split
    · next hok => exact hr.resolve_left (fun hc => hc hok)
    · rfl
  simp only [trailerResult, hn]

theorem addFound_room {body pages i : Nat} (hl : s.loc.entries.length < 128) : addFound w i body pages s =
    walkPosition w.side (w.p + body + 1) (w.k + 1) { s with
      loc.entries := insertPending { side := w.side, k := w.k, entry := makeEntry i w.p body pages } s.loc.entries
      recovery.added := s.recovery.added + 1 } := if_neg (Nat.not_le.2 hl)

theorem addFound_full {body pages i : Nat} (hl : 128 ≤ s.loc.entries.length) :
    addFound w i body pages s = recoveryFound (.pendingOverflow w.side) s := if_pos hl

/-! ### The catch-up (R176) -/

/-- The sector read is index sector W of the side: a run of used slots from the first instrument due. -/
def writtenIndex (r : SideRecord) (e : RangeEntry) (got : Sector) (used : Nat) : Prop :=
  usedRun (readIndex got) = some used ∧ 1 ≤ used ∧ ((readIndex got).getD 0 emptySlot).instrument = e.first + 64 * r.written

theorem indexFinding_written (h : s.walks w d r e) {got : Sector} {used : Nat} (hu : writtenIndex r e got used) :
    s.indexFinding w.side (readIndex got) = some used := by
  obtain ⟨hrun, h1, hi⟩ := hu
  obtain ⟨m, rfl⟩ := Nat.exists_eq_add_of_le' h1
  simp only [State.indexFinding, hrun, h.side, rangeFirst_eq h.range, hi, if_pos]

theorem indexFinding_none (h : s.walks w d r e) {got : Sector} (hu : ∀ used, ¬writtenIndex r e got used) :
    s.indexFinding w.side (readIndex got) = none := by
  cases hrun : usedRun (readIndex got) with
  | none => simp [State.indexFinding, hrun]
  | some m =>
    cases m with
    | zero => simp [State.indexFinding, hrun]
    | succ m =>
      have hi : ((readIndex got).getD 0 emptySlot).instrument ≠ e.first + 64 * r.written := fun hi =>
        hu (m + 1) ⟨hrun, by omega, hi⟩
      simp only [State.indexFinding, hrun, h.side, rangeFirst_eq h.range, if_neg hi]

theorem catchUpResult_written (h : s.walks w d r e) {got : Sector} {used : Nat} (hu : writtenIndex r e got used) :
    catchUpResult w.side .ok [got] s = if used = 64 then readIndexPosition w.side (takeIndex w.side (readIndex got) s)
      else endPartial w.side used (takeIndex w.side (readIndex got) s) := by
  simp [catchUpResult, indexFinding_written h hu]

theorem catchUpResult_unusable (h : s.walks w d r e) {res : DriveResult} {got : Sector}
    (hu : (res ≠ .ok ∧ ∀ b, res ≠ .blank b) ∨ (res = .ok ∧ ∀ used, ¬writtenIndex r e got used)) :
    catchUpResult w.side res [got] s = indexUnusable w.side s := by
  rcases hu with ⟨hok, hb⟩ | ⟨rfl, hu⟩
  · cases res with
    | ok => exact absurd rfl hok
    | blank b => exact absurd rfl (hb b)
    | mediaError | verifyFailed | notReady | noCartridge => rfl
  · simp [catchUpResult, indexFinding_none h hu]

/-- A change of the side's record is seen by the walk. -/
theorem State.walks.modSide (h : s.walks w d r e) (f : SideRecord → SideRecord) : (s.modSide w.side f).walks w d (f r) e :=
  ⟨h.service, h.walk, side_modSide_self f h.side, h.range, h.drive⟩

theorem indexUnusable_skips (h : s.walks w d r e) (hp : w.phase = .catchUp) (hl : r.skips.length < 8) :
    indexUnusable w.side s = readPlaced d (s.modSide w.side fun r => { r with skips := r.skips ++ [r.written] }) w
      (299999 - r.written - (r.skips.length + 1)) := by
  have e1 : s.modSide w.side SideRecord.skip = s.modSide w.side fun r => { r with skips := r.skips ++ [r.written] } :=
    modSide_congr h.side (skip_appends hl)
  have hr := readIndexPosition_placed (h.modSide fun r => { r with skips := r.skips ++ [r.written] })
  rw [indexLow_eq] at hr
  simp only [List.length_append, List.length_singleton, ← hp] at hr
  unfold indexUnusable
  simp only [h.side, Option.any_some, Config.skipLimit, hl, decide_true, if_pos, e1]
  exact hr

theorem indexUnusable_full (h : s.walks w d r e) (hl : 8 ≤ r.skips.length) :
    indexUnusable w.side s = startDirectories w.side (s.modSide w.side fun r => { r with incomplete := true }) := by
  have e1 : s.modSide w.side SideRecord.skip = s.modSide w.side fun r => { r with incomplete := true } :=
    modSide_congr h.side (skip_full hl)
  have hno : ¬r.skips.length < Config.skipLimit := Nat.not_lt.2 hl
  simp [indexUnusable, h.side, hno, e1]

theorem takeIndex_eq (h : s.side n = some r) (es : List IndexEntry) :
    takeIndex n es s = fillCache n r.written es (s.modSide n fun r => { r with written := r.written + 1 }) := by
  simp [takeIndex, h]

theorem takeIndex_walks (h : s.walks w d r e) (es : List IndexEntry) :
    (takeIndex w.side es s).walks w d { r with written := r.written + 1 } e := by
  obtain ⟨l, hl⟩ := fillCache_eq (s := s.modSide w.side fun r => { r with written := r.written + 1 }) (n := w.side)
    (j := r.written) (es := es)
  have hm := h.modSide fun r => { r with written := r.written + 1 }
  rw [takeIndex_eq h.side, hl]
  exact ⟨hm.service, hm.walk, hm.side, hm.range, hm.drive⟩

end Sys2Proof.Machine
end

section
/-! SUPPORT. The recovery walk of one side: the index sector taken, the close behind a partial one (R176), and the steps that
no read brings (R175, R178). -/

namespace Sys2Proof.Machine

variable {s t u : State} {w : Walk} {d n k : Nat} {r : SideRecord} {e : RangeEntry}

/-! ### An index sector taken as written (R176) -/

/-- W rises, the cache takes the sector, and nothing else of the locator or of the recovery changes. -/
theorem takeIndex_kept (h : s.side n = some r) (es : List IndexEntry) :
    (takeIndex n es s).side n = some { r with written := r.written + 1 }
      ∧ (∃ c ∈ (takeIndex n es s).loc.cache, c.side = n ∧ c.j = r.written)
      ∧ (takeIndex n es s).loc.ranges = s.loc.ranges ∧ (takeIndex n es s).recovery = s.recovery
      ∧ (takeIndex n es s).mu = s.mu := by
  have hm := side_modSide_self (fun x => { x with written := x.written + 1 }) h
  rw [takeIndex_eq h]
  obtain ⟨l, hl⟩ := fillCache_eq (s := s.modSide n fun x => { x with written := x.written + 1 }) (n := n)
    (j := r.written) (es := es)
  refine ⟨?_, fillCache_mem, ?_⟩
  · rw [hl]
    exact hm
  · rw [hl]
    exact ⟨rfl, rfl, rfl⟩

theorem takeIndex_full (h : s.walks w d r e) (hp : w.phase = .catchUp) {got : Sector} (hu : writtenIndex r e got 64) :
    catchUpResult w.side .ok [got] s = readPlaced d (takeIndex w.side (readIndex got) s) w
      (299999 - (r.written + 1) - r.skips.length) := by
  rw [catchUpResult_written h hu, if_pos rfl, readIndexPosition_placed (takeIndex_walks h _), indexLow_eq, ← hp]

theorem endPartial_unopened {used : Nat} (ho : s.openSide ≠ some n) : endPartial n used s = sideWalked s := if_neg ho

theorem endPartial_opened {used : Nat} (ho : s.openSide = some n) (hr : s.side n = some r) (h : s.rangeOf n = some e) :
    endPartial n used s =
      sideWalked (finishClose n .filled (raiseLast n (e.first + 64 * (r.written - 1) + used - 1) s)) := by
  unfold endPartial
  rw [if_pos ho, hr, rangeFirst_eq h]
  rfl

theorem finishClose_recovery {owed : SideState} (h : s.side n = some r) : (finishClose n owed s).recovery = s.recovery := by
  rw [finishClose_eq h]
  exact raise_recovery ..

theorem finishClose_rangeOf {owed : SideState} (hr : s.side n = some r) (h : s.rangeOf n = some e)
    (ho : e.openFlag = true) : (finishClose n owed s).rangeOf n = some { e with openFlag := false } := by
  unfold State.rangeOf
  rw [finishClose_eq hr]
  exact find_closeOpen h ho

/-- The end of the catch-up on a partial sector (R176). -/
theorem endPartial_walked (used : Nat) (hr : s.side n = some r) (h : s.rangeOf n = some e) :
    (endPartial n used s).recovery.walk = none ∧ (endPartial n used s).recovery.walked = s.recovery.walked + 1 := by
  by_cases ho : s.openSide = some n
  · rw [endPartial_opened ho hr h]
    have hc : (finishClose n .filled (raiseLast n (e.first + 64 * (r.written - 1) + used - 1) s)).recovery = s.recovery :=
      finishClose_recovery (s := raiseLast n _ s) hr
    exact ⟨rfl, congrArg (fun q : Recovery => q.walked + 1) hc⟩
  · rw [endPartial_unopened ho]
    exact ⟨rfl, rfl⟩

/-- The OPEN side is closed FILLED behind a partial sector (R176). -/
theorem endPartial_closes {used : Nat} (ho : s.openSide = some n) (hr : s.side n = some r) (h : s.rangeOf n = some e)
    (hf : e.openFlag = true) : (endPartial n used s).side n = some { r with state := .filled }
      ∧ (endPartial n used s).rangeOf n = some { e with
        last := max e.last (e.first + 64 * (r.written - 1) + used - 1), openFlag := false }
      ∧ (s.mu.manager ≠ none → ∃ m ∈ (endPartial n used s).rli.notices, m.details
        = .sideClosed n .filled r.dataHigh r.written r.skips.length r.spoiled r.incomplete) := by
  have hr' : (raiseLast n (e.first + 64 * (r.written - 1) + used - 1) s).side n = some r := hr
  rw [endPartial_opened ho hr h]
  exact ⟨finishClose_side hr', finishClose_rangeOf hr' (rangeOf_raiseLast h) hf, finishClose_pending hr'⟩

/-! ### The steps of the walk that no read brings (R175, R178) -/

theorem recoveryStep_walk (h : s.walks w d r e) (hp : s.recovery.phase = .walking) : recoveryStep s = walkStep w s := by
  simp [recoveryStep, h.service, hp, h.walk]

theorem walkStep_unreachable (hu : s.walkUnreachable w.side = true) :
    walkStep w s = recoveryFound (.unreachable w.side) s := if_pos hu

theorem walkStep_mounted (h : s.walks w d r e) (hu : s.walkUnreachable w.side = false) (hp : w.phase = .mounting)
    (hm : s.fil.mountFor ≠ some .walk) :
    walkStep w s = readPlaced d s { w with phase := .catchUp } r.indexLow := by
  unfold walkStep
  rw [if_neg (by simp [hu]), hp]
  exact (if_pos ⟨by rw [h.drive]; rfl, hm⟩).trans (readIndexPosition_placed h)

theorem walkStep_closed (h : s.walks w d r e) (hu : s.walkUnreachable w.side = false) (hp : w.phase = .closing)
    (hc : s.fil.closeOwed = none) (hi : s.fil.activity = .idle) :
    s.walked w.side r e (walkStep w s) w.k (max (r.indexLow - 16) r.dataHigh) := by
  have e1 : walkStep w s = walkEnded w.side w.k false (s.modSide w.side SideRecord.takeNoMore) := by
    simp [walkStep, hu, hp, hc, hi, closeWalked]
  rw [e1]
  exact walkEnded_broken (side_modSide_self SideRecord.takeNoMore h.side) rfl rfl h.range

theorem mountedReady_spec (h : s.mountedReady n = some d) :
    d < 4 ∧ (s.drive d).mounted = some n ∧ (s.drive d).state.serving = true := by
  have hp := List.find?_some h
  simp only [Bool.and_eq_true, beq_iff_eq] at hp
  exact ⟨List.mem_range.1 (List.mem_of_find?_eq_some h), hp⟩

theorem driveMounting_isSome (hd : d < 4) (h : (s.drive d).mounted = some n) : (s.driveMounting n).isSome = true := by
  unfold State.driveMounting
  rw [List.find?_isSome]
  exact ⟨d, List.mem_range.2 hd, by simp [h]⟩

theorem barred_iff (st : SideState) : st.barred = true ↔ st = .missing ∨ st = .mismatch ∨ st = .stuck := by
  cases st <;> simp [SideState.barred]

/-- A side mounted READY or ACTIVE cannot be walked while its record or its drive is out of service, or once its marker has
been returned (R175). -/
theorem walkUnreachable_iff (hr : s.side n = some r) (hd : s.mountedReady n = some d) : s.walkUnreachable n = true
    ↔ r.state = .missing ∨ r.state = .mismatch ∨ r.state = .stuck ∨ s.inBadDrive r = true ∨ s.recovery.markerBack = true := by
  obtain ⟨hlt, hm, hs⟩ := mountedReady_spec hd
  have hpick : ((List.range 4).any fun d =>
      (s.drive d).mounted == some n && ((s.drive d).state.serving || (s.drive d).state == .checking)) = true :=
    List.any_eq_true.2 ⟨d, List.mem_range.2 hlt, by simp [hm, hs]⟩
  have hmount : (s.driveMounting n).isNone = false := by
    rw [← Option.not_isSome, driveMounting_isSome hlt hm]
    rfl
  have hside : s.sideUnusable n = (r.state.barred || s.inBadDrive r) := by simp [State.sideUnusable, hr]
  unfold State.walkUnreachable
  rw [hpick, hmount, hside]
  simp only [Bool.not_true, Bool.and_false, Bool.false_and, Bool.or_false, Bool.or_eq_true, barred_iff]
  tauto

/-- Settles O51: one lemma for each result of a read, each end stated once (`walked`, `walkComplete`, `walkBroken`). -/
theorem recoveryWalks : Obligations.RecoveryWalks := by
  intro s w d r e got hv hw hr he hd n result other sides reads raised walked complete broken written
  have h : s.walks w d r e := ⟨hv, hw, hr, he, hd⟩
  have hres (res : DriveResult) := walkResult_phase h res [got]
  have hbroken (k : Nat) : broken (endBroken n k s) k := endBroken_ends h k
  have hcomplete (p k : Nat) : complete (endComplete n p k s) p k := endComplete_ends hr he p
  refine ⟨fun hp => ?catchUp, ⟨startDirectories_first h, startDirectories_behind h⟩, fun hp x hx => ?entry,
    fun p k => ⟨fun hg => ?_, fun hg ho hk => ?_, walkPosition_reads h⟩, fun hp => ?directory,
    fun body pages hp => ?trailer, fun hp => ?step, walkUnreachable_iff hr hd⟩
  case catchUp =>
    have hcatch (res : DriveResult) : result res = catchUpResult n res [got] s := (hres res).1 hp
    refine ⟨fun b => hcatch (.blank b), fun used hu => ?_, fun res hu => ⟨fun hl => ?_, fun hl => ?_⟩⟩
    · obtain ⟨hside, hcache, hranges, hrec, hmu⟩ := takeIndex_kept hr (readIndex got)
      have ht := takeIndex_walks h (readIndex got)
      refine ⟨hside, hcache, fun h64 => ?_, fun h64 => ?_⟩
      · subst h64
        exact (hcatch .ok).trans (takeIndex_full h hp hu)
      · have hu' : result .ok = endPartial n used (takeIndex n (readIndex got) s) :=
          (hcatch .ok).trans ((catchUpResult_written h hu).trans (if_neg h64))
        have hopen : (takeIndex n (readIndex got) s).openSide = s.openSide := by
          unfold State.openSide State.openRange
          rw [hranges]
        obtain ⟨hw1, hw2⟩ := endPartial_walked used ht.side ht.range
        dsimp only
        rw [hu']
        refine ⟨hw1, hw2.trans (by rw [hrec]), fun ho => ?_, fun ho hf => ?_⟩
        · rw [endPartial_unopened (hopen ▸ ho)]
          exact ⟨hside, hranges⟩
        · have hc := endPartial_closes (used := used) (hopen.trans ho) ht.side ht.range hf
          rw [hmu] at hc
          exact hc
    · rw [hcatch, catchUpResult_unusable h hu]
      exact indexUnusable_skips h hp hl
    · exact (hcatch res).trans ((catchUpResult_unusable h hu).trans (indexUnusable_full h hl))
  case entry =>
    subst hx
    intro k good
    have hent (res : DriveResult) : result res = if res = .ok ∧ good then walkPosition n
        (((readIndex got).getD 63 emptySlot).address + ((readIndex got).getD 63 emptySlot).body + 1) k s
        else endBroken n k s := ((hres res).2.1 hp).trans (startEntryResult_eq h res got)
    refine ⟨fun hg => (hent .ok).trans (if_pos ⟨rfl, hg⟩), fun hg => ?_, fun res hok => ?_⟩
    · rw [hent, if_neg fun hc => hg hc.2]
      exact hbroken k
    · rw [hent, if_neg fun hc => hok hc.1]
      exact hbroken k
  · rw [walkPosition_guard h hg]
    exact hcomplete p k
  · rw [walkPosition_past h hg ho hk]
    exact walkEnded_broken hr rfl rfl he
  case directory =>
    intro fits
    have hdir (res : DriveResult) : result res = directoryResult w res [got] s := (hres res).2.2.1 hp
    refine ⟨fun b => ?_, fun x hx hf => ?_, fun hno => ?_, fun res ho => ?_⟩
    · rw [hdir, directoryResult_blank h]
      exact hcomplete w.p w.k
    · exact (hdir .ok).trans (directoryResult_readable h (readableDirectory_some hx hf))
    · rw [hdir, directoryResult_unreadable h (readableDirectory_none hno)]
      exact hbroken w.k
    · rw [hdir, directoryResult_other h ho.1 ho.2]
      exact hbroken w.k
  case trailer =>
    intro p
    have htr (res : DriveResult) : result res = trailerResult w body pages res [got] s := (hres res).2.2.2 body pages hp
    refine ⟨fun i hi => ⟨fun hne => ?_, fun heq hl => ?_, fun heq hl => ?_⟩, fun res hbad => ?_⟩
    · rw [htr, trailerResult_good h hi, if_neg hne]
      exact hbroken w.k
    · rw [htr, trailerResult_good h hi, if_pos heq]
      exact addFound_full hl
    · rw [htr, trailerResult_good h hi, if_pos heq]
      exact addFound_room hl
    · rw [htr]
      exact trailerResult_spoiled hbad
  case step =>
    have hstep := recoveryStep_walk h hp
    refine ⟨fun hu => hstep.trans (walkStep_unreachable hu), fun hu hm hf => hstep.trans (walkStep_mounted h hu hm hf),
      fun hu hc ho hi => ?_⟩
    rw [hstep]
    exact walkStep_closed h hu hc ho hi

end Sys2Proof.Machine
end

section
/-! SUPPORT. The queries (R20, R75, R123, R150, R167), and how a request of the manager reaches its block. -/

namespace Sys2Proof.Machine

variable {s : State}

/-- A request of the manager that is handed on at once and passes the checks of R160 reaches its meaning. -/
theorem handOn_manage {i : Instr} {r t code : Nat} {act : State → State} (h : s.handsOn) (ha : s.admits r t code)
    (hc : code ≠ 1) : handOn i (manage r t code act) s = act s := by
  rw [handOn_taken h, manage_admitted ha hc]

/-- A command whose meaning is a request of the manager, and what that request does. -/
theorem exec_managed {i : Instr} {r t code : Nat} {act : State → State} {u : State}
    (he : exec i s = .next (handOn i (manage r t code act) s)) (h : s.handsOn) (ha : s.admits r t code) (hc : code ≠ 1)
    (hu : act s = u) : exec i s = .next u := by
  rw [he, handOn_manage h ha hc, hu]

theorem query_refused {r t code : Nat} {reason : Reason} {o : Option Reason} {data : State → List Byte}
    (ho : o = some reason) : query r t code o data s = publish (reject r t code reason s) := by
  rw [ho]
  rfl

theorem query_answered {r t code : Nat} {o : Option Reason} {data : State → List Byte} (ho : o = none) :
    query r t code o data s = publish (accept r t code (data s) s) := by
  rw [ho]
  rfl

theorem accountQueryRefusal_value {n : Nat} (h : n = 0 ∨ 999999 < n) : s.accountQueryRefusal n = some .badValue := if_pos h

theorem accountQueryRefusal_inRange {n : Nat} (h1 : 1 ≤ n) (h2 : n ≤ 999999) :
    s.accountQueryRefusal n = if (s.account n).isNone then some .noAccount else none := if_neg (by omega)

theorem accountReply_found {n : Nat} {a : Account} (h : s.account n = some a) : accountReply n s = a.bytes := by
  simp [accountReply, h]

/-- Settles O43, query by query. -/
theorem queriesReport : Obligations.QueriesReport := by
  intro s r t n h
  refine ⟨fun ha => exec_managed rfl h ha (by decide) (query_answered rfl), fun ha => ⟨fun hn => ?_, fun h1 h2 hno => ?_,
    fun a h1 h2 hs => ?_⟩, fun ha => ⟨fun hn => ?_, fun hn => ?_⟩, fun ha => ⟨fun hn => ?_, fun hn => ?_⟩,
    fun ha => exec_managed rfl h ha (by decide) (query_answered rfl),
    fun ha => exec_managed rfl h ha (by decide) (query_answered rfl),
    fun ha => exec_managed rfl h ha (by decide) (query_answered rfl)⟩
  · exact exec_managed rfl h ha (by decide) (query_refused (accountQueryRefusal_value hn))
  · refine exec_managed rfl h ha (by decide) (query_refused ?_)
    rw [accountQueryRefusal_inRange h1 h2, hno]
    rfl
  · rw [← accountReply_found hs]
    refine exec_managed rfl h ha (by decide) (query_answered ?_)
    rw [accountQueryRefusal_inRange h1 h2, hs]
    rfl
  · exact exec_managed rfl h ha (by decide) (query_refused (if_pos hn))
  · exact exec_managed rfl h ha (by decide) (query_answered (if_neg (Nat.not_lt.2 hn)))
  · exact exec_managed rfl h ha (by decide) (query_refused (if_pos hn))
  · exact exec_managed rfl h ha (by decide) (query_answered (if_neg (Nat.not_lt.2 hn)))

end Sys2Proof.Machine
end

section
/-! SUPPORT. The rendezvous of a drive channel (R19 to R27): what a drive's flag meets, the transfers, and the results of
commands, with their settling. -/

namespace Sys2Proof.Machine

variable {s : State} {d : Fin 4}

/-! ### What a flag meets -/

theorem watching_iff {x : Drive} : x.watching = true ↔ (x.state ≠ .fault ∧ x.state ≠ .offline) ∨ x.probing = true := by
  unfold Drive.watching
  cases x.state <;> simp

theorem meetSend_transfer {x : Drive} (h : x.watching = true) (hc : x.channel = .offering) : x.meetSend = .transfer := by
  simp [Drive.meetSend, h, hc]

theorem meetSend_desync {x : Drive} (h : x.watching = true) (hc : x.channel ≠ .offering) : x.meetSend = .desync := by
  cases hx : x.channel <;> simp_all [Drive.meetSend]

theorem meetSend_unwatched {x : Drive} (h : ¬x.watching = true) : x.meetSend = .unwatched := by
  simp [Drive.meetSend, h]

theorem meetTake_transfer {x : Drive} (h : x.watching = true) (hc : x.channel = .awaiting) : x.meetTake = .transfer := by
  simp [Drive.meetTake, h, hc]

theorem meetTake_desync {x : Drive} (h : x.watching = true) (hc : x.channel ≠ .awaiting) : x.meetTake = .desync := by
  cases hx : x.channel <;> simp_all [Drive.meetTake]

theorem meetTake_unwatched {x : Drive} (h : ¬x.watching = true) : x.meetTake = .unwatched := by
  simp [Drive.meetTake, h]

/-! ### The events of a channel -/

theorem exec_send_unwatched (h : (s.drive d).meetSend = .unwatched) :
    exec (.driveWaitingToSend d) s = .next (s.modDrive d fun x => { x with waitSend := true }) := by
  show execDriveWaitingToSend d s = _
  rw [execDriveWaitingToSend, h]

theorem exec_send_transfer (h : (s.drive d).meetSend = .transfer) :
    exec (.driveWaitingToSend d) s = .next (offerTaken d s) := by
  show execDriveWaitingToSend d s = _
  rw [execDriveWaitingToSend, h]

theorem exec_send_desync (h : (s.drive d).meetSend = .desync) :
    exec (.driveWaitingToSend d) s = .next (settle (driveFault d .channel s)) := by
  show execDriveWaitingToSend d s = _
  rw [execDriveWaitingToSend, h]
  rfl

theorem exec_block_unwatched {data : Sector} (h : (s.drive d).meetTake = .unwatched) :
    exec (.dataBlock d data) s = .next (s.modDrive d fun x => { x with waitTake := true }) := by
  show execDataBlock d data s = _
  rw [execDataBlock, h]

theorem exec_block_transfer {data : Sector} (h : (s.drive d).meetTake = .transfer) :
    exec (.dataBlock d data) s = .next (publish (blockTaken d data s)) := by
  show execDataBlock d data s = _
  rw [execDataBlock, h]

theorem exec_block_desync {data : Sector} (h : (s.drive d).meetTake = .desync) :
    exec (.dataBlock d data) s = .next (settle (driveFault d .channel s)) := by
  show execDataBlock d data s = _
  rw [execDataBlock, h]
  rfl

theorem exec_result_transfer {res : DriveResult} (h : (s.drive d).meetTake = .transfer) :
    exec (.result d res) s = .next (settle (resultTaken d res s)) := by
  show execResult d res s = _
  rw [execResult, h]

theorem exec_result_desync {res : DriveResult} (h : (s.drive d).meetTake = .desync) :
    exec (.result d res) s = .next (settle (driveFault d .channel s)) := by
  show execResult d res s = _
  rw [execResult, h]
  rfl

/-! ### Transfers -/

/-- Two changes of a table that agree on the entry held make one table. -/
theorem modify_congr {α : Type} {l : List α} {i : Nat} {a : α} {f g : α → α} (h : ∀ x, l[i]? = some x → x = a)
    (hfg : f a = g a) : l.modify i f = l.modify i g := by
  refine List.ext_getElem? fun j => ?_
  rw [List.getElem?_modify, List.getElem?_modify]
  by_cases hj : i = j
  · subst hj
    cases hx : l[i]? with
    | none => rfl
    | some x => simp [h x hx, hfg]
  · simp [hj]

/-- Two changes that agree on the context held make one state. -/
theorem modContext_congr {n : Nat} {f g : Context → Context} (h : f (s.context n) = g (s.context n)) :
    s.modContext n f = s.modContext n g := by
  have e : s.ctx.modify n f = s.ctx.modify n g :=
    modify_congr (fun x hx => by simp [State.context, List.getD_eq_getElem?_getD, hx]) h
  unfold State.modContext
  rw [e]

/-- The issuer's context apart, the transfer of a command message changes nothing. -/
theorem messageSent_kept (c : Current) (s : State) : (messageSent c s).now = s.now ∧ (messageSent c s).mu = s.mu := by
  unfold messageSent readPasses
  split
  · exact ⟨rfl, rfl⟩
  · split <;> exact ⟨rfl, rfl⟩

/-- The rendezvous that follows what the drive takes (R24). -/
theorem taken_after (c : Current) : c.taken.after
    = if c.entry.op = .write ∧ c.taken.blocks < c.entry.count then .offering else .awaiting := by
  rw [Current.after, taken_entry]

/-- A transfer to the drive (R19, R20, R24). -/
theorem offerTaken_eq {k : Nat} {c : Current} (h : (s.drive k).current = some c) : offerTaken k s
    = (messageSent c s).modDrive k fun x => { x with
        waitSend := false, current := some c.taken, stall := some { start := s.now, limit := s.mu.params.channelStall }
        channel := if c.entry.op = .write ∧ c.taken.blocks < c.entry.count then .offering else .awaiting } := by
  obtain ⟨hn, hm⟩ := messageSent_kept c s
  unfold offerTaken
  rw [h]
  simp only [arriveAt, modDrive_modDrive, modDrive_now, modDrive_mu, hn, hm, taken_after]
  rfl

/-- The drive and its channel after a data block (R24). -/
def Drive.blockReceived (c : Current) (data : Sector) (timer : Timer) (x : Drive) : Drive :=
  { x with channel := .awaiting, waitTake := false, stall := some timer, current := some (c.receive data) }

/-- A block that a page read takes. -/
theorem blockTaken_page {k n : Nat} {data : Sector} {c : Current} (h : (s.drive k).current = some c)
    (hi : c.entry.issuer = .page n) (hf : c.fresh = true) : blockTaken k data s
    = (s.modContext n (Context.takeBlock data)).modDrive k
        (Drive.blockReceived c data { start := s.now, limit := s.mu.params.channelStall }) := by
  unfold blockTaken
  simp only [h, hi, hf, if_true]
  exact modDrive_modDrive (t := s.modContext n (Context.takeBlock data)) ..

/-- A block of no page read, or one not taken, reaches no context. -/
theorem blockTaken_other {k : Nat} {data : Sector} {c : Current} (h : (s.drive k).current = some c)
    (hi : ∀ n, c.entry.issuer = .page n → ¬c.fresh = true) : blockTaken k data s
    = s.modDrive k (Drive.blockReceived c data { start := s.now, limit := s.mu.params.channelStall }) := by
  unfold blockTaken
  simp only [h]
  split
  · next n hn =>
    rw [if_neg (hi n hn)]
    exact modDrive_modDrive ..
  · exact modDrive_modDrive ..

theorem fresh_iff {c : Current} : c.fresh = true ↔ c.entry.have_ ≤ c.blocks ∧ c.blocks < c.entry.count := by
  simp [Current.fresh]

theorem receive_page {c : Current} {data : Sector} {n : Nat} (hf : c.fresh = true) (hi : c.entry.issuer = .page n) :
    c.receive data = { c with entry := { c.entry with have_ := c.blocks + 1 }, blocks := c.blocks + 1 } := by
  simp [Current.receive, hf, hi]

theorem receive_other {c : Current} {data : Sector} (hf : c.fresh = true) (hi : ∀ n, c.entry.issuer ≠ .page n) :
    c.receive data = { c with blocks := c.blocks + 1, got := c.got ++ [data] } := by
  unfold Current.receive
  rw [if_pos hf]
  split
  · next n hn => exact absurd hn (hi n)
  · rfl

theorem receive_stale {c : Current} {data : Sector} (hf : ¬c.fresh = true) :
    c.receive data = { c with blocks := c.blocks + 1 } := if_neg hf

/-- A block that a STREAMING context takes (R77, R85, R86). -/
theorem takeBlock_streaming {data : Sector} {y : Context} (h : y.state = .streaming) : Context.takeBlock data y
    = Context.prime { y with holding := y.holding ++ [data], filling := y.filling - 1 } := if_pos h

/-- Settles O44, transfer by transfer. -/
theorem transfersMoveOn : Obligations.TransfersMoveOn := by
  intro s d data c x watched timer taken fresh offered awaits
  have hw : watched ↔ x.watching = true := watching_iff.symm
  have hfresh : fresh ↔ c.fresh = true := fresh_iff.symm
  rw [hw, hfresh]
  refine ⟨fun h hx hc => ?_, fun h hx hc => ?_, fun h => ⟨exec_send_unwatched (meetSend_unwatched h),
    exec_block_unwatched (meetTake_unwatched h)⟩⟩
  · rw [exec_send_transfer (meetSend_transfer h hx), offerTaken_eq hc]
    unfold messageSent readPasses
    cases hi : c.entry.issuer with
    | page _ | locate _ | recovery | discarded | filing | library | probe => cases hs : c.sent <;> rfl
  · rw [exec_block_transfer (meetTake_transfer h hx)]
    refine ⟨fun hf n hn hs => ?_, fun hf hn => ?_, fun hf => ?_⟩
    · rw [blockTaken_page hc hn hf, modContext_congr (g := fun y =>
        Context.prime { y with holding := y.holding ++ [data], filling := y.filling - 1 }) (takeBlock_streaming hs)]
      unfold Drive.blockReceived
      rw [receive_page hf hn]
      rfl
    · rw [blockTaken_other hc fun n hc => absurd hc (hn n)]
      unfold Drive.blockReceived
      rw [receive_other hf hn]
      rfl
    · rw [blockTaken_other hc fun _ _ => hf]
      unfold Drive.blockReceived
      rw [receive_stale hf]
      rfl

/-! ### Results -/

theorem handleResult_reissue {e : QueueEntry} {b : Bool} (h : e.notReady ≤ 1) :
    handleResult e b .notReady = .again { e with notReady := e.notReady + 1 } := if_neg (by omega)

theorem handleResult_third {e : QueueEntry} {b : Bool} (h : 2 ≤ e.notReady) : handleResult e b .notReady = .fault :=
  if_pos (by omega)

theorem handleResult_retry {e : QueueEntry} {b : Bool} {bad : Nat} (ho : e.op = .read) (h : e.retries ≤ 1) :
    handleResult e b (.mediaError bad) = .again (e.retry bad) := if_pos ⟨ho, by omega⟩

theorem handleResult_empty {e : QueueEntry} {x : Drive} (hc : x.cartridge ≠ none) (hp : e.issuer ≠ .probe) :
    handleResult e (emptyFinding x e) .noCartridge = .fault := by
  have h : emptyFinding x e = false := by
    simp [emptyFinding, hp, Option.isSome_iff_ne_none.2 hc]
  simp [handleResult, h]

/-- Every other result reaches the issuer. -/
theorem handleResult_deliver {e : QueueEntry} {b : Bool} {res : DriveResult} (h1 : res ≠ .notReady) (h2 : res ≠ .noCartridge)
    (h3 : ∀ bad, res = .mediaError bad → ¬(e.op = .read ∧ e.retries ≤ 1)) : handleResult e b res = .deliver := by
  cases res with
  | mediaError bad =>
    refine if_neg fun hc => h3 bad rfl ⟨hc.1, ?_⟩
    have := hc.2
    omega
  | notReady => exact absurd rfl h1
  | noCartridge => exact absurd rfl h2
  | ok | blank _ | verifyFailed _ => rfl

theorem resultTaken_again {k : Nat} {c : Current} {res : DriveResult} {e : QueueEntry} (h : (s.drive k).current = some c)
    (hr : handleResult c.entry (emptyFinding (s.drive k) c.entry) res = .again e) :
    resultTaken k res s = s.modDrive k fun x => { x.ended with owed := some e } := by
  simp only [resultTaken, h, hr]

theorem resultTaken_fault {k : Nat} {c : Current} {res : DriveResult} (h : (s.drive k).current = some c)
    (hr : handleResult c.entry (emptyFinding (s.drive k) c.entry) res = .fault) :
    resultTaken k res s = driveFault k .drive s := by
  simp only [resultTaken, h, hr]

theorem resultTaken_deliver {k : Nat} {c : Current} {res : DriveResult} (h : (s.drive k).current = some c)
    (hr : handleResult c.entry (emptyFinding (s.drive k) c.entry) res = .deliver) :
    resultTaken k res s = deliver k c.entry res c.got (s.modDrive k Drive.ended) := by
  simp only [resultTaken, h, hr]

/-- A page read that has ended (R85). -/
theorem pageResult_eq (n : Nat) (res : DriveResult) (s : State) : pageResult n res s =
    (if res = .ok then id else endContext n .pageFailed)
      (s.modContext n fun y => { y with read := .none, filling := 0, readStart := none }) := by
  cases res <;> rfl

/-- Settles O45: what the dispatcher makes of the result, and the page read among its issuers. -/
theorem resultsEndCommands : Obligations.ResultsEndCommands := by
  intro s d c res x watched ended hw hx hc
  have he : exec (.result d res) s = .next (settle (resultTaken d res s)) :=
    exec_result_transfer (meetTake_transfer (watching_iff.2 hw) hx)
  refine ⟨fun hr hn => ?_, fun b hr ho hn => ?_, fun hf => ?_, fun h1 h2 h3 => ⟨?_, fun n hn => ?_⟩⟩
  · subst hr
    rw [he, resultTaken_again hc (handleResult_reissue hn)]
    rfl
  · subst hr
    rw [he, resultTaken_again hc (handleResult_retry ho hn)]
    rfl
  · rw [he, resultTaken_fault hc]
    obtain ⟨rfl, hn⟩ | ⟨rfl, hk, hp⟩ := hf
    · exact handleResult_third hn
    · exact handleResult_empty hk hp
  · rw [he, resultTaken_deliver hc (handleResult_deliver h1 h2 h3)]
    rfl
  · unfold deliver
    rw [hn]
    exact pageResult_eq n res _

end Sys2Proof.Machine
end

section
/-! SUPPORT. Drive faults (R21 to R23, R34, R54): what their stages do to the attached contexts, to the picker that waits for
the drive, to the side records and to the notices, with their settling. -/

namespace Sys2Proof.Machine

variable {s t u : State}

/-! ### What a loss leaves of the library -/

/-- The picker and the management unit stay; no order is made, and none becomes an order without waiter and marker. -/
structure Yields (s t : State) : Prop where
  picker : t.lib.picker = s.lib.picker
  mu : t.mu = s.mu
  orders : ∀ o ∈ t.lib.orders, ∃ p ∈ s.lib.orders, o.id = p.id ∧ o.kind = p.kind ∧ o.inService = p.inService
    ∧ (p.abandoned = false → o.abandoned = false)

theorem Yields.trans (h : Yields s t) (g : Yields t u) : Yields s u where
  picker := g.picker.trans h.picker
  mu := g.mu.trans h.mu
  orders o ho := by
    obtain ⟨p, hp, i1, k1, v1, a1⟩ := g.orders o ho
    obtain ⟨q, hq, i2, k2, v2, a2⟩ := h.orders p hp
    exact ⟨q, hq, i1.trans i2, k1.trans k2, v1.trans v2, fun hn => a1 (a2 hn)⟩

/-- Orders leave, and no other change. -/
theorem Yields.fewer (hp : t.lib.picker = s.lib.picker) (hm : t.mu = s.mu) (ho : t.lib.orders ⊆ s.lib.orders) : Yields s t :=
  ⟨hp, hm, fun o h => ⟨o, ho h, rfl, rfl, rfl, id⟩⟩

theorem Yields.unseen (hl : t.lib = s.lib) (hm : t.mu = s.mu) : Yields s t :=
  .fewer (by rw [hl]) hm (by rw [hl]; exact List.Subset.refl _)

theorem Yields.refl (s : State) : Yields s s := .unseen rfl rfl

theorem Yields.foldl {α : Type} (f : State → α → State) (hf : ∀ t a, Yields t (f t a)) (l : List α) (s : State) :
    Yields s (l.foldl f s) := by
  induction l generalizing s with
  | nil => exact .refl s
  | cons a l ih => exact (hf s a).trans (ih _)

theorem Yields.ite {p : Prop} [Decidable p] {a b : State} (ha : Yields s a) (hb : Yields s b) :
    Yields s (if p then a else b) := by
  split
  · exact ha
  · exact hb

theorem Yields.raise {d : NoticeDetails} : Yields s (raise_ d s) := .unseen (by simp) (by simp)

theorem Yields.compose {r g : Nat} {b : OutBody} : Yields s (compose r g b s) := .unseen rfl rfl

/-- Waiters or the marker leave every order, those left with neither leave the queue, and the priorities follow (R44, R47). -/
theorem Yields.left {f : Order → Order} (hi : ∀ o, (f o).id = o.id) (hk : ∀ o, (f o).kind = o.kind)
    (hv : ∀ o, (f o).inService = o.inService) (hp : t.lib.picker = s.lib.picker) (hm : t.mu = s.mu)
    (ho : t.lib.orders = (s.lib.orders.map f).filter fun o => !o.abandoned) : Yields s (reprioritise t) := by
  refine ⟨by simpa using hp, by simpa using hm, fun o h => ?_⟩
  rw [reprioritise_orders, ho] at h
  obtain ⟨o1, h1, rfl⟩ := List.mem_map.1 h
  obtain ⟨h2, hno⟩ := List.mem_filter.1 h1
  obtain ⟨o2, h3, rfl⟩ := List.mem_map.1 h2
  refine ⟨o2, h3, hi o2, hk o2, hv o2, fun _ => ?_⟩
  show (f o2).abandoned = false
  simpa using hno

theorem Yields.leaveOrders {c : Nat} : Yields s (leaveOrders c s) :=
  .left (f := fun o => { o with waiters := o.waiters.filter (· != c) }) (fun _ => rfl) (fun _ => rfl) (fun _ => rfl) rfl rfl rfl

theorem Yields.settleCharge {x : Context} {o : Ending} : Yields s (settleCharge x o s) :=
  .unseen (settleCharge_lib x o s) (settleCharge_mu x o s)

theorem Yields.endContext {c : Nat} {o : Ending} : Yields s (endContext c o s) := by
  unfold Sys2Proof.Machine.endContext
  have h0 : Yields s (detach c (dropReads c (s.modContext c (Context.close o)))) := .unseen rfl rfl
  have h1 := h0.trans (.leaveOrders (c := c))
  refine .ite (Yields.trans (h1.trans ?_) .settleCharge) (.refl s)
  exact .unseen rfl rfl

theorem Yields.endContexts {cs : List Nat} {o : Ending} : Yields s (endContexts cs o s) := .foldl _ (fun _ _ => .endContext) cs s

theorem Yields.commandLost {e : QueueEntry} : Yields s (commandLost e s) := by
  unfold Sys2Proof.Machine.commandLost
  split
  case h_1 | h_2 =>
    refine Yields.trans ?_ .endContext
    exact .unseen rfl rfl
  all_goals exact .refl s

theorem Yields.withdrawMarker : Yields s (withdrawMarker s) := by
  unfold Sys2Proof.Machine.withdrawMarker
  dsimp only
  have h : Yields s (Sys2Proof.Machine.reprioritise { s with
      lib.orders := (s.lib.orders.map fun o => { o with marker := false }).filter fun o => !o.abandoned
      drives := s.drives.map fun d => { d with incomingMarker := false }
      fil.mountFor := none }) :=
    .left (f := fun o => { o with marker := false }) (fun _ => rfl) (fun _ => rfl) (fun _ => rfl) rfl rfl rfl
  exact .ite (h.trans (.unseen rfl rfl)) h

theorem Yields.setHalt {h : Halt} : Yields s (setHalt h s) := by
  have h1 : Yields s (haltHeld h s) :=
    .ite (.refl s) (Yields.trans (t := { s with fil.halt := some h }) (.unseen rfl rfl) .raise)
  rw [setHalt_eq]
  exact .ite h1 (h1.trans .withdrawMarker)

theorem Yields.returnMarker : Yields s (returnMarker s) := by
  unfold Sys2Proof.Machine.returnMarker
  split <;> exact .unseen rfl rfl

theorem Yields.dropOrder {o : Order} : Yields s (dropOrder o s) := by
  have h : Yields s (removeOrder o.id s) := .fewer rfl rfl (List.filter_subset_self _)
  exact .ite ((h.trans .endContexts).trans .returnMarker) (h.trans .endContexts)

theorem Yields.removeMount {n : Nat} : Yields s (removeMount n s) := by
  unfold Sys2Proof.Machine.removeMount
  split
  · exact .refl s
  · exact .ite (.refl s) .dropOrder

theorem Yields.sideGone {n : Nat} {b : Bool} : Yields s (sideGone n b s) := by
  have h0 : Yields s (if b then dropCache n s else s) := .ite (.unseen rfl rfl) (.refl s)
  have h : Yields s (Sys2Proof.Machine.removeMount n (if b then dropCache n s else s)) := h0.trans .removeMount
  exact .ite (h.trans .setHalt) h

theorem Yields.turnStuck {c : Nat} : Yields s (turnStuck c s) :=
  Yields.trans (t := s.modCartridge c SideRecord.stick) (.fewer rfl rfl (List.Subset.refl _))
    (.foldl _ (fun _ _ => .sideGone) _ _)

theorem Yields.loseIndex : Yields s (loseIndex s) := by
  have hside (n : Nat) : Yields s (s.modSide n SideRecord.skip) := .fewer rfl rfl (List.Subset.refl _)
  unfold Sys2Proof.Machine.loseIndex
  split
  · exact .refl s
  · next n _ => exact .ite (.ite (.ite ((hside n).trans (.unseen rfl rfl)) (hside n)) (hside n)) (.refl s)

theorem Yields.spoilExtent {f : Nat} : Yields s (spoilExtent f s) := by
  unfold Sys2Proof.Machine.spoilExtent
  dsimp only
  split
  · exact .unseen rfl rfl
  · exact .fewer rfl rfl (List.Subset.refl _)

theorem Yields.freeFiling {f : Nat} : Yields s (freeFiling f s) := .ite (.unseen rfl rfl) (.unseen rfl rfl)

theorem Yields.filingLost : Yields s (filingLost s) := by
  have hend {v : State} : Yields v (endSequence v) := .unseen rfl rfl
  unfold Sys2Proof.Machine.filingLost
  split
  case h_1 f _ _ =>
    have h : Yields s (endSequence (Sys2Proof.Machine.spoilExtent f s)) := Yields.spoilExtent.trans hend
    refine .ite ((h.trans .compose).trans .freeFiling) (Yields.trans (h.trans ?_) .setHalt)
    exact .unseen rfl rfl
  case h_2 => exact hend
  case h_3 | h_4 => exact (Yields.loseIndex.trans hend).trans .setHalt
  case h_5 => exact .unseen rfl rfl
  case h_6 | h_7 => exact .refl s

/-! ### The stages of a fault -/

variable {d : Nat} {cause : DriveCause}

/-- The drive has failed, its commands are lost and the contexts attached to it have ended (R34). -/
def attachedReleased (d : Nat) (cause : DriveCause) (s : State) : State :=
  endContexts (s.drive d).attached .sideLost
    ((s.drive d).commands.foldl (fun s e => commandLost e s) (s.modDrive d (Drive.failed cause)))

/-- The filing sequence on the drive is lost, and the motion that waits for it is given up (R54, R116). -/
def motionReleased (d : Nat) (cause : DriveCause) (s : State) : State :=
  abandonMotion d
    (if s.sequenceOn d then filingLost (attachedReleased d cause s) else attachedReleased d cause s)

/-- The incoming waiters have ended, and the marker among them is returned (R48). -/
def incomingReleased (d : Nat) (cause : DriveCause) (s : State) : State :=
  let v := endContexts (s.drive d).incoming .unavailable (motionReleased d cause s)
  if (s.drive d).incomingMarker then returnMarker v else v

/-- The records of the cartridge are STUCK (R15). -/
def cartridgeLost (d : Nat) (cause : DriveCause) (s : State) : State :=
  match (s.drive d).cartridge with
  | none => incomingReleased d cause s
  | some c => turnStuck c (incomingReleased d cause s)

/-- The unmount orders of the drive are gone and the notice is raised (R34, R48). -/
def faultRaised (d : Nat) (cause : DriveCause) (s : State) : State :=
  raise_ (.driveFault d cause (s.drive d).mounted) { cartridgeLost d cause s with
    lib.orders := (cartridgeLost d cause s).lib.orders.filter fun o =>
      !(o.unmounts d && !(cartridgeLost d cause s).motionStarted o.id) }

theorem driveFault_eq (d : Nat) (cause : DriveCause) (s : State) : driveFault d cause s =
    if (s.drive d).commands.any (·.issuer == .probe) then answerRetry d 0 (faultRaised d cause s)
    else faultRaised d cause s := rfl

/-! ### What lies behind each stage -/

theorem wanes_attachedReleased : Wanes (s.modDrive d (Drive.failed cause)) (attachedReleased d cause s) :=
  Wanes.trans (.foldl _ (fun _ _ => .commandLost) _ _) .endContexts

theorem wanes_motionReleased : Wanes (attachedReleased d cause s) (motionReleased d cause s) :=
  Wanes.trans (.ite .filingLost (.refl _)) .abandonMotion

theorem wanes_incomingReleased : Wanes (motionReleased d cause s) (incomingReleased d cause s) :=
  .ite (Wanes.endContexts.trans .returnMarker) .endContexts

theorem wanes_cartridgeLost : Wanes (incomingReleased d cause s) (cartridgeLost d cause s) := by
  unfold cartridgeLost
  split
  · exact .refl _
  · exact .turnStuck

theorem wanes_driveFault : Wanes (cartridgeLost d cause s) (driveFault d cause s) := by
  have h0 : Wanes (cartridgeLost d cause s) { cartridgeLost d cause s with
      lib.orders := (cartridgeLost d cause s).lib.orders.filter fun o =>
        !(o.unmounts d && !(cartridgeLost d cause s).motionStarted o.id) } :=
    .same rfl rfl rfl fun p hp _ hc => ⟨p, (List.mem_filter.1 hp).1, hc⟩
  have h : Wanes (cartridgeLost d cause s) (faultRaised d cause s) := h0.trans .raise
  rw [driveFault_eq]
  exact .ite (h.trans .answerLate) h

theorem yields_attachedReleased : Yields s (attachedReleased d cause s) := by
  have h : Yields s (s.modDrive d (Drive.failed cause)) := .unseen rfl rfl
  exact (h.trans (.foldl _ (fun _ _ => .commandLost) _ _)).trans .endContexts

theorem yields_incomingReleased : Yields (motionReleased d cause s) (incomingReleased d cause s) :=
  .ite (Yields.endContexts.trans .returnMarker) .endContexts

theorem yields_faultRaised : Yields (motionReleased d cause s) (faultRaised d cause s) := by
  have h : Yields (incomingReleased d cause s) (cartridgeLost d cause s) := by
    unfold cartridgeLost
    split
    · exact .refl _
    · exact .turnStuck
  have h0 : Yields (cartridgeLost d cause s) { cartridgeLost d cause s with
      lib.orders := (cartridgeLost d cause s).lib.orders.filter fun o =>
        !(o.unmounts d && !(cartridgeLost d cause s).motionStarted o.id) } := .fewer rfl rfl (List.filter_subset_self _)
  exact ((yields_incomingReleased.trans h).trans h0).trans .raise

/-- Late replies leave the pending notices. -/
theorem answerLate_notices (w : LateKind → Bool) (code : LateKind → Nat) (data : LateKind → List Byte) (s : State) :
    (answerLate w code data s).rli.notices = s.rli.notices := by
  unfold answerLate
  refine foldl_kept (P := fun t => t.rli.notices = s.rli.notices) (fun t l h => ?_) _ rfl
  exact h

theorem driveFault_lib (d : Nat) (cause : DriveCause) (s : State) :
    (driveFault d cause s).lib = (faultRaised d cause s).lib
      ∧ (driveFault d cause s).rli.notices = (faultRaised d cause s).rli.notices := by
  rw [driveFault_eq]
  split
  · exact ⟨(answerLate_kept _ _ _ _).2.2.1, answerLate_notices _ _ _ _⟩
  · exact ⟨rfl, rfl⟩

/-! ### The contexts attached -/

/-- A context that is live, or has ended SIDE-LOST. -/
def State.liveOrLost (s : State) (c : Nat) : Prop :=
  (s.context c).state.live = true ∨ ((s.context c).state = .ending ∧ (s.context c).outcome = some .sideLost)

theorem liveOrLost_endContext {c k : Nat} (h : s.liveOrLost c) : (endContext k .sideLost s).liveOrLost c := by
  by_cases hl : (s.context k).state.live = true
  · unfold State.liveOrLost
    rw [context_endContext c hl]
    split
    · exact .inr ⟨rfl, rfl⟩
    · exact h
  · rwa [endContext_idle (by simpa using hl)]

theorem liveOrLost_lostRead {c k : Nat} (h : s.liveOrLost c) : (lostRead k s).liveOrLost c := by
  refine liveOrLost_endContext ?_
  unfold State.liveOrLost
  rw [context_modContext]
  split <;> exact h

theorem liveOrLost_commandLost {c : Nat} {e : QueueEntry} (h : s.liveOrLost c) : (commandLost e s).liveOrLost c := by
  unfold commandLost
  split
  case h_1 | h_2 => exact liveOrLost_lostRead h
  all_goals exact h

/-- Every live context attached to the drive ends SIDE-LOST (R34). -/
theorem attachedReleased_ends {c : Nat} (hc : c ∈ (s.drive d).attached) (hl : (s.context c).state.live = true) :
    ((attachedReleased d cause s).context c).state = .ending
      ∧ ((attachedReleased d cause s).context c).outcome = some .sideLost := by
  have h : State.liveOrLost ((s.drive d).commands.foldl (fun s e => commandLost e s) (s.modDrive d (Drive.failed cause))) c :=
    foldl_kept (P := fun t => t.liveOrLost c) (fun _ _ => liveOrLost_commandLost) _ (.inl hl)
  unfold attachedReleased
  obtain ⟨hw, hends, -⟩ := endContexts_spec (s.drive d).attached .sideLost
    ((s.drive d).commands.foldl (fun s e => commandLost e s) (s.modDrive d (Drive.failed cause)))
  rcases h with h | ⟨he, ho⟩
  · exact hends c hc h
  · obtain ⟨hs, hu⟩ := hw.ctx c (by rw [he]; rfl)
    exact ⟨hs.trans he, hu.trans ho⟩

/-! ### The picker that waits for the drive -/

/-- A motion given up leaves the picker PARKED, and its mount order WAITING and wanted (R54, log 56). -/
theorem abandonMotion_waiting {m : Motion} (hm : s.lib.picker.motion = some m) (hs : m.started = false)
    (hd : m.drive = some d) :
    (abandonMotion d s).lib.picker = { s.lib.picker with state := .parked, motion := none, second := none }
      ∧ ∀ o ∈ (abandonMotion d s).lib.orders, m.order = some o.id → o.inService = false ∧ o.abandoned = false := by
  unfold abandonMotion
  simp only [hm, hs, hd, ne_eq, not_true_eq_false, Bool.false_eq_true, or_self, if_false]
  cases hid : m.order with
  | none => exact ⟨rfl, fun _ _ h => nomatch h⟩
  | some id =>
    cases ho : s.orderOf id with
    | none =>
      refine ⟨by simp only [ho]; rfl, fun o hmem he => ?_⟩
      simp only [ho] at hmem
      exact absurd (Option.some.inj he).symm (by simpa using List.find?_eq_none.1 ho o hmem)
    | some o1 =>
      cases hk : o1.kind with
      | mount n =>
        refine ⟨by simp only [ho, hk]; rfl, fun o hmem he => ?_⟩
        simp only [ho, hk] at hmem
        obtain ⟨h1, hno⟩ := List.mem_filter.1 hmem
        obtain ⟨o2, -, rfl⟩ := List.mem_map.1 h1
        have hid2 : o2.id = id := by
          split at he
          · next h => exact h
          · exact (Option.some.inj he).symm
        refine ⟨?_, by simpa using hno⟩
        rw [if_pos hid2]
      | unmount k firm =>
        refine ⟨by simp only [ho, hk]; rfl, fun o hmem he => ?_⟩
        simp only [ho, hk] at hmem
        obtain ⟨-, hne⟩ := List.mem_filter.1 hmem
        exact absurd (Option.some.inj he).symm (by simpa using hne)

theorem abandonMotion_mu : (abandonMotion d s).mu = s.mu := Spares.abandonMotion.mu

theorem motionReleased_mu : (motionReleased d cause s).mu = s.mu := by
  unfold motionReleased
  rw [abandonMotion_mu]
  exact (yields_attachedReleased.trans (.ite .filingLost (.refl _))).mu

/-- The waiting motion behind a drive fault. -/
theorem driveFault_waiting {m : Motion} (hm : s.lib.picker.motion = some m) (hs : m.started = false)
    (hd : m.drive = some d) :
    (driveFault d cause s).lib.picker = { s.lib.picker with state := .parked, motion := none, second := none }
      ∧ ∀ o ∈ (driveFault d cause s).lib.orders, m.order = some o.id → o.inService = false ∧ o.abandoned = false := by
  have h0 : Yields s (if s.sequenceOn d then filingLost (attachedReleased d cause s) else attachedReleased d cause s) :=
    yields_attachedReleased.trans (.ite .filingLost (.refl _))
  obtain ⟨hp, ho⟩ := abandonMotion_waiting (h0.picker ▸ hm) hs hd
  have h1 : Yields (motionReleased d cause s) (faultRaised d cause s) := yields_faultRaised
  rw [(driveFault_lib d cause s).1]
  refine ⟨?_, fun o hmem he => ?_⟩
  · rw [h1.picker, motionReleased, hp, h0.picker]
  · obtain ⟨p, hp, hi, -, hv, ha⟩ := h1.orders o hmem
    obtain ⟨hs, hno⟩ := ho p hp (he.trans (by rw [hi]))
    exact ⟨hv.trans hs, ha hno⟩

theorem wanted_of_not_abandoned {o : Order} {n : Nat} (hk : o.kind = .mount n) (hs : o.inService = false)
    (h : o.abandoned = false) : o.waiters ≠ [] ∨ o.marker = true := by
  unfold Order.abandoned at h
  rw [hk] at h
  simp only [hs, Bool.not_false, Bool.true_and, Bool.and_eq_false_iff, Bool.not_eq_false'] at h
  exact h.imp (by simp) id

/-! ### The cartridge -/

theorem stick_stuck (r : SideRecord) : r.stick.state = .stuck := by
  unfold SideRecord.stick
  split
  · next h => exact h
  · rfl

/-- Each present record of the cartridge is STUCK (R15). -/
theorem turnStuck_stuck {n : Nat} {r : SideRecord} (h : s.side n = some r) :
    ∃ r', (turnStuck (slotOf n) s).side n = some r' ∧ r'.state = .stuck := by
  have hs : (s.modCartridge (slotOf n) SideRecord.stick).side n = some r.stick := by
    rw [side_modCartridge, if_pos rfl, h]
    rfl
  have hw : Wanes (s.modCartridge (slotOf n) SideRecord.stick) (turnStuck (slotOf n) s) :=
    .foldl _ (fun _ _ => .sideGone) _ _
  obtain ⟨r', hr, hk⟩ := hw.sides n _ hs
  exact ⟨r', hr, hk (stick_stuck r)⟩

theorem driveFault_stuck {n : Nat} {r : SideRecord} (hc : (s.drive d).cartridge = some (slotOf n)) (h : s.side n = some r) :
    ∃ r', (driveFault d cause s).side n = some r' ∧ r'.state = .stuck := by
  have hw : Wanes (s.modDrive d (Drive.failed cause)) (incomingReleased d cause s) :=
    (wanes_attachedReleased.trans wanes_motionReleased).trans wanes_incomingReleased
  obtain ⟨r1, h1, -⟩ := hw.sides n r h
  obtain ⟨r2, h2, hs⟩ := turnStuck_stuck h1
  have e : cartridgeLost d cause s = turnStuck (slotOf n) (incomingReleased d cause s) := by simp only [cartridgeLost, hc]
  obtain ⟨r3, h3, hk⟩ := wanes_driveFault.sides n r2 (e ▸ h2)
  exact ⟨r3, h3, hk hs⟩

/-! ### The drive -/

/-- The drive a fault leaves: no command, no context, no waiter (R34). -/
theorem driveFault_leaves (hd : d < s.drives.length) :
    let y := (driveFault d cause s).drive d
    y.state = .fault ∧ y.cause = some cause ∧ y.cartridge = (s.drive d).cartridge ∧ y.channel = .idle ∧ y.waitTake = false
      ∧ y.waitSend = false ∧ y.stall = none ∧ y.current = none ∧ y.owed = none ∧ y.queue = [] ∧ y.idle = none
      ∧ y.attached = [] ∧ y.incoming = [] := by
  obtain ⟨h1, h2, h3, h4, h5, h6, h7, h8, h9, h10, h11, h12, h13⟩ :=
    (Wanes.driveFault (s := s) (d := d) (cause := cause)).drives d
  rw [drive_modDrive_self _ hd] at h1 h2 h3 h4 h5 h6 h7 h8 h9 h10 h11 h12 h13
  exact ⟨h1, h2, h3, h4, h5, h6, h7, h8, h9, List.subset_nil.1 h11, h10, List.subset_nil.1 h12, List.subset_nil.1 h13⟩

/-- Settles O46: the meetings of a channel that is out of step, and the stages of a fault. -/
theorem driveFaultsEndWork : Obligations.DriveFaultsEndWork := by
  refine ⟨fun s d data res => ?_, fun s d cause hd _ => ?_⟩
  · intro x watched
    have hw : watched ↔ x.watching = true := watching_iff.symm
    refine ⟨fun h hc => exec_send_desync (meetSend_desync (hw.1 h) hc), fun h hc =>
      ⟨exec_block_desync (meetTake_desync (hw.1 h) hc), exec_result_desync (meetTake_desync (hw.1 h) hc)⟩, fun tm ht => ?_⟩
    show execChannelStall d s = _
    unfold execChannelStall
    rw [ht]
    rfl
  · intro x u
    obtain ⟨h1, h2, h3, h4, h5, h6, h7, h8, h9, h10, h11, h12, h13⟩ := driveFault_leaves (cause := cause) hd
    refine ⟨h1, h2, h3, h4, h5, h6, h7, h8, h9, h10, h11, h12, h13, fun n r hc hr => driveFault_stuck hc hr,
      fun c hc _ hl => ?_, fun hm => ?_, fun m hm hs hd => ?_⟩
    · obtain ⟨he, ho⟩ := attachedReleased_ends (cause := cause) hc hl
      have hw : Wanes (attachedReleased d cause s) u :=
        ((wanes_motionReleased.trans wanes_incomingReleased).trans wanes_cartridgeLost).trans wanes_driveFault
      obtain ⟨hs, hu⟩ := hw.ctx c (by rw [he]; rfl)
      exact ⟨hs.trans he, hu.trans ho⟩
    · have hmu : (cartridgeLost d cause s).mu = s.mu := by
        have := (yields_faultRaised (s := s) (d := d) (cause := cause)).mu.trans motionReleased_mu
        rwa [faultRaised, raise_mu] at this
      show ∃ n ∈ (driveFault d cause s).rli.notices, _
      rw [(driveFault_lib d cause s).2]
      exact raise_pending (by simpa [hmu] using hm)
    · obtain ⟨hp, ho⟩ := driveFault_waiting (cause := cause) hm hs hd
      have hpick : u.lib.picker = _ := hp
      refine ⟨by rw [hpick], by rw [hpick], by rw [hpick], fun o hmem he => ?_⟩
      obtain ⟨hv, ha⟩ := ho o hmem he
      exact ⟨hv, fun n hk => wanted_of_not_abandoned hk hv ha⟩

end Sys2Proof.Machine
end

section
/-! SUPPORT. DRIVE_OFFLINE (R28, R35, R45, R164): its refusals, its effect, and its settling. -/

namespace Sys2Proof.Machine

variable {s : State} {d : Nat}

/-! ### The refusals -/

/-- The drive cannot be taken OFFLINE for the work it holds (R164, first check). -/
def State.offlineInUse (s : State) (d : Nat) : Prop :=
  (s.drive d).attached ≠ [] ∨ (s.drive d).incoming ≠ [] ∨ (s.drive d).incomingMarker = true
    ∨ ((∃ n, (s.drive d).mounted = some n ∧ (s.openSide = some n ∨ s.fil.opening = some n))
      ∧ (s.fil.queue ≠ [] ∨ s.fil.activity ≠ .idle))

/-- The drive is changing its cartridge, or a grant is on its way to it (R164, second check). -/
def State.offlineBusy (s : State) (d : Nat) : Prop :=
  (s.drive d).state = .loading ∨ (s.drive d).state = .checking ∨ (s.drive d).state = .unloading
    ∨ ∃ o ∈ s.lib.orders, o.inService = true ∧ o.target = some d

theorem holdsOpen_iff : s.holdsOpen d = true
    ↔ ∃ n, (s.drive d).mounted = some n ∧ (s.openSide = some n ∨ s.fil.opening = some n) := by
  unfold State.holdsOpen
  cases (s.drive d).mounted <;> simp

theorem targeted_iff : s.targeted d = true ↔ ∃ o ∈ s.lib.orders, o.inService = true ∧ o.target = some d := by
  simp [State.targeted]

theorem offlineInUse_iff : s.offlineInUse d ↔ ((s.drive d).attached ≠ [] ∨ (s.drive d).incoming ≠ []
    ∨ (s.drive d).incomingMarker = true
    ∨ (s.holdsOpen d = true ∧ (s.filingsWaiting = true ∨ s.fil.activity ≠ .idle))) := by
  simp [State.offlineInUse, holdsOpen_iff, State.filingsWaiting]

theorem offlineBusy_iff : s.offlineBusy d ↔ ((s.drive d).state = .loading ∨ (s.drive d).state = .checking
    ∨ (s.drive d).state = .unloading ∨ s.targeted d = true) := by
  rw [State.offlineBusy, targeted_iff]

theorem offlineRefusal_value (h : 3 < d) : s.offlineRefusal d = some .badValue := if_pos h

theorem offlineRefusal_inUse (h : d ≤ 3) (hu : s.offlineInUse d) : s.offlineRefusal d = some .inUse := by
  unfold State.offlineRefusal
  rw [if_neg (Nat.not_lt.2 h), if_pos (offlineInUse_iff.1 hu)]

theorem offlineRefusal_busy (h : d ≤ 3) (hu : ¬s.offlineInUse d) (hb : s.offlineBusy d) :
    s.offlineRefusal d = some .busy := by
  unfold State.offlineRefusal
  rw [if_neg (Nat.not_lt.2 h), if_neg (offlineInUse_iff.not.1 hu), if_pos (offlineBusy_iff.1 hb)]

theorem offlineRefusal_rest (h : d ≤ 3) (hu : ¬s.offlineInUse d) (hb : ¬s.offlineBusy d) :
    s.offlineRefusal d = if (s.drive d).state = .occupiedUnknown then some .wrongState else none := by
  unfold State.offlineRefusal
  rw [if_neg (Nat.not_lt.2 h), if_neg (offlineInUse_iff.not.1 hu), if_neg (offlineBusy_iff.not.1 hb)]

/-! ### OFFLINE at once -/

/-- A FAULT with cause LABEL and an identified cartridge, which is sent home first (R35). -/
def Drive.labelled (x : Drive) : Prop := x.state = .fault ∧ x.cause = some .label ∧ x.cartridge ≠ none

theorem takeOffline_atOnce (h : (s.drive d).state = .empty ∨ ((s.drive d).state = .fault ∧ ¬(s.drive d).labelled)) :
    takeOffline d s = haltIfOpenIn d (s.modDrive d Drive.offlineNow) := by
  unfold takeOffline
  rcases h with h | ⟨h, hl⟩
  · simp only [h]
  · simp only [h]
    refine if_neg fun hc => hl ⟨h, hc.1, ?_⟩
    simpa [Option.isSome_iff_ne_none] using hc.2

theorem takeOffline_offline (h : (s.drive d).state = .offline) : takeOffline d s = s := by
  unfold takeOffline
  simp only [h]

/-- A halt leaves a drive without a marker among its waiters as it is. -/
theorem setHalt_drive {x : Halt} (h : (s.drive d).incomingMarker = false) : (setHalt x s).drive d = s.drive d := by
  have e : (haltHeld x s).drives = s.drives := by
    unfold haltHeld
    split <;> simp
  have hd : (haltHeld x s).drive d = s.drive d := by simp only [State.drive, e]
  rw [setHalt_eq]
  split
  · exact hd
  · rw [drive_map _ rfl (withdrawMarker_drives _), hd, ← h]

theorem haltIfOpenIn_drive (h : (s.drive d).incomingMarker = false) : (haltIfOpenIn d s).drive d = s.drive d := by
  unfold haltIfOpenIn
  split
  · exact setHalt_drive h
  · rfl

theorem offlineNow_eq (x : Drive) : x.offlineNow = { x with
    state := .offline, offlinePending := false
    cause := if x.cause = some .label ∨ x.cartridge ≠ none then x.cause else none } := by
  simp [Drive.offlineNow, Option.isSome_iff_ne_none]

/-! ### The firm unmount order -/

theorem takeOffline_home (h : (s.drive d).state = .ready ∨ (s.drive d).state = .active ∨ (s.drive d).labelled) :
    takeOffline d s = newUnmount d true (s.modDrive d fun x => { x with offlinePending := true }) := by
  unfold takeOffline
  rcases h with h | h | ⟨h, hl, hc⟩
  · simp only [h]
  · simp only [h]
  · simp only [h]
    exact if_pos ⟨hl, Option.isSome_iff_ne_none.2 hc⟩

theorem addOrder_orders (o : Order) (s : State) : (addOrder o s).lib.orders
    = (s.lib.orders ++ [{ o with id := s.lib.nextOrder }]).map fun p : Order => { p with priority := s.priorityOf p } := by
  unfold addOrder
  rw [callArbiter_lib, reprioritise_orders]
  rfl

theorem newUnmount_drives (d : Nat) (firm : Bool) (s : State) : (newUnmount d firm s).drives = s.drives := by
  unfold newUnmount
  extract_lets s0 s1
  have h1 : s1.drives = s.drives := by
    simp only [s1]
    split <;> rfl
  split
  · exact h1
  · refine Eq.trans ?_ h1
    simp [addOrder, State.callArbiter]

/-- The new order, where no order unmounts the drive (R45). -/
theorem newUnmount_fresh {firm : Bool} (h : ∀ o ∈ s.lib.orders, o.unmounts d = false) :
    ∃ o ∈ (newUnmount d firm s).lib.orders, o.kind = .unmount d firm ∧ o.priority = 0 ∧ o.age = s.now ∧ o.inService = false := by
  unfold newUnmount
  extract_lets s0 s1
  have h1 : s1.lib.orders ⊆ s.lib.orders := by
    simp only [s1]
    split
    · exact List.filter_subset_self _
    · exact List.Subset.refl _
  have hno : ¬(s1.lib.orders.any (·.unmounts d)) = true := by
    simpa using fun o ho => h o (h1 ho)
  rw [if_neg hno, addOrder_orders]
  exact ⟨_, List.mem_map.2 ⟨_, List.mem_append_right _ (List.mem_singleton.2 rfl), rfl⟩, rfl, rfl, rfl, rfl⟩

/-- A drive has an unmount order once a firm one is asked for (R45). -/
theorem newUnmount_unmounts (d : Nat) (s : State) : ∃ o ∈ (newUnmount d true s).lib.orders, o.unmounts d = true := by
  by_cases h : ({ s with lib.orders := s.lib.orders.filter fun o => !o.idleWaiting d } : State).lib.orders.any (·.unmounts d) = true
  · have e : newUnmount d true s = { s with lib.orders := s.lib.orders.filter fun o => !o.idleWaiting d } := if_pos h
    obtain ⟨o, ho, hu⟩ := List.any_eq_true.1 h
    rw [e]
    exact ⟨o, ho, hu⟩
  · have e : newUnmount d true s = newUnmount d true { s with lib.orders := s.lib.orders.filter fun o => !o.idleWaiting d } := by
      simp [newUnmount, List.filter_filter]
    obtain ⟨o, ho, hk, -⟩ := newUnmount_fresh (firm := true) (d := d)
      (s := { s with lib.orders := s.lib.orders.filter fun o => !o.idleWaiting d }) (by simpa using h)
    rw [e]
    exact ⟨o, ho, by simp [Order.unmounts, hk]⟩

/-! ### The request -/

/-- The data of the reply: drive state and offline pending (R35). -/
def offlineReply (x : Drive) : List Byte := number 1 x.state.code ++ flagByte x.offlinePending

theorem exec_driveOffline {r t : Nat} (h : s.handsOn) (ha : s.admits r t 15) : exec (.driveOffline r t d) s
    = .next (settle (answer r t 15 (s.offlineRefusal d) (takeOffline d) (fun s => offlineReply (s.drive d)) s)) :=
  exec_managed rfl h ha (by decide) rfl

theorem exec_driveOffline_refused {r t : Nat} {reason : Reason} (h : s.handsOn) (ha : s.admits r t 15)
    (hr : s.offlineRefusal d = some reason) :
    exec (.driveOffline r t d) s = .next (settle (publish (reject r t 15 reason s))) := by
  rw [exec_driveOffline h ha, hr, answer_refused]

theorem exec_driveOffline_taken {r t : Nat} {u : State} {x : Drive} (h : s.handsOn) (ha : s.admits r t 15)
    (hr : s.offlineRefusal d = none) (hu : takeOffline d s = u) (hx : u.drive d = x) :
    exec (.driveOffline r t d) s = .next (settle (publish (accept r t 15 (offlineReply x) u))) := by
  rw [exec_driveOffline h ha, hr, answer_accepted, hu, hx]

/-- Settles O40, by the refusals in their order and the state of the drive. -/
theorem driveOfflineActs : Obligations.DriveOfflineActs := by
  intro s r t d h ha x i refused inUse busy labelled
  refine ⟨fun hd => exec_driveOffline_refused h ha (offlineRefusal_value hd),
    fun hd hu => exec_driveOffline_refused h ha (offlineRefusal_inUse hd hu),
    fun hd hu hb => exec_driveOffline_refused h ha (offlineRefusal_busy hd hu hb),
    fun hd hu hb hs => exec_driveOffline_refused h ha ((offlineRefusal_rest hd hu hb).trans (if_pos hs)),
    fun hd hl hu hb => ?_⟩
  have hrefuse (hs : x.state ≠ .occupiedUnknown) : s.offlineRefusal d = none :=
    (offlineRefusal_rest hd hu hb).trans (if_neg hs)
  refine ⟨fun hs => ?_, fun hs => ?_, fun hs => ?_⟩
  · have hm : ((s.modDrive d Drive.offlineNow).drive d).incomingMarker = false := by
      rw [drive_modDrive_self _ hl]
      exact Bool.eq_false_iff.2 fun hm => hu (.inr (.inr (.inl hm)))
    have hx : (haltIfOpenIn d (s.modDrive d Drive.offlineNow)).drive d = x.offlineNow := by
      rw [haltIfOpenIn_drive hm, drive_modDrive_self _ hl]
    have hk : x.state ≠ .occupiedUnknown := by
      rcases hs with hs | ⟨hs, -⟩ <;> simp [hs]
    have hreply : offlineReply x.offlineNow = number 1 7 ++ flagByte false := rfl
    rw [← hreply, ← offlineNow_eq]
    exact ⟨_, exec_driveOffline_taken h ha (hrefuse hk) (takeOffline_atOnce hs) hx, hx⟩
  · have hx : (newUnmount d true (s.modDrive d fun x => { x with offlinePending := true })).drive d
        = { x with offlinePending := true } := by
      unfold State.drive
      rw [newUnmount_drives]
      exact drive_modDrive_self _ hl
    have hk : x.state ≠ .occupiedUnknown := by
      rcases hs with hs | hs | ⟨hs, -⟩ <;> simp [hs]
    have hreply : offlineReply { x with offlinePending := true } = number 1 x.state.code ++ flagByte true := rfl
    rw [← hreply]
    exact ⟨_, exec_driveOffline_taken h ha (hrefuse hk) (takeOffline_home hs) hx, hx, newUnmount_unmounts d _,
      fun hno => newUnmount_fresh (s := s.modDrive d fun x => { x with offlinePending := true }) hno⟩
  · have hx : offlineReply x = number 1 7 ++ flagByte x.offlinePending := by
      unfold offlineReply
      rw [hs]
      rfl
    rw [← hx]
    exact exec_driveOffline_taken h ha (hrefuse (by simp [hs])) (takeOffline_offline hs) rfl

end Sys2Proof.Machine
end

section
/-! SUPPORT. The requests that answer late (R36, R42, R164, R165, R171, R183): how they are refused or begin, and RESTART at
every block, with their settling. -/

namespace Sys2Proof.Machine

variable {s t : State}

/-! ### DRIVE_RETRY, CLEAR_PICKER, CLEAR_FAULT -/

theorem answerLater_refused {r g code : Nat} {k : LateKind} {o : Option Reason} {reason : Reason} {effect : State → State}
    (ho : o = some reason) : answerLater r g code k o effect s = publish (reject r g code reason s) := by
  rw [ho]
  rfl

theorem answerLater_begun {r g code : Nat} {k : LateKind} {o : Option Reason} {effect : State → State} (ho : o = none) :
    answerLater r g code k o effect s = settle (effect (awaitReply k r g s)) := by
  rw [ho]
  rfl

/-- A drive that may be probed (R164). -/
def Drive.retriable (x : Drive) : Prop := x.state = .offline ∨ (x.state = .fault ∧ x.cause ≠ some .label)

theorem retryRefusal_value {d : Nat} (h : 3 < d) : s.retryRefusal d = some .badValue := if_pos h

theorem retryRefusal_state {d : Nat} (h : d ≤ 3) (hr : ¬(s.drive d).retriable) : s.retryRefusal d = some .wrongState := by
  unfold Drive.retriable at hr
  unfold State.retryRefusal
  rw [if_neg (Nat.not_lt.2 h), if_pos (by tauto)]

theorem retryRefusal_rest {d : Nat} (h : d ≤ 3) (hr : (s.drive d).retriable) :
    s.retryRefusal d = if (s.drive d).probing then some .busy else none := by
  unfold Drive.retriable at hr
  unfold State.retryRefusal
  rw [if_neg (Nat.not_lt.2 h), if_neg (by tauto)]

theorem startProbe_eq (d : Nat) (s : State) : startProbe d s = s.modDrive d fun x =>
    { x with
      channel := .idle, waitTake := false, waitSend := false, stall := none, current := none, offlinePending := false
      queue := x.queue ++ [newEntry s .probe .label 0 1 0 []] } := modDrive_modDrive d _ _

theorem clearRefusal_noFault (h : s.mu.startFinding ≠ .picker) : s.clearRefusal = some .noFault := if_pos h

theorem clearRefusal_found (h : s.mu.startFinding = .picker) :
    s.clearRefusal = if s.lib.picker.state = .moving then some .busy else none := if_neg (by simp [h])

/-- The work of CLEAR-FAULT on the picker record (R171). -/
theorem clearFaultWork_eq (s : State) : clearFaultWork s = { s with
    lib.picker := { (if s.lib.picker.state = .fault then (startHome s).lib.picker else s.lib.picker) with
      inventoryOwed := true } } := by
  unfold clearFaultWork
  split <;> rfl

/-! ### RESTART -/

/-- The recovery has stopped and the drain has begun (R183). -/
def restartBegun (s : State) : State :=
  changeService .draining .restart { stopRecovery s with mu.drain := some .restart }

theorem restartWork_eq (s : State) : restartWork s = [0, 1, 2, 3].foldl (fun s d => restartQueue d s)
    (stopFiling (restartLibrary (endAllContexts .restart (restartBegun s)))) := rfl

theorem stopRecovery_kept (s : State) : (stopRecovery s).ctx = s.ctx ∧ (stopRecovery s).fil = s.fil
    ∧ (stopRecovery s).mu.late = s.mu.late := by
  unfold stopRecovery
  split <;> exact ⟨rfl, rfl, rfl⟩

theorem restartBegun_kept (s : State) : (restartBegun s).ctx = s.ctx ∧ (restartBegun s).fil = s.fil
    ∧ (restartBegun s).mu.late = s.mu.late ∧ (restartBegun s).mu.service = .draining
    ∧ (restartBegun s).mu.drain = some .restart := by
  obtain ⟨hc, hf, hl⟩ := stopRecovery_kept s
  unfold restartBegun changeService
  rw [raise_ctx, raise_fil, raise_mu]
  exact ⟨hc, hf, hl, rfl, rfl⟩

/-- Taken in OPENING, a RESTART stops the recovery (R183). -/
theorem restartBegun_opening (h : s.mu.service = .opening) :
    (restartBegun s).mu.recoveryFinding = .restart ∧ (restartBegun s).recovery = Recovery.reset := by
  unfold restartBegun changeService stopRecovery
  rw [raise_mu, raise_recovery, if_pos h]
  exact ⟨rfl, rfl⟩

/-! ### Contexts -/

theorem post_recovery (n q : Nat) (s : State) : (post n q s).recovery = s.recovery := by
  unfold post
  split
  · rfl
  · dsimp only
    split
    · rfl
    · exact raise_recovery _ _

theorem releaseReference_recovery (g : Option Nat) (s : State) : (releaseReference g s).recovery = s.recovery := by
  unfold releaseReference
  split <;> rfl

theorem settleCharge_recovery (x : Context) (o : Ending) (s : State) : (settleCharge x o s).recovery = s.recovery := by
  unfold settleCharge
  dsimp only
  refine (releaseReference_recovery _ _).trans ?_
  split
  · exact post_recovery _ _ _
  · rfl

theorem endContext_recovery (c : Nat) (o : Ending) (s : State) : (endContext c o s).recovery = s.recovery := by
  unfold endContext
  split
  · exact (settleCharge_recovery _ _ _).trans (reprioritise_recovery _)
  · rfl

theorem endContexts_recovery (cs : List Nat) (o : Ending) (s : State) : (endContexts cs o s).recovery = s.recovery :=
  foldl_kept (f := fun s c => endContext c o s) (P := fun t => t.recovery = s.recovery)
    (fun t c h => (endContext_recovery c o t).trans h) cs rfl

theorem mem_contextsWhere {p : Context → Bool} {c : Nat} : c ∈ s.contextsWhere p ↔ c < 16 ∧ p (s.context c) = true := by
  simp [State.contextsWhere]

/-- Every live context ends, and none is live (R99). -/
theorem endAllContexts_ends {o : Ending} {c : Nat} (hc : c < 16) :
    ((endAllContexts o s).context c).state.live = false
      ∧ ((s.context c).state.live = true → ((endAllContexts o s).context c).outcome = some o) := by
  obtain ⟨hw, hends, -⟩ := endContexts_spec (s.contextsWhere (·.state.live)) o s
  unfold endAllContexts
  by_cases hl : (s.context c).state.live = true
  · obtain ⟨he, ho⟩ := hends c (mem_contextsWhere.2 ⟨hc, hl⟩) hl
    exact ⟨by rw [he]; rfl, fun _ => ho⟩
  · have hl' : (s.context c).state.live = false := by simpa using hl
    exact ⟨by rw [(hw.ctx c hl').1, hl'], fun h => absurd h hl⟩

/-! ### Filings -/

theorem freeFiling_kept (f : Nat) (s : State) : (freeFiling f s).ctx = s.ctx ∧ (freeFiling f s).drives = s.drives
    ∧ (freeFiling f s).recovery = s.recovery := by
  unfold freeFiling
  dsimp only
  split <;> exact ⟨rfl, rfl, rfl⟩

theorem freeFiling_filing (f k : Nat) (s : State) :
    (freeFiling f s).filing k = if k = f then Filing.reset else s.filing k := by
  have e : (freeFiling f s).filing k = (s.modFiling f fun _ => Filing.reset).filing k := by
    unfold freeFiling
    dsimp only
    split <;> rfl
  rw [e, filing_modFiling]
  by_cases hk : k = f
  · subst hk
    rw [if_pos rfl]
    split
    · rfl
    · next h => exact filing_out _ _ (by omega)
  · rw [if_neg hk, if_neg fun h => hk h.1.symm]

/-- Several filings are discarded: their records are FREE, the others stay. -/
theorem discardFilings_filing (cause : State → FileCause) (l : List Nat) (k : Nat) (s : State) :
    (l.foldl (fun s f => discardFiling f (cause s) s) s).filing k = if k ∈ l then Filing.reset else s.filing k := by
  induction l generalizing s with
  | nil => simp
  | cons f l ih =>
    have h : (discardFiling f (cause s) s).filing k = if k = f then Filing.reset else s.filing k := freeFiling_filing f k _
    rw [List.foldl_cons, ih, h]
    by_cases hk : k = f <;> simp [hk]

/-- The filing that goes on to the result of its pass (R124). -/
def State.keptFiling (s : State) : Option Nat := if s.attemptInFlight then s.fil.queue.head? else none

/-- An attempt without a pass in flight is given up (R124). -/
def attemptGivenUp (s : State) : State :=
  match s.fil.activity, s.fil.queue.head? with
  | .attempt, some f => if s.attemptInFlight then s else endSequence (spoilExtent f (dropPasses s))
  | _, _ => s

/-- Every filing but the one that goes on is discarded (R124). -/
def filingsDiscarded (s : State) : State :=
  ((List.range 8).filter fun f => ((attemptGivenUp s).filing f).state != .free && s.keptFiling != some f).foldl
    (fun s f => discardFiling f s.stopCause s) (attemptGivenUp s)

theorem stopFiling_eq (s : State) : stopFiling s = (withdrawMarker (filingsDiscarded s)).callReadiness := rfl

theorem attemptGivenUp_kept (s : State) : (attemptGivenUp s).ctx = s.ctx ∧ (attemptGivenUp s).recovery = s.recovery
    ∧ ((attemptGivenUp s).drives = s.drives ∨ (attemptGivenUp s).drives = (dropPasses s).drives)
    ∧ Yields s (attemptGivenUp s) := by
  have hspoil (f : Nat) (v : State) : (spoilExtent f v).ctx = v.ctx ∧ (spoilExtent f v).recovery = v.recovery
      ∧ (spoilExtent f v).drives = v.drives := by
    unfold spoilExtent
    dsimp only
    split <;> exact ⟨rfl, rfl, rfl⟩
  unfold attemptGivenUp
  split
  · next f _ _ =>
    split
    · exact ⟨rfl, rfl, .inl rfl, .refl s⟩
    · obtain ⟨hc, hr, hd⟩ := hspoil f (dropPasses s)
      have hy : Yields s (spoilExtent f (dropPasses s)) :=
        Yields.trans (t := dropPasses s) (.unseen rfl rfl) .spoilExtent
      exact ⟨hc, hr, .inr hd, hy.trans (.unseen rfl rfl)⟩
  · exact ⟨rfl, rfl, .inl rfl, .refl s⟩

theorem filingsDiscarded_kept (s : State) : (filingsDiscarded s).ctx = (attemptGivenUp s).ctx
    ∧ (filingsDiscarded s).recovery = (attemptGivenUp s).recovery
    ∧ (filingsDiscarded s).drives = (attemptGivenUp s).drives ∧ Yields (attemptGivenUp s) (filingsDiscarded s) := by
  refine foldl_kept (P := fun t => t.ctx = (attemptGivenUp s).ctx ∧ t.recovery = (attemptGivenUp s).recovery
    ∧ t.drives = (attemptGivenUp s).drives ∧ Yields (attemptGivenUp s) t) (fun t f h => ?_) _ ⟨rfl, rfl, rfl, .refl _⟩
  obtain ⟨hc, hr, hd, hy⟩ := h
  obtain ⟨gc, gd, gr⟩ := freeFiling_kept f (fileFailed f t.stopCause t)
  have gy : Yields t (discardFiling f t.stopCause t) :=
    Yields.trans (t := fileFailed f t.stopCause t) (.unseen rfl rfl) .freeFiling
  exact ⟨gc.trans hc, gr.trans hr, gd.trans hd, hy.trans gy⟩

theorem callReadiness_recovery (s : State) : s.callReadiness.recovery = s.recovery := rfl

theorem callReadiness_drives (s : State) : s.callReadiness.drives = s.drives := rfl

/-- The end of the filing work leaves contexts, recovery and management unit, and makes no order (R124). -/
theorem stopFiling_kept (s : State) : (stopFiling s).ctx = s.ctx ∧ (stopFiling s).recovery = s.recovery
    ∧ (stopFiling s).mu = s.mu ∧ (s.lib.orders = [] → (stopFiling s).lib.orders = []) := by
  obtain ⟨hc, hrec, -, hy⟩ := attemptGivenUp_kept s
  obtain ⟨gc, gr, -, gy⟩ := filingsDiscarded_kept s
  have hr (v : State) : Yields v v.callReadiness := .unseen rfl rfl
  have h : Yields s (stopFiling s) := stopFiling_eq s ▸ ((hy.trans gy).trans .withdrawMarker).trans (hr _)
  refine ⟨?_, ?_, h.mu, fun he => List.eq_nil_iff_forall_not_mem.2 fun o ho => ?_⟩
  · rw [stopFiling_eq, callReadiness_ctx, withdrawMarker_ctx, gc, hc]
  · rw [stopFiling_eq, callReadiness_recovery, withdrawMarker_recovery, gr, hrec]
  · obtain ⟨p, hp, -⟩ := h.orders o ho
    simp [he] at hp

/-- No drive keeps the marker among its waiters. -/
theorem stopFiling_drives {x : Drive} (hx : x ∈ (stopFiling s).drives) :
    x.incomingMarker = false ∧ ∃ y ∈ s.drives, x.incoming = y.incoming := by
  obtain ⟨-, -, hd, -⟩ := attemptGivenUp_kept s
  obtain ⟨-, -, gd, -⟩ := filingsDiscarded_kept s
  have e : (stopFiling s).drives = (attemptGivenUp s).drives.map fun d => { d with incomingMarker := false } := by
    rw [stopFiling_eq, callReadiness_drives, withdrawMarker_drives, gd]
  rw [e] at hx
  obtain ⟨y, hy, rfl⟩ := List.mem_map.1 hx
  refine ⟨rfl, ?_⟩
  rcases hd with hd | hd
  · exact ⟨y, hd ▸ hy, rfl⟩
  · rw [hd] at hy
    obtain ⟨z, hz, rfl⟩ := List.mem_map.1 hy
    exact ⟨z, hz, rfl⟩

/-- A filing still in use is the one whose pass is in flight (R124). -/
theorem stopFiling_filing {f : Nat} (hf : f < 8) (h : ((stopFiling s).filing f).state ≠ .free) :
    s.attemptInFlight = true ∧ s.fil.queue.head? = some f := by
  have e : (stopFiling s).filing f = (filingsDiscarded s).filing f := by
    unfold State.filing
    rw [stopFiling_eq, callReadiness_fil, withdrawMarker_fil]
  rw [e, filingsDiscarded, discardFilings_filing (fun s => s.stopCause)] at h
  split at h
  · exact absurd rfl h
  · next hno =>
    have hk : s.keptFiling = some f := by
      by_contra hk
      exact hno (List.mem_filter.2 ⟨List.mem_range.2 hf, by simp [h, hk]⟩)
    unfold State.keptFiling at hk
    split at hk
    · next hi => exact ⟨hi, hk⟩
    · cases hk

/-! ### Queues -/

/-- A command that may stay in a queue through a RESTART (R37, log 13). -/
def QueueEntry.staysAtRestart (e : QueueEntry) : Prop := e.issuer = .filing ∨ e.issuer = .library ∨ e.issuer = .probe

theorem wantedAtRestart_stays {d : Nat} {e : QueueEntry} (h : s.wantedAtRestart d e = true) : e.staysAtRestart := by
  unfold State.wantedAtRestart at h
  split at h
  case h_1 => exact .inr (.inr ‹_›)
  case h_2 | h_3 => exact .inr (.inl ‹_›)
  case h_4 => cases h

theorem drive_out {d : Nat} (h : s.drives.length ≤ d) : s.drive d = Drive.reset := by
  simp [State.drive, List.getD_eq_getElem?_getD, List.getElem?_eq_none h]

theorem restartQueue_stays (d : Nat) (s : State) : ∀ e ∈ ((restartQueue d s).drive d).queue, e.staysAtRestart := by
  intro e he
  unfold restartQueue at he
  rw [drive_modDrive] at he
  split at he
  · rcases List.mem_append.1 he with he | he
    · obtain ⟨-, hi⟩ := List.mem_filter.1 he
      simp only [Bool.and_eq_true, beq_iff_eq] at hi
      exact .inl hi.1
    · obtain ⟨y, hy, rfl⟩ := List.mem_map.1 he
      exact wantedAtRestart_stays (List.mem_filter.1 hy).2
  · next h =>
    rw [drive_out (by omega)] at he
    cases he

theorem restartQueue_drive {d i : Nat} (h : d ≠ i) (s : State) : (restartQueue d s).drive i = s.drive i := by
  unfold restartQueue
  rw [drive_modDrive, if_neg fun hc => h hc.1]

/-- What each step keeps, and the step of one element brings about, holds behind all steps. -/
theorem foldl_reaches {α : Type} {f : State → α → State} {P : State → Prop} (hk : ∀ t a, P t → P (f t a)) {a : α}
    (ha : ∀ t, P (f t a)) (l : List α) (s : State) (hm : a ∈ l) : P (l.foldl f s) := by
  induction l generalizing s with
  | nil => cases hm
  | cons b l ih =>
    rcases List.mem_cons.1 hm with rfl | hm
    · exact foldl_kept hk l (ha s)
    · exact ih (f s b) hm

theorem restartQueues_stay {i : Nat} (hi : i < 4) :
    ∀ e ∈ (([0, 1, 2, 3].foldl (fun s d => restartQueue d s) s).drive i).queue, e.staysAtRestart := by
  refine foldl_reaches (P := fun t => ∀ e ∈ (t.drive i).queue, e.staysAtRestart) (fun t d h => ?_)
    (fun t => restartQueue_stays i t) _ s (by simp; omega)
  by_cases hd : d = i
  · subst hd
    exact restartQueue_stays d t
  · rw [restartQueue_drive hd]
    exact h

/-- The queues apart, the last step of RESTART changes nothing. -/
theorem restartQueues_kept (s : State) :
    let u := [0, 1, 2, 3].foldl (fun s d => restartQueue d s) s
    u.ctx = s.ctx ∧ u.fil = s.fil ∧ u.mu = s.mu ∧ u.lib = s.lib ∧ u.recovery = s.recovery :=
  ⟨rfl, rfl, rfl, rfl, rfl⟩

theorem restartQueues_drives {P : Drive → Prop} (hp : ∀ x q, P x → P { x with queue := q }) (h : ∀ x ∈ s.drives, P x) :
    ∀ x ∈ ([0, 1, 2, 3].foldl (fun s d => restartQueue d s) s).drives, P x := by
  refine foldl_kept (P := fun t => ∀ x ∈ t.drives, P x) (fun t d ht x hx => ?_) _ h
  obtain ⟨i, hi⟩ := List.mem_iff_getElem?.1 hx
  rw [restartQueue, modDrive_drives, List.getElem?_modify] at hi
  obtain ⟨y, hy, hxy⟩ := Option.map_eq_some_iff.1 hi
  have hm := ht y (List.mem_of_getElem? hy)
  subst hxy
  split
  · exact hp _ _ hm
  · exact hm

/-! ### The work of RESTART -/

theorem restartLibrary_kept (s : State) : (restartLibrary s).ctx = s.ctx ∧ (restartLibrary s).fil = s.fil
    ∧ (restartLibrary s).mu = s.mu ∧ (restartLibrary s).recovery = s.recovery ∧ (restartLibrary s).lib.orders = [] :=
  ⟨rfl, rfl, rfl, rfl, rfl⟩

theorem context_congr {t : State} (h : t.ctx = s.ctx) (c : Nat) : t.context c = s.context c := by
  unfold State.context
  rw [h]

theorem filing_congr {t : State} (h : t.fil = s.fil) (f : Nat) : t.filing f = s.filing f := by
  unfold State.filing
  rw [h]

/-- RESTART, block by block (R37, R58, R99, R124, R183). -/
theorem restartWork_ends (s : State) :
    let u := restartWork s
    u.mu.service = .draining ∧ u.mu.drain = some .restart ∧ u.mu.late = s.mu.late ∧ u.lib.orders = []
      ∧ (∀ x ∈ u.drives, x.incoming = [] ∧ x.incomingMarker = false)
      ∧ (∀ i < 4, ∀ e ∈ (u.drive i).queue, e.staysAtRestart)
      ∧ (∀ c < 16, (u.context c).state.live = false)
      ∧ (∀ c < 16, (s.context c).state.live = true → (u.context c).outcome = some .restart)
      ∧ (∀ f < 8, (u.filing f).state ≠ .free → s.attemptInFlight = true ∧ s.fil.queue.head? = some f)
      ∧ (s.mu.service = .opening → u.mu.recoveryFinding = .restart ∧ u.recovery = Recovery.reset) := by
  obtain ⟨bc, bf, bl, bs, bd⟩ := restartBegun_kept s
  obtain ⟨-, -, -, em, ef, -⟩ := endContexts_spec ((restartBegun s).contextsWhere (·.state.live)) .restart (restartBegun s)
  have er := endContexts_recovery ((restartBegun s).contextsWhere (·.state.live)) .restart (restartBegun s)
  obtain ⟨lc, lf, lm, lr, lo⟩ := restartLibrary_kept (endAllContexts .restart (restartBegun s))
  obtain ⟨fc, fr, fm, fo⟩ := stopFiling_kept (restartLibrary (endAllContexts .restart (restartBegun s)))
  obtain ⟨qc, qf, qm, ql, qr⟩ := restartQueues_kept
    (stopFiling (restartLibrary (endAllContexts .restart (restartBegun s))))
  rw [restartWork_eq]
  intro u
  have hmu : u.mu = (restartBegun s).mu := by rw [qm, fm, lm, ← em]; rfl
  have hrec : u.recovery = (restartBegun s).recovery := by rw [qr, fr, lr, ← er]; rfl
  have hctx (c : Nat) : u.context c = (endAllContexts .restart (restartBegun s)).context c :=
    context_congr (qc.trans (fc.trans lc)) c
  have hfil : (restartLibrary (endAllContexts .restart (restartBegun s))).fil = s.fil := by rw [lf, ← bf, ← ef]; rfl
  refine ⟨?_, ?_, ?_, ?_, ?_, fun i hi => restartQueues_stay hi, fun c hc => ?_, fun c hc hl => ?_, fun f hf hu => ?_,
    fun ho => ?_⟩
  · rw [hmu, bs]
  · rw [hmu, bd]
  · rw [hmu, bl]
  · rw [ql]
    exact fo lo
  · refine restartQueues_drives (P := fun x => x.incoming = [] ∧ x.incomingMarker = false) (fun _ _ h => h) fun x hx => ?_
    obtain ⟨hmark, y, hy, hin⟩ := stopFiling_drives hx
    obtain ⟨z, -, rfl⟩ := List.mem_map.1 hy
    exact ⟨hin, hmark⟩
  · rw [hctx]
    exact (endAllContexts_ends hc).1
  · rw [hctx]
    exact (endAllContexts_ends hc).2 (by rwa [context_congr bc])
  · rw [filing_congr qf] at hu
    have h := stopFiling_filing hf hu
    unfold State.attemptInFlight at h ⊢
    rwa [hfil] at h
  · rw [hmu, hrec]
    exact restartBegun_opening ho

/-- Settles O41, request by request. -/
theorem lateRequestsBegin : Obligations.LateRequestsBegin := by
  intro s r t d h home
  refine ⟨fun ha => ?retry, fun ha => ?picker, fun ha => ?fault, fun ha => ?restart⟩
  case retry =>
    intro able refused
    refine ⟨fun hd => exec_managed rfl h ha (by decide) (answerLater_refused (retryRefusal_value hd)),
      fun hd hn => exec_managed rfl h ha (by decide) (answerLater_refused (retryRefusal_state hd hn)),
      fun hd hn hp => exec_managed rfl h ha (by decide) (answerLater_refused ((retryRefusal_rest hd hn).trans (if_pos hp))),
      fun hd hn hp => exec_managed rfl h ha (by decide)
        ((answerLater_begun ((retryRefusal_rest hd hn).trans (if_neg (by simp [hp])))).trans ?_)⟩
    rw [startProbe_eq]
    rfl
  case picker =>
    exact ⟨fun hp => exec_managed rfl h ha (by decide) (answerLater_refused (if_neg hp)),
      fun hp => exec_managed rfl h ha (by decide) (answerLater_begun (if_pos hp))⟩
  case fault =>
    refine ⟨fun hf => exec_managed rfl h ha (by decide) (answerLater_refused (clearRefusal_noFault hf)),
      fun hf hp => exec_managed rfl h ha (by decide) (answerLater_refused ((clearRefusal_found hf).trans (if_pos hp))),
      fun hf hp => exec_managed rfl h ha (by decide)
        ((answerLater_begun ((clearRefusal_found hf).trans (if_neg hp))).trans ?_)⟩
    rw [clearFaultWork_eq]
    rfl
  case restart =>
    refine ⟨fun hd => exec_managed rfl h ha (by decide) (answerLater_refused (if_pos hd)),
      fun hd => ⟨_, exec_managed rfl h ha (by decide) (answerLater_begun (if_neg hd)), ?_⟩⟩
    exact restartWork_ends (awaitReply .restart r t s)

end Sys2Proof.Machine
end

section
/-! SUPPORT. The passes of an attempt and what their results do (R111, R113 to R117), with their settling. -/

namespace Sys2Proof.Machine

variable {s : State} {f n a e : Nat}

/-- An attempt is in progress for the filing at the front, on the OPEN side, at an extent of its own, and no part stops it
(R111, R124). -/
structure AttemptOn (s : State) (f n a e : Nat) : Prop where
  activity : s.fil.activity = .attempt
  head : s.fil.queue.head? = some f
  open_ : s.openSide = some n
  start : (s.filing f).extentStart = some a
  body : (s.filing f).body = some e
  goesOn : s.stopping = false

/-! ### The passes made due -/

theorem passData_attempt {p : Pass} (ha : AttemptOn s f n a e) (hw : p.op = .write) :
    s.passData p = if p.number = 2 then s.fil.working.take 1 ++ (s.filing f).frames else s.fil.working.drop 1 := by
  simp only [State.passData, hw, ha.activity, ha.head, ne_eq, not_true_eq_false, if_false]

/-- Passes 1 to 3 are on the extent (R111). -/
theorem passDue_extent {k : Nat} {data : List Sector} (ha : AttemptOn s f n a e) (hk : k ≤ 3)
    (hd : s.passData (newPass k a e) = data) : passDue s n (passOp k) k a e data (placePass k s) := by
  refine passDue_placePass (by simp [State.sequenceSide, ha.activity, ha.open_]) ?_ hd
  rw [passPlan_attempt ha.activity ha.head, if_pos hk, ha.start, ha.body]
  rfl

/-- Passes 4 to 6 are on the trailer's sector behind the extent (R111). -/
theorem passDue_trailer {k : Nat} {data : List Sector} (ha : AttemptOn s f n a e) (hk : 3 < k)
    (hd : s.passData (newPass k (a + e) 1) = data) : passDue s n (passOp k) k (a + e) 1 data (placePass k s) := by
  refine passDue_placePass (by simp [State.sequenceSide, ha.activity, ha.open_]) ?_ hd
  rw [passPlan_attempt ha.activity ha.head, if_neg (Nat.not_le.2 hk), ha.start, ha.body]
  rfl

theorem passDue_eraseTrailer (ha : AttemptOn s f n a e) : passDue s n .erase 4 (a + e) 1 [] (placePass 4 s) :=
  passDue_trailer ha (by decide) (passData_of_not_write (by decide : passOp 4 ≠ .write))

theorem passDue_verifyExtent (ha : AttemptOn s f n a e) : passDue s n .verify 3 a e [] (placePass 3 s) :=
  passDue_extent ha (by decide) (passData_of_not_write (by decide : passOp 3 ≠ .write))

theorem passDue_verifyTrailer (ha : AttemptOn s f n a e) : passDue s n .verify 6 (a + e) 1 [] (placePass 6 s) :=
  passDue_trailer ha (by decide) (passData_of_not_write (by decide : passOp 6 ≠ .write))

theorem passDue_writeExtent (ha : AttemptOn s f n a e) :
    passDue s n .write 2 a e (s.fil.working.take 1 ++ (s.filing f).frames) (placePass 2 s) :=
  passDue_extent ha (by decide) (passData_attempt ha (rfl : passOp 2 = .write))

theorem passDue_writeTrailer (ha : AttemptOn s f n a e) :
    passDue s n .write 5 (a + e) 1 (s.fil.working.drop 1) (placePass 5 s) :=
  passDue_trailer ha (by decide) (passData_attempt ha (rfl : passOp 5 = .write))

/-! ### What a result is given to -/

theorem passResult_attempt {p : Pass} (ha : AttemptOn s f n a e) (hp : s.fil.pass = some p) (res : DriveResult) :
    passResult res s = if p.disturbed then placePass p.number s
      else if res = .ok then attemptOk f p s else attemptFailed f s := by
  simp only [passResult, hp, ha.activity, ha.head, ha.goesOn, Bool.false_eq_true, if_false]

/-- A disturbed pass is made due again, whatever its result (R113). -/
theorem passResult_disturbed {p : Pass} (ha : AttemptOn s f n a e) (hp : s.fil.pass = some p) (hd : p.disturbed = true)
    (res : DriveResult) : passResult res s = placePass p.number s := by
  rw [passResult_attempt ha hp, if_pos hd]

theorem passResult_failed {p : Pass} (ha : AttemptOn s f n a e) (hp : s.fil.pass = some p) (hd : p.disturbed = false)
    {res : DriveResult} (hr : res ≠ .ok) : passResult res s = attemptFailed f s := by
  rw [passResult_attempt ha hp, hd, if_neg Bool.false_ne_true, if_neg hr]

theorem passResult_ok {p : Pass} (ha : AttemptOn s f n a e) (hp : s.fil.pass = some p) (hd : p.disturbed = false) :
    passResult .ok s = if p.number = 6 then afterCommit n (commit f n s)
      else if p.number = 3 then placePass 4 (buildTrailer f s) else placePass (p.number + 1) s := by
  rw [passResult_attempt ha hp, hd, if_neg Bool.false_ne_true, if_pos rfl]
  simp only [attemptOk, ha.open_, ha.goesOn, Bool.false_eq_true, if_false]

/-- An OK of a pass other than 3 and 6 makes the pass behind it due. -/
theorem passResult_next {p : Pass} {k : Nat} (ha : AttemptOn s f n a e) (hp : s.fil.pass = some p)
    (hd : p.disturbed = false) (hk : p.number = k) (h3 : k ≠ 3) (h6 : k ≠ 6) : passResult .ok s = placePass (k + 1) s := by
  rw [passResult_ok ha hp hd, hk, if_neg h6, if_neg h3]

/-! ### The trailer is built -/

/-- The state behind pass 3: the trailer stands in a working frame under its tentative number (R111). -/
def trailerBuilt (f i a e : Nat) (s : State) : State :=
  { s with
    fil.records := s.fil.records.modify f fun x => { x with tentative := some i }
    fil.working := s.fil.working ++ [trailerSector i a s.tal.feeDay e] }

theorem buildTrailer_eq {i : Nat} (ha : AttemptOn s f n a e) (hi : s.fil.nNext = some i) :
    buildTrailer f s = trailerBuilt f i a e s := by
  simp only [buildTrailer, ha.start, ha.body, hi, Option.getD_some]
  rfl

theorem AttemptOn.trailerBuilt {i : Nat} (ha : AttemptOn s f n a e) : AttemptOn (trailerBuilt f i a e s) f n a e := by
  have hx : (Machine.trailerBuilt f i a e s).filing f = (s.modFiling f fun x => { x with tentative := some i }).filing f := rfl
  rw [filing_modFiling] at hx
  refine ⟨ha.activity, ha.head, ha.open_, ?_, ?_, ha.goesOn⟩ <;> rw [hx] <;> split
  · exact ha.start
  · exact ha.start
  · exact ha.body
  · exact ha.body

theorem passResult_trailer {p : Pass} {i : Nat} (ha : AttemptOn s f n a e) (hp : s.fil.pass = some p)
    (hd : p.disturbed = false) (hk : p.number = 3) (hi : s.fil.nNext = some i) :
    passResult .ok s = placePass 4 (trailerBuilt f i a e s) := by
  rw [passResult_ok ha hp hd, hk, if_neg (by decide), if_pos rfl, buildTrailer_eq ha hi]

/-! ### The commit -/

theorem trailerDay_trailerSector {i day : Nat} (hd : day < 65536) : trailerDay (trailerSector i a day e) = day := by
  obtain ⟨rest, h⟩ := sealRecord_eq 3 (number 1 3 ++ number 4 i ++ number 4 a ++ number 2 day ++ number 2 e)
  have hday : trailerSector i a day e = number 1 3 ++ number 4 i ++ number 4 a ++ (number 2 day ++ (number 2 e
      ++ (number 4 (checkValue 3 (number 1 3 ++ number 4 i ++ number 4 a ++ number 2 day ++ number 2 e)) ++ rest))) := by
    rw [trailerSector, h]
    simp only [List.append_assoc]
  rw [trailerDay, hday]
  exact fieldAt_middle (by simp) hd

/-- A pending entry is put between those that stand before and behind it (R63). -/
theorem insertPending_split (p : PendingEntry) (l : List PendingEntry) :
    ∃ before behind, l = before ++ behind ∧ insertPending p l = before ++ p :: behind := by
  induction l with
  | nil => exact ⟨[], [], rfl, rfl⟩
  | cons q l ih =>
    unfold insertPending
    split
    · exact ⟨[], q :: l, rfl, rfl⟩
    · obtain ⟨before, behind, hl, hp⟩ := ih
      exact ⟨q :: before, behind, by rw [hl]; rfl, by rw [hp]; rfl⟩

/-- What freeing a filing changes: its record and its place in the queue, beside a call of the arbiter. -/
theorem freeFiling_eq (f : Nat) (s : State) : ∃ todo, freeFiling f s = { s with
    fil.records := s.fil.records.modify f fun _ => Filing.reset, fil.queue := s.fil.queue.filter (· != f), todo := todo } := by
  unfold freeFiling
  dsimp only
  split
  · exact ⟨s.todo, rfl⟩
  · exact ⟨{ s.todo with arbiter := true }, rfl⟩

theorem filter_cons_absent {fs : List Nat} (h : f ∉ fs) : (f :: fs).filter (· != f) = fs := by
  rw [List.filter_cons_of_neg (by simp), List.filter_eq_self]
  exact fun g hg => by simpa using fun hgf : g = f => h (hgf ▸ hg)

/-- The pending entry of a commit on a side (R63, R115). -/
def commitEntry (f n i a e : Nat) (r : SideRecord) (s : State) : PendingEntry :=
  { side := n, k := 64 * r.written + (s.pendingOf n).length, entry := makeEntry i a e (s.filing f).pages.length }

/-- The state of a commit, with its number used, its entry pending and FILED composed, before the filing is freed (R115). -/
def commitFiled (f n i day : Nat) (q : PendingEntry) (s : State) : State :=
  { s with
    rli.control := s.rli.control ++ [{ seq := s.seq, frame :=
      { requester := (s.filing f).requester, tag := (s.filing f).tag, body := .filed i n day } }]
    seq := s.seq + 1
    loc.ranges := s.loc.ranges.map fun y => if y.openFlag then { y with last := i } else y
    loc.entries := insertPending q s.loc.entries
    fil.nNext := some (i + 1) }

theorem commit_eq {r : SideRecord} {i day : Nat} (ha : AttemptOn s f n a e) (hr : s.side n = some r)
    (ht : (s.filing f).tentative = some i) (hi : s.fil.nNext = some i) (hd : day < 65536)
    (hw : s.fil.working.getD 1 [] = trailerSector i a day e) :
    commit f n s = { freeFiling f (commitFiled f n i day (commitEntry f n i a e r s) s) with
      fil.working := [], fil.pass := none } := by
  unfold commit
  rw [hr]
  dsimp only
  rw [ht, ha.start, ha.body, hi, hw, trailerDay_trailerSector hd]
  rfl

/-- The side has one pending entry more behind an entry of its own. -/
theorem pendingOf_insert {t : State} {p : PendingEntry} (h : t.loc.entries = insertPending p s.loc.entries)
    (hp : p.side = n) : (t.pendingOf n).length = (s.pendingOf n).length + 1 := by
  obtain ⟨before, behind, hs, hi⟩ := insertPending_split p s.loc.entries
  unfold State.pendingOf
  rw [h, hi, hs, List.filter_append, List.filter_append, List.filter_cons_of_pos (by simpa using hp)]
  simp only [List.length_append, List.length_cons]
  omega

theorem afterCommit_full {t : State} (h : 64 ≤ (t.pendingOf n).length) (hs : t.stopping = false) :
    afterCommit n t = startFlush .flush n t := if_pos ⟨h, hs⟩

theorem afterCommit_room {t : State} (h : (t.pendingOf n).length < 64) :
    afterCommit n t = (endSequence t).callReadiness := if_neg fun hc => Nat.not_le.2 h hc.1

/-! ### A failed attempt and a lost one -/

/-- The state of an attempt whose extent is spoiled (R114). -/
theorem spoilExtent_eq (ha : AttemptOn s f n a e) : spoilExtent f s =
    { ((s.modSide n fun r => { r with spoiled := r.spoiled + e + 1 }).modFiling f
        fun x => { x with extentStart := none, tentative := none }) with fil.working := [] } := by
  unfold spoilExtent
  rw [ha.open_, ha.body]
  rfl

theorem filing_modFiling_self {t : State} (g : Filing → Filing) (hf : f < t.fil.records.length) :
    (t.modFiling f g).filing f = g (t.filing f) := by
  rw [filing_modFiling, if_pos ⟨rfl, hf⟩]

/-- What a spoiled extent does to the side and to the filing, and what it leaves (R114, R116). -/
theorem spoilExtent_spec {r : SideRecord} (ha : AttemptOn s f n a e) (hr : s.side n = some r)
    (hf : f < s.fil.records.length) :
    let u := spoilExtent f s
    u.side n = some { r with spoiled := r.spoiled + e + 1 }
      ∧ u.filing f = { s.filing f with extentStart := none, tentative := none }
      ∧ u.fil.records.length = s.fil.records.length ∧ u.fil.queue = s.fil.queue ∧ u.rli = s.rli ∧ u.seq = s.seq
      ∧ u.loc = s.loc ∧ u.fil.closeOwed = s.fil.closeOwed ∧ u.todo = s.todo := by
  rw [spoilExtent_eq ha]
  exact ⟨side_modSide_self (fun r => { r with spoiled := r.spoiled + e + 1 }) hr,
    filing_modFiling_self (t := s.modSide n _) _ hf, List.length_modify .., rfl, rfl, rfl, rfl, rfl, rfl⟩

/-- The state of an attempt that has failed counted: its extent spoiled, its failures one more (R114). -/
def attemptSpoiled (f : Nat) (s : State) : State := (spoilExtent f s).modFiling f fun x => { x with attempts := x.attempts + 1 }

theorem attemptSpoiled_spec {r : SideRecord} (ha : AttemptOn s f n a e) (hr : s.side n = some r)
    (hf : f < s.fil.records.length) :
    let u := attemptSpoiled f s
    u.side n = some { r with spoiled := r.spoiled + e + 1 }
      ∧ u.filing f = { s.filing f with attempts := (s.filing f).attempts + 1, extentStart := none, tentative := none }
      ∧ u.fil.queue = s.fil.queue ∧ u.rli = s.rli ∧ u.seq = s.seq ∧ u.loc = s.loc
      ∧ u.fil.closeOwed = s.fil.closeOwed ∧ u.todo = s.todo := by
  obtain ⟨hside, hfil, hlen, hq, hrli, hseq, hloc, hclose, htodo⟩ := spoilExtent_spec ha hr hf
  exact ⟨hside, by rw [attemptSpoiled, filing_modFiling_self _ (hlen ▸ hf), hfil], hq, hrli, hseq, hloc, hclose, htodo⟩

/-- The third failure: FILE-FAILED, the filing freed and a close to SUSPECT owed (R115, R117). -/
def attemptsSpent (f : Nat) (t : State) : State :=
  leaveSequence { freeFiling f (fileFailed f .writeFailed t) with fil.closeOwed := some .suspect }

theorem attemptFailed_again (h : ((attemptSpoiled f s).filing f).attempts < 3) :
    attemptFailed f s = (leaveSequence (attemptSpoiled f s)).callReadiness := if_neg (Nat.not_le.2 h)

theorem attemptFailed_last (h : 3 ≤ ((attemptSpoiled f s).filing f).attempts) : attemptFailed f s =
    (if (attemptsSpent f (attemptSpoiled f s)).flushOwed then attemptsSpent f (attemptSpoiled f s)
      else (attemptsSpent f (attemptSpoiled f s)).callArbiter).callReadiness := if_pos h

theorem attemptsSpent_spec (f : Nat) (t : State) :
    let u := attemptsSpent f t
    let x := t.filing f
    u.lib = t.lib ∧ u.loc = t.loc ∧ u.fil.activity = .idle ∧ u.fil.pass = none ∧ u.fil.working = []
      ∧ u.filing f = Filing.reset ∧ u.fil.queue = t.fil.queue.filter (· != f) ∧ u.fil.closeOwed = some .suspect
      ∧ u.rli.control = t.rli.control ++ [{ seq := t.seq, frame :=
          { requester := x.requester, tag := x.tag, body := .fileFailed .writeFailed t.openSide 3 } }] := by
  have hx : (attemptsSpent f t).filing f = (freeFiling f (fileFailed f .writeFailed t)).filing f := rfl
  rw [freeFiling_filing, if_pos rfl] at hx
  obtain ⟨todo, e⟩ := freeFiling_eq f (fileFailed f .writeFailed t)
  dsimp only
  rw [hx]
  unfold attemptsSpent
  rw [e]
  exact ⟨rfl, rfl, rfl, rfl, rfl, rfl, rfl, rfl, rfl⟩

/-- No flush is owed for a side without pending entries. -/
theorem flushOwed_empty {t : State} (ho : t.openSide = some n) (hp : t.pendingOf n = []) : t.flushOwed = false := by
  simp [State.flushOwed, ho, hp]

/-- A state that may call the arbiter and calls for the readiness test, in each of its parts. -/
theorem called_spec (b : Bool) (t : State) :
    let u := (if b then t else t.callArbiter).callReadiness
    u.lib = t.lib ∧ u.fil = t.fil ∧ u.rli = t.rli ∧ u.todo.readiness = true ∧ (b = false → u.todo.arbiter = true) := by
  cases b
  · exact ⟨rfl, rfl, rfl, rfl, fun _ => rfl⟩
  · exact ⟨rfl, rfl, rfl, rfl, fun h => nomatch h⟩

theorem filingLost_going (ha : AttemptOn s f n a e) : filingLost s =
    setHalt .driveFault ((endSequence (spoilExtent f s)).modFiling f fun x => { x with state := .queued }) := by
  simp only [filingLost, ha.activity, ha.head, ha.goesOn, Bool.false_eq_true, if_false]

theorem setHalt_queue (h : Halt) (s : State) : (setHalt h s).fil.queue = s.fil.queue := by
  rw [setHalt_fil]
  split <;> rfl

theorem setHalt_filing (h : Halt) (s : State) (f : Nat) : (setHalt h s).filing f = s.filing f := by
  unfold State.filing
  rw [setHalt_fil]
  split <;> rfl

theorem side_congr {t : State} (h : t.lib.sides = s.lib.sides) (n : Nat) : t.side n = s.side n := by
  unfold State.side
  rw [h]

/-- The side of an attempt is lost (R116): its extent is spoiled, it does not count, and DRIVE-FAULT halts. -/
theorem filingLost_spec {r : SideRecord} (ha : AttemptOn s f n a e) (hr : s.side n = some r)
    (hf : f < s.fil.records.length) :
    let u := filingLost s
    u.side n = some { r with spoiled := r.spoiled + e + 1 }
      ∧ (u.fil.activity = .idle ∧ u.fil.pass = none ∧ u.fil.working = [])
      ∧ u.filing f = { s.filing f with state := .queued, extentStart := none, tentative := none }
      ∧ u.fil.queue = s.fil.queue ∧ u.fil.halt = some .driveFault := by
  obtain ⟨hside, hfil, hlen, hq, -⟩ := spoilExtent_spec ha hr hf
  have hmod : ((endSequence (spoilExtent f s)).modFiling f fun x => { x with state := .queued }).filing f
      = { s.filing f with state := .queued, extentStart := none, tentative := none } := by
    rw [filing_modFiling_self (t := endSequence (spoilExtent f s)) _ (hlen ▸ hf)]
    exact congrArg (fun x : Filing => { x with state := .queued }) hfil
  rw [filingLost_going ha]
  refine ⟨(side_congr (setHalt_sides ..) n).trans hside, ⟨setHalt_idle rfl, ?_, ?_⟩, (setHalt_filing ..).trans hmod,
    (setHalt_queue ..).trans hq, setHalt_halt ..⟩
  · rw [setHalt_pass]
    rfl
  · rw [setHalt_working]
    rfl

/-- A commit, in each part of the state it changes (R115). -/
theorem commit_spec {fs : List Nat} {r : SideRecord} {i day : Nat} (ha : AttemptOn s f n a e) (hq : s.fil.queue = f :: fs)
    (hnot : f ∉ fs) (hr : s.side n = some r) (ht : (s.filing f).tentative = some i) (hi : s.fil.nNext = some i)
    (hd : day < 65536) (hw : s.fil.working.getD 1 [] = trailerSector i a day e) :
    let c := commit f n s
    c.fil.nNext = some (i + 1)
      ∧ c.loc.ranges = s.loc.ranges.map (fun y => if y.openFlag then { y with last := i } else y)
      ∧ c.loc.entries = insertPending (commitEntry f n i a e r s) s.loc.entries
      ∧ c.rli.control = s.rli.control ++ [{ seq := s.seq, frame :=
          { requester := (s.filing f).requester, tag := (s.filing f).tag, body := .filed i n day } }]
      ∧ c.filing f = Filing.reset ∧ c.fil.queue = fs ∧ c.fil.working = [] ∧ c.lib.sides = s.lib.sides
      ∧ c.stopping = s.stopping := by
  have hc := commit_eq ha hr ht hi hd hw
  have hx : (commit f n s).filing f = (freeFiling f (commitFiled f n i day (commitEntry f n i a e r s) s)).filing f := by
    rw [hc]
    rfl
  rw [freeFiling_filing, if_pos rfl] at hx
  obtain ⟨todo, he⟩ := freeFiling_eq f (commitFiled f n i day (commitEntry f n i a e r s) s)
  have hqueue : (commitFiled f n i day (commitEntry f n i a e r s) s).fil.queue.filter (· != f) = fs := by
    rw [show (commitFiled f n i day (commitEntry f n i a e r s) s).fil.queue = f :: fs from hq]
    exact filter_cons_absent hnot
  dsimp only
  rw [hx, hc, he, hqueue]
  exact ⟨rfl, rfl, rfl, rfl, rfl, rfl, rfl, rfl, rfl⟩

/-- A counted failure: the first two leave the filing where it is, the third ends it and owes a close (R114, R115, R117). -/
theorem attemptFailed_spec {fs : List Nat} {r : SideRecord} (ha : AttemptOn s f n a e) (hq : s.fil.queue = f :: fs)
    (hnot : f ∉ fs) (hr : s.side n = some r) (hf : f < s.fil.records.length) :
    let x := s.filing f
    let u := attemptFailed f s
    u.side n = some { r with spoiled := r.spoiled + e + 1 }
      ∧ (u.fil.activity = .idle ∧ u.fil.pass = none ∧ u.fil.working = []) ∧ u.todo.readiness = true
      ∧ (x.attempts ≤ 1 → u.filing f = { x with attempts := x.attempts + 1, extentStart := none, tentative := none }
        ∧ u.fil.queue = s.fil.queue ∧ u.rli.control = s.rli.control ∧ u.fil.closeOwed = s.fil.closeOwed
        ∧ u.todo.arbiter = s.todo.arbiter)
      ∧ (2 ≤ x.attempts → u.filing f = Filing.reset ∧ u.fil.queue = fs
        ∧ u.fil.closeOwed = some .suspect ∧ (s.pendingOf n = [] → u.todo.arbiter = true)
        ∧ u.rli.control = s.rli.control ++ [{ seq := s.seq, frame :=
            { requester := x.requester, tag := x.tag, body := .fileFailed .writeFailed (some n) 3 } }]) := by
  obtain ⟨hside, hfil, hqueue, hrli, hseq, hloc, hclose, htodo⟩ := attemptSpoiled_spec ha hr hf
  have hcount : ((attemptSpoiled f s).filing f).attempts = (s.filing f).attempts + 1 := by rw [hfil]
  dsimp only
  by_cases h : (s.filing f).attempts ≤ 1
  · rw [attemptFailed_again (by omega)]
    refine ⟨hside, ⟨rfl, rfl, rfl⟩, rfl, fun _ => ⟨hfil, hqueue, ?_, hclose, ?_⟩, fun h2 => by omega⟩
    · exact congrArg (·.control) hrli
    · exact congrArg (·.arbiter) htodo
  · obtain ⟨hlib, hloc', hact, hpass, hwork, hreset, hleft, howed, hcontrol⟩ := attemptsSpent_spec f (attemptSpoiled f s)
    have hopen : (attemptSpoiled f s).openSide = some n := by
      rw [← ha.open_, State.openSide, State.openRange, hloc]
      rfl
    rw [attemptFailed_last (by omega)]
    obtain ⟨clib, cfil, crli, cready, carb⟩ := called_spec (attemptsSpent f (attemptSpoiled f s)).flushOwed
      (attemptsSpent f (attemptSpoiled f s))
    rw [crli, cfil, cready, hact, hpass, hwork, hleft, howed, hcontrol, hqueue, hq, filter_cons_absent hnot, hopen, hrli,
      hseq, hfil]
    refine ⟨?_, ⟨rfl, rfl, rfl⟩, rfl, fun h1 => absurd h1 h, fun _ => ⟨?_, rfl, rfl, fun hnone => carb ?_, rfl⟩⟩
    · exact (side_congr (congrArg (·.sides) (clib.trans hlib)) n).trans hside
    · exact (filing_congr cfil f).trans hreset
    · refine flushOwed_empty (n := n) ?_ ?_
      · rw [← hopen, State.openSide, State.openRange, hloc']
        rfl
      · rw [← hnone, State.pendingOf, hloc', hloc]
        rfl

/-- Settles O26: each pass made due by its number, the commit of pass 6 with the flush or the end behind it, and what a
failure and a lost drive do. -/
theorem attemptPassesDo : Obligations.AttemptPassesDo := by
  unfold Obligations.AttemptPassesDo
  intro s f n fs p r a e hact hq hnot hp ho hr hf hstart hbody hstop x staged spoiled left
  have ha : AttemptOn s f n a e := ⟨hact, by rw [hq]; rfl, ho, hstart, hbody, hstop⟩
  refine ⟨fun hd res => ⟨fun hk => ?_, fun hk => ?_⟩, fun hd => ⟨fun hk => ?_, fun hk => ?_, fun i hk hi => ?_, fun hk => ?_,
    fun hk => ?_, fun i day hk ht hi hday hw => ?_, fun res hres => ?_⟩, filingLost_spec ha hr hf⟩
  · rw [passResult_disturbed ha hp hd, hk]
    exact passDue_verifyExtent ha
  · rw [passResult_disturbed ha hp hd, hk]
    exact passDue_verifyTrailer ha
  · rw [passResult_next ha hp hd hk (by decide) (by decide)]
    exact passDue_writeExtent ha
  · rw [passResult_next ha hp hd hk (by decide) (by decide)]
    exact passDue_verifyExtent ha
  · rw [passResult_trailer ha hp hd hk hi]
    exact passDue_eraseTrailer ha.trailerBuilt
  · rw [passResult_next ha hp hd hk (by decide) (by decide)]
    exact passDue_writeTrailer ha
  · rw [passResult_next ha hp hd hk (by decide) (by decide)]
    exact passDue_verifyTrailer ha
  · obtain ⟨hnext, hranges, hent, hcontrol, hreset, hqueue, hwork, hsides, hstopping⟩ :=
      commit_spec ha hq hnot hr ht hi hday hw
    obtain ⟨before, behind, hs, hput⟩ := insertPending_split (commitEntry f n i a e r s) s.loc.entries
    have hlen := pendingOf_insert (t := commit f n s) (n := n) hent rfl
    have hres : passResult .ok s = afterCommit n (commit f n s) := by rw [passResult_ok ha hp hd, if_pos hk]
    refine ⟨hnext, hranges, ⟨before, behind, _, hs, hent.trans hput, rfl, rfl, rfl, rfl, rfl, rfl, rfl, makeEntry_valid ..⟩,
      hcontrol, hreset, hqueue, hwork, hsides, fun hfull => ?_, fun hroom => ?_⟩
    · rw [hres, afterCommit_full (by omega) (hstopping.trans hstop)]
    · rw [hres, afterCommit_room (by omega)]
      exact ⟨⟨rfl, rfl, rfl⟩, rfl⟩
  · rw [passResult_failed ha hp hd hres]
    exact attemptFailed_spec ha hq hnot hr hf

end Sys2Proof.Machine
end

section
/-! SUPPORT. The choices of the dispatcher (R32), of the picker arbiter (R49) and of the outbound arbiter (R155 to R157, R166),
with their settling. -/

namespace Sys2Proof.Machine

variable {s t : State}

/-! ### First entries -/

/-- The first entry that meets a condition stands behind entries that do not. -/
theorem find_append {α : Type} {p : α → Bool} {before behind : List α} {a : α} (hb : ∀ y ∈ before, p y = false)
    (ha : p a = true) : (before ++ a :: behind).find? p = some a := by
  rw [List.find?_append, List.find?_eq_none.2 (by simpa using hb), Option.none_or, List.find?_cons_of_pos ha]

/-- A relation that is total and transitive has a first entry in every list that holds one. -/
theorem exists_first {α : Type} {r : α → α → Prop} (ht : ∀ a b, r a b ∨ r b a) (htr : ∀ a b c, r a b → r b c → r a c) :
    ∀ l : List α, l ≠ [] → ∃ a ∈ l, ∀ b ∈ l, r a b
  | [], h => absurd rfl h
  | [a], _ => ⟨a, List.mem_singleton.2 rfl, fun b hb => by
      rw [List.mem_singleton.1 hb]
      exact (ht a a).elim id id⟩
  | a :: b :: l, _ => by
    obtain ⟨c, hc, hmin⟩ := exists_first ht htr (b :: l) (List.cons_ne_nil _ _)
    have hrefl : r a a := (ht a a).elim id id
    rcases ht a c with h | h
    · refine ⟨a, List.mem_cons_self, fun y hy => ?_⟩
      rcases List.mem_cons.1 hy with rfl | hy
      · exact hrefl
      · exact htr _ _ _ h (hmin y hy)
    · refine ⟨c, List.mem_cons_of_mem _ hc, fun y hy => ?_⟩
      rcases List.mem_cons.1 hy with rfl | hy
      · exact h
      · exact hmin y hy

/-! ### The dispatcher -/

theorem pick_owed {x : Drive} {e : QueueEntry} (b : Bool) (h : x.owed = some e) : x.pick b = some e := by
  simp [Drive.pick, h]

theorem pick_library {x : Drive} {e : QueueEntry} {before behind : List QueueEntry} (b : Bool) (ho : x.owed = none)
    (hq : x.queue = before ++ e :: behind) (he : e.ofLibrary = true) (hb : ∀ y ∈ before, y.ofLibrary = false) :
    x.pick b = some e := by
  simp [Drive.pick, ho, hq, find_append hb he]

theorem bestEntry_append {before behind : List QueueEntry} {e : QueueEntry} (hb : ∀ y ∈ before, y.priority < e.priority)
    (hr : ∀ y ∈ behind, y.priority ≤ e.priority) : bestEntry (before ++ e :: behind) = some e := by
  refine find_append (fun y hy => ?_) ?_
  · rw [List.all_eq_false]
    exact ⟨e, by simp, by simpa using hb y hy⟩
  · rw [List.all_eq_true]
    intro y hy
    rcases List.mem_append.1 hy with hy | hy
    · simpa using (hb y hy).le
    · rcases List.mem_cons.1 hy with rfl | hy
      · simp
      · simpa using hr y hy

theorem pick_best {x : Drive} {e : QueueEntry} {before behind : List QueueEntry} (ho : x.owed = none)
    (hq : x.queue = before ++ e :: behind) (hl : ∀ y ∈ x.queue, y.ofLibrary = false)
    (hb : ∀ y ∈ before, y.priority < e.priority) (hr : ∀ y ∈ behind, y.priority ≤ e.priority) : x.pick false = some e := by
  have hn : x.queue.find? QueueEntry.ofLibrary = none := List.find?_eq_none.2 (by simpa using hl)
  simp only [Drive.pick, ho, hn, Bool.false_eq_true, if_false]
  rw [hq, bestEntry_append hb hr]

/-! ### The picker arbiter -/

theorem ahead_iff {o p : Order} : s.ahead o p = true ↔ p.priority < o.priority ∨ (p.priority = o.priority
    ∧ (o.age < p.age ∨ (o.age = p.age ∧ s.orderSide o ≤ s.orderSide p))) := by
  simp [State.ahead, @eq_comm _ o.priority]

theorem ahead_total (o p : Order) : s.ahead o p = true ∨ s.ahead p o = true := by
  rw [ahead_iff, ahead_iff]
  omega

theorem ahead_trans (o p q : Order) (h : s.ahead o p = true) (g : s.ahead p q = true) : s.ahead o q = true := by
  rw [ahead_iff] at *
  omega

theorem arbiterChoice_some {o : Order} (h : s.arbiterChoice = some o) : o ∈ s.lib.orders ∧ (s.target o).isSome = true
    ∧ ∀ p ∈ s.lib.orders, (s.target p).isSome = true → s.ahead o p = true := by
  unfold State.arbiterChoice at h
  obtain ⟨hm, ht⟩ := List.mem_filter.1 (List.mem_of_find?_eq_some h)
  have hall := List.find?_some h
  rw [List.all_eq_true] at hall
  exact ⟨hm, ht, fun p hp hpt => hall p (List.mem_filter.2 ⟨hp, hpt⟩)⟩

/-- Without a choice no order is eligible: among eligible ones there is a first. -/
theorem arbiterChoice_none (h : s.arbiterChoice = none) : ∀ p ∈ s.lib.orders, s.target p = none := by
  intro p hp
  by_contra hn
  have hpt : p ∈ s.lib.orders.filter fun o => (s.target o).isSome :=
    List.mem_filter.2 ⟨hp, Option.isSome_iff_ne_none.2 hn⟩
  obtain ⟨o, ho, hmin⟩ := exists_first (r := fun o p => s.ahead o p = true) ahead_total ahead_trans _ (List.ne_nil_of_mem hpt)
  exact List.find?_eq_none.1 h o ho (List.all_eq_true.2 hmin)

/-! ### What a hand-over leaves -/

theorem post_sending (n q : Nat) (s : State) : (post n q s).rli.transmitter = s.rli.transmitter
    ∧ (post n q s).rli.lastServed = s.rli.lastServed := by
  have hr (d : NoticeDetails) (v : State) : (raise_ d v).rli.transmitter = v.rli.transmitter
      ∧ (raise_ d v).rli.lastServed = v.rli.lastServed := by
    unfold raise_
    split_ifs <;> exact ⟨rfl, rfl⟩
  unfold post
  split
  · exact ⟨rfl, rfl⟩
  · dsimp only
    split
    · exact ⟨rfl, rfl⟩
    · exact hr _ _

theorem settleCharge_sending (x : Context) (o : Ending) (s : State) :
    (settleCharge x o s).rli.transmitter = s.rli.transmitter ∧ (settleCharge x o s).rli.lastServed = s.rli.lastServed := by
  unfold settleCharge compose
  dsimp only
  rw [rel_rli]
  split
  · exact post_sending _ _ _
  · exact ⟨rfl, rfl⟩

/-- The ending of a context leaves the frame being sent (R97). -/
theorem endContext_sending (c : Nat) (o : Ending) (s : State) :
    (endContext c o s).rli.transmitter = s.rli.transmitter ∧ (endContext c o s).rli.lastServed = s.rli.lastServed := by
  unfold endContext
  split
  · have h (v : State) : (leaveOrders c v).rli = v.rli := reprioritise_rli _
    obtain ⟨h1, h2⟩ := settleCharge_sending (s.context c) o
      ((leaveOrders c (detach c (dropReads c (s.modContext c (Context.close o))))).modContext c Context.discard)
    rw [h1, h2, modContext_rli, h]
    exact ⟨rfl, rfl⟩
  · exact ⟨rfl, rfl⟩

theorem completePage_sending (c : Nat) (s : State) :
    (completePage c s).rli.transmitter = s.rli.transmitter ∧ (completePage c s).rli.lastServed = s.rli.lastServed := by
  unfold completePage
  extract_lets x s1 s2
  have h2 : s2.rli = s.rli := by
    simp only [s2]
    split <;> rfl
  rw [← h2]
  split
  · exact endContext_sending _ _ _
  · exact ⟨rfl, rfl⟩

theorem handRun_sending (c : Nat) (s : State) : (handRun c s).rli.transmitter
    = some { requester := (s.context c).requester, tag := (s.context c).tag, body := (s.context c).runBody }
      ∧ (handRun c s).rli.lastServed = c := by
  unfold handRun
  extract_lets x rli s1 s2
  split
  · exact completePage_sending c s2
  · exact ⟨rfl, rfl⟩

theorem handControl_rli (f : ControlFrame) (s : State) : (handControl f s).rli.transmitter = some f.frame
    ∧ (handControl f s).rli.control = s.rli.control.drop 1 := by
  have h (r t : Nat) (v : State) : (markDone r t v).rli = v.rli := by
    unfold markDone
    split <;> rfl
  unfold handControl
  dsimp only
  split
  · rw [h]
    exact ⟨rfl, rfl⟩
  · exact ⟨rfl, rfl⟩

/-! ### The outbound arbiter -/

theorem choice_sending (h : s.rli.transmitter.isSome = true ∨ s.rli.link = .down) : s.choice = none := if_pos h

theorem transmit_control {f : ControlFrame} (h : s.choice = some (.control f)) : transmit s = handControl f s := by
  simp [transmit, h]

theorem transmit_notice {n : Notice} (h : s.choice = some (.notice n)) : transmit s = handNotice n s := by
  simp [transmit, h]

theorem transmit_run {c : Nat} (h : s.choice = some (.run c)) : transmit s = handRun c s := by
  simp [transmit, h]

/-- A hand-over leaves no choice to be made: a frame is being sent (R155). -/
theorem transmit_choice (s : State) : (transmit s).choice = none := by
  cases h : s.choice with
  | none =>
    have e : transmit s = s := by simp [transmit, h]
    rw [e, h]
  | some x =>
    refine choice_sending (.inl ?_)
    cases x with
    | control f => rw [transmit_control h, (handControl_rli f s).1]; rfl
    | notice n => rw [transmit_notice h]; rfl
    | run c => rw [transmit_run h, (handRun_sending c s).1]; rfl

theorem consequences_choice (s : State) : (consequences s).choice = none := by
  unfold consequences
  extract_lets s1 s2 s3 s4
  exact transmit_choice _

theorem settle_choice (s : State) : (settle s).choice = none := by
  unfold settle
  exact consequences_choice _

theorem publish_choice (s : State) : (publish s).choice = none := by
  unfold publish
  split
  · exact settle_choice s
  · exact transmit_choice s

/-- The notice raised first (R166). -/
theorem oldestNotice_some {n : Notice} (h : s.oldestNotice = some n) :
    n ∈ s.rli.notices ∧ ∀ m ∈ s.rli.notices, n.seq ≤ m.seq := by
  refine ⟨List.mem_of_find?_eq_some h, ?_⟩
  simpa using List.find?_some h

theorem oldestNotice_none (h : s.oldestNotice = none) : s.rli.notices = [] := by
  by_contra hn
  obtain ⟨n, hm, hmin⟩ := exists_first (r := fun n m : Notice => n.seq ≤ m.seq) (fun _ _ => le_total _ _)
    (fun _ _ _ => le_trans) _ hn
  exact List.find?_eq_none.1 h n hm (by simpa using hmin)

/-- What the outbound arbiter chooses while it may choose (R157). -/
theorem choice_idle (ht : s.rli.transmitter = none) (hl : s.rli.link = .up) :
    (∀ f n, s.rli.control.head? = some f → s.oldestNotice = some n →
        s.choice = if f.seq ≤ n.seq then some (.control f) else some (.notice n))
      ∧ (∀ f, s.rli.control.head? = some f → s.oldestNotice = none → s.choice = some (.control f))
      ∧ (∀ n, s.rli.control.head? = none → s.oldestNotice = some n → s.choice = some (.notice n))
      ∧ (s.rli.control.head? = none → s.oldestNotice = none → s.choice = s.chosenRun.map .run) := by
  have hno : ¬(s.rli.transmitter.isSome = true ∨ s.rli.link = .down) := by simp [ht, hl]
  unfold State.choice
  rw [if_neg hno]
  refine ⟨fun f n hf hn => ?_, fun f hf hn => ?_, fun n hf hn => ?_, fun hf hn => ?_⟩ <;> rw [hf, hn]

/-- Where a choice is made, the transmitter is free and the link UP. -/
theorem choice_some {x : Choice} (h : s.choice = some x) : s.rli.transmitter = none ∧ s.rli.link = .up := by
  by_contra hn
  have hs : s.rli.transmitter.isSome = true ∨ s.rli.link = .down := by
    by_contra hc
    refine hn ⟨?_, ?_⟩
    · simpa using fun h => hc (.inl h)
    · cases hl : s.rli.link with
      | up => rfl
      | down => exact absurd (.inr hl) hc
  rw [choice_sending hs] at h
  cases h

/-- What a choice says of the control list and the notices. -/
theorem choice_cases {x : Choice} (h : s.choice = some x) :
    (∃ f, x = .control f ∧ s.rli.control.head? = some f ∧ ∀ n ∈ s.rli.notices, f.seq ≤ n.seq)
      ∨ (∃ n, x = .notice n ∧ n ∈ s.rli.notices ∧ (∀ m ∈ s.rli.notices, n.seq ≤ m.seq)
        ∧ ∀ f, s.rli.control.head? = some f → n.seq < f.seq)
      ∨ ∃ c, x = .run c ∧ s.rli.control = [] ∧ s.rli.notices = [] ∧ s.chosenRun = some c := by
  obtain ⟨ht, hl⟩ := choice_some h
  obtain ⟨h1, h2, h3, h4⟩ := choice_idle ht hl
  cases hf : s.rli.control.head? with
  | some f =>
    cases hn : s.oldestNotice with
    | some n =>
      obtain ⟨hm, hmin⟩ := oldestNotice_some hn
      rw [h1 f n hf hn] at h
      split at h
      · next hle =>
        exact .inl ⟨f, (Option.some.inj h).symm, rfl, fun m hm' => hle.trans (hmin m hm')⟩
      · next hlt =>
        refine .inr (.inl ⟨n, (Option.some.inj h).symm, hm, hmin, fun g hg => ?_⟩)
        rw [← Option.some.inj hg]
        exact Nat.lt_of_not_le hlt
    | none =>
      rw [h2 f hf hn] at h
      exact .inl ⟨f, (Option.some.inj h).symm, rfl, by simp [oldestNotice_none hn]⟩
  | none =>
    cases hn : s.oldestNotice with
    | some n =>
      obtain ⟨hm, hmin⟩ := oldestNotice_some hn
      rw [h3 n hf hn] at h
      exact .inr (.inl ⟨n, (Option.some.inj h).symm, hm, hmin, fun _ hg => nomatch hg⟩)
    | none =>
      rw [h4 hf hn] at h
      obtain ⟨c, hc, hx⟩ := Option.map_eq_some_iff.1 h
      exact .inr (.inr ⟨c, hx.symm, List.head?_eq_none_iff.1 hf, oldestNotice_none hn, hc⟩)

/-! ### The candidates in cyclic order -/

theorem foldl_max_spec (l : List Nat) (a : Nat) : a ≤ l.foldl max a ∧ (∀ b ∈ l, b ≤ l.foldl max a)
    ∧ (l.foldl max a = a ∨ l.foldl max a ∈ l) := by
  induction l generalizing a with
  | nil => simp
  | cons b l ih =>
    obtain ⟨hle, hall, hat⟩ := ih (max a b)
    rw [List.foldl_cons, List.forall_mem_cons, List.mem_cons]
    refine ⟨(le_max_left a b).trans hle, ⟨(le_max_right a b).trans hle, hall⟩, ?_⟩
    rcases hat with h | h
    · rw [h]
      exact (max_choice a b).imp_right .inl
    · exact .inr (.inr h)

theorem le_greatest {l : List Nat} {b : Nat} (h : b ∈ l) : b ≤ greatest l := (foldl_max_spec l 0).2.1 b h

theorem greatest_mem {l : List Nat} (h : l ≠ []) : greatest l ∈ l := by
  obtain ⟨-, hall, hat⟩ := foldl_max_spec l 0
  rcases hat with hz | hm
  · obtain ⟨b, l', rfl⟩ := List.exists_cons_of_ne_nil h
    have hb : b ≤ 0 := hz ▸ hall b List.mem_cons_self
    have e : greatest (b :: l') = b := hz.trans (Nat.le_zero.1 hb).symm
    rw [e]
    exact List.mem_cons_self
  · exact hm

/-- The places in cyclic order behind the context last served (R157). -/
def servingPlace (last c : Nat) : Nat := (c + 15 - last) % 16

theorem mem_candidates (hs : s.rli.lastServed ≤ 15) {c : Nat} :
    c ∈ s.candidates ↔ c < 16 ∧ (s.context c).candidate = true := by
  unfold State.candidates
  rw [List.mem_filter, List.mem_map, and_congr_left_iff]
  refine fun _ => ⟨?_, fun hc => ⟨servingPlace s.rli.lastServed c, ?_, ?_⟩⟩
  · rintro ⟨i, -, rfl⟩
    omega
  · exact List.mem_range.2 (Nat.mod_lt _ (by omega))
  · unfold servingPlace
    omega

theorem candidates_pairwise (hs : s.rli.lastServed ≤ 15) :
    s.candidates.Pairwise fun c i => servingPlace s.rli.lastServed c < servingPlace s.rli.lastServed i := by
  have hplace : ∀ i < 16, servingPlace s.rli.lastServed ((s.rli.lastServed + 1 + i) % 16) = i := by
    intro i hi
    unfold servingPlace
    omega
  unfold State.candidates
  refine List.Pairwise.filter _ (List.pairwise_map.2 (List.pairwise_lt_range.imp_of_mem fun hc hi h => ?_))
  rwa [hplace _ (List.mem_range.1 hc), hplace _ (List.mem_range.1 hi)]

theorem chosenRun_some (hs : s.rli.lastServed ≤ 15) {c : Nat} (h : s.chosenRun = some c) :
    c < 16 ∧ (s.context c).candidate = true ∧ ∀ i < 16, (s.context i).candidate = true →
      (s.context i).priority < (s.context c).priority ∨ ((s.context i).priority = (s.context c).priority
        ∧ servingPlace s.rli.lastServed c ≤ servingPlace s.rli.lastServed i) := by
  obtain ⟨htop, before, behind, hl, hb⟩ := List.find?_eq_some_iff_append.1 h
  simp only [beq_iff_eq, Bool.not_eq_true', beq_eq_false_iff_ne] at htop hb
  obtain ⟨hc, hcand⟩ := (mem_candidates hs).1 (hl ▸ (by simp : c ∈ before ++ c :: behind))
  refine ⟨hc, hcand, fun i hi hic => ?_⟩
  have him : i ∈ s.candidates := (mem_candidates hs).2 ⟨hi, hic⟩
  have hle : (s.context i).priority ≤ (s.context c).priority := by
    rw [htop]
    exact le_greatest (List.mem_map.2 ⟨i, him, rfl⟩)
  rcases hle.lt_or_eq with hlt | heq
  · exact .inl hlt
  · refine .inr ⟨heq, ?_⟩
    have hp := candidates_pairwise hs
    rw [hl] at him hp
    rcases List.mem_append.1 him with hm | hm
    · exact absurd (heq.trans htop) (hb i hm)
    · rcases List.mem_cons.1 hm with rfl | hm
      · exact le_rfl
      · exact ((List.pairwise_cons.1 (List.pairwise_append.1 hp).2.1).1 i hm).le

theorem chosenRun_ne_none (hs : s.rli.lastServed ≤ 15) {c : Nat} (hc : c < 16) (h : (s.context c).candidate = true) :
    s.chosenRun ≠ none := by
  have hm : c ∈ s.candidates := (mem_candidates hs).2 ⟨hc, h⟩
  obtain ⟨d, hd, htop⟩ := List.mem_map.1 (greatest_mem (l := s.candidates.map fun c => (s.context c).priority)
    (List.ne_nil_of_mem (List.mem_map.2 ⟨c, hm, rfl⟩)))
  exact fun hn => List.find?_eq_none.1 hn d hd (beq_iff_eq.2 htop)

/-- While the arbiter may choose, it chooses whenever something is there (R156, R157). -/
theorem choice_ne_none (hs : s.rli.lastServed ≤ 15) (ht : s.rli.transmitter = none) (hl : s.rli.link = .up)
    (h : s.rli.control ≠ [] ∨ s.rli.notices ≠ [] ∨ ∃ c < 16, (s.context c).candidate = true) : s.choice ≠ none := by
  obtain ⟨h1, h2, h3, h4⟩ := choice_idle ht hl
  cases hf : s.rli.control.head? with
  | some f =>
    cases hn : s.oldestNotice with
    | some n =>
      rw [h1 f n hf hn]
      split_ifs <;> exact Option.some_ne_none _
    | none =>
      rw [h2 f hf hn]
      exact Option.some_ne_none _
  | none =>
    cases hn : s.oldestNotice with
    | some n =>
      rw [h3 n hf hn]
      exact Option.some_ne_none _
    | none =>
      rw [h4 hf hn, Ne, Option.map_eq_none_iff]
      rcases h with h | h | ⟨c, hc, hcand⟩
      · exact absurd (List.head?_eq_none_iff.1 hf) h
      · exact absurd (oldestNotice_none hn) h
      · exact chosenRun_ne_none hs hc hcand

/-- Settles O60: each arbiter by the lemma that says what its choice is, and the hand-over of what is chosen. -/
theorem choicesMade : Obligations.ChoicesMade := by
  unfold Obligations.ChoicesMade
  refine ⟨fun x => ⟨fun e => pick_owed false, fun ho before e behind hq => ⟨pick_library false ho hq, pick_best ho hq⟩⟩,
    fun s => ⟨fun o ho => ?_, arbiterChoice_none⟩, fun s => ⟨settle_choice s, publish_choice s⟩,
    fun s hs => ⟨fun h => ⟨choice_sending h, publish_sending h⟩, choice_ne_none hs, fun f h => ?_, fun n m h hm => ?_,
      fun c h => ?_, fun f h => ?_, fun n h => ?_, fun c h => ?_⟩⟩
  case refine_1 =>
    obtain ⟨hmem, ht, hall⟩ := arbiterChoice_some ho
    exact ⟨hmem, ht, fun p hp hpt => ahead_iff.1 (hall p hp hpt)⟩
  case refine_2 =>
    rw [transmit_control h]
    exact handControl_rli f s
  case refine_3 =>
    rw [transmit_notice h]
    simp only [handNotice, hm, Option.getD_some]
  case refine_4 =>
    rw [transmit_run h]
    exact (handRun_sending c s).symm
  case refine_5 =>
    obtain ⟨g, hg, hh⟩ | ⟨g, hg, -⟩ | ⟨g, hg, -⟩ := choice_cases h <;> cases hg
    exact hh
  case refine_6 =>
    obtain ⟨g, hg, -⟩ | ⟨g, hg, hh⟩ | ⟨g, hg, -⟩ := choice_cases h <;> cases hg
    exact hh
  case refine_7 =>
    obtain ⟨g, hg, -⟩ | ⟨g, hg, -⟩ | ⟨g, hg, hcon, hnot, hrun⟩ := choice_cases h <;> cases hg
    exact ⟨hcon, hnot, chosenRun_some hs hrun⟩

end Sys2Proof.Machine
end

section
/-! SUPPORT. The tables written by their own commands alone (R56, R57, R112, R152, R155, R158 to R160, R163, R170): which tables each
command may write, and `KeepsBut` between the states before and after, for each operation that a command calls. -/

namespace Sys2Proof.Machine

variable {s t u : State} {w : List Table}

/-- The tables that few commands write. -/
inductive Table where
  | params | manager | requesters | windows | hold | link | downs | errors | memory
  deriving DecidableEq

/-- A table reads in `t` as it does in `s`. -/
def Table.kept (s t : State) : Table → Prop
  | .params => t.mu.params = s.mu.params
  | .manager => t.mu.manager = s.mu.manager
  | .requesters => t.mu.requesters = s.mu.requesters
  | .windows => t.lib.windows = s.lib.windows
  | .hold => t.fil.hold = s.fil.hold
  | .link => t.rli.link = s.rli.link
  | .downs => t.rli.downs = s.rli.downs
  | .errors => t.rli.errors = s.rli.errors
  | .memory => t.memory = s.memory

/-- The tables a command may write. -/
def writtenTables : Instr → List Table
  | .setParams _ _ _ => [.params]
  | .bind _ _ => [.manager]
  | .loadRequester _ _ _ _ _ _ | .dropRequester _ _ _ => [.requesters]
  | .inserted | .ejected => [.windows]
  | .holdBegun => [.hold]
  | .holdEnded => [.windows, .hold]
  | .linkDown => [.link, .downs]
  | .linkUp => [.link]
  | .frameAdmission _ => [.errors]
  | .memoryCheckDone _ => [.memory]
  | _ => []

/-- Every table but those of a list is kept. -/
def KeepsBut (w : List Table) (s t : State) : Prop := ∀ k, k ∉ w → k.kept s t

/-- All the tables at once. -/
def State.tables (s : State) :=
  (s.mu.params, s.mu.manager, s.mu.requesters, s.lib.windows, s.fil.hold, s.rli.link, s.rli.downs, s.rli.errors, s.memory)

/-! ### How the relation is made -/

theorem KeepsBut.of_eq (e : t.tables = s.tables) : KeepsBut w s t := by
  simp only [State.tables, Prod.mk.injEq] at e
  obtain ⟨e1, e2, e3, e4, e5, e6, e7, e8, e9⟩ := e
  intro k _
  cases k
  exacts [e1, e2, e3, e4, e5, e6, e7, e8, e9]

theorem KeepsBut.refl (s : State) : KeepsBut w s s := .of_eq rfl

theorem KeepsBut.trans (h : KeepsBut w s t) (g : KeepsBut w t u) : KeepsBut w s u := by
  intro k hk
  have h1 := h k hk
  have g1 := g k hk
  cases k <;> exact Eq.trans g1 h1

/-- What follows an event writes none of the tables. -/
theorem Follows.tables (h : Follows s t) : t.tables = s.tables := by
  have hf := h.fixed
  simp only [State.fixed, Prod.mk.injEq] at hf
  obtain ⟨-, -, -, errors, downs, link, manager, requesters, params, memory, -, -, windows, hold, -⟩ := hf
  simp only [State.tables, *]

theorem Follows.keepsBut (h : Follows s t) : KeepsBut w s t := .of_eq h.tables

/-- A change outside the tables, and what follows it. -/
theorem KeepsBut.from (h : KeepsBut w u t) (e : u.tables = s.tables) : KeepsBut w s t := (KeepsBut.of_eq e).trans h

theorem KeepsBut.settle (h : KeepsBut w s t) : KeepsBut w s (settle t) := h.trans (Follows.refl t).settle.keepsBut

theorem KeepsBut.publish (h : KeepsBut w s t) : KeepsBut w s (publish t) := h.trans (Follows.refl t).publish.keepsBut

theorem KeepsBut.settled (e : u.tables = s.tables) : KeepsBut w s (Machine.settle u) := (KeepsBut.of_eq e).settle

theorem KeepsBut.published (e : u.tables = s.tables) : KeepsBut w s (Machine.publish u) := (KeepsBut.of_eq e).publish

theorem KeepsBut.of_next (h : (.next u : Out) = .next t) (g : KeepsBut w s u) : KeepsBut w s t :=
  Host.Outcome.next.inj h ▸ g

/-! ### Requests -/

theorem KeepsBut.handOn {i : Instr} {act : State → State} (h : ∀ v, KeepsBut w v (act v)) : KeepsBut w s (handOn i act s) := by
  rcases handOn_cases i act s with ⟨-, -, e⟩ | ⟨qs, -, -, e⟩ | ⟨l, e, -⟩ <;> rw [e]
  · exact h s
  · exact (h { s with rli.inbound := qs }).from rfl
  · exact .of_eq rfl

theorem KeepsBut.manage {r g code : Nat} {act : State → State} (h : KeepsBut w s (act s)) :
    KeepsBut w s (manage r g code act s) := by
  rcases manage_cases r g code act s with e | ⟨reason, e⟩ <;> rw [e]
  · exact h
  · exact .published rfl

/-- A management request handed on. -/
theorem KeepsBut.managed {i : Instr} {r g code : Nat} {act : State → State} (h : ∀ v, KeepsBut w v (act v)) :
    KeepsBut w s (Machine.handOn i (Machine.manage r g code act) s) := .handOn fun v => .manage (h v)

theorem KeepsBut.answer {r g code : Nat} {refusal : Option Reason} {effect : State → State} {data : State → List Byte}
    (h : KeepsBut w s (effect s)) : KeepsBut w s (answer r g code refusal effect data s) := by
  unfold Machine.answer
  split
  · exact .published rfl
  · exact .publish (h.trans (.of_eq rfl))

theorem KeepsBut.answerLater {r g code : Nat} {k : LateKind} {refusal : Option Reason} {effect : State → State}
    (h : ∀ v, KeepsBut w v (effect v)) : KeepsBut w s (answerLater r g code k refusal effect s) := by
  unfold Machine.answerLater
  split
  · exact .published rfl
  · exact ((h (awaitReply k r g s)).from rfl).settle

theorem KeepsBut.query {r g code : Nat} {refusal : Option Reason} {data : State → List Byte} :
    KeepsBut w s (query r g code refusal data s) := .answer (.refl s)

theorem KeepsBut.pickerEvent {e : PickerEvent} {act : Motion → State → State} (h : ∀ m v, KeepsBut w v (act m v)) :
    KeepsBut w s (pickerEvent e act s) := by
  rcases pickerEvent_cases e act s with e1 | e1 | ⟨m, -, -, -, e1⟩ <;> rw [e1]
  · exact .refl s
  · exact (Follows.refl s).pickerFaulted.settle.keepsBut
  · exact (h m _).from rfl

/-! ### Operations that leave every table -/

theorem raise_tables {d : NoticeDetails} : (raise_ d s).tables = s.tables := by
  unfold raise_
  split_ifs <;> rfl

theorem changeService_tables {n : Service} {c : ChangeCause} : (changeService n c s).tables = s.tables := raise_tables

theorem takeContext_tables {c : Nat} {x : Context} : (takeContext c x s).tables = s.tables := by
  unfold takeContext
  dsimp only
  split <;> rfl

theorem freeFiling_tables {f : Nat} : (freeFiling f s).tables = s.tables := by
  unfold freeFiling
  dsimp only
  split <;> rfl

theorem discardFiling_tables {f : Nat} {c : FileCause} : (discardFiling f c s).tables = s.tables := freeFiling_tables

theorem handOrder_tables {d : Nat} {m : Motion} : (handOrder d m s).tables = s.tables := by
  unfold handOrder
  split <;> rfl

theorem switchSchedule_tables : (switchSchedule s).tables = s.tables := by
  unfold switchSchedule
  dsimp only
  split
  · rfl
  · exact raise_tables

/-! ### Part and line -/

theorem keepsBut_memory {m : MemoryCheck} : KeepsBut [.memory] s { s with memory := m } := by
  intro k hk
  cases k with
  | memory => exact absurd (List.mem_singleton.2 rfl) hk
  | _ => rfl

theorem keepsBut_startUp : KeepsBut [.memory] s (startUp s) := by
  have h1 : KeepsBut [.memory] s (startHome { s with memory := .passed }) :=
    keepsBut_memory.trans (Follows.refl _).startHome.keepsBut
  have h2 := h1.trans (KeepsBut.of_eq (t := (startHome { s with memory := .passed }).modPicker fun p =>
    { p with inventoryOwed := true }) rfl)
  exact h2.trans (Follows.fold _ (fun v _ => (Follows.refl v).startProbe) _ (Follows.refl _)).keepsBut

theorem keepsBut_memoryFault {f : Nat} :
    KeepsBut [.memory] s (changeService .fault .startUp { s with memory := .failed, mu.startFinding := .memory f }) := by
  have h : KeepsBut [.memory] { s with memory := .failed }
      (changeService .fault .startUp { s with memory := .failed, mu.startFinding := .memory f }) :=
    .of_eq (changeService_tables.trans rfl)
  exact keepsBut_memory.trans h

theorem keepsBut_memoryCheckDone {f : Option Nat} (h : execMemoryCheckDone f s = .next t) : KeepsBut [.memory] s t := by
  unfold execMemoryCheckDone at h
  split at h
  · exact .of_next h (.refl s)
  · split at h
    · exact .of_next h keepsBut_memoryFault.settle
    · exact .of_next h keepsBut_startUp.settle

theorem keepsBut_admitFrame {bs : List Byte} : KeepsBut [.errors] s (admitFrame bs s) := by
  unfold admitFrame
  split
  · exact .refl s
  · split
    · intro k hk
      cases k with
      | errors => exact absurd (List.mem_singleton.2 rfl) hk
      | _ => rfl
    · exact .of_eq rfl

theorem keepsBut_lineDown : KeepsBut [.link, .downs] s (lineDown s) := by
  unfold lineDown
  split
  · exact .refl s
  · intro k hk
    cases k with
    | link | downs => exact absurd (by simp) hk
    | _ => rfl

theorem keepsBut_lineUp : KeepsBut [.link] s (lineUp s) := by
  unfold lineUp
  split
  · exact .refl s
  · refine KeepsBut.settle fun k hk => ?_
    cases k with
    | link => exact absurd (List.mem_singleton.2 rfl) hk
    | _ => rfl

theorem keepsBut_frameFinished : KeepsBut w s (frameFinished s) := by
  unfold frameFinished
  split
  · exact .refl s
  · exact .settled rfl

/-! ### Contexts -/

theorem keepsBut_fetchTaken {r g : Nat} {b : FetchBody} : KeepsBut w s (fetchTaken r g b s) := by
  unfold fetchTaken
  split
  · exact .published rfl
  · unfold acceptFetch
    split
    · exact .refl s
    · exact .settle ((Follows.refl _).applyAnswer.keepsBut.from takeContext_tables)

theorem keepsBut_holdTaken {r g : Nat} : KeepsBut w s (holdTaken r g s) := by
  unfold holdTaken
  split
  · exact .published rfl
  · exact .of_eq rfl

theorem keepsBut_resumeTaken {r g : Nat} : KeepsBut w s (resumeTaken r g s) := by
  unfold resumeTaken
  split
  · exact .published rfl
  · exact .settled rfl

theorem keepsBut_cancelTaken {r g : Nat} : KeepsBut w s (cancelTaken r g s) := by
  unfold cancelTaken
  split
  · exact .published rfl
  · exact (Follows.refl s).endContext.settle.keepsBut

theorem keepsBut_holdExpired {c : Nat} : KeepsBut w s (holdExpired c s) := by
  unfold holdExpired
  split
  · exact .refl s
  · split
    · exact .settle ((Follows.refl (s.reach _)).endContext.keepsBut.from rfl)
    · exact .refl s

/-! ### Filings -/

theorem keepsBut_openFiling {r g : Nat} : KeepsBut w s (openFiling r g s) := by
  unfold openFiling
  split_ifs
  iterate 3 exact .of_eq rfl
  split <;> exact .of_eq rfl

theorem keepsBut_filePage {r g : Nat} {b : PageBody} : KeepsBut w s (filePage r g b s) := by
  unfold filePage
  split
  · exact .of_eq rfl
  · split
    · exact .of_eq rfl
    · dsimp only
      split_ifs <;> exact .of_eq rfl

theorem keepsBut_endFiling {r g n : Nat} : KeepsBut w s (endFiling r g n s) := by
  unfold endFiling
  split
  · exact .of_eq rfl
  · split
    · exact .of_eq rfl
    · dsimp only
      split_ifs <;> exact .of_eq rfl

theorem keepsBut_abortFiling {r g : Nat} : KeepsBut w s (abortFiling r g s) := by
  unfold abortFiling
  split
  · exact .of_eq rfl
  · split
    · exact .of_eq rfl
    · exact (Follows.refl _).markerIfNeeded.keepsBut.from discardFiling_tables

theorem keepsBut_gatherExpired {f : Nat} : KeepsBut w s (gatherExpired f s) := by
  unfold gatherExpired
  split
  · exact (KeepsBut.of_eq discardFiling_tables).from rfl
  · exact .refl s

/-! ### Service states -/

theorem keepsBut_changeService {n : Service} {c : ChangeCause} : KeepsBut w s (changeService n c s) :=
  .of_eq changeService_tables

theorem keepsBut_beginDrain {b : Bool} : KeepsBut w s (beginDrain b s) := by
  unfold beginDrain
  have h : KeepsBut w s (changeService .draining .setState { s with mu.drain := some .plain }) :=
    keepsBut_changeService.from rfl
  split
  · exact h.trans (Follows.refl _).abortWork.keepsBut
  · exact h

theorem keepsBut_enterOpening : KeepsBut w s (enterOpening s) := by
  unfold enterOpening
  extract_lets opened m1 l1 r1 s1 s2
  have h1 : KeepsBut w s s1 := keepsBut_changeService.from rfl
  exact h1.trans (Follows.refl s1).beginIdentify.keepsBut

theorem keepsBut_enterQuiescent : KeepsBut w s (enterQuiescent s) := keepsBut_changeService.from rfl

theorem keepsBut_enterStandby {c : ChangeCause} : KeepsBut w s (enterStandby c s) := by
  have h : KeepsBut w s (changeService .standby c { s with mu.drain := none }) := keepsBut_changeService.from rfl
  exact h.trans (Follows.refl _).standbyEntry.keepsBut

theorem keepsBut_setStateTaken {r g n : Nat} {b : Bool} : KeepsBut w s (setStateTaken r g n b s) := by
  unfold setStateTaken
  split
  · exact .answerLater fun _ => keepsBut_enterOpening
  · exact .answer keepsBut_enterQuiescent
  · exact .answerLater fun _ => keepsBut_beginDrain
  · split
    · exact .answerLater fun _ => keepsBut_changeService.trans (Follows.refl _).abortWork.keepsBut
    · exact .published rfl
  · exact (KeepsBut.answer keepsBut_enterStandby).settle
  iterate 3 exact .published rfl

theorem keepsBut_restartWork : KeepsBut w s (restartWork s) := by
  unfold restartWork
  extract_lets s1 m1 s2 s3
  have h1 : KeepsBut w s s1 := (Follows.refl s).stopRecovery.keepsBut
  have h2 : KeepsBut w s s2 := h1.trans (keepsBut_changeService.from rfl)
  exact h2.trans (Follows.fold _ (fun v _ => (Follows.refl v).restartQueue) _
    (Follows.refl s2).endAllContexts.restartLibrary.stopFiling).keepsBut

/-! ### Management -/

theorem keepsBut_manager {m : Option Nat} : KeepsBut [.manager] s { s with mu.manager := m } := by
  intro k hk
  cases k with
  | manager => exact absurd (List.mem_singleton.2 rfl) hk
  | _ => rfl

theorem keepsBut_requesters {l : List (Option Requester)} : KeepsBut [.requesters] s { s with mu.requesters := l } := by
  intro k hk
  cases k with
  | requesters => exact absurd (List.mem_singleton.2 rfl) hk
  | _ => rfl

theorem keepsBut_setParamsTaken {r g : Nat} {v : ParamValues} : KeepsBut [.params] s (setParamsTaken r g v s) := by
  have h : KeepsBut [.params] s { s with mu.params := s.mu.params.taking v } := by
    intro k hk
    cases k with
    | params => exact absurd (List.mem_singleton.2 rfl) hk
    | _ => rfl
  exact .settle (.answer (h.trans (Follows.refl _).reprioritise.keepsBut))

theorem keepsBut_storeSide {l : SideLoad} : KeepsBut w s (storeSide l s) := by
  cases l <;> exact .of_eq rfl

theorem keepsBut_storeAccount {n c l : Nat} {a : AccountState} {b : Bool} : KeepsBut w s (storeAccount n c l a b s) := by
  unfold storeAccount
  split <;> exact .of_eq rfl

theorem keepsBut_storeSchedule {e : Nat} {fs : List ClassFigures} : KeepsBut w s (storeSchedule e fs s) := by
  unfold storeSchedule
  split
  · exact .refl s
  · dsimp only
    split
    · exact (KeepsBut.of_eq raise_tables).from rfl
    · exact .of_eq rfl

theorem keepsBut_turnDay {d : Nat} : KeepsBut w s (turnDay d s) := by
  unfold turnDay
  dsimp only
  split
  · exact (KeepsBut.of_eq switchSchedule_tables).from rfl
  · exact .of_eq rfl

theorem keepsBut_takeOffline {d : Nat} : KeepsBut w s (takeOffline d s) := by
  have home : KeepsBut w s (newUnmount d true (s.modDrive d fun x => { x with offlinePending := true })) :=
    (Follows.refl _).newUnmount.keepsBut.from rfl
  have atOnce : KeepsBut w s (haltIfOpenIn d (s.modDrive d Drive.offlineNow)) :=
    (Follows.refl _).haltIfOpenIn.keepsBut.from rfl
  unfold takeOffline
  dsimp only
  split
  · exact atOnce
  · exact home
  · exact home
  · split
    · exact home
    · exact atOnce
  iterate 5 exact .refl s

theorem keepsBut_clearFaultWork : KeepsBut w s (clearFaultWork s) := by
  unfold clearFaultWork
  split
  · exact (Follows.refl s).startHome.keepsBut.trans (.of_eq rfl)
  · exact .of_eq rfl

/-! ### Drives -/

theorem keepsBut_driveWaitingToSend {d : Fin 4} (h : execDriveWaitingToSend d s = .next t) : KeepsBut w s t := by
  unfold execDriveWaitingToSend at h
  split at h
  · exact .of_next h (.of_eq rfl)
  · exact .of_next h (Follows.refl s).offerTaken.keepsBut
  · exact .of_next h (Follows.refl s).channelFault.settle.keepsBut

theorem keepsBut_dataBlock {d : Fin 4} {b : Sector} (h : execDataBlock d b s = .next t) : KeepsBut w s t := by
  unfold execDataBlock at h
  split at h
  · exact .of_next h (.of_eq rfl)
  · exact .of_next h (Follows.refl s).blockTaken.publish.keepsBut
  · exact .of_next h (Follows.refl s).channelFault.settle.keepsBut

theorem keepsBut_result {d : Fin 4} {res : DriveResult} (h : execResult d res s = .next t) : KeepsBut w s t := by
  unfold execResult at h
  split at h
  · exact .of_next h (.of_eq rfl)
  · exact .of_next h (Follows.refl s).resultTaken.settle.keepsBut
  · exact .of_next h (Follows.refl s).channelFault.settle.keepsBut

theorem keepsBut_channelStall {d : Fin 4} (h : execChannelStall d s = .next t) : KeepsBut w s t := by
  unfold execChannelStall at h
  split at h
  · exact .of_next h (.refl s)
  · exact .of_next h (.settle ((Follows.refl (s.reach _)).channelFault.keepsBut.from rfl))

theorem keepsBut_idleTimerExpiry {d : Fin 4} (h : execIdleTimerExpiry d s = .next t) : KeepsBut w s t := by
  unfold execIdleTimerExpiry at h
  split at h
  · exact .of_next h (.refl s)
  · exact .of_next h (.settle ((Follows.refl _).newUnmount.keepsBut.from rfl))

/-! ### Picker and quiet holds -/

theorem keepsBut_windows {ws : List Window} : KeepsBut [.windows] s { s with lib.windows := ws } := by
  intro k hk
  cases k with
  | windows => exact absurd (List.mem_singleton.2 rfl) hk
  | _ => rfl

theorem keepsBut_scheduleHold : KeepsBut [.windows] s (scheduleHold s) := by
  unfold scheduleHold
  dsimp only
  split
  · exact .refl s
  · exact keepsBut_windows

theorem keepsBut_insertedInto {m : Motion} : KeepsBut [.windows] s (insertedInto m s) := by
  unfold insertedInto
  split
  · next d c _ _ =>
    extract_lets s1 s2 s3
    have h1 : KeepsBut [.windows] s s2 := .of_eq rfl
    have h3 : KeepsBut [.windows] s s3 := (h1.trans keepsBut_scheduleHold).trans (.of_eq handOrder_tables)
    split
    · exact h3
    · exact h3.trans (Follows.refl s3).dismissIncoming.haltIfOpenIn.keepsBut
  · exact .refl s

theorem keepsBut_insertedThen {m : Motion} : KeepsBut [.windows] s (insertedThen m s) := by
  unfold insertedThen
  split
  · exact keepsBut_insertedInto
  · exact keepsBut_insertedInto.settle

theorem keepsBut_ejectedFrom {m : Motion} : KeepsBut [.windows] s (ejectedFrom m s) := by
  unfold ejectedFrom
  split
  · exact keepsBut_scheduleHold.from rfl
  · exact .refl s

theorem keepsBut_placedThen {m : Motion} : KeepsBut w s (placedThen m s) := by
  unfold placedThen
  split
  · exact (Follows.refl s).placedHome.settle.keepsBut
  · exact (Follows.refl s).placedHome.keepsBut

theorem keepsBut_pickerFault : KeepsBut w s (if s.lib.picker.state = .fault then s else settle (pickerReportsFault s)) := by
  split
  · exact .refl s
  · exact (Follows.refl s).pickerReportsFault.settle.keepsBut

theorem keepsBut_hold {b : Bool} : KeepsBut [.hold] s { s with fil.hold := b } := by
  intro k hk
  cases k with
  | hold => exact absurd (List.mem_singleton.2 rfl) hk
  | _ => rfl

theorem keepsBut_beginHold : KeepsBut [.hold] s (beginHold s) := by
  refine keepsBut_hold (b := true) |>.trans ?_
  unfold beginHold
  dsimp only
  split
  · exact .refl _
  · split
    · exact .of_eq rfl
    · split <;> exact .of_eq rfl
    · exact .refl _

theorem keepsBut_endHold : KeepsBut [.hold] s (endHold s) := by
  refine keepsBut_hold (b := false) |>.trans ?_
  unfold endHold
  dsimp only
  split
  · exact .refl _
  · split
    · exact (Follows.refl _).queuePass.keepsBut
    · exact .refl _

theorem keepsBut_holdBegins : KeepsBut [.hold] s (holdBegins s) := by
  unfold holdBegins
  split
  · exact .refl s
  · split
    · exact .refl s
    · exact (keepsBut_beginHold (s := s.reach _)).from rfl

/-- A longer list of tables leaves more open. -/
theorem KeepsBut.mono {l : List Table} (h : KeepsBut w s t) (hl : w ⊆ l) : KeepsBut l s t := fun k hk => h k fun hw => hk (hl hw)

theorem keepsBut_holdEnds : KeepsBut [.windows, .hold] s (holdEnds s) := by
  unfold holdEnds
  split
  · exact .refl s
  · next v vs _ =>
    split
    · have h1 : KeepsBut [.windows] s { s.reach v.stop with lib.windows := vs } :=
        (keepsBut_windows (s := s.reach v.stop)).from rfl
      exact (h1.mono (by simp)).trans (keepsBut_endHold.mono (by simp))
    · exact .refl s

/-! ### Every command -/

/-- Every command but POWER_ON_RESET keeps the tables that are not its own. -/
theorem exec_keepsBut {i : Instr} (h : exec i s = .next t) (hp : i ≠ .powerOnReset) : KeepsBut (writtenTables i) s t := by
  cases i with
  | powerOnReset => exact absurd rfl hp
  | loadSide r g l => exact .of_next h (.managed fun _ => .answer keepsBut_storeSide)
  | memoryCheckDone f => exact keepsBut_memoryCheckDone h
  | frameAdmission bs => exact .of_next h keepsBut_admitFrame
  | linkDown => exact .of_next h keepsBut_lineDown
  | linkUp => exact .of_next h keepsBut_lineUp
  | frameSent => exact .of_next h keepsBut_frameFinished
  | fetch r g b => exact .of_next h (.handOn fun _ => keepsBut_fetchTaken)
  | hold r g => exact .of_next h (.handOn fun _ => keepsBut_holdTaken)
  | resume r g => exact .of_next h (.handOn fun _ => keepsBut_resumeTaken)
  | cancel r g => exact .of_next h (.handOn fun _ => keepsBut_cancelTaken)
  | fileOpen r g => exact .of_next h (.handOn fun _ => keepsBut_openFiling.publish)
  | page r g b => exact .of_next h (.handOn fun _ => keepsBut_filePage.publish)
  | fileEnd r g n => exact .of_next h (.handOn fun _ => keepsBut_endFiling.settle)
  | fileAbort r g => exact .of_next h (.handOn fun _ => keepsBut_abortFiling.settle)
  | bind r g => exact .of_next h (.managed fun _ => .answer keepsBut_manager)
  | setState r g n b => exact .of_next h (.managed fun _ => keepsBut_setStateTaken)
  | setParams r g v => exact .of_next h (.managed fun _ => keepsBut_setParamsTaken)
  | loadRequester r g n x p l => exact .of_next h (.managed fun _ => .answer keepsBut_requesters)
  | dropRequester r g n => exact .of_next h (.managed fun _ => .answer keepsBut_requesters)
  | loadRange r g a b n o => exact .of_next h (.managed fun _ => .answer (.of_eq rfl))
  | clearRanges r g => exact .of_next h (.managed fun _ => .answer (.of_eq rfl))
  | setNextInstrument r g v => exact .of_next h (.managed fun _ => .answer (.of_eq rfl))
  | loadAccount r g n c l x b => exact .of_next h (.managed fun _ => .answer keepsBut_storeAccount)
  | setAccountState r g n x => exact .of_next h (.managed fun _ => .answer (.of_eq rfl))
  | closeAccount r g n => exact .of_next h (.managed fun _ => .answer (.of_eq rfl))
  | loadSchedule r g e fs => exact .of_next h (.managed fun _ => .answer keepsBut_storeSchedule)
  | dayClose r g d => exact .of_next h (.managed fun _ => .answer keepsBut_turnDay)
  | driveOffline r g d => exact .of_next h (.managed fun _ => (KeepsBut.answer keepsBut_takeOffline).settle)
  | driveRetry r g d => exact .of_next h (.managed fun _ => .answerLater fun v => (Follows.refl v).startProbe.keepsBut)
  | clearPicker r g => exact .of_next h (.managed fun _ => .answerLater fun v => (Follows.refl v).startHome.keepsBut)
  | filingResume r g =>
    exact .of_next h (.managed fun v => (KeepsBut.answer (Follows.refl v).retestHalt.runReadiness.keepsBut).settle)
  | restart r g => exact .of_next h (.managed fun _ => .answerLater fun _ => keepsBut_restartWork)
  | clearFault r g => exact .of_next h (.managed fun _ => .answerLater fun _ => keepsBut_clearFaultWork)
  | queryStatus r g => exact .of_next h (.managed fun _ => .query)
  | queryAccount r g n => exact .of_next h (.managed fun _ => .query)
  | querySide r g n => exact .of_next h (.managed fun _ => .query)
  | queryDrive r g d => exact .of_next h (.managed fun _ => .query)
  | queryContexts r g => exact .of_next h (.managed fun _ => .query)
  | queryFilings r g => exact .of_next h (.managed fun _ => .query)
  | querySchedules r g => exact .of_next h (.managed fun _ => .query)
  | driveWaitingToSend d => exact keepsBut_driveWaitingToSend h
  | dataBlock d b => exact keepsBut_dataBlock h
  | result d res => exact keepsBut_result h
  | channelStall d => exact keepsBut_channelStall h
  | takenFromSlot => exact .of_next h (.pickerEvent fun _ v => (Follows.refl v).taken.keepsBut)
  | emptySlot => exact .of_next h (.pickerEvent fun _ v => (Follows.refl v).slotEmpty.settle.keepsBut)
  | inserted => exact .of_next h (.pickerEvent fun _ _ => keepsBut_insertedThen)
  | ejected => exact .of_next h (.pickerEvent fun _ _ => keepsBut_ejectedFrom)
  | placed => exact .of_next h (.pickerEvent fun _ _ => keepsBut_placedThen)
  | motionDone => exact .of_next h (.pickerEvent fun _ v => (Follows.refl v).motionDone.settle.keepsBut)
  | occupancy l => exact .of_next h (.pickerEvent fun _ _ => .of_eq rfl)
  | pickerFault => exact .of_next h keepsBut_pickerFault
  | holdBegun => exact .of_next h keepsBut_holdBegins.settle
  | holdEnded => exact .of_next h keepsBut_holdEnds.settle
  | idleTimerExpiry d => exact keepsBut_idleTimerExpiry h
  | holdTimerExpiry c => exact .of_next h keepsBut_holdExpired
  | gatherIdleExpiry f => exact .of_next h keepsBut_gatherExpired.settle

/-! ### The commands that write a table -/

/-- The commands that may write a table, as the statement names them. -/
def Table.writer (i : Instr) : Table → Prop
  | .params => ∃ r g v, i = .setParams r g v
  | .manager => ∃ r g, i = .bind r g
  | .requesters => (∃ r g n x p l, i = .loadRequester r g n x p l) ∨ ∃ r g n, i = .dropRequester r g n
  | .windows => i = .inserted ∨ i = .ejected ∨ i = .holdEnded
  | .hold => i = .holdBegun ∨ i = .holdEnded
  | .link => i = .linkDown ∨ i = .linkUp
  | .downs => i = .linkDown
  | .errors => ∃ bs, i = .frameAdmission bs
  | .memory => ∃ f, i = .memoryCheckDone f

theorem writer_of_written {i : Instr} {k : Table} (h : k ∈ writtenTables i) : k.writer i := by
  unfold writtenTables at h
  split at h
  case h_13 => cases h
  all_goals
    simp only [List.mem_cons, List.not_mem_nil, or_false] at h
    rcases h with rfl | rfl <;> simp [Table.writer]

/-- Settles O7: a table that a command does not keep is one that it writes. -/
theorem tablesWrittenOnlyByTheirCommands : Obligations.TablesWrittenOnlyByTheirCommands := by
  intro i s t h hp
  have kept_or (k : Table) : k.kept s t ∨ k.writer i := by
    by_cases hk : k ∈ writtenTables i
    · exact .inr (writer_of_written hk)
    · exact .inl (exec_keepsBut h hp k hk)
  exact ⟨kept_or .params, kept_or .manager, kept_or .requesters, kept_or .windows, kept_or .hold, kept_or .link,
    kept_or .downs, kept_or .errors, kept_or .memory⟩

end Sys2Proof.Machine
end

section
/-! SUPPORT. A quiet hold window that joins the list (R56), a notice that is raised (R166), and their settling. -/

namespace Sys2Proof.Machine

variable {s : State} {w : Window} {ws : List Window}

/-! ### Quiet hold windows -/

/-- A window grown over all windows of a list that it touches (R56). -/
def Window.over (w : Window) (ws : List Window) : Window :=
  { start := (ws.filter w.touches).foldl (fun a v => min a v.start) w.start
    stop := (ws.filter w.touches).foldl (fun a v => max a v.stop) w.stop }

/-- An instant lies in a window. -/
abbrev Window.covers (w : Window) (i : Nat) : Prop := w.start ≤ i ∧ i ≤ w.stop

theorem touches_iff {a b : Window} : a.touches b = true ↔ a.start ≤ b.stop ∧ b.start ≤ a.stop := by
  simp [Window.touches]

theorem mem_addWindow {v : Window} : v ∈ addWindow w ws ↔ v = w.over ws ∨ (v ∈ ws ∧ w.touches v = false) := by
  have h : addWindow w ws = insertWindow (w.over ws) (ws.filter fun v => !w.touches v) := rfl
  rw [h, (insertWindow_perm _ _).mem_iff, List.mem_cons, List.mem_filter, Bool.not_eq_true']

/-- The grown window covers what the window and those it touches covered: what lies before the window's start lies in the
touched window that begins first, and what lies behind its stop in the one that ends last. -/
theorem over_covers (i : Nat) : (w.over ws).covers i ↔ w.covers i ∨ ∃ v ∈ ws, w.touches v = true ∧ v.covers i := by
  obtain ⟨⟨startLe, startLeAll⟩, startAt⟩ := foldl_min_le (·.start) (ws.filter w.touches) w.start
  obtain ⟨⟨leStop, allLeStop⟩, stopAt⟩ := foldl_max_le (·.stop) (ws.filter w.touches) w.stop
  constructor
  · rintro ⟨hs, he⟩
    rcases Nat.lt_or_ge i w.start with before | hs'
    · rcases startAt with e | ⟨v, hv, e⟩
      · exact absurd (e ▸ hs : w.start ≤ i) (by omega)
      · obtain ⟨hm, ht⟩ := List.mem_filter.1 hv
        exact .inr ⟨v, hm, ht, e ▸ hs, by have := touches_iff.1 ht; omega⟩
    · rcases Nat.lt_or_ge w.stop i with behind | he'
      · rcases stopAt with e | ⟨v, hv, e⟩
        · exact absurd (e ▸ he : i ≤ w.stop) (by omega)
        · obtain ⟨hm, ht⟩ := List.mem_filter.1 hv
          exact .inr ⟨v, hm, ht, by have := touches_iff.1 ht; omega, e ▸ he⟩
      · exact .inl ⟨hs', he'⟩
  · rintro (⟨hs, he⟩ | ⟨v, hm, ht, hs, he⟩)
    · exact ⟨startLe.trans hs, he.trans leStop⟩
    · have hv := List.mem_filter.2 ⟨hm, ht⟩
      exact ⟨(startLeAll v hv).trans hs, he.trans (allLeStop v hv)⟩

/-- A new window adds just the instants it covers (R56). -/
theorem addWindow_covers (i : Nat) : (∃ v ∈ addWindow w ws, v.covers i) ↔ w.covers i ∨ ∃ v ∈ ws, v.covers i := by
  constructor
  · rintro ⟨v, hv, hi⟩
    rcases mem_addWindow.1 hv with rfl | ⟨hm, -⟩
    · exact ((over_covers i).1 hi).imp_right fun ⟨u, hu, _, hc⟩ => ⟨u, hu, hc⟩
    · exact .inr ⟨v, hm, hi⟩
  · rintro (hi | ⟨v, hm, hi⟩)
    · exact ⟨_, mem_addWindow.2 (.inl rfl), (over_covers i).2 (.inl hi)⟩
    · cases ht : w.touches v with
      | true => exact ⟨_, mem_addWindow.2 (.inl rfl), (over_covers i).2 (.inr ⟨v, hm, ht, hi⟩)⟩
      | false => exact ⟨v, mem_addWindow.2 (.inr ⟨hm, ht⟩), hi⟩

/-! ### Notices -/

theorem raise_unmanaged {x : NoticeDetails} (h : s.mu.manager = none) : raise_ x s = s := by
  simp [raise_, h]

theorem raise_new {x : NoticeDetails} (h : s.mu.manager ≠ none) (hn : ∀ n ∈ s.rli.notices, n.details.kind ≠ x.kind) :
    raise_ x s = { s with
      seq := s.seq + 1
      rli.notices := s.rli.notices ++ [{ details := x, repeats := 0, raised := s.now, seq := s.seq }] } := by
  have hany : s.rli.notices.any (·.details.kind == x.kind) = false := List.any_eq_false.2 fun n hm => by simpa using hn n hm
  unfold raise_
  rw [if_neg (by simpa using h), hany]
  rfl

/-- With kinds apart, the notice of the kind raised is the only one that changes (R166). -/
theorem raise_again {x : NoticeDetails} {before behind : List Notice} {n : Notice} (h : s.mu.manager ≠ none)
    (ha : noticesApart s.rli.notices) (hs : s.rli.notices = before ++ n :: behind) (hk : n.details.kind = x.kind) :
    raise_ x s = { s with rli.notices := before ++ n.again x :: behind } := by
  have hany : s.rli.notices.any (·.details.kind == x.kind) = true :=
    List.any_eq_true.2 ⟨n, by simp [hs], by simpa using hk⟩
  have hne : (∀ m ∈ before, m.details.kind ≠ x.kind) ∧ ∀ m ∈ behind, m.details.kind ≠ x.kind := by
    rw [noticesApart, hs, List.map_append, List.map_cons, List.nodup_middle, List.nodup_cons, List.mem_append, hk] at ha
    exact ⟨fun m hm he => ha.1 (.inl (List.mem_map.2 ⟨m, hm, he⟩)), fun m hm he => ha.1 (.inr (List.mem_map.2 ⟨m, hm, he⟩))⟩
  have same {l : List Notice} (hl : ∀ m ∈ l, m.details.kind ≠ x.kind) :
      (l.map fun m => if m.details.kind = x.kind then m.again x else m) = l :=
    (List.map_congr_left fun m hm => if_neg (hl m hm)).trans (List.map_id' l)
  unfold raise_
  rw [if_neg (by simpa using h), if_pos hany, hs, List.map_append, List.map_cons, same hne.1, same hne.2, if_pos hk]

/-- Settles O56: the instants the merged list covers, and the notice by whether one of its kind is pending. -/
theorem windowsAndNoticesMerged : Obligations.WindowsAndNoticesMerged := by
  refine ⟨fun w ws hw ha => ⟨addWindow_apart hw ha, addWindow_covers, fun v hv hn => mem_addWindow.2 (.inr ⟨hv, ?_⟩)⟩,
    fun s x ha => ⟨raise_unmanaged, fun h => ⟨raise_new h, fun before n behind hs hk => raise_again h ha hs hk,
      (Follows.refl s).raise.notices ha⟩⟩⟩
  have hno : ¬w.touches v = true := fun ht => hn (touches_iff.1 ht).symm
  simpa using hno

end Sys2Proof.Machine
end

section
/-! SUPPORT. The mount queue (R44 to R48, R94, R95): the answer to a need, the priorities of orders, how orders are made, joined
and left, the removal of an order, parking, and their settling. -/

namespace Sys2Proof.Machine

variable {s : State} {c d n : Nat}

/-! ### The answer to a need -/

theorem unreachable_iff (st : DriveState) : st.unreachable = true ↔ st = .fault ∨ st = .offline ∨ st = .occupiedUnknown := by
  cases st <;> simp [DriveState.unreachable]

theorem serving_iff (st : DriveState) : st.serving = true ↔ st = .ready ∨ st = .active := by
  cases st <;> simp [DriveState.serving]

theorem inBadDrive_iff (r : SideRecord) : s.inBadDrive r = true ↔ ∃ d, r.location = .drive d
    ∧ ((s.drive d).state = .fault ∨ (s.drive d).state = .offline ∨ (s.drive d).state = .occupiedUnknown) := by
  unfold State.inBadDrive
  split
  · next d hd => simp [hd, unreachable_iff]
  · next hd => simp [hd]
  · next hd => simp [hd]

/-- A side that cannot be used (R46 case 1). -/
theorem sideUnusable_iff : s.sideUnusable n = true ↔ ∀ r, s.side n = some r → r.state = .missing ∨ r.state = .mismatch
    ∨ r.state = .stuck ∨ ∃ d, r.location = .drive d
      ∧ ((s.drive d).state = .fault ∨ (s.drive d).state = .offline ∨ (s.drive d).state = .occupiedUnknown) := by
  unfold State.sideUnusable
  cases s.side n with
  | none => simp
  | some r =>
    simp only [Bool.or_eq_true, barred_iff, inBadDrive_iff, Option.some.injEq, forall_eq', or_assoc]

/-- Drive `d` holds side `n` mounted READY or ACTIVE (R46 case 2). -/
abbrev State.readyWith (s : State) (n d : Nat) : Prop :=
  d < 4 ∧ (s.drive d).mounted = some n ∧ ((s.drive d).state = .ready ∨ (s.drive d).state = .active)

/-- Drive `d` holds side `n` in LOADING or CHECKING (R46 case 3). -/
abbrev State.comingWith (s : State) (n d : Nat) : Prop :=
  d < 4 ∧ (s.drive d).mounted = some n ∧ ((s.drive d).state = .loading ∨ (s.drive d).state = .checking)

theorem readyWith_of_mountedReady (h : s.mountedReady n = some d) : s.readyWith n d := by
  obtain ⟨hd, hm, hs⟩ := mountedReady_spec h
  exact ⟨hd, hm, (serving_iff _).1 hs⟩

theorem comingWith_of_arriving (h : s.arriving n = some d) : s.comingWith n d := by
  have hp := List.find?_some h
  simp only [Bool.and_eq_true, Bool.or_eq_true, beq_iff_eq] at hp
  exact ⟨List.mem_range.1 (List.mem_of_find?_eq_some h), hp⟩

theorem mountedReady_none (h : ∀ i, ¬s.readyWith n i) : s.mountedReady n = none :=
  Option.eq_none_iff_forall_ne_some.2 fun i hi => h i (readyWith_of_mountedReady hi)

theorem arriving_none (h : ∀ i, ¬s.comingWith n i) : s.arriving n = none :=
  Option.eq_none_iff_forall_ne_some.2 fun i hi => h i (comingWith_of_arriving hi)

theorem mountedReady_only (h : s.readyWith n d) (hu : ∀ i, s.readyWith n i → i = d) : s.mountedReady n = some d := by
  have hsome : (s.mountedReady n).isSome = true :=
    List.find?_isSome.2 ⟨d, List.mem_range.2 h.1, by simp [h.2.1, (serving_iff _).2 h.2.2]⟩
  obtain ⟨i, hi⟩ := Option.isSome_iff_exists.1 hsome
  rw [hi, hu i (readyWith_of_mountedReady hi)]

theorem arriving_only (h : s.comingWith n d) (hu : ∀ i, s.comingWith n i → i = d) : s.arriving n = some d := by
  have hsome : (s.arriving n).isSome = true :=
    List.find?_isSome.2 ⟨d, List.mem_range.2 h.1, by simpa [h.2.1] using h.2.2⟩
  obtain ⟨i, hi⟩ := Option.isSome_iff_exists.1 hsome
  rw [hi, hu i (comingWith_of_arriving hi)]

/-- A need that the picker's FAULT keeps from being met (R46). -/
abbrev State.needBarred (s : State) (forContext : Bool) : Prop := forContext = true ∧ s.lib.picker.state = .fault

section Answer

variable {b : Bool} (hu : s.sideUnusable n = false)

include hu

theorem answerNeed_mounted (h : s.mountedReady n = some d) : s.answerNeed n b = .mounted d := by
  simp [State.answerNeed, hu, h]

theorem answerNeed_arriving (hm : s.mountedReady n = none) (ha : s.arriving n = some d) :
    s.answerNeed n b = if s.needBarred b ∧ (s.drive d).state = .loading then .unavailable else .incoming d := by
  simp only [State.answerNeed, hu, hm, ha, Bool.false_eq_true, if_false, Bool.and_eq_true, beq_iff_eq]
  exact if_congr (by tauto) rfl rfl

theorem answerNeed_queued (hm : s.mountedReady n = none) (ha : s.arriving n = none) : s.answerNeed n b
    = if s.needBarred b then .unavailable else (s.orderFor n).elim .fresh fun o => .order o.id := by
  simp only [State.answerNeed, hu, hm, ha, Bool.false_eq_true, if_false, Bool.and_eq_true, beq_iff_eq]
  cases s.orderFor n <;> rfl

end Answer

/-! ### Priorities -/

theorem priorityOf_unmount {o : Order} {firm : Bool} (h : o.kind = .unmount d firm) : s.priorityOf o = 0 := by
  simp [State.priorityOf, h]

theorem priorityOf_mount {o : Order} (h : o.kind = .mount n) : s.priorityOf o =
    max (greatest (o.waiters.map fun c => (s.context c).priority)) (if o.marker then s.mu.params.filingPriority else 0) := by
  simp [State.priorityOf, h]

theorem greatest_cases (l : List Nat) : greatest l = 0 ∨ greatest l ∈ l := (foldl_max_spec l 0).2.2

/-- The priority of a mount order is one of those it is the greatest of (R44). -/
theorem priorityOf_mount_cases {o : Order} (h : o.kind = .mount n) : s.priorityOf o = 0
    ∨ (∃ c ∈ o.waiters, s.priorityOf o = (s.context c).priority)
    ∨ (o.marker = true ∧ s.priorityOf o = s.mu.params.filingPriority) := by
  rw [priorityOf_mount h]
  rcases max_choice (greatest (o.waiters.map fun c => (s.context c).priority))
    (if o.marker then s.mu.params.filingPriority else 0) with e | e <;> rw [e]
  · rcases greatest_cases (o.waiters.map fun c => (s.context c).priority) with hz | hm
    · exact .inl hz
    · obtain ⟨c, hc, he⟩ := List.mem_map.1 hm
      exact .inr (.inl ⟨c, hc, he.symm⟩)
  · split
    · next hk => exact .inr (.inr ⟨hk, rfl⟩)
    · exact .inl rfl

theorem le_priorityOf_waiter {o : Order} (h : o.kind = .mount n) (hc : c ∈ o.waiters) :
    (s.context c).priority ≤ s.priorityOf o := by
  rw [priorityOf_mount h]
  exact (le_greatest (List.mem_map_of_mem (f := fun c => (s.context c).priority) hc)).trans (le_max_left ..)

theorem le_priorityOf_marker {o : Order} (h : o.kind = .mount n) (hk : o.marker = true) :
    s.mu.params.filingPriority ≤ s.priorityOf o := by
  rw [priorityOf_mount h, if_pos hk]
  exact le_max_right ..

/-- Orders with their priorities recomputed (R44). -/
abbrev State.ranked (s : State) (os : List Order) : List Order := os.map fun o => { o with priority := s.priorityOf o }

/-! ### Orders made, joined and left -/

theorem abandoned_iff (o : Order) : o.abandoned = true ↔ (∃ m, o.kind = .mount m) ∧ o.inService = false ∧ o.waiters = []
    ∧ o.marker = false := by
  unfold Order.abandoned
  cases o.kind <;> simp [and_assoc]

theorem unmounts_iff {o : Order} : o.unmounts d = true ↔ ∃ firm, o.kind = .unmount d firm := by
  unfold Order.unmounts
  cases o.kind <;> simp

theorem newMount_orders (n : Nat) (cs : List Nat) (marker : Bool) (forced : Option Nat) (s : State) :
    (newMount n cs marker forced s).lib.orders = s.ranked (s.lib.orders ++ [{
      id := s.lib.nextOrder, kind := .mount n, waiters := cs, marker := marker, priority := 0, age := s.now
      forced := forced, inService := false, target := none }]) := addOrder_orders _ s

/-- The orders among which a new unmount order of a drive takes its place: a firm one replaces a WAITING idle one (R45). -/
def State.unreplaced (s : State) (d : Nat) (firm : Bool) : List Order :=
  if firm then s.lib.orders.filter fun o => !o.idleWaiting d else s.lib.orders

/-- The state among whose orders a new unmount order takes its place. -/
def withUnreplaced (d : Nat) (firm : Bool) (s : State) : State := { s with lib.orders := s.unreplaced d firm }

theorem newUnmount_eq (d : Nat) (firm : Bool) (s : State) : newUnmount d firm s =
    if (s.unreplaced d firm).any (·.unmounts d) then withUnreplaced d firm s
    else addOrder { id := 0, kind := .unmount d firm, waiters := [], marker := false, priority := 0, age := s.now
                    forced := none, inService := false, target := none } (withUnreplaced d firm s) := by
  unfold newUnmount withUnreplaced State.unreplaced
  cases firm <;> rfl

theorem newUnmount_orders_held {firm : Bool} (h : ∃ o ∈ s.unreplaced d firm, ∃ f, o.kind = .unmount d f) :
    (newUnmount d firm s).lib.orders = s.unreplaced d firm := by
  obtain ⟨o, ho, hk⟩ := h
  rw [newUnmount_eq, if_pos (List.any_eq_true.2 ⟨o, ho, unmounts_iff.2 hk⟩)]
  rfl

theorem newUnmount_orders_new {firm : Bool} (h : ∀ o ∈ s.unreplaced d firm, ∀ f, o.kind ≠ .unmount d f) :
    (newUnmount d firm s).lib.orders = s.ranked (s.unreplaced d firm) ++ [{
      id := s.lib.nextOrder, kind := .unmount d firm, waiters := [], marker := false, priority := 0, age := s.now
      forced := none, inService := false, target := none }] := by
  have hno : ¬(s.unreplaced d firm).any (·.unmounts d) = true := by
    rw [List.any_eq_true]
    rintro ⟨o, ho, hu⟩
    obtain ⟨f, hf⟩ := unmounts_iff.1 hu
    exact h o ho f hf
  rw [newUnmount_eq, if_neg hno, addOrder_orders, List.map_append]
  rfl

/-! ### An answer applied -/

theorem applyAnswer_fresh (h : s.answerNeed n true = .fresh) : (applyAnswer c n s).lib.orders = s.ranked s.lib.orders ++
    [{ id := s.lib.nextOrder, kind := .mount n, waiters := [c], marker := false, priority := (s.context c).priority
       age := s.now, forced := s.forcedFor n, inService := false, target := none }] := by
  have hp : max (greatest [(s.context c).priority]) 0 = (s.context c).priority := by simp [greatest]
  unfold applyAnswer
  rw [h]
  dsimp only
  rw [newMount_orders]
  refine (List.map_append ..).trans (congrArg (s.ranked s.lib.orders ++ ·) ?_)
  simp only [List.map_cons, List.map_nil, State.priorityOf, Bool.false_eq_true, if_false, hp]

theorem applyAnswer_order {id : Nat} (h : s.answerNeed n true = .order id) : (applyAnswer c n s).lib.orders
    = s.ranked (s.lib.orders.map fun o => if o.id = id then { o with waiters := o.waiters ++ [c] } else o) := by
  unfold applyAnswer
  rw [h]
  exact reprioritise_orders _

theorem applyAnswer_incoming (h : s.answerNeed n true = .incoming d) : applyAnswer c n s
    = { s with drives := s.drives.modify d fun x => { x with incoming := x.incoming ++ [c] } } := by
  unfold applyAnswer
  rw [h]
  rfl

/-- A context in MOUNT-WAIT that attaches begins its locate (R30, R67). -/
theorem attachContext_waiting (h : (s.context c).state = .mountWait) (hc : c < s.ctx.length) : attachContext d c s =
    locateEntry c { s with
      drives := s.drives.modify d fun x => { x with attached := x.attached ++ [c] }
      ctx := s.ctx.modify c fun x => { x with
        parked := false, state := .locating, locate := some (newLocate x.side x.k) } } := by
  have hx : (((s.modDrive d fun x => { x with attached := x.attached ++ [c] }).modContext c
      fun x => { x with parked := false }).context c).state = .mountWait := by
    rw [context_modContext, if_pos ⟨rfl, hc⟩]
    exact h
  unfold attachContext
  dsimp only
  rw [hx]
  dsimp only
  unfold beginLocate State.modContext State.modDrive
  dsimp only
  rw [List.modify_modify_eq]
  rfl

theorem applyAnswer_mounted (h : s.answerNeed n true = .mounted d) (hs : (s.context c).state = .mountWait)
    (hc : c < s.ctx.length) : applyAnswer c n s = locateEntry c { s with
      lib.orders := s.lib.orders.filter fun o => !o.idleWaiting d
      drives := s.drives.modify d fun x => { x with attached := x.attached ++ [c] }
      ctx := s.ctx.modify c fun x => { x with
        parked := false, state := .locating, locate := some (newLocate x.side x.k) } } := by
  have e : applyAnswer c n s = attachContext d c (withdrawIdle d s) := by
    unfold applyAnswer
    rw [h]
  rw [e, attachContext_waiting (s := withdrawIdle d s) hs hc]
  rfl

/-! ### An order removed -/

theorem removeMount_eq {o : Order} (h : s.orderFor n = some o) :
    removeMount n s = if o.inService ∧ s.motionStarted o.id = true then s else dropOrder o s := by
  simp [removeMount, h]

theorem motionStarted_iff {id : Nat} : s.motionStarted id = true
    ↔ ∃ m, s.lib.picker.motion = some m ∧ m.order = some id ∧ m.started = true := by
  unfold State.motionStarted
  cases s.lib.picker.motion <;> simp

theorem returnMarker_lib (s : State) : (returnMarker s).lib = s.lib ∧ (returnMarker s).ctx = s.ctx := by
  unfold returnMarker
  split <;> exact ⟨rfl, rfl⟩

/-- The marker returned: whatever it was for, the engine waits for no mount (R48). -/
theorem returnMarker_waits (h : s.fil.mountFor ≠ none) :
    (returnMarker s).fil.mountFor = none ∧ (returnMarker s).fil.activity = .idle := by
  unfold returnMarker
  split
  · next hn => exact absurd hn h
  all_goals exact ⟨rfl, rfl⟩

theorem dropOrder_eq (o : Order) (s : State) : dropOrder o s = if o.marker
    then returnMarker (endContexts o.waiters .unavailable (removeOrder o.id s))
    else endContexts o.waiters .unavailable (removeOrder o.id s) := rfl

theorem dropOrder_lib (o : Order) (s : State) :
    (dropOrder o s).lib = (endContexts o.waiters .unavailable (removeOrder o.id s)).lib
      ∧ (dropOrder o s).ctx = (endContexts o.waiters .unavailable (removeOrder o.id s)).ctx := by
  rw [dropOrder_eq]
  split
  · exact returnMarker_lib _
  · exact ⟨rfl, rfl⟩

/-- An order dropped is in the queue no more. -/
theorem dropOrder_gone {o p : Order} (h : p ∈ (dropOrder o s).lib.orders) : p.id ≠ o.id := by
  rw [(dropOrder_lib o s).1] at h
  obtain ⟨q, hq, hi, -⟩ := Yields.endContexts.orders p h
  rw [hi]
  simpa using (List.mem_filter.1 hq).2

theorem dropOrder_ends {o : Order} (hc : c ∈ o.waiters) (hl : (s.context c).state.live = true) :
    ((dropOrder o s).context c).state = .ending ∧ ((dropOrder o s).context c).outcome = some .unavailable := by
  unfold State.context
  rw [(dropOrder_lib o s).2]
  exact (endContexts_spec o.waiters .unavailable (removeOrder o.id s)).2.1 c hc hl

theorem dropOrder_waits {o : Order} (hk : o.marker = true) (h : s.fil.mountFor ≠ none) :
    (dropOrder o s).fil.mountFor = none ∧ (dropOrder o s).fil.activity = .idle := by
  have hf : (endContexts o.waiters .unavailable (removeOrder o.id s)).fil = s.fil :=
    (endContexts_spec o.waiters .unavailable (removeOrder o.id s)).2.2.2.2.1
  rw [dropOrder_eq, if_pos hk]
  exact returnMarker_waits (by rwa [hf])

/-! ### Parking -/

theorem park_unqueued {x : Context} (h : x.read ≠ .queued) : x.park = { x with parked := true } := if_neg h

theorem park_queued {x : Context} (h : x.read = .queued) : x.park = { x with
    parked := true, read := .none, filling := 0, readStart := none, nextRead := x.readStart <|> x.nextRead } := by
  unfold Context.park
  rw [if_pos h]
  cases x.readStart <;> rfl

/-- Settles O47: one lemma for each case of the answer, and one for each way in which the queue changes. -/
theorem mountNeedsAnswered : Obligations.MountNeedsAnswered := by
  refine ⟨fun s n b => ?answer, fun s o => ⟨fun d firm => priorityOf_unmount, fun n hk => ?priority⟩,
    fun s c n d => ?queue, fun s n o ho => ?removal, fun x => ⟨park_unqueued, fun place hq hr => ?place, fun hq hr => ?locate⟩,
    fun s c => ⟨fun h => if_pos ?done, fun h => if_neg ?more⟩⟩
  case answer =>
    intro unusable ready coming barred answers
    have hun : unusable ↔ s.sideUnusable n = true := sideUnusable_iff.symm
    refine ⟨fun h => if_pos (hun.1 h), fun h => ?_⟩
    have hu : s.sideUnusable n = false := by simpa using mt hun.2 h
    refine ⟨fun d hr ho => answerNeed_mounted hu (mountedReady_only hr ho), fun hr => ?_⟩
    have hm := mountedReady_none hr
    refine ⟨fun d hc ho => ?_, fun hc => ?_⟩
    · have ha := answerNeed_arriving (b := b) hu hm (arriving_only hc ho)
      exact ⟨fun hb => ha.trans (if_pos hb), fun hb => ha.trans (if_neg hb)⟩
    · have ha := answerNeed_queued (b := b) hu hm (arriving_none hc)
      exact ⟨fun hb => ha.trans (if_pos hb), fun hb =>
        ⟨fun o ho => (ha.trans (if_neg hb)).trans (by rw [ho]; rfl), fun ho => (ha.trans (if_neg hb)).trans (by rw [ho]; rfl)⟩⟩
  case priority =>
    exact ⟨fun c => le_priorityOf_waiter hk, le_priorityOf_marker hk, priorityOf_mount_cases hk⟩
  case queue =>
    intro ranked idle
    exact ⟨applyAnswer_fresh, fun id => applyAnswer_order, applyAnswer_incoming, applyAnswer_mounted,
      reprioritise_orders _, reprioritise_drives _, abandoned_iff,
      fun firm => ⟨newUnmount_orders_held, newUnmount_orders_new⟩⟩
  case removal =>
    intro moving
    have hmoving : moving ↔ o.inService = true ∧ s.motionStarted o.id = true := and_congr_right fun _ => motionStarted_iff.symm
    refine ⟨fun h => (removeMount_eq ho).trans (if_pos (hmoving.1 h)), fun h => ?_⟩
    rw [(removeMount_eq ho).trans (if_neg (mt hmoving.2 h))]
    exact ⟨fun p => dropOrder_gone, fun c hc _ => dropOrder_ends hc, dropOrder_waits⟩
  case place => rw [park_queued hq, hr]; rfl
  case locate => rw [park_queued hq, hr]; rfl
  case done => exact h
  case more => exact h

end Sys2Proof.Machine
end

section
/-! SUPPORT. The picker fault (R38, R39, R41): what its stages leave of the picker, the records and the waiters, the events that
bring it about, and their settling. -/

namespace Sys2Proof.Machine

variable {s t u : State}

/-! ### The events of the line -/

theorem pickerEvent_discarded {e : PickerEvent} {act : Motion → State → State} (h : s.lib.picker.state = .fault) :
    pickerEvent e act s = s := by
  simp [pickerEvent, h]

theorem pickerEvent_parked {e : PickerEvent} {act : Motion → State → State} (h : s.lib.picker.state = .parked) :
    pickerEvent e act s = settle (pickerFaulted s) := by
  simp [pickerEvent, h]

theorem pickerEvent_unexpected {e : PickerEvent} {act : Motion → State → State} {m : Motion}
    (hp : s.lib.picker.state = .moving) (hm : s.lib.picker.motion = some m)
    (he : m.expects (s.mu.service == .startup) s.lib.picker.held e = false) :
    pickerEvent e act s = settle (pickerFaulted s) := by
  simp [pickerEvent, hp, hm, he]

/-- The events of the picker line with their commands (R39, R40). -/
def lineEvents (fs : List SlotFinding) : List (PickerEvent × Instr) :=
  [(.taken, .takenFromSlot), (.emptySlot, .emptySlot), (.inserted, .inserted), (.ejected, .ejected), (.placed, .placed),
    (.done, .motionDone), (.occupancy, .occupancy fs)]

/-- Every command of the line is taken as the event of the line that it is. -/
theorem exec_lineEvent {fs : List SlotFinding} {p : PickerEvent × Instr} (h : p ∈ lineEvents fs) (s : State) :
    ∃ act, exec p.2 s = .next (pickerEvent p.1 act s) := by
  simp only [lineEvents, List.mem_cons, List.not_mem_nil, or_false] at h
  rcases h with rfl | rfl | rfl | rfl | rfl | rfl | rfl <;> exact ⟨_, rfl⟩

theorem exec_pickerFault (h : s.lib.picker.state ≠ .fault) : exec .pickerFault s = .next (settle (pickerFaulted s)) := by
  have e : (if s.lib.picker.state = .fault then s else settle (pickerReportsFault s)) = settle (pickerFaulted s) := by
    rw [if_neg h, pickerReportsFault, if_neg h]
  exact congrArg Host.Outcome.next e

theorem exec_pickerFault_discarded (h : s.lib.picker.state = .fault) : exec .pickerFault s = .next s :=
  congrArg Host.Outcome.next (if_pos h)

/-! ### What the stages of a fault leave -/

/-- `Wanes` that leaves the picker record and the management unit as they are. -/
structure Releases (s t : State) : Prop extends Wanes s t where
  picker : t.lib.picker = s.lib.picker
  mu : t.mu = s.mu

theorem Releases.refl (s : State) : Releases s s := { Wanes.refl s with picker := rfl, mu := rfl }

theorem Releases.trans (h : Releases s t) (g : Releases t u) : Releases s u :=
  { h.toWanes.trans g.toWanes with picker := g.picker.trans h.picker, mu := g.mu.trans h.mu }

theorem Releases.of_yields (h : Wanes s t) (g : Yields s t) : Releases s t := { h with picker := g.picker, mu := g.mu }

theorem Releases.foldl {α : Type} (f : State → α → State) (hf : ∀ t a, Releases t (f t a)) (l : List α) (s : State) :
    Releases s (l.foldl f s) :=
  foldl_kept (P := Releases s) (fun t a h => h.trans (hf t a)) l (.refl s)

theorem newUnmount_ctx (d : Nat) (firm : Bool) (s : State) : (newUnmount d firm s).ctx = s.ctx
    ∧ (newUnmount d firm s).lib.picker = s.lib.picker ∧ (newUnmount d firm s).rli = s.rli := by
  rw [newUnmount_eq]
  split
  · exact ⟨rfl, rfl, rfl⟩
  · unfold addOrder State.callArbiter
    simp [withUnreplaced]

theorem unreplaced_subset (d : Nat) (firm : Bool) (s : State) : s.unreplaced d firm ⊆ s.lib.orders := by
  unfold State.unreplaced
  split
  · exact List.filter_subset_self _
  · exact List.Subset.refl _

/-- A new unmount order has no waiter, and every other order was there. -/
theorem newUnmount_order {d : Nat} {firm : Bool} {p : Order} (h : p ∈ (newUnmount d firm s).lib.orders) :
    (p.waiters = [] ∧ p.kind = .unmount d firm) ∨ ∃ q ∈ s.unreplaced d firm, ∃ n, p = { q with priority := n } := by
  by_cases hk : ∃ o ∈ s.unreplaced d firm, ∃ f, o.kind = .unmount d f
  · rw [newUnmount_orders_held hk] at h
    exact .inr ⟨p, h, p.priority, rfl⟩
  · rw [newUnmount_orders_new (by simpa using hk)] at h
    rcases List.mem_append.1 h with h | h
    · obtain ⟨q, hq, rfl⟩ := List.mem_map.1 h
      exact .inr ⟨q, hq, _, rfl⟩
    · rw [List.mem_singleton.1 h]
      exact .inl ⟨rfl, rfl⟩

theorem Releases.newUnmount {d : Nat} {firm : Bool} : Releases s (newUnmount d firm s) := by
  obtain ⟨hctx, hpicker, -⟩ := newUnmount_ctx d firm s
  obtain ⟨hmu, hsides⟩ := newUnmount_kept d firm s
  refine { Wanes.same (newUnmount_drives d firm s) hctx hsides fun p hp c hc => ?_ with picker := hpicker, mu := hmu }
  rcases newUnmount_order hp with ⟨hw, -⟩ | ⟨q, hq, n, rfl⟩
  · rw [hw] at hc
    cases hc
  · exact ⟨q, unreplaced_subset d firm s hq, hc⟩

theorem Releases.settleServed {m : Motion} {held : Bool} : Releases s (settleServed m held s) := by
  have waiting (id : Nat) : Releases s (modOrder id (fun o => { o with inService := false, target := none }) s) :=
    { Wanes.modOrder (f := fun o => { o with inService := false, target := none }) fun _ => rfl with picker := rfl, mu := rfl }
  have removed (id : Nat) : Releases s (Machine.removeOrder id s) := { Wanes.removeOrder with picker := rfl, mu := rfl }
  unfold Machine.settleServed
  split
  · exact .refl s
  · split
    · exact .refl s
    · split
      · split
        · exact waiting _
        · exact .of_yields .dropOrder .dropOrder
      · split
        · exact removed _
        · exact waiting _

theorem Releases.sendUnloading {served : Option Nat} : Releases s (sendUnloading served s) :=
  .foldl _ (fun _ _ => .newUnmount) _ _

/-- A change of the orders in which each keeps its waiters. -/
theorem Releases.forced {f : Order → Order} (hf : ∀ o, (f o).waiters = o.waiters) (hd : t.drives = s.drives)
    (hc : t.ctx = s.ctx) (hs : t.lib.sides = s.lib.sides) (hp : t.lib.picker = s.lib.picker) (hm : t.mu = s.mu)
    (ho : t.lib.orders = s.lib.orders.map f) : Releases s t := by
  refine { Wanes.same hd hc hs fun p h c hw => ?_ with picker := hp, mu := hm }
  rw [ho] at h
  obtain ⟨q, hq, rfl⟩ := List.mem_map.1 h
  exact ⟨q, hq, hf q ▸ hw⟩

theorem Releases.restIn {d : Nat} : Releases s (restIn d s) := by
  unfold Machine.restIn
  split
  · exact { Wanes.callArbiter with picker := rfl, mu := rfl }
  · next n _ =>
    exact .forced (f := fun o => if o.kind = .mount (siblingOf n) then { o with forced := some d } else o)
      (fun o => by split <;> rfl) rfl rfl rfl rfl rfl rfl

/-! ### The stages -/

/-- The cartridge held is STUCK, the order served has left or waits again, and drives left UNLOADING have a firm order of
their own (R41). -/
def servedSettled (s : State) : State :=
  let s1 := s.modPicker Picker.failed
  let s2 := match s.lib.picker.held with
    | none => s1
    | some c => turnStuck c s1
  let s3 := match s.lib.picker.motion with
    | none => s2
    | some m => settleServed m s.lib.picker.held.isSome s2
  sendUnloading s.unmountServed s3

/-- The waiters have ended, and cartridges have come to rest (R41, R51). -/
def waitersReleased (s : State) : State :=
  (List.range 4).foldl (fun s d => if (s.drive d).state = .loading then restIn d s else s)
    (dropAbandoned (endContexts s.waitingAtFault .unavailable s))

/-- Start-up takes its finding (R170). -/
def faultFound (s : State) : State := if s.mu.service = .startup then { s with mu.startFinding := .picker } else s

theorem pickerFaulted_eq (s : State) : pickerFaulted s
    = answerFault (answerPicker (faultFound (raise_ s.lib.picker.details (waitersReleased (servedSettled s))))) := by
  unfold pickerFaulted
  extract_lets p s1 s2 s3 s4 s5 s6 s7 m8 s8
  have e4 : s4 = servedSettled s := rfl
  have e6 : s6 = waitersReleased s4 := rfl
  have e8 : s8 = faultFound s7 := rfl
  rw [e8, ← e4, ← e6]
theorem releases_servedSettled : Releases (s.modPicker Picker.failed) (servedSettled s) := by
  unfold servedSettled
  extract_lets s1 s2 s3
  have h2 : Releases s1 s2 := by
    simp only [s2]
    split
    · exact .refl _
    · exact .of_yields .turnStuck .turnStuck
  have h3 : Releases s1 s3 := by
    simp only [s3]
    split
    · exact h2
    · exact h2.trans .settleServed
  exact h3.trans .sendUnloading

theorem Releases.dropAbandoned : Releases s (dropAbandoned s) := { Wanes.dropAbandoned with picker := rfl, mu := rfl }

theorem Releases.waitersReleased : Releases s (waitersReleased s) := by
  have h : Releases s (Machine.dropAbandoned (endContexts s.waitingAtFault .unavailable s)) :=
    (Releases.of_yields .endContexts .endContexts).trans .dropAbandoned
  refine h.trans (.foldl _ (fun t d => ?_) _ _)
  split
  · exact .restIn
  · exact .refl t

theorem wanes_faultFound : Wanes s (faultFound s) := by
  unfold faultFound
  split
  · exact .unseen rfl rfl rfl
  · exact .refl s

theorem faultFound_lib (s : State) : (faultFound s).lib = s.lib ∧ (faultFound s).rli = s.rli := by
  unfold faultFound
  split <;> exact ⟨rfl, rfl⟩

/-! ### The fault -/

theorem releases_pickerFaulted : Releases (s.modPicker Picker.failed) (waitersReleased (servedSettled s)) :=
  releases_servedSettled.trans .waitersReleased

theorem wanes_pickerFaulted : Wanes (waitersReleased (servedSettled s)) (pickerFaulted s) := by
  rw [pickerFaulted_eq]
  exact ((Wanes.raise.trans wanes_faultFound).trans .answerLate).trans .answerLate

theorem pickerFaulted_picker (s : State) : (pickerFaulted s).lib.picker = s.lib.picker.failed := by
  rw [pickerFaulted_eq, answerFault, (answerLate_kept _ _ _ _).2.2.1, answerPicker, (answerLate_kept _ _ _ _).2.2.1,
    (faultFound_lib _).1, raise_lib]
  exact releases_pickerFaulted.picker

theorem pickerFaulted_notice (h : s.mu.manager ≠ none) :
    ∃ n ∈ (pickerFaulted s).rli.notices, n.details = s.lib.picker.details := by
  have hm : (waitersReleased (servedSettled s)).mu = s.mu := releases_pickerFaulted.mu
  rw [pickerFaulted_eq, answerFault, answerLate_notices, answerPicker, answerLate_notices, (faultFound_lib _).2]
  exact raise_pending (by rwa [hm])

/-- The records of the cartridge held turn STUCK first, and stay so (R15, R41). -/
theorem pickerFaulted_stuck {n : Nat} {r : SideRecord} (hh : s.lib.picker.held = some (slotOf n)) (hr : s.side n = some r) :
    ∃ r', (pickerFaulted s).side n = some r' ∧ r'.state = .stuck := by
  obtain ⟨r1, h1, hs1⟩ := turnStuck_stuck (s := s.modPicker Picker.failed) hr
  have hw : Wanes (turnStuck (slotOf n) (s.modPicker Picker.failed)) (servedSettled s) := by
    unfold servedSettled
    simp only [hh]
    split
    · exact Releases.sendUnloading.toWanes
    · exact (Releases.settleServed.trans .sendUnloading).toWanes
  obtain ⟨r2, h2, hs2⟩ := ((hw.trans Releases.waitersReleased.toWanes).trans wanes_pickerFaulted).sides n r1 h1
  exact ⟨r2, h2, hs2 hs1⟩

/-- Every waiter of an order has ended before the orders are looked at again (R41). -/
theorem pickerFaulted_waiters {o : Order} {c : Nat} (ho : o ∈ (pickerFaulted s).lib.orders) (hc : c ∈ o.waiters) :
    ((pickerFaulted s).context c).state.live = false := by
  let v := servedSettled s
  obtain ⟨ended, ends, -⟩ := endContexts_spec v.waitingAtFault .unavailable v
  have behind : Wanes (endContexts v.waitingAtFault .unavailable v) (pickerFaulted s) := by
    refine Wanes.trans ?_ wanes_pickerFaulted
    refine Releases.toWanes (Releases.dropAbandoned.trans (.foldl _ (fun t d => ?_) _ _))
    split
    · exact .restIn
    · exact .refl t
  obtain ⟨p, hp, hw⟩ := (ended.trans behind).orders o ho c hc
  have hin : c ∈ v.waitingAtFault := List.mem_append_left _ (List.mem_flatMap.2 ⟨p, hp, hw⟩)
  have hover : ((endContexts v.waitingAtFault .unavailable v).context c).state.live = false := by
    cases hl : (v.context c).state.live with
    | true => rw [(ends c hin hl).1]; rfl
    | false => rw [(ended.ctx c hl).1]; exact hl
  rw [(behind.ctx c hover).1]
  exact hover

theorem pickerDetails_kind (p : Picker) : p.details.kind = 6 := by
  unfold Picker.details
  split <;> rfl

/-- Settles O54: the events by the picker's state, and the fault by its stages. -/
theorem pickerFaultsEndMotions : Obligations.PickerFaultsEndMotions := by
  refine ⟨fun s fs => ?events, fun s => ?fault⟩
  case events =>
    intro events
    refine ⟨fun h => ⟨exec_pickerFault_discarded h, fun p hp => ?_⟩, exec_pickerFault, fun h p hp => ?_, fun m h hm p hp he => ?_⟩
    all_goals obtain ⟨act, e⟩ := exec_lineEvent (fs := fs) hp s
    · rw [e, pickerEvent_discarded h]
    · rw [e, pickerEvent_parked h]
    · rw [e, pickerEvent_unexpected h hm he]
  case fault =>
    dsimp only
    rw [pickerFaulted_picker]
    refine ⟨rfl, rfl, rfl, rfl,
      fun n r => pickerFaulted_stuck, fun o ho c hc _ => pickerFaulted_waiters ho hc, fun hm => ?_⟩
    obtain ⟨n, hn, hd⟩ := pickerFaulted_notice hm
    exact ⟨n, hn, hd ▸ pickerDetails_kind _⟩

end Sys2Proof.Machine
end

section
/-! SUPPORT. The timer events (R55, R57, R91, R112): quiet holds that begin and end, idle timers, hold timers, and their settling. -/

namespace Sys2Proof.Machine

variable {s t : State} {w : Window} {ws : List Window} {p : Pass}

/-! ### A quiet hold begins -/

theorem holdBegins_eq (hw : s.lib.windows = w :: ws) (hh : s.fil.hold = false) : holdBegins s = beginHold (s.reach w.start) := by
  simp [holdBegins, hw, hh]

theorem beginHold_idle (h : s.fil.pass = none) : beginHold s = { s with fil.hold := true } := by
  simp [beginHold, h]

theorem beginHold_queued (h : s.fil.pass = some p) (hs : p.state = .queued) : beginHold s =
    { s with
      fil.hold := true, fil.pass := some { p with state := .withheld }
      drives := s.drives.map fun d => { d with queue := d.queue.filter (·.issuer != .filing) } } := by
  simp [beginHold, h, hs, dropPasses]

theorem beginHold_verify (h : s.fil.pass = some p) (hs : p.state = .inFlight) (ho : p.op = .verify) :
    beginHold s = { s with fil.hold := true, fil.pass := some { p with disturbed := true } } := by
  simp [beginHold, h, hs, ho]

theorem beginHold_stays (h : s.fil.pass = some p) (hs : p.state = .withheld ∨ (p.state = .inFlight ∧ p.op ≠ .verify)) :
    beginHold s = { s with fil.hold := true } := by
  rcases hs with hs | ⟨hs, ho⟩
  · simp [beginHold, h, hs]
  · simp [beginHold, h, hs, ho]

theorem beginHold_holds (s : State) : (beginHold s).fil.hold = true ∧ (beginHold s).now = s.now := by
  unfold beginHold
  dsimp only
  split
  · exact ⟨rfl, rfl⟩
  · split
    · exact ⟨rfl, rfl⟩
    · split <;> exact ⟨rfl, rfl⟩
    · exact ⟨rfl, rfl⟩

/-! ### A quiet hold ends -/

/-- The window in force removed at its end, with the hold taken off (R57). -/
def holdLifted (w : Window) (ws : List Window) (s : State) : State :=
  { s.reach w.stop with lib.windows := ws, fil.hold := false }

theorem holdEnds_eq (hw : s.lib.windows = w :: ws) (hh : s.fil.hold = true) :
    holdEnds s = endHold { s.reach w.stop with lib.windows := ws } := by
  simp [holdEnds, hw, hh]

/-- Placing the pass writes neither the hold nor the windows nor the time. -/
theorem holdEnds_lifts (hw : s.lib.windows = w :: ws) (hh : s.fil.hold = true) :
    (holdEnds s).fil.hold = false ∧ (holdEnds s).now = max s.now w.stop ∧ (holdEnds s).lib.windows = ws := by
  have h : Follows (holdLifted w ws s) (holdEnds s) := by
    rw [holdEnds_eq hw hh]
    unfold endHold
    dsimp only
    split
    · exact .refl _
    · split
      · exact (Follows.refl _).queuePass
      · exact .refl _
  have hf := h.fixed
  simp only [State.fixed, Prod.mk.injEq] at hf
  obtain ⟨-, now, -, -, -, -, -, -, -, -, -, -, windows, hold, -⟩ := hf
  exact ⟨hold, now, windows⟩

theorem endHold_withheld (hp : s.fil.pass = some p) (hs : p.state = .withheld) : endHold s =
    if ({ s with fil.hold := false } : State).holdsPasses = false then queuePass p { s with fil.hold := false }
    else { s with fil.hold := false } := by
  have h : endHold s = if p.state = .withheld ∧ ({ s with fil.hold := false } : State).holdsPasses = false
      then queuePass p { s with fil.hold := false } else { s with fil.hold := false } := by
    unfold endHold
    dsimp only
    split
    · next hn => exact nomatch hp.symm.trans hn
    · next q hq => rw [Option.some.inj (hp.symm.trans hq)]
  rw [h]
  exact if_congr (and_iff_right hs) rfl rfl

theorem holdEnds_withheld (hw : s.lib.windows = w :: ws) (hh : s.fil.hold = true) (hp : s.fil.pass = some p)
    (hs : p.state = .withheld) : holdEnds s =
      if (holdLifted w ws s).holdsPasses = false then queuePass p (holdLifted w ws s) else holdLifted w ws s := by
  rw [holdEnds_eq hw hh]
  exact endHold_withheld (s := { s.reach w.stop with lib.windows := ws }) hp hs

theorem holdsPasses_lifted : (holdLifted w ws s).holdsPasses = true ↔ ∃ v vs, ws = v :: vs ∧ v.start ≤ max s.now w.stop := by
  rw [holdsPasses_iff]
  simp [holdLifted, State.reach]

/-! ### Timers of drives and contexts -/

/-- A running idle timer is that of a drive of the table. -/
theorem lt_of_idle {d : Nat} {tm : Timer} (h : (s.drive d).idle = some tm) : d < s.drives.length := by
  by_contra hn
  rw [drive_out (Nat.le_of_not_lt hn)] at h
  cases h

theorem exec_idleTimerExpiry {d : Fin 4} {tm : Timer} (h : (s.drive d).idle = some tm) : exec (.idleTimerExpiry d) s
    = .next (settle (newUnmount d false ((s.reach (tm.start + tm.limit)).modDrive d fun x => { x with idle := none }))) := by
  show execIdleTimerExpiry d s = _
  unfold execIdleTimerExpiry
  rw [h]

theorem exec_holdTimerExpiry {c : Fin 16} {tm : Timer} (h : (s.context c).timer = some tm)
    (hl : (s.context c).state.live = true) : exec (.holdTimerExpiry c) s
      = .next (settle (endContext c .abandoned { s with now := max s.now (tm.start + tm.limit) })) := by
  show Host.Outcome.next (holdExpired c s) = _
  unfold holdExpired
  rw [h]
  dsimp only
  rw [if_pos hl]
  rfl

/-- Settles O55: the hold that begins by the state of the pass, the hold that ends by what the next window holds back. -/
theorem timersAct : Obligations.TimersAct := by
  intro s
  refine ⟨fun w ws hw => ⟨fun hh => ⟨_, rfl, ?begun⟩, fun hh => ⟨_, rfl, ?ended⟩⟩, fun d tm h => ⟨_, exec_idleTimerExpiry h, ?idle⟩,
    fun c tm h hl => exec_holdTimerExpiry h hl⟩
  case begun =>
    rw [holdBegins_eq hw hh]
    obtain ⟨hold, now⟩ := beginHold_holds (s.reach w.start)
    refine ⟨hold, now, fun hn => ?_, fun p hp => ⟨fun hs => ?_, fun hs ho => ?_, fun hs ho => ?_, fun hs => ?_⟩⟩
    · rw [beginHold_idle (s := s.reach w.start) hn]
      exact hn
    · rw [beginHold_queued (s := s.reach w.start) hp hs]
      refine ⟨rfl, fun x hx e he => ?_⟩
      obtain ⟨y, -, rfl⟩ := List.mem_map.1 hx
      simpa using (List.mem_filter.1 he).2
    · rw [beginHold_verify (s := s.reach w.start) hp hs ho]
    · rw [beginHold_stays (s := s.reach w.start) hp (.inr ⟨hs, ho⟩)]
      exact hp
    · rw [beginHold_stays (s := s.reach w.start) hp (.inl hs)]
      exact hp
  case ended =>
    obtain ⟨hold, now, windows⟩ := holdEnds_lifts hw hh
    refine ⟨hold, now, windows, fun p n d hp hs hq hm => ?_⟩
    rw [now, holdEnds_withheld hw hh hp hs]
    have hdrive : (holdLifted w ws s).sequenceSide.bind (holdLifted w ws s).mountedReady = some d := by
      show s.sequenceSide.bind s.mountedReady = some d
      rw [hq]
      exact hm
    refine ⟨fun hnext => ?_, fun hnext => ?_⟩
    · rw [if_neg (by simp [holdsPasses_lifted.2 hnext])]
      exact hp
    · rw [if_pos (by simpa using mt holdsPasses_lifted.1 hnext), queuePass_of_mounted hdrive]
      refine ⟨rfl, fun hd => ⟨newEntry (holdLifted w ws s) .filing p.op p.first p.count 0 ((holdLifted w ws s).passData p),
        ?_, rfl, rfl, rfl, rfl⟩⟩
      exact congrArg Drive.queue (drive_modDrive_self (s := holdLifted w ws s) _ hd)
  case idle =>
    have hd : (d : Nat) < ((s.reach (tm.start + tm.limit)).modDrive d fun x => { x with idle := none }).drives.length := by
      simpa [State.reach] using lt_of_idle h
    refine ⟨?_, fun _ hno => ?_⟩
    · unfold State.drive
      rw [newUnmount_drives]
      exact congrArg Drive.idle (drive_modDrive_self (s := s.reach (tm.start + tm.limit)) _ (lt_of_idle h))
    · obtain ⟨o, ho, hk, -, ha, hi⟩ := newUnmount_fresh (firm := false)
        (s := (s.reach (tm.start + tm.limit)).modDrive d fun x => { x with idle := none }) hno
      exact ⟨o, ho, hk, ha, hi⟩

end Sys2Proof.Machine
end

section
/-! SUPPORT. The ends of OPENING, of start-up and of a drain, and the entry to STANDBY (R58, R66, R121, R123, R170, R172, R179, R180,
R183): what late replies and new unmount orders leave, the orders of the entry to STANDBY, and their settling. -/

namespace Sys2Proof.Machine

variable {s t u : State} {d : Nat}

/-! ### What a new order leaves -/

/-- The mount queue changes, the arbiter is called perhaps, and nothing else changes. -/
def OrdersOnly (s t : State) : Prop := ∃ os n a, t = { s with lib.orders := os, lib.nextOrder := n, todo.arbiter := a }

theorem OrdersOnly.refl (s : State) : OrdersOnly s s := ⟨_, _, _, rfl⟩

theorem OrdersOnly.trans (h : OrdersOnly s t) (g : OrdersOnly t u) : OrdersOnly s u := by
  obtain ⟨_, _, _, rfl⟩ := h
  obtain ⟨_, _, _, rfl⟩ := g
  exact ⟨_, _, _, rfl⟩

theorem addOrder_eq (o : Order) (s : State) : addOrder o s = { s with
    lib.orders := s.ranked (s.lib.orders ++ [{ o with id := s.lib.nextOrder }])
    lib.nextOrder := s.lib.nextOrder + 1, todo.arbiter := true } := by
  unfold addOrder reprioritise
  dsimp only
  split <;> rfl

theorem OrdersOnly.newUnmount {firm : Bool} : OrdersOnly s (newUnmount d firm s) := by
  rw [newUnmount_eq]
  split
  · exact ⟨_, _, _, rfl⟩
  · rw [addOrder_eq]
    exact ⟨_, _, _, rfl⟩

theorem OrdersOnly.foldl {α : Type} {f : State → α → State} (hf : ∀ t a, OrdersOnly t (f t a)) (l : List α) (s : State) :
    OrdersOnly s (l.foldl f s) := foldl_kept (P := OrdersOnly s) (fun t a h => h.trans (hf t a)) l (.refl s)

/-! ### Late replies -/

/-- The frames of the late replies of a kind (R153). -/
def lateFrames (late : List Late) (kind : LateKind) (code : Nat) (data : List Byte) : List OutFrame :=
  (late.filter (·.kind == kind)).map fun l => { requester := l.requester, tag := l.tag, body := .reply code none data }

/-- The late replies of a kind stand behind the control frames held, in the order in which their requests were taken (R153). -/
theorem answerLate_control (kind : LateKind) (code : Nat) (data : List Byte) (s : State) :
    ∃ fs, (answerLate (· == kind) (fun _ => code) (fun _ => data) s).rli.control = s.rli.control ++ fs
      ∧ fs.map (·.frame) = lateFrames s.mu.late kind code data := by
  have h : ∀ (l : List Late) (t : State),
      ∃ fs, (l.foldl (fun s l => accept l.requester l.tag code data s) t).rli.control = t.rli.control ++ fs
        ∧ fs.map (·.frame) = l.map fun l => { requester := l.requester, tag := l.tag, body := .reply code none data } := by
    intro l
    induction l with
    | nil => exact fun t => ⟨[], (List.append_nil _).symm, rfl⟩
    | cons a l ih =>
      intro t
      obtain ⟨fs, hc, hf⟩ := ih (accept a.requester a.tag code data t)
      exact ⟨_ :: fs, hc.trans (List.append_assoc ..), congrArg (_ :: ·) hf⟩
  exact h _ _

/-- The replies leave all but the late requests and the control frames. -/
theorem answerLate_rest (w : LateKind → Bool) (code : LateKind → Nat) (data : LateKind → List Byte) (s : State) :
    (answerLate w code data s).fil = s.fil ∧ (answerLate w code data s).loc = s.loc
      ∧ (answerLate w code data s).recovery = s.recovery := by
  unfold answerLate
  exact foldl_kept (f := fun s (l : Late) => accept l.requester l.tag (code l.kind) (data l.kind) s)
    (P := fun t => t.fil = s.fil ∧ t.loc = s.loc ∧ t.recovery = s.recovery) (fun _ _ h => h) _ ⟨rfl, rfl, rfl⟩

/-- Every SET-STATE that waits in `s` is answered with these bytes, and none waits any more (R162). -/
def State.stateAnswered (s u : State) (bytes : List Byte) : Prop := (∀ l ∈ u.mu.late, l.kind ≠ .setState)
  ∧ ∃ fs, u.rli.control = s.rli.control ++ fs ∧ fs.map (·.frame) = lateFrames s.mu.late .setState 2 bytes

theorem answerState_answers (hc : u.rli.control = s.rli.control) (hl : u.mu.late = s.mu.late) :
    s.stateAnswered (answerState u) (stateReply u) := by
  refine ⟨fun l h => ?_, ?_⟩
  · rw [answerState, (answerLate_kept _ _ _ u).1] at h
    simpa using (List.mem_filter.1 h).2
  · obtain ⟨fs, he, hf⟩ := answerLate_control .setState 2 (stateReply u) u
    exact ⟨fs, hc ▸ he, hl ▸ hf⟩

theorem answerState_mu (s : State) :
    (answerState s).mu = { s.mu with late := s.mu.late.filter fun l => !(l.kind == .setState) } := (answerLate_kept ..).1

theorem stateReply_eq (s : State) : stateReply s = number 1 s.mu.service.code
    ++ (if s.mu.recoveryFinding = .none then [] else s.mu.recoveryFinding.bytes) := rfl

/-! ### A change of service state -/

theorem changeService_rest (new : Service) (cause : ChangeCause) (s : State) :
    let u := changeService new cause s
    u.mu = { s.mu with service := new } ∧ u.loc = s.loc ∧ u.fil = s.fil ∧ u.recovery = s.recovery ∧ u.lib = s.lib
      ∧ u.drives = s.drives ∧ u.rli.control = s.rli.control :=
  ⟨raise_mu .., raise_loc .., raise_fil .., raise_recovery .., raise_lib .., raise_drives .., raise_control ..⟩

/-- A pending notice of another kind stays at a change of service state. -/
theorem mem_changeService {new : Service} {cause : ChangeCause} {m : Notice} (hm : m ∈ s.rli.notices)
    (hk : m.details.kind ≠ 8) : m ∈ (changeService new cause s).rli.notices :=
  mem_raise (s := { s with mu.service := new }) hm hk

/-! ### The entry to STANDBY -/

/-- STATE-CHANGED is raised, the cache is empty and the idle orders WAITING are withdrawn (R58, R66, R172). -/
def standbyBegun (cause : ChangeCause) (s : State) : State :=
  let v := changeService .standby cause { s with mu.drain := none }
  { v with loc.cache := [], lib.orders := v.lib.orders.filter fun o => !o.idleAny }

/-- The drives whose cartridge goes home (R172), or was on its way (log 41). -/
def State.goingHome (s : State) : List Nat := (List.range 4).filter fun d => (s.drive d).sendsHome || s.idleReturned d

theorem enterStandby_eq (cause : ChangeCause) (s : State) :
    enterStandby cause s = s.goingHome.foldl (fun s d => newUnmount d true s) (standbyBegun cause s) := by
  have hd : (changeService .standby cause { s with mu.drain := none }).goingHome = s.goingHome := by
    unfold State.goingHome State.idleReturned State.drive
    obtain ⟨-, -, -, -, hlib, hdrives, -⟩ := changeService_rest .standby cause { s with mu.drain := none }
    rw [hlib, hdrives]
  rw [← hd]
  rfl

theorem enterStandby_ordersOnly (cause : ChangeCause) (s : State) : OrdersOnly (standbyBegun cause s) (enterStandby cause s) := by
  rw [enterStandby_eq]
  exact .foldl (fun _ _ => .newUnmount) _ _

theorem standbyBegun_rest (cause : ChangeCause) (s : State) :
    let u := standbyBegun cause s
    u.mu = { s.mu with drain := none, service := .standby } ∧ u.loc = { s.loc with cache := [] } ∧ u.fil = s.fil
      ∧ u.recovery = s.recovery ∧ u.rli.control = s.rli.control
      ∧ u.lib.orders = s.lib.orders.filter fun o => !o.idleAny := by
  obtain ⟨hmu, hloc, hfil, hrec, hlib, -, hcontrol⟩ := changeService_rest .standby cause { s with mu.drain := none }
  unfold standbyBegun
  dsimp only
  exact ⟨hmu, by rw [hloc], hfil, hrec, hcontrol, by rw [hlib]⟩

theorem enterStandby_rest (cause : ChangeCause) (s : State) :
    let u := enterStandby cause s
    u.mu = { s.mu with drain := none, service := .standby } ∧ u.loc = { s.loc with cache := [] } ∧ u.fil = s.fil
      ∧ u.recovery = s.recovery ∧ u.rli.control = s.rli.control := by
  obtain ⟨hmu, hloc, hfil, hrec, hcontrol, -⟩ := standbyBegun_rest cause s
  obtain ⟨os, n, a, e⟩ := enterStandby_ordersOnly cause s
  dsimp only
  rw [e]
  exact ⟨hmu, hloc, hfil, hrec, hcontrol⟩

theorem enterStandby_notices (cause : ChangeCause) (s : State) : (enterStandby cause s).rli.notices
    = (changeService .standby cause { s with mu.drain := none }).rli.notices := by
  obtain ⟨os, n, a, e⟩ := enterStandby_ordersOnly cause s
  rw [e]
  rfl

/-! ### The orders at the entry to STANDBY -/

theorem idleAny_iff {o : Order} : o.idleAny = true ↔ (∃ d, o.kind = .unmount d false) ∧ o.inService = false := by
  unfold Order.idleAny
  split
  · next k h => simp [h]
  · next k h => simp [h]
  · next k h => simp [h]

/-- A new unmount order of any drive leaves the drive with one (R45). -/
theorem newUnmount_keeps_unmounts {i : Nat} (h : ∃ o ∈ s.lib.orders, o.unmounts d = true) :
    ∃ o ∈ (newUnmount i true s).lib.orders, o.unmounts d = true := by
  by_cases hi : i = d
  · exact hi ▸ newUnmount_unmounts i s
  · obtain ⟨o, ho, hu⟩ := h
    obtain ⟨firm, hk⟩ := unmounts_iff.1 hu
    have hun : o ∈ s.unreplaced i true := List.mem_filter.2 ⟨ho, by simp [Order.idleWaiting, hk, Ne.symm hi]⟩
    by_cases hx : ∃ o ∈ s.unreplaced i true, ∃ f, o.kind = .unmount i f
    · rw [newUnmount_orders_held hx]
      exact ⟨o, hun, hu⟩
    · rw [newUnmount_orders_new (by simpa using hx)]
      exact ⟨_, List.mem_append_left _ (List.mem_map.2 ⟨o, hun, rfl⟩), hu⟩

/-- An order at the entry to STANDBY was there and is no idle one WAITING, or it is the firm one of a drive whose cartridge
goes home. -/
theorem enterStandby_order {cause : ChangeCause} {o : Order} (h : o ∈ (enterStandby cause s).lib.orders) :
    (∃ p ∈ s.lib.orders, p.kind = o.kind ∧ o.idleAny = false) ∨ ∃ d ∈ s.goingHome, o.kind = .unmount d true := by
  revert o
  obtain ⟨-, -, -, -, -, horders⟩ := standbyBegun_rest cause s
  have keep : ∀ (l : List Nat) (t : State), (∀ d ∈ l, d ∈ s.goingHome) →
      (∀ o ∈ t.lib.orders, (∃ p ∈ s.lib.orders, p.kind = o.kind ∧ o.idleAny = false)
        ∨ ∃ d ∈ s.goingHome, o.kind = .unmount d true) →
      ∀ o ∈ (l.foldl (fun s d => newUnmount d true s) t).lib.orders, (∃ p ∈ s.lib.orders, p.kind = o.kind ∧ o.idleAny = false)
        ∨ ∃ d ∈ s.goingHome, o.kind = .unmount d true := by
    intro l
    induction l with
    | nil => exact fun t _ ht => ht
    | cons i l ih =>
      intro t hl ht
      refine ih _ (fun d hd => hl d (List.mem_cons_of_mem _ hd)) fun o ho => ?_
      rcases newUnmount_order ho with ⟨-, hk⟩ | ⟨q, hq, n, rfl⟩
      · exact .inr ⟨i, hl i List.mem_cons_self, hk⟩
      · exact ht q (unreplaced_subset i true t hq)
  rw [enterStandby_eq]
  refine keep _ _ (fun _ h => h) fun o ho => .inl ?_
  rw [horders] at ho
  obtain ⟨hm, hi⟩ := List.mem_filter.1 ho
  exact ⟨o, hm, rfl, by simpa using hi⟩

/-- No idle order waits behind the entry to STANDBY (R172). -/
theorem enterStandby_idle {cause : ChangeCause} {o : Order} (h : o ∈ (enterStandby cause s).lib.orders)
    (hk : o.kind = .unmount d false) : o.inService = true := by
  rcases enterStandby_order h with ⟨p, -, -, hi⟩ | ⟨i, -, hi⟩
  · by_contra hn
    rw [idleAny_iff.2 ⟨⟨d, hk⟩, by simpa using hn⟩] at hi
    cases hi
  · rw [hk] at hi
    cases hi

theorem enterStandby_unmounts {cause : ChangeCause} (h : d ∈ s.goingHome) :
    ∃ o ∈ (enterStandby cause s).lib.orders, o.unmounts d = true := by
  rw [enterStandby_eq]
  exact foldl_reaches (f := fun s d => newUnmount d true s) (P := fun t => ∃ o ∈ t.lib.orders, o.unmounts d = true) (fun t i => newUnmount_keeps_unmounts)
    (fun t => newUnmount_unmounts d t) _ _ h

theorem mem_goingHome (hd : d < 4) : d ∈ s.goingHome ↔ (s.drive d).cartridge ≠ none
    ∧ ((s.drive d).state = .ready ∨ (s.drive d).state = .active
      ∨ ((s.drive d).state = .fault ∧ (s.drive d).cause = some .label)
      ∨ ((s.drive d).state = .unloading ∧ ∃ o ∈ s.lib.orders, o.kind = .unmount d false ∧ o.inService = false)) := by
  simp only [State.goingHome, List.mem_filter, List.mem_range, hd, true_and, Drive.sendsHome, State.idleReturned,
    Order.idleWaiting, Bool.or_eq_true, Bool.and_eq_true, serving_iff, beq_iff_eq, List.any_eq_true, Bool.not_eq_true',
    Option.isSome_iff_ne_none]
  tauto

/-! ### The ends of OPENING -/

/-- The number to come is taken from the range of the side that was OPEN (R123, R179). -/
def nextTaken (s : State) : State :=
  match s.recovery.openAtEntry.bind s.rangeOf with
  | none => s
  | some r => { s with fil.nNext := some (r.last + 1) }

theorem nextTaken_rest (s : State) : (nextTaken s).mu = s.mu ∧ (nextTaken s).loc = s.loc
    ∧ (nextTaken s).recovery = s.recovery ∧ (nextTaken s).rli = s.rli := by
  unfold nextTaken
  split <;> exact ⟨rfl, rfl, rfl, rfl⟩

theorem retestHalt_rest (s : State) : (retestHalt s).loc = s.loc ∧ (retestHalt s).recovery = s.recovery
    ∧ (retestHalt s).rli = s.rli ∧ (retestHalt s).fil.nNext = s.fil.nNext := by
  unfold retestHalt
  split
  · exact ⟨rfl, rfl, rfl, rfl⟩
  · split <;> exact ⟨rfl, rfl, rfl, rfl⟩

/-- RECOVERY-DONE is raised and the recovery is over, before the part enters SERVING (R179). -/
def recoveryTold (s : State) : State :=
  { recoveryNotice .none (retestHalt (nextTaken s)) with recovery := Recovery.reset }

theorem recoveryDone_eq (s : State) : recoveryDone s = answerState (changeService .serving .openingEnd (recoveryTold s)) := rfl

theorem recoveryTold_rest (s : State) : (recoveryTold s).mu = s.mu ∧ (recoveryTold s).loc = s.loc
    ∧ (recoveryTold s).recovery = Recovery.reset ∧ (recoveryTold s).rli.control = s.rli.control
    ∧ (recoveryTold s).fil.nNext = (nextTaken s).fil.nNext := by
  obtain ⟨hmu, hloc, -, hrli⟩ := nextTaken_rest s
  obtain ⟨gloc, -, grli, gnext⟩ := retestHalt_rest (nextTaken s)
  unfold recoveryTold recoveryNotice
  dsimp only
  rw [raise_mu, raise_loc, raise_control, raise_fil, retestHalt_mu, gloc, grli, hmu, hloc, hrli]
  exact ⟨rfl, rfl, rfl, rfl, gnext⟩

theorem recoveryTold_notice (h : s.mu.manager ≠ none) : ∃ m ∈ (recoveryTold s).rli.notices,
    m.details = .recoveryDone s.recovery.walked s.recovery.added (nextTaken s).fil.nNext .none := by
  obtain ⟨hmu, -, hrec, -⟩ := nextTaken_rest s
  obtain ⟨-, grec, -, gnext⟩ := retestHalt_rest (nextTaken s)
  obtain ⟨m, hm, hd⟩ := raise_pending (s := retestHalt (nextTaken s)) (d := .recoveryDone (retestHalt (nextTaken s)).recovery.walked
    (retestHalt (nextTaken s)).recovery.added (retestHalt (nextTaken s)).fil.nNext .none) (by rwa [retestHalt_mu, hmu])
  exact ⟨m, hm, by rw [hd, grec, hrec, gnext]⟩

theorem nextTaken_open {n : Nat} {r : RangeEntry} (ho : s.recovery.openAtEntry = some n) (hr : s.rangeOf n = some r) :
    (nextTaken s).fil.nNext = some (r.last + 1) := by
  simp [nextTaken, ho, hr]

theorem nextTaken_none (ho : s.recovery.openAtEntry = none) : (nextTaken s).fil.nNext = s.fil.nNext := by
  simp [nextTaken, ho]

theorem recoveryFound_eq (f : RecoveryFinding) (s : State) :
    recoveryFound f s = answerState (enterStandby .openingEnd (findingTold f s)) := rfl

theorem findingTold_rest (f : RecoveryFinding) (s : State) : (findingTold f s).loc = s.loc
    ∧ (findingTold f s).recovery = Recovery.reset ∧ (findingTold f s).fil.closeOwed = none
    ∧ (findingTold f s).fil.nNext = s.fil.nNext ∧ (findingTold f s).rli = (recoveryNotice f { s with mu.recoveryFinding := f }).rli := by
  unfold findingTold
  dsimp only
  rw [withdrawMarker_loc, withdrawMarker_recovery, withdrawMarker_fil, withdrawMarker_rli]
  unfold recoveryNotice
  rw [raise_loc, raise_fil]
  exact ⟨rfl, rfl, rfl, rfl, rfl⟩

/-- With a manager bound, RECOVERY-DONE is pending in `u` with what the recovery of `s` came to (R179). -/
def State.endTold (s u : State) (f : RecoveryFinding) : Prop := s.mu.manager ≠ none →
  ∃ m ∈ u.rli.notices, m.details = .recoveryDone s.recovery.walked s.recovery.added u.fil.nNext f

theorem recoveryDone_kind (walked added : Nat) (n : Option Nat) (f : RecoveryFinding) :
    (NoticeDetails.recoveryDone walked added n f).kind ≠ 8 := Nat.succ_ne_self 8

/-- A recovery that ends with no finding (R179). -/
theorem recoveryDone_ends (hf : s.mu.recoveryFinding = .none) :
    let u := recoveryDone s
    u.mu.service = .serving ∧ u.recovery = Recovery.reset ∧ u.loc = s.loc ∧ u.fil.nNext = (nextTaken s).fil.nNext
      ∧ s.endTold u .none ∧ s.stateAnswered u (number 1 3) := by
  let v := changeService .serving .openingEnd (recoveryTold s)
  obtain ⟨hmu, hloc, hrec, hcontrol, hnext⟩ := recoveryTold_rest s
  obtain ⟨vmu, vloc, vfil, vrec, -, -, vcontrol⟩ : v.mu = _ ∧ _ := changeService_rest .serving .openingEnd (recoveryTold s)
  obtain ⟨ufil, uloc, urec⟩ := answerLate_rest (· == .setState) (fun _ => 2) (fun _ => stateReply v) v
  have unext : (answerState v).fil.nNext = (nextTaken s).fil.nNext :=
    (congrArg Fil.nNext (ufil.trans vfil)).trans hnext
  have reply : stateReply v = number 1 3 := by
    rw [stateReply_eq, vmu, hmu, if_pos hf, List.append_nil]
    rfl
  rw [recoveryDone_eq]
  refine ⟨by rw [answerState_mu, vmu], urec.trans (vrec.trans hrec), uloc.trans (vloc.trans hloc), unext, fun hm => ?_, ?_⟩
  · obtain ⟨m, hin, hd⟩ := recoveryTold_notice hm
    refine ⟨m, ?_, hd.trans (by rw [unext])⟩
    rw [answerState, answerLate_notices]
    exact mem_changeService hin (hd ▸ recoveryDone_kind _ _ _ _)
  · exact reply ▸ answerState_answers (vcontrol.trans hcontrol) (by rw [vmu, hmu])

/-- A recovery that ends with a finding (R179). -/
theorem recoveryFound_ends {f : RecoveryFinding} (hf : f ≠ .none) :
    let u := recoveryFound f s
    u.mu.service = .standby ∧ u.mu.recoveryFinding = f ∧ u.recovery = Recovery.reset ∧ u.fil.closeOwed = none
      ∧ u.fil.nNext = s.fil.nNext ∧ u.loc = { s.loc with cache := [] } ∧ s.endTold u f
      ∧ s.stateAnswered u (number 1 1 ++ f.bytes) := by
  let v := enterStandby .openingEnd (findingTold f s)
  obtain ⟨hmu, -⟩ := findingTold_kept f s
  obtain ⟨hloc, hrec, hclose, hnext, hrli⟩ := findingTold_rest f s
  obtain ⟨vmu, vloc, vfil, vrec, vcontrol⟩ : v.mu = _ ∧ _ := enterStandby_rest .openingEnd (findingTold f s)
  obtain ⟨ufil, uloc, urec⟩ := answerLate_rest (· == .setState) (fun _ => 2) (fun _ => stateReply v) v
  have ufil' : (answerState v).fil = (findingTold f s).fil := ufil.trans vfil
  have reply : stateReply v = number 1 1 ++ f.bytes := by
    rw [stateReply_eq, vmu, hmu, if_neg hf]
    rfl
  rw [recoveryFound_eq]
  refine ⟨by rw [answerState_mu, vmu], by rw [answerState_mu, vmu, hmu], urec.trans (vrec.trans hrec), by rw [ufil', hclose],
    by rw [ufil', hnext], uloc.trans (vloc.trans (by rw [hloc])), fun hm => ?_, ?_⟩
  · obtain ⟨m, hin, hd⟩ := raise_pending (s := { s with mu.recoveryFinding := f })
      (d := .recoveryDone s.recovery.walked s.recovery.added s.fil.nNext f) hm
    refine ⟨m, ?_, hd.trans (by rw [ufil', hnext])⟩
    rw [answerState, answerLate_notices, enterStandby_notices]
    exact mem_changeService (s := { findingTold f s with mu.drain := none }) (hrli ▸ hin) (hd ▸ recoveryDone_kind _ _ _ _)
  · have control : v.rli.control = s.rli.control := vcontrol.trans (by rw [hrli]; exact raise_control ..)
    exact reply ▸ answerState_answers control (by rw [vmu, hmu])

/-! ### The end of a drain -/

theorem drained_iff : s.drained = true ↔ (∀ c < 16, (s.context c).state = .free) ∧ (∀ x ∈ s.fil.records, x.state = .free)
    ∧ s.fil.activity = .idle := by
  have hactive (x : CtxState) : x.active = false ↔ x = .free := by cases x <;> simp [CtxState.active]
  simp [State.drained, State.contextsWhere, hactive, and_assoc]

/-- The opening side and the close owed that remain are removed when the filing work is being ended (R124). -/
def filingDropped (s : State) : State :=
  if s.stopping then { s with fil.opening := none, fil.closeOwed := none } else s

theorem filingDropped_rest (s : State) : (filingDropped s).mu = s.mu ∧ (filingDropped s).rli = s.rli := by
  unfold filingDropped
  split <;> exact ⟨rfl, rfl⟩

theorem drainEnd_eq (s : State) : drainEnd s = if s.mu.service = .draining ∧ s.drained = true
    then answerRestart (answerState (enterStandby .drainEnd (filingDropped s))) else s := rfl

/-- The replies of a drain's end: the SET-STATEs first, then the RESTART (log 6). -/
theorem drainEnd_replies (s : State) :
    let v := enterStandby .drainEnd (filingDropped s)
    let u := answerRestart (answerState v)
    u.mu = { v.mu with late := s.mu.late.filter fun l => l.kind != .setState && l.kind != .restart }
      ∧ ∃ fs, u.rli.control = s.rli.control ++ fs
        ∧ fs.map (·.frame) = lateFrames s.mu.late .setState 2 (stateReply v) ++ lateFrames s.mu.late .restart 19 [] := by
  intro v u
  obtain ⟨hmu, hrli⟩ := filingDropped_rest s
  obtain ⟨vmu, -, -, -, vcontrol⟩ := enterStandby_rest .drainEnd (filingDropped s)
  have vlate : v.mu.late = s.mu.late := by rw [show v.mu = _ from vmu, hmu]
  obtain ⟨fs, hc, hf⟩ := answerLate_control .setState 2 (stateReply v) v
  obtain ⟨gs, gc, gf⟩ := answerLate_control .restart 19 [] (answerState v)
  refine ⟨?_, fs ++ gs, ?_, ?_⟩
  · refine (answerLate_kept ..).1.trans ?_
    rw [answerState_mu, vlate, List.filter_filter]
    simp only [bne, Bool.and_comm]
  · refine gc.trans ?_
    rw [show (answerState v).rli.control = _ from hc, show v.rli.control = _ from vcontrol, hrli, List.append_assoc]
  · rw [List.map_append, hf, gf, answerState_mu, vlate]
    refine congrArg (_ ++ ·) ?_
    unfold lateFrames
    rw [List.filter_filter]
    congr 2
    funext l
    cases l.kind <;> rfl

theorem startedUp_iff : s.startedUp = true ↔ s.memory = .passed ∧ (∀ x ∈ s.drives, x.probing = false)
    ∧ (s.lib.picker.state = .fault ∨ (s.lib.picker.state = .parked ∧ s.lib.picker.inventoryOwed = false)) := by
  simp only [State.startedUp, Bool.and_eq_true, Bool.or_eq_true, beq_iff_eq, Bool.not_eq_true', List.all_eq_true]
  tauto

/-- Settles O52: each end by the state before its replies, the entry to STANDBY by its orders. -/
theorem serviceEndings : Obligations.ServiceEndings := by
  refine ⟨fun s => ?opening, fun s cause => ?standby, fun s => ?startup, fun s => ?drain⟩
  case opening =>
    intro told answered
    refine ⟨fun hf => ?_, fun f hf => recoveryFound_ends hf⟩
    obtain ⟨service, recovery, loc, next, hold, hanswered⟩ := recoveryDone_ends hf
    exact ⟨service, recovery, loc, fun n r ho hr => next.trans (nextTaken_open ho hr), fun ho => next.trans (nextTaken_none ho),
      hold, hanswered⟩
  case standby =>
    obtain ⟨hmu, hloc, -⟩ := enterStandby_rest cause s
    refine ⟨congrArg Mu.service hmu, congrArg Mu.drain hmu, hloc, fun hm => ?_, fun o ho d hk => enterStandby_idle ho hk,
      fun d hd => ⟨fun hh => ?_, fun hh o ho firm hk => ?_⟩⟩
    · rw [enterStandby_notices]
      exact raise_pending hm
    · obtain ⟨o, ho, hu⟩ := enterStandby_unmounts (cause := cause) ((mem_goingHome hd).2 hh)
      obtain ⟨firm, hk⟩ := unmounts_iff.1 hu
      refine ⟨o, ho, ?_⟩
      cases firm with
      | true => exact .inl hk
      | false => exact .inr ⟨hk, enterStandby_idle ho hk⟩
    · rcases enterStandby_order ho with ⟨p, hp, hpk, -⟩ | ⟨i, hi, hik⟩
      · exact ⟨p, hp, hpk⟩
      · rw [hk] at hik
        cases hik
        exact absurd ((mem_goingHome hd).1 hi) hh
  case startup =>
    intro started
    have hst : started ↔ s.mu.service = .startup ∧ s.startedUp = true := and_congr_right fun _ => startedUp_iff.symm
    exact ⟨fun h => if_pos (hst.1 h), fun h => if_neg (mt hst.2 h)⟩
  case drain =>
    intro done finding replies u
    have hdone : done ↔ s.mu.service = .draining ∧ s.drained = true := and_congr_right fun _ => drained_iff.symm
    refine ⟨fun h => if_neg (mt hdone.2 h), fun h => ?_⟩
    have hu : u = answerRestart (answerState (enterStandby .drainEnd (filingDropped s))) :=
      (drainEnd_eq s).trans (if_pos (hdone.1 h))
    obtain ⟨hmu, -⟩ := filingDropped_rest s
    obtain ⟨vmu, -⟩ := enterStandby_rest .drainEnd (filingDropped s)
    obtain ⟨umu, fs, hc, hf⟩ := drainEnd_replies s
    have reply : stateReply (enterStandby .drainEnd (filingDropped s)) = number 1 1 ++ finding := by
      rw [stateReply_eq, vmu, hmu]
      rfl
    rw [hu, umu, vmu]
    exact ⟨rfl, rfl, rfl, fs, hc, by rw [hf, reply]; rfl⟩

end Sys2Proof.Machine
end

section
/-! SUPPORT. The picker arbiter (R50 to R52): which orders are eligible and with which drive, and the choice of a victim. -/

namespace Sys2Proof.Machine

variable {s : State} {o : Order} {d n : Nat}

/-! ### The least of a list -/

/-- The first number with the least key among those below a bound that meet a condition. -/
theorem leastBy_filter {key : Nat → Nat × Nat} {p : Nat → Bool} {m : Nat} (hd : d < m) (hp : p d = true)
    (hmin : ∀ i < m, p i = true → (key d).1 < (key i).1
      ∨ ((key d).1 = (key i).1 ∧ ((key d).2 < (key i).2 ∨ ((key d).2 = (key i).2 ∧ d ≤ i)))) :
    leastBy key ((List.range m).filter p) = some d := by
  unfold leastBy
  rw [List.find?_filter]
  refine find_range_lowest hd ?_ fun i hi => ?_
  · simp only [hp, true_and, Bool.decide_and, Bool.decide_eq_true, List.all_eq_true, List.mem_filter,
      List.mem_range, Bool.or_eq_true, Bool.and_eq_true, decide_eq_true_eq, beq_iff_eq]
    intro i ⟨hi, hpi⟩
    have := hmin i hi hpi
    omega
  · by_contra hc
    simp only [Bool.not_eq_false, Bool.decide_and, Bool.decide_eq_true, Bool.and_eq_true, List.all_eq_true, List.mem_filter,
      List.mem_range, Bool.or_eq_true, decide_eq_true_eq, beq_iff_eq] at hc
    obtain ⟨hpi, hall⟩ := hc
    have h1 := hall d ⟨hd, hp⟩
    have h2 := hmin i (by omega) hpi
    omega

theorem leastBy_none {key : Nat → Nat × Nat} {p : Nat → Bool} {m : Nat} (h : ∀ i < m, p i = false) :
    leastBy key ((List.range m).filter p) = none := by
  have he : (List.range m).filter p = [] := List.filter_eq_nil_iff.2 fun i hi => by simp [h i (List.mem_range.1 hi)]
  rw [he]
  rfl

/-! ### Unmount orders -/

theorem target_inService (h : o.inService = true) : s.target o = none := if_pos h

theorem target_unmount {firm : Bool} (hk : o.kind = .unmount d firm) (hs : o.inService = false) :
    s.target o = if s.unmountEligible d && !s.idleBarred d firm then some d else none := by
  simp [State.target, hk, hs]

theorem unmountEligible_iff : s.unmountEligible d = true ↔ (s.drive d).cartridge ≠ none
    ∧ ((s.drive d).state = .ready ∨ (s.drive d).state = .active
      ∨ ((s.drive d).state = .fault ∧ (s.drive d).cause = some .label)
      ∨ ((s.drive d).state = .unloading ∧ ¬s.targeted d = true)) := by
  simp only [State.unmountEligible, State.atRest, Bool.and_eq_true, Bool.or_eq_true, serving_iff, beq_iff_eq, bne_iff_ne,
    Option.isSome_iff_ne_none, Bool.not_eq_true', Bool.not_eq_true]
  cases (s.drive d).state <;> simp [and_comm]

theorem idleBarred_iff {firm : Bool} : (!s.idleBarred d firm) = true ↔ firm = true ∨ s.sequenceOn d = false := by
  cases firm <;> simp [State.idleBarred]

theorem target_unmount_iff {firm : Bool} (hk : o.kind = .unmount d firm) (hs : o.inService = false) :
    (s.target o = some d ↔ (firm = true ∨ s.sequenceOn d = false) ∧ (s.drive d).cartridge ≠ none
        ∧ ((s.drive d).state = .ready ∨ (s.drive d).state = .active
          ∨ ((s.drive d).state = .fault ∧ (s.drive d).cause = some .label)
          ∨ ((s.drive d).state = .unloading ∧ ¬∃ p ∈ s.lib.orders, p.inService = true ∧ p.target = some d)))
      ∧ (s.target o = some d ∨ s.target o = none) := by
  rw [target_unmount hk hs, ← targeted_iff, ← unmountEligible_iff, ← idleBarred_iff, and_comm (a := (!_) = true), ← Bool.and_eq_true]
  cases s.unmountEligible d && !s.idleBarred d firm <;> simp

/-! ### The drives a mount order may take -/

theorem holdsWanted_iff : s.holdsWanted d = true ↔ ∃ m, (s.drive d).mounted = some m
    ∧ ((s.openSide = some m ∧ s.fil.queue ≠ []) ∨ s.fil.opening = some m) := by
  unfold State.holdsWanted State.filingsWaiting
  cases (s.drive d).mounted <;> simp

theorem readyTarget_iff : s.readyTarget d = true ↔ (s.drive d).state = .ready ∧ (s.drive d).hasWork = false
    ∧ ¬∃ m, (s.drive d).mounted = some m ∧ ((s.openSide = some m ∧ s.fil.queue ≠ []) ∨ s.fil.opening = some m) := by
  rw [← holdsWanted_iff]
  simp [State.readyTarget, and_assoc]

theorem forcedInService_iff : s.forcedInService d = false ↔ ∀ p ∈ s.lib.orders, p.inService = true → p.forced ≠ some d := by
  simp [State.forcedInService]

/-- A READY drive that R50 kind 2 allows. -/
def State.spareTarget (s : State) (d : Nat) : Bool :=
  s.readyTarget d && !(s.drive d).offlinePending && !s.forcedInService d

theorem spareTarget_iff : s.spareTarget d = true ↔ ((s.drive d).state = .ready ∧ (s.drive d).hasWork = false
      ∧ ¬∃ m, (s.drive d).mounted = some m ∧ ((s.openSide = some m ∧ s.fil.queue ≠ []) ∨ s.fil.opening = some m))
    ∧ (s.drive d).offlinePending = false ∧ ∀ p ∈ s.lib.orders, p.inService = true → p.forced ≠ some d := by
  rw [← readyTarget_iff, ← forcedInService_iff]
  simp [State.spareTarget, and_assoc]

theorem victim_iff : s.victim d = true ↔ ((s.drive d).state = .ready ∨ (s.drive d).state = .active)
    ∧ (s.drive d).cartridge ≠ none ∧ (s.drive d).offlinePending = false
    ∧ (∀ c ∈ (s.drive d).attached, (s.context c).priority ≤ 2) ∧ s.sequenceOn d = false := by
  simp [State.victim, serving_iff, Option.isSome_iff_ne_none, and_assoc]

/-! ### Mount orders -/

theorem target_mount (hk : o.kind = .mount n) (hs : o.inService = false) : s.target o = s.targetOf o n := by
  simp [State.target, hk, hs]

theorem targetOf_picker {r : SideRecord} (hr : s.side n = some r) (hl : r.location = .picker) : s.targetOf o n = none := by
  simp [State.targetOf, hr, hl]

theorem targetOf_home {r : SideRecord} (hr : s.side n = some r) (hl : r.location = .home) :
    s.targetOf o n = s.freeTarget o.priority := by
  simp [State.targetOf, hr, hl]

theorem targetOf_drive {r : SideRecord} (hr : s.side n = some r) (hl : r.location = .drive d) : s.targetOf o n =
    if o.forced = some d ∧ s.atRest (.drive d) = true ∧ (s.readyTarget d = true ∨ (o.priority = 3 ∧ s.victim d = true))
    then some d else none := by
  simp [State.targetOf, hr, hl]

theorem emptyTarget_lowest (hd : d < 4) (h : (s.drive d).state = .empty) (hl : ∀ i < d, (s.drive i).state ≠ .empty) :
    s.emptyTarget = some d :=
  find_range_lowest hd (by simpa using h) fun i hi => by simpa using hl i hi

theorem emptyTarget_none (h : ∀ i < 4, (s.drive i).state ≠ .empty) : s.emptyTarget = none :=
  List.find?_eq_none.2 fun i hi => by simpa using h i (List.mem_range.1 hi)

theorem usedLeast_least (hd : d < 4) (h : s.spareTarget d = true)
    (hl : ∀ i < 4, s.spareTarget i = true → (s.drive d).lastReady < (s.drive i).lastReady
      ∨ ((s.drive d).lastReady = (s.drive i).lastReady ∧ d ≤ i)) : s.usedLeast = some d :=
  leastBy_filter hd h fun i hi hs => (hl i hi hs).imp_right fun ⟨he, hle⟩ => ⟨he, .inr ⟨rfl, hle⟩⟩

theorem usedLeast_none (h : ∀ i < 4, ¬s.spareTarget i = true) : s.usedLeast = none :=
  leastBy_none fun i hi => by simpa [State.spareTarget] using h i hi

theorem freeTarget_empty {k : Nat} (h : s.emptyTarget = some d) : s.freeTarget k = some d := by
  simp [State.freeTarget, h]

theorem freeTarget_used {k : Nat} (he : s.emptyTarget = none) (h : s.usedLeast = some d) : s.freeTarget k = some d := by
  simp [State.freeTarget, he, h]

theorem freeTarget_victim {k : Nat} (he : s.emptyTarget = none) (hu : s.usedLeast = none) :
    s.freeTarget k = if k = 3 then s.chosenVictim else none := by
  simp [State.freeTarget, he, hu]

/-- An order whose cartridge stands in a drive takes its forced drive (R51): such a drive is not UNLOADING. -/
theorem targetOf_forced {r : SideRecord} (hr : s.side n = some r) (hl : r.location = .drive d) : s.targetOf o n =
      if o.forced = some d ∧ (s.readyTarget d = true ∨ (o.priority = 3 ∧ s.victim d = true)) then some d else none := by
  have hrest : s.readyTarget d = true ∨ (o.priority = 3 ∧ s.victim d = true) → s.atRest (.drive d) = true := by
    rintro (h | ⟨-, h⟩)
    · simp [State.atRest, (readyTarget_iff.1 h).1]
    · rcases (victim_iff.1 h).1 with h | h <;> simp [State.atRest, h]
  rw [targetOf_drive hr hl]
  exact if_congr (by tauto) rfl rfl

/-! ### Ranks -/

theorem victimRank_none (h : (s.drive d).attached = []) : s.victimRank d = 0 := by
  simp [State.victimRank, h]

theorem victimRank_some (h : (s.drive d).attached ≠ []) :
    s.victimRank d = greatest ((s.drive d).attached.map fun c => (s.context c).priority) + 1 := by
  simp [State.victimRank, h]

theorem lt_victimRank {c : Nat} (h : c ∈ (s.drive d).attached) : (s.context c).priority < s.victimRank d := by
  rw [victimRank_some (List.ne_nil_of_mem h)]
  exact Nat.lt_succ_of_le (le_greatest (List.mem_map_of_mem (f := fun c => (s.context c).priority) h))

theorem victimRank_at (h : (s.drive d).attached ≠ []) :
    ∃ c ∈ (s.drive d).attached, s.victimRank d = (s.context c).priority + 1 := by
  obtain ⟨c, hc, e⟩ := List.mem_map.1 (greatest_mem (l := (s.drive d).attached.map fun c => (s.context c).priority)
    (by simpa using h))
  exact ⟨c, hc, by rw [victimRank_some h, e]⟩

theorem grantRank_eq (x : Drive) : x.grantRank = x.lastGranted.elim 0 (· + 1) := by
  unfold Drive.grantRank
  cases x.lastGranted <;> rfl

end Sys2Proof.Machine
end

section
/-! SUPPORT. Grants (R53): what marks one, what leaves a drive that gives up its work, and what a lost filing sequence leaves
of the orders and the drives. -/

namespace Sys2Proof.Machine

variable {s t u v : State} {o : Order} {d n : Nat} {forced : Option Nat}

/-! ### What a loss leaves of the drives and the orders -/

/-- A drive but for its queue and the marker among its incoming waiters. -/
def Drive.bare (x : Drive) : Drive := { x with queue := [], incomingMarker := false }

/-- The second order is the first at another priority, without its marker at most. -/
def Order.unmarks (p q : Order) : Prop := ∃ b k, q = { p with marker := b, priority := k } ∧ (p.marker = false → b = false)

theorem Order.unmarks.refl (p : Order) : p.unmarks p := ⟨_, _, rfl, fun h => h⟩

theorem Order.unmarks.trans {p q r : Order} : p.unmarks q → q.unmarks r → p.unmarks r := by
  rintro ⟨b, k, rfl, h⟩ ⟨b', k', rfl, h'⟩
  exact ⟨b', k', rfl, fun hm => h' (h hm)⟩

theorem Order.unmarks.fields {p q : Order} : p.unmarks q → q.id = p.id ∧ q.kind = p.kind ∧ q.waiters = p.waiters
    ∧ q.age = p.age ∧ q.forced = p.forced ∧ q.inService = p.inService ∧ q.target = p.target := by
  rintro ⟨b, k, rfl, -⟩
  exact ⟨rfl, rfl, rfl, rfl, rfl, rfl, rfl⟩

/-- The drives keep all but queued commands and markers. No order is made, and each that is IN-SERVICE or has waiters stays,
at most without its marker. -/
structure Loses (s t : State) : Prop where
  ctx : t.ctx = s.ctx
  drives : ∀ i, (t.drive i).bare = (s.drive i).bare
  back : ∀ q ∈ t.lib.orders, ∃ p ∈ s.lib.orders, p.unmarks q
  forth : ∀ p ∈ s.lib.orders, p.inService = true ∨ p.waiters ≠ [] → ∃ q ∈ t.lib.orders, p.unmarks q

theorem Loses.trans (h : Loses s t) (g : Loses t u) : Loses s u where
  ctx := g.ctx.trans h.ctx
  drives i := (g.drives i).trans (h.drives i)
  back q hq := by
    obtain ⟨r, hr, e⟩ := g.back q hq
    obtain ⟨p, hp, e'⟩ := h.back r hr
    exact ⟨p, hp, e'.trans e⟩
  forth p hp hn := by
    obtain ⟨r, hr, e⟩ := h.forth p hp hn
    obtain ⟨-, -, hw, -, -, hs, -⟩ := e.fields
    obtain ⟨q, hq, e'⟩ := g.forth r hr (by rwa [hs, hw])
    exact ⟨q, hq, e.trans e'⟩

theorem Loses.unseen (hc : t.ctx = s.ctx) (hd : t.drives = s.drives) (ho : t.lib.orders = s.lib.orders) : Loses s t where
  ctx := hc
  drives i := by simp only [State.drive, hd]
  back q hq := ⟨q, ho ▸ hq, .refl q⟩
  forth p hp _ := ⟨p, ho ▸ hp, .refl p⟩

theorem Loses.refl (s : State) : Loses s s := .unseen rfl rfl rfl

theorem Loses.ite {p : Prop} [Decidable p] {a b : State} (ha : Loses s a) (hb : Loses s b) :
    Loses s (if p then a else b) := by
  split
  · exact ha
  · exact hb

/-- A withdrawn marker takes along only orders without a waiter that are WAITING (R47). -/
theorem Loses.withdrawMarker : Loses s (withdrawMarker s) := by
  have ho : (Sys2Proof.Machine.withdrawMarker s).lib.orders = ((s.lib.orders.map fun o => { o with marker := false }).filter
      fun o => !o.abandoned).map fun o => { o with priority := s.priorityOf o } := by
    unfold Sys2Proof.Machine.withdrawMarker
    dsimp only
    split <;> exact reprioritise_orders _
  refine ⟨withdrawMarker_ctx s, fun i => ?_, fun q hq => ?_, fun p hp hn => ?_⟩
  · rw [drive_map _ rfl (withdrawMarker_drives s)]
    rfl
  · rw [ho] at hq
    obtain ⟨q1, h1, rfl⟩ := List.mem_map.1 hq
    obtain ⟨p, hp, rfl⟩ := List.mem_map.1 (List.mem_filter.1 h1).1
    exact ⟨p, hp, _, _, rfl, fun _ => rfl⟩
  · have hstays : ({ p with marker := false } : Order).abandoned = false := by
      rw [Bool.eq_false_iff, ne_eq, abandoned_iff]
      rintro ⟨-, hs, hw, -⟩
      rcases hn with hn | hn
      · exact absurd (hs.symm.trans hn) (by decide)
      · exact hn hw
    rw [ho]
    refine ⟨_, List.mem_map_of_mem (List.mem_filter.2 ⟨List.mem_map_of_mem hp, ?_⟩), _, _, rfl, fun _ => rfl⟩
    simpa using hstays

theorem Loses.raise {x : NoticeDetails} : Loses s (raise_ x s) := .unseen (by simp) (by simp) (by simp)

theorem Loses.setHalt {h : Halt} : Loses s (setHalt h s) := by
  have h1 : Loses s (haltHeld h s) :=
    .ite (.refl s) (Loses.trans (t := { s with fil.halt := some h }) (.unseen rfl rfl rfl) .raise)
  rw [setHalt_eq]
  exact .ite h1 (h1.trans .withdrawMarker)

theorem Loses.endSequence : Loses s (endSequence s) := .unseen rfl rfl rfl

theorem Loses.spoilExtent {f : Nat} : Loses s (spoilExtent f s) := by
  unfold Sys2Proof.Machine.spoilExtent
  dsimp only
  split <;> exact .unseen rfl rfl rfl

theorem Loses.discardFiling {f : Nat} {c : FileCause} : Loses s (discardFiling f c s) :=
  .ite (.unseen rfl rfl rfl) (.unseen rfl rfl rfl)

theorem Loses.loseIndex : Loses s (loseIndex s) := by
  have hskip (n : Nat) : Loses s (s.modSide n SideRecord.skip) := .unseen rfl rfl rfl
  unfold Sys2Proof.Machine.loseIndex
  split
  · exact .refl s
  · next n _ => exact .ite (.ite (.ite (.unseen rfl rfl rfl) (hskip n)) (hskip n)) (.refl s)

theorem Loses.filingLost : Loses s (filingLost s) := by
  unfold Sys2Proof.Machine.filingLost
  split
  case h_1 f _ _ =>
    have h : Loses s (Sys2Proof.Machine.endSequence (Sys2Proof.Machine.spoilExtent f s)) :=
      Loses.spoilExtent.trans .endSequence
    refine .ite (h.trans .discardFiling) (Loses.trans (h.trans ?_) .setHalt)
    exact .unseen rfl rfl rfl
  case h_2 => exact .endSequence
  case h_3 | h_4 => exact (Loses.loseIndex.trans .endSequence).trans .setHalt
  case h_5 => exact .unseen rfl rfl rfl
  case h_6 | h_7 => exact .refl s

/-! ### The order of a grant -/

/-- Among some orders, a granted one stands IN-SERVICE on its target, which has no WAITING idle order left (R53). -/
structure Granted (o : Order) (d : Nat) (l : List Order) : Prop where
  served : ∃ p ∈ l, p.id = o.id ∧ p.kind = o.kind ∧ p.waiters = o.waiters ∧ p.inService = true
  target : ∀ p ∈ l, p.id = o.id → p.inService = true ∧ p.target = some d
  idle : ∀ p ∈ l, p.kind = .unmount d false → p.inService = true

theorem granted_markGrant (ho : o ∈ s.lib.orders) : Granted o d (markGrant o d s).lib.orders := by
  have hm : ∀ p, p ∈ (markGrant o d s).lib.orders ↔ (∃ q ∈ s.lib.orders,
      (if q.id = o.id then { q with inService := true, target := some d } else q) = p) ∧ p.idleWaiting d = false := fun p =>
    List.mem_filter.trans (and_congr List.mem_map (by simp))
  refine ⟨⟨{ o with inService := true, target := some d }, (hm _).2 ⟨⟨o, ho, if_pos rfl⟩, ?_⟩, rfl, rfl, rfl, rfl⟩,
    fun p hp hi => ?_, fun p hp hk => ?_⟩
  · simp [Order.idleWaiting]
  · obtain ⟨⟨q, -, rfl⟩, -⟩ := (hm p).1 hp
    split at hi
    · next h => rw [if_pos h]; exact ⟨rfl, rfl⟩
    · next h => exact absurd hi h
  · simpa [Order.idleWaiting, hk] using ((hm p).1 hp).2

theorem Granted.newMount {cs : List Nat} {b : Bool} (h : Granted o d s.lib.orders) (hn : o.id < s.lib.nextOrder) :
    Granted o d (newMount n cs b forced s).lib.orders := by
  have hm : ∀ p ∈ (Sys2Proof.Machine.newMount n cs b forced s).lib.orders,
      (∃ q ∈ s.lib.orders, ∃ k, { q with priority := k } = p) ∨ p.id = s.lib.nextOrder ∧ p.kind = .mount n := by
    intro p hp
    rw [newMount_orders] at hp
    obtain ⟨q, hq, rfl⟩ := List.mem_map.1 hp
    rcases List.mem_append.1 hq with hq | hq
    · exact .inl ⟨q, hq, _, rfl⟩
    · rw [List.mem_singleton.1 hq]
      exact .inr ⟨rfl, rfl⟩
  refine ⟨?_, fun p hp hi => ?_, fun p hp hk => ?_⟩
  · obtain ⟨p, hp, hf⟩ := h.served
    rw [newMount_orders]
    exact ⟨_, List.mem_map_of_mem (List.mem_append_left _ hp), hf⟩
  · rcases hm p hp with ⟨q, hq, k, rfl⟩ | ⟨e, -⟩
    · exact h.target q hq hi
    · omega
  · rcases hm p hp with ⟨q, hq, k, rfl⟩ | ⟨-, e⟩
    · exact h.idle q hq hk
    · cases e.symm.trans hk

theorem Granted.loses (h : Granted o d s.lib.orders) (hl : Loses s t) : Granted o d t.lib.orders := by
  refine ⟨?_, fun q hq hi => ?_, fun q hq hk => ?_⟩
  · obtain ⟨p, hp, hid, hk, hw, hs⟩ := h.served
    obtain ⟨q, hq, e⟩ := hl.forth p hp (.inl hs)
    obtain ⟨eid, ek, ew, -, -, es, -⟩ := e.fields
    exact ⟨q, hq, eid.trans hid, ek.trans hk, ew.trans hw, es.trans hs⟩
  · obtain ⟨p, hp, e⟩ := hl.back q hq
    obtain ⟨eid, -, -, -, -, es, et⟩ := e.fields
    obtain ⟨hs, ht⟩ := h.target p hp (eid.symm.trans hi)
    exact ⟨es.trans hs, et.trans ht⟩
  · obtain ⟨p, hp, e⟩ := hl.back q hq
    obtain ⟨-, ek, -, -, -, es, -⟩ := e.fields
    exact es.trans (h.idle p hp (ek.symm.trans hk))

/-! ### The contexts of the target -/

theorem park_parked (x : Context) : x.park.parked = true := by
  unfold Context.park
  split <;> rfl

/-- The steps of `parkAll` before the drive lets its contexts go. -/
def parkEach (cs : List Nat) (s : State) : State := cs.foldl (fun s c => (dropReads c s).modContext c Context.park) s

theorem parkAll_eq (d : Nat) (s : State) :
    parkAll d s = (parkEach (s.drive d).attached s).modDrive d fun x => { x with attached := [] } := rfl

theorem parkEach_lib (cs : List Nat) (s : State) : (parkEach cs s).lib = s.lib := by
  unfold parkEach
  exact foldl_kept (f := fun t c => (dropReads c t).modContext c Context.park) (P := fun t => t.lib = s.lib)
    (fun _ _ h => h) cs rfl

theorem parkEach_bare (cs : List Nat) (i : Nat) (s : State) : ((parkEach cs s).drive i).bare = (s.drive i).bare :=
  foldl_kept (P := fun t => (t.drive i).bare = (s.drive i).bare)
    (fun _ _ ht => (congrArg Drive.bare (drive_map _ rfl rfl i)).trans ht) cs rfl

theorem parkEach_parked {c : Nat} {cs : List Nat} (hc : c ∈ cs) (hl : c < s.ctx.length) :
    ((parkEach cs s).context c).parked = true := by
  have hlen : (parkEach cs s).ctx.length = s.ctx.length :=
    foldl_kept (P := fun t => t.ctx.length = s.ctx.length) (fun t a ht => (List.length_modify _ _ _).trans ht) cs rfl
  refine foldl_reaches (P := fun t : State => c < t.ctx.length → (t.context c).parked = true) (fun t a h hl => ?_) (a := c)
    (fun t hl => ?_) cs s hc (hlen.symm ▸ hl)
  · rw [context_modContext]
    split
    · exact park_parked _
    · exact h (List.length_modify _ _ _ ▸ hl)
  · rw [context_modContext, if_pos ⟨rfl, List.length_modify _ _ _ ▸ hl⟩]
    exact park_parked _

theorem parkAll_bare (i : Nat) (hd : d < s.drives.length) : ((parkAll d s).drive i).bare
    = if d = i then { (s.drive i).bare with attached := [] } else (s.drive i).bare := by
  have hlen : (parkEach (s.drive d).attached s).drives.length = s.drives.length :=
    foldl_kept (P := fun t => t.drives.length = s.drives.length) (fun t a ht => (List.length_map _).trans ht) _ rfl
  rw [parkAll_eq, drive_modDrive, hlen, ← parkEach_bare (s.drive d).attached i s]
  by_cases h : d = i
  · rw [if_pos ⟨h, h ▸ hd⟩, if_pos h]
    rfl
  · rw [if_neg fun hc => h hc.1, if_neg h]

/-! ### A drive that gives up its work to a grant -/

/-- What a grant has brought about in the state `v` before the drive is sent UNLOADING: the order is granted, the drive is
stamped, and its contexts are parked with an order of their own (R53, R94). -/
structure Prepared (o : Order) (d : Nat) (forced : Option Nat) (s v : State) : Prop where
  fixed : v.fixed = s.fixed
  drive : (v.drive d).bare = { (s.drive d).bare with lastGranted := some s.now, attached := [] }
  others : ∀ i, i ≠ d → (v.drive i).bare = (s.drive i).bare
  granted : Granted o d v.lib.orders
  parked : ∀ c ∈ (s.drive d).attached, c < s.ctx.length → (v.context c).parked = true
  order : ∀ m, (s.drive d).attached ≠ [] → (s.drive d).mounted = some m → ∃ p ∈ v.lib.orders, p.kind = .mount m
    ∧ p.waiters = (s.drive d).attached ∧ p.marker = false ∧ p.age = s.now ∧ p.forced = forced ∧ p.inService = false

theorem markGrant_drive (i : Nat) (hd : d < s.drives.length) : (markGrant o d s).drive i
    = if d = i then { s.drive i with lastGranted := some s.now } else s.drive i := by
  refine (drive_modDrive (s := modOrder o.id (fun o => { o with inService := true, target := some d }) s) d i _).trans ?_
  by_cases h : d = i
  · rw [if_pos ⟨h, h ▸ hd⟩, if_pos h]
    rfl
  · rw [if_neg fun hc => h hc.1, if_neg h]
    rfl

theorem preempt_unattached {turn : Bool} (h : (s.drive d).attached = []) : preempt d turn s = s := by
  simp [preempt, h]

theorem preempt_attached {turn : Bool} {m : Nat} (ha : (s.drive d).attached ≠ []) (hm : (s.drive d).mounted = some m) :
    preempt d turn s = newMount m (s.drive d).attached false (if turn then some d else none) (parkAll d s) := by
  unfold preempt
  split
  · next hc hn => rw [hc, Option.some.inj (hm.symm.trans hn)]
  · next h =>
    obtain ⟨c, cs, hc⟩ := List.exists_cons_of_ne_nil ha
    exact absurd hm (h c cs m hc)

theorem newMount_rest (m : Nat) (cs : List Nat) (b : Bool) (f : Option Nat) (s : State) :
    (∀ i, (newMount m cs b f s).drive i = s.drive i) ∧ ∀ c, (newMount m cs b f s).context c = s.context c := by
  simp [newMount, addOrder_eq, State.drive, State.context]

theorem fixed_now (h : t.fixed = s.fixed) : t.now = s.now := congrArg (fun f => f.2.1) h

theorem prepared_preempt (turn : Bool) (hd : d < s.drives.length) (ho : o ∈ s.lib.orders) (hn : o.id < s.lib.nextOrder)
    (hm : (s.drive d).attached ≠ [] → (s.drive d).mounted ≠ none) :
    Prepared o d (if turn then some d else none) s (preempt d turn (markGrant o d s)) := by
  have hg : Granted o d (markGrant o d s).lib.orders := granted_markGrant ho
  have hfix : (preempt d turn (markGrant o d s)).fixed = s.fixed := ((Follows.refl s).markGrant.preempt).fixed
  have hx : (markGrant o d s).drive d = { s.drive d with lastGranted := some s.now } :=
    (markGrant_drive d hd).trans (if_pos rfl)
  have hother : ∀ i, i ≠ d → (markGrant o d s).drive i = s.drive i := fun i hi =>
    (markGrant_drive i hd).trans (if_neg hi.symm)
  have hxa : ((markGrant o d s).drive d).attached = (s.drive d).attached := by rw [hx]
  by_cases ha : (s.drive d).attached = []
  · rw [preempt_unattached (hxa.trans ha)] at hfix ⊢
    exact { fixed := hfix, drive := by rw [hx]; simp [Drive.bare, ha]
            others := fun i hi => congrArg Drive.bare (hother i hi), granted := hg
            parked := by simp [ha], order := fun _ hne => absurd ha hne }
  · obtain ⟨m, hmm⟩ := Option.ne_none_iff_exists'.1 (hm ha)
    have hxm : ((markGrant o d s).drive d).mounted = some m := by rw [hx]; exact hmm
    rw [preempt_attached (hxa.trans_ne ha) hxm, hxa] at hfix ⊢
    have hl : (parkAll d (markGrant o d s)).lib = (markGrant o d s).lib := parkEach_lib _ _
    have hlen : d < (markGrant o d s).drives.length := (List.length_modify _ _ _).symm ▸ hd
    obtain ⟨hdr, hct⟩ := newMount_rest m (s.drive d).attached false (if turn then some d else none)
      (parkAll d (markGrant o d s))
    have hnow : (parkAll d (markGrant o d s)).now = s.now := fixed_now ((Follows.refl s).markGrant.parkAll).fixed
    refine { fixed := hfix, drive := ?_, others := fun i hi => ?_, granted := .newMount (hl ▸ hg) (by rw [hl]; exact hn)
             parked := fun c hc hcl => ?_, order := fun n _ hn => ?_ }
    · rw [hdr]
      refine (parkAll_bare d hlen).trans ?_
      rw [if_pos rfl, hx]
      rfl
    · rw [hdr]
      refine (parkAll_bare i hlen).trans ?_
      rw [if_neg hi.symm, hother i hi]
    · rw [hct]
      exact parkEach_parked (hxa.symm ▸ hc) hcl
    · cases hmm.symm.trans hn
      rw [newMount_orders]
      exact ⟨_, List.mem_map_of_mem (List.mem_append_right _ (List.mem_singleton_self _)), rfl, rfl, rfl, hnow, rfl, rfl⟩

theorem Prepared.loses (h : Prepared o d forced s t) (hl : Loses t u) (hf : u.fixed = t.fixed) : Prepared o d forced s u := by
  refine { fixed := hf.trans h.fixed, drive := (hl.drives d).trans h.drive
           others := fun i hi => (hl.drives i).trans (h.others i hi), granted := h.granted.loses hl
           parked := fun c hc hcl => ?_, order := fun m ha hm => ?_ }
  · simp only [State.context, hl.ctx]
    exact h.parked c hc hcl
  · obtain ⟨p, hp, hk, hw, hmk, hage, hfo, hs⟩ := h.order m ha hm
    obtain ⟨q, hq, b, k, rfl, hb⟩ := hl.forth p hp (.inr (hw ▸ ha))
    exact ⟨_, hq, hk, hw, hb hmk, hage, hfo, hs⟩

/-- What log 14 clears takes no more from the state than a loss does. -/
theorem prepared_clearWork (hd : d < s.drives.length) (ho : o ∈ s.lib.orders) (hn : o.id < s.lib.nextOrder)
    (hm : (s.drive d).attached ≠ [] → (s.drive d).mounted ≠ none) :
    Prepared o d none s (clearWork d (markGrant o d s)) := by
  have h : Prepared o d none s (preempt d false (markGrant o d s)) := prepared_preempt false hd ho hn hm
  have hl : Loses (preempt d false (markGrant o d s)) (clearWork d (markGrant o d s)) := by
    unfold clearWork
    generalize preempt d false (markGrant o d s) = v
    have hq : Loses v (v.modDrive d fun x => { x with queue := x.queue.filter QueueEntry.ofLibrary }) := by
      refine ⟨rfl, fun i => ?_, fun q hq => ⟨q, hq, .refl q⟩, fun p hp _ => ⟨p, hp, .refl p⟩⟩
      rw [drive_modDrive]
      split <;> rfl
    generalize v.modDrive d _ = w at hq ⊢
    have hb : Loses v { w with recovery.markerBack := true } := hq.trans (.unseen rfl rfl rfl)
    exact .ite ((Loses.ite hb hq).trans .filingLost) (.ite hb hq)
  exact h.loses hl (((Follows.refl s).markGrant.clearWork).fixed.trans h.fixed.symm)

/-! ### The drive is sent UNLOADING -/

theorem sendHome_drive (i : Nat) (hd : d < s.drives.length) : (sendHome d s).drive i = if d = i then
      { s.drive i with
        state := .unloading, cause := none, idle := none, idleHeld := false
        queue := (s.drive i).queue ++ [newEntry s .library .ejectPrep 0 1 0 []] }
    else s.drive i := by
  have hlen : (s.modDrive d fun x => { x with state := .unloading, cause := none, idle := none, idleHeld := false }).drives.length
      = s.drives.length := List.length_modify _ _ _
  unfold sendHome pushCommand
  rw [drive_modDrive, drive_modDrive, hlen]
  by_cases h : d = i
  · subst h
    simp only [hd, and_self, if_true]
  · simp only [h, false_and, if_false]

/-- What every grant shows: the order in service on its target, the drive stamped, the picker MOVING (R38, R53). -/
structure GrantShown (o : Order) (d : Nat) (s u : State) : Prop where
  stamped : (u.drive d).lastGranted = some s.now
  moving : u.lib.picker.state = .moving
  others : ∀ i, i ≠ d → (u.drive i).bare = (s.drive i).bare
  granted : Granted o d u.lib.orders

/-- A drive that has been sent UNLOADING with its EJECT-PREP behind the commands it holds (R53). -/
def State.sentHome (s u : State) (d : Nat) : Prop := (u.drive d).state = .unloading
  ∧ (u.drive d).cartridge = (s.drive d).cartridge ∧ (u.drive d).idle = none
  ∧ ∃ q, (u.drive d).queue = q ++ [{ issuer := .library, op := .ejectPrep, first := 0, count := 1, data := []
                                     priority := 0, age := s.now, retries := 0, notReady := 0, have_ := 0 }]

/-- The contexts of a drive are parked, and an order of theirs stands in the queue (R94). -/
def State.allParked (s u : State) (d : Nat) (forced : Option Nat) : Prop := (u.drive d).attached = []
  ∧ (∀ c ∈ (s.drive d).attached, c < s.ctx.length → (u.context c).parked = true)
  ∧ ∀ m, (s.drive d).attached ≠ [] → (s.drive d).mounted = some m → ∃ p ∈ u.lib.orders, p.kind = .mount m
    ∧ p.waiters = (s.drive d).attached ∧ p.marker = false ∧ p.age = s.now ∧ p.forced = forced ∧ p.inService = false

theorem Prepared.sent (h : Prepared o d forced s v) (hd : d < s.drives.length) (m : Motion) (second : Option Motion) :
    GrantShown o d s (sendHome d (setMotion m second v)) ∧ s.sentHome (sendHome d (setMotion m second v)) d
      ∧ s.allParked (sendHome d (setMotion m second v)) d forced := by
  have hlen : d < (setMotion m second v).drives.length :=
    (congrArg (fun f => f.2.2.2.2.2.2.2.2.2.2.2.2.2.2.1) h.fixed : v.drives.length = s.drives.length).symm ▸ hd
  have hx := (sendHome_drive d hlen).trans (if_pos rfl)
  have hv : ((setMotion m second v).drive d).bare = _ := h.drive
  have hnow : (setMotion m second v).now = s.now := fixed_now h.fixed
  have hcart := congrArg Drive.cartridge hv
  refine ⟨⟨?_, rfl, fun i hi => ?_, h.granted⟩, ⟨?_, ?_, ?_, ?_⟩, ?_, h.parked, h.order⟩
  · rw [hx]
    exact congrArg Drive.lastGranted hv
  · rw [sendHome_drive i hlen, if_neg hi.symm]
    exact h.others i hi
  · rw [hx]
  · rw [hx]
    exact hcart
  · rw [hx]
  · rw [hx, ← hnow]
    exact ⟨_, rfl⟩
  · rw [hx]
    exact congrArg Drive.attached hv

/-! ### The three grants of a mount order, and that of an unmount order -/

/-- The motion that a grant starts, or makes wait. -/
def grantMotion (o : Order) (d : Nat) (kind : MotionKind) (served slot face : Option Nat) (started : Bool) : Motion :=
  { kind := kind, order := some o.id, served := served, cartridge := slot, drive := some d, face := face, last := none
    started := started }

/-- What a grant that sends its drive UNLOADING shows, and the picker's motions. -/
structure GrantSent (o : Order) (d : Nat) (forced : Option Nat) (m : Motion) (second : Option Motion) (s u : State) : Prop where
  shown : GrantShown o d s u
  sent : s.sentHome u d
  parked : s.allParked u d forced
  second : u.lib.picker.second = second
  motion : u.lib.picker.motion = some m

theorem Prepared.grantSent (h : Prepared o d forced s v) (hd : d < s.drives.length) (m : Motion) (second : Option Motion) :
    GrantSent o d forced m second s (sendHome d (setMotion m second v)) := by
  obtain ⟨hg, hs, hp⟩ := h.sent hd m second
  exact ⟨hg, hs, hp, rfl, rfl⟩

section
variable (hd : d < s.drives.length) (ho : o ∈ s.lib.orders) (hn : o.id < s.lib.nextOrder)
  (hm : (s.drive d).attached ≠ [] → (s.drive d).mounted ≠ none)
include hd ho

theorem grant_mount_empty (hk : o.kind = .mount n) (hs : (s.drive d).state = .empty) :
    let u := grant o d s
    GrantShown o d s u ∧ (u.drive d).state = .empty ∧ u.lib.picker.second = none
      ∧ u.lib.picker.motion = some (grantMotion o d .mount (some n) (some (n / 2)) (some (n % 2)) true) := by
  have he : grant o d s = setMotion (grantMotion o d .mount (some n) (some (n / 2)) (some (n % 2)) true) none
      (markGrant o d s) := by
    simp only [grant, hk, grantMount, hs, if_true]
    rfl
  have hx := (markGrant_drive (s := s) (o := o) d hd).trans (if_pos rfl)
  rw [he]
  refine ⟨⟨?_, rfl, fun i hi => ?_, granted_markGrant ho⟩, ?_, rfl, rfl⟩
  · exact congrArg Drive.lastGranted hx
  · exact congrArg Drive.bare ((markGrant_drive i hd).trans (if_neg hi.symm))
  · exact (congrArg Drive.state hx).trans hs

include hn hm

theorem grant_unmount {i : Nat} {firm : Bool} (hk : o.kind = .unmount i firm) : GrantSent o d none
    (grantMotion o d .unmount (s.drive d).mounted (s.drive d).cartridge none false) none s (grant o d s) := by
  have he : grant o d s = sendHome d (setMotion
      (grantMotion o d .unmount (s.drive d).mounted (s.drive d).cartridge none false) none
      (clearWork d (markGrant o d s))) := by
    simp only [grant, hk]
    rfl
  rw [he]
  exact (prepared_clearWork hd ho hn hm).grantSent hd _ _

theorem grant_mount_turn (hk : o.kind = .mount n) (hs : (s.drive d).state ≠ .empty)
    (hc : (s.drive d).cartridge = some (n / 2)) : GrantSent o d (some d)
    (grantMotion o d .turn (some n) (some (n / 2)) (some (n % 2)) false) none s (grant o d s) := by
  have he : grant o d s = sendHome d (setMotion (grantMotion o d .turn (some n) (some (n / 2)) (some (n % 2)) false) none
      (preempt d true (markGrant o d s))) := by
    simp only [grant, hk, grantMount, if_neg hs]
    exact if_pos hc
  rw [he]
  exact (prepared_preempt true hd ho hn hm).grantSent hd _ _

theorem grant_mount_exchange (hk : o.kind = .mount n) (hs : (s.drive d).state ≠ .empty)
    (hc : (s.drive d).cartridge ≠ some (n / 2)) : GrantSent o d none
    (grantMotion o d .unmount (some n) (s.drive d).cartridge none false)
    (some (grantMotion o d .mount (some n) (some (n / 2)) (some (n % 2)) false)) s (grant o d s) := by
  have he : grant o d s = sendHome d (setMotion (grantMotion o d .unmount (some n) (s.drive d).cartridge none false)
      (some (grantMotion o d .mount (some n) (some (n / 2)) (some (n % 2)) false)) (preempt d false (markGrant o d s))) := by
    simp only [grant, hk, grantMount, if_neg hs]
    exact if_neg hc
  rw [he]
  exact (prepared_preempt false hd ho hn hm).grantSent hd _ _

theorem grantShown_grant : GrantShown o d s (grant o d s) := by
  cases hk : o.kind with
  | unmount i firm => exact (grant_unmount hd ho hn hm hk).shown
  | mount n =>
    by_cases hs : (s.drive d).state = .empty
    · exact (grant_mount_empty hd ho hk hs).1
    · by_cases hc : (s.drive d).cartridge = some (n / 2)
      · exact (grant_mount_turn hd ho hn hm hk hs hc).shown
      · exact (grant_mount_exchange hd ho hn hm hk hs hc).shown

end

/-- Settles O48: the targets by the order's kind and the place of its cartridge, the grants by the motion they start. -/
theorem grantsDo : Obligations.GrantsDo := by
  unfold Obligations.GrantsDo
  refine ⟨fun s => ⟨fun o d firm hk hs => target_unmount_iff hk hs, fun o hs => target_inService hs,
    fun o n r hk hs hr => ⟨fun hl => ?_, fun hl => ?_, fun d hl => ?_⟩, fun d => ⟨victimRank_none, fun c hc => lt_victimRank hc,
      victimRank_at, fun h => ?_, fun t h => ?_⟩⟩, fun s o d hd hlen ho hn hm => ?_⟩
  · rw [target_mount hk hs, targetOf_picker hr hl]
  · rw [target_mount hk hs, targetOf_home hr hl]
    refine ⟨fun d hd hlow => freeTarget_empty (emptyTarget_lowest hd.1 hd.2 fun i hi he => hlow i hi ⟨by omega, he⟩),
      fun hne => ?_⟩
    have he : s.emptyTarget = none := emptyTarget_none fun i hi h => hne i ⟨hi, h⟩
    refine ⟨fun d hd hleast => freeTarget_used he (usedLeast_least hd.1 (spareTarget_iff.2 hd.2) fun i hi h =>
      hleast i ⟨hi, spareTarget_iff.1 h⟩), fun hns => ?_⟩
    rw [freeTarget_victim he (usedLeast_none fun i hi h => hns i ⟨hi, spareTarget_iff.1 h⟩)]
    refine ⟨fun h => ?_, fun d hp hd hv hleast => ?_⟩
    · rcases h with h | h
      · exact if_neg h
      · have hnone : s.chosenVictim = none := leastBy_none fun i hi => by
          simpa using fun hv => h i hi (victim_iff.1 hv)
        rw [hnone, ite_self]
    · rw [if_pos hp]
      exact leastBy_filter hd (victim_iff.2 hv) fun i hi h => hleast i hi (victim_iff.1 h)
  · rw [target_mount hk hs, targetOf_forced hr hl]
    exact ⟨fun ⟨hf, h⟩ => if_pos ⟨hf, h.imp readyTarget_iff.2 (And.imp_right victim_iff.2)⟩,
      fun h => if_neg fun ⟨hf, h'⟩ => h ⟨hf, h'.imp readyTarget_iff.1 (And.imp_right victim_iff.1)⟩⟩
  · rw [grantRank_eq, h]
    rfl
  · rw [grantRank_eq, h]
    rfl
  · have hd' : d < s.drives.length := hlen.symm ▸ hd
    obtain ⟨hstamp, hmove, hother, hg⟩ := grantShown_grant hd' ho hn hm
    obtain ⟨p, hp, hid, hkind, hwait, -⟩ := hg.served
    refine ⟨hstamp, hmove, hother, ⟨p, hp, hid, hkind, hwait⟩, hg.target, hg.idle, fun firm hk => ?_,
      fun n hk => ⟨fun hs => (grant_mount_empty hd' ho hk hs).2, fun hs hc => ?_, fun hs hc => ?_⟩⟩
    · have h := grant_unmount hd' ho hn hm hk
      exact ⟨h.sent, h.parked, h.second, h.motion⟩
    · have h := grant_mount_turn hd' ho hn hm hk hs hc
      exact ⟨h.sent, h.parked, h.second, h.motion⟩
    · have h := grant_mount_exchange hd' ho hn hm hk hs hc
      exact ⟨h.sent, h.parked, h.motion, h.second⟩

end Sys2Proof.Machine
end

section
/-! SUPPORT. The range table and N_next (R59, R60, R123, R165): what the checks of LOAD_RANGE say, where an entry takes its
place, and the settling of LOAD_RANGE, CLEAR_RANGES and SET_NEXT_INSTRUMENT. -/

namespace Sys2Proof.Machine

variable {s : State} {e : RangeEntry} {n : Nat}

/-! ### Readings of the range table -/

/-- Two entries overlap just when some instrument lies in both spans (R59). -/
theorem overlaps_iff (a b : RangeEntry) :
    a.overlaps b = true ↔ ∃ i, a.first ≤ i ∧ i ≤ a.last ∧ b.first ≤ i ∧ i ≤ b.last := by
  simp only [RangeEntry.overlaps, Bool.and_eq_true, decide_eq_true_eq]
  constructor
  · intro h
    exact ⟨max a.first b.first, by omega⟩
  · rintro ⟨i, hi⟩
    omega

theorem rangeOf_none_iff : s.rangeOf n = none ↔ ∀ x ∈ s.loc.ranges, x.side ≠ n := by simp [State.rangeOf]

theorem openRange_none_iff : s.openRange = none ↔ ∀ x ∈ s.loc.ranges, x.openFlag = false := by simp [State.openRange]

/-! ### The checks of LOAD_RANGE -/

/-- Check 1 of R60: the values of an entry. -/
def RangeEntry.valued (e : RangeEntry) : Prop :=
  1 ≤ e.first ∧ e.first ≤ 99999999 ∧ e.first ≤ e.last + 1 ∧ e.last ≤ 99999999 ∧ e.side ≤ 127

/-- Check 2 of R60: the entry shares no instrument with one that stands. -/
def State.rangeApart (s : State) (e : RangeEntry) : Prop :=
  ∀ x ∈ s.loc.ranges, ∀ i, ¬(e.first ≤ i ∧ i ≤ e.last ∧ x.first ≤ i ∧ i ≤ x.last)

/-- Checks 3 to 5 of R60: no entry names the side, and the open range is the one above all others. -/
def State.rangePlaced (s : State) (e : RangeEntry) : Prop :=
  (∀ x ∈ s.loc.ranges, x.side ≠ e.side)
    ∧ (e.openFlag = true → ∀ x ∈ s.loc.ranges, x.openFlag = false ∧ x.last < e.first)
    ∧ (e.openFlag = false → ∀ x, s.openRange = some x → e.last < x.first)

theorem rangeApart_iff : s.rangeApart e ↔ s.loc.ranges.any e.overlaps = false := by
  simp only [State.rangeApart, List.any_eq_false, overlaps_iff, not_exists]

theorem valued_iff : e.valued ↔ ¬(e.first = 0 ∨ Config.topInstrument < e.first ∨ e.last + 1 < e.first
    ∨ Config.topInstrument < e.last ∨ 127 < e.side) := by
  have ht : Config.topInstrument = 99999999 := rfl
  rw [ht, RangeEntry.valued]
  omega

theorem rangePlaced_iff : s.rangePlaced e ↔ ¬(s.rangeOf e.side).isSome = true
    ∧ ¬(e.openFlag = true ∧ (s.openRange.isSome = true ∨ s.loc.ranges.any (fun x => e.first ≤ x.last) = true))
    ∧ ¬(e.openFlag = false ∧ s.openRange.any (fun o => o.first ≤ e.last) = true) := by
  have hside : ¬(s.rangeOf e.side).isSome = true ↔ ∀ x ∈ s.loc.ranges, x.side ≠ e.side := by
    rw [Bool.not_eq_true, Option.isSome_eq_false_iff, Option.isNone_iff_eq_none, rangeOf_none_iff]
  have hopen : ¬(s.openRange.isSome = true ∨ s.loc.ranges.any (fun x => e.first ≤ x.last) = true)
      ↔ ∀ x ∈ s.loc.ranges, x.openFlag = false ∧ x.last < e.first := by
    rw [not_or, Bool.not_eq_true, Option.isSome_eq_false_iff, Option.isNone_iff_eq_none, openRange_none_iff]
    simp [forall_and]
  have hclosed : ¬s.openRange.any (fun o => o.first ≤ e.last) = true ↔ ∀ x, s.openRange = some x → e.last < x.first := by
    cases s.openRange <;> simp
  rw [hside, not_and, not_and, hopen, hclosed, State.rangePlaced]

/-- The refusals of LOAD_RANGE in the words of R60: checks 3 to 5 refuse alike and are taken as one. -/
theorem rangeRefusal_eq (s : State) (e : RangeEntry) : s.rangeRefusal e =
    open Classical in
    if ¬e.valued then some .badValue
    else if ¬s.rangeApart e then some .overlap
    else if ¬s.rangePlaced e then some .badValue
    else if 512 ≤ s.loc.ranges.length then some .tableFull
    else none := by
  have hl : Config.rangeLimit = 512 := rfl
  simp only [State.rangeRefusal, hl, valued_iff, rangeApart_iff, rangePlaced_iff, not_not, Bool.not_eq_false]
  split_ifs <;> tauto

theorem rangeRefusal_values (hv : ¬e.valued) : s.rangeRefusal e = some .badValue := by simp [rangeRefusal_eq, hv]

theorem rangeRefusal_overlap (hv : e.valued) (hx : ¬s.rangeApart e) : s.rangeRefusal e = some .overlap := by
  simp [rangeRefusal_eq, hv, hx]

theorem rangeRefusal_place (hv : e.valued) (hx : s.rangeApart e) (hp : ¬s.rangePlaced e) :
    s.rangeRefusal e = some .badValue := by simp [rangeRefusal_eq, hv, hx, hp]

theorem rangeRefusal_full (hv : e.valued) (hx : s.rangeApart e) (hp : s.rangePlaced e) (hl : 512 ≤ s.loc.ranges.length) :
    s.rangeRefusal e = some .tableFull := by simp [rangeRefusal_eq, hv, hx, hp, hl]

/-- A LOAD_RANGE is accepted exactly when the six checks of R60 pass. -/
theorem rangeRefusal_none_iff : s.rangeRefusal e = none ↔
    e.valued ∧ s.rangeApart e ∧ s.rangePlaced e ∧ s.loc.ranges.length < 512 := by
  constructor
  · intro h
    have hv : e.valued := by_contra fun hv => by simp [rangeRefusal_values hv] at h
    have hx : s.rangeApart e := by_contra fun hx => by simp [rangeRefusal_overlap hv hx] at h
    have hp : s.rangePlaced e := by_contra fun hp => by simp [rangeRefusal_place hv hx hp] at h
    have hl : s.loc.ranges.length < 512 :=
      Nat.lt_of_not_le fun hl => by simp [rangeRefusal_full hv hx hp hl] at h
    exact ⟨hv, hx, hp, hl⟩
  · rintro ⟨hv, hx, hp, hl⟩
    simp [rangeRefusal_eq, hv, hx, hp, Nat.not_le.2 hl]

/-! ### The place of an entry -/

/-- An entry stands between those that begin no later and one that begins no earlier (R59). -/
theorem insertRange_split (e : RangeEntry) (l : List RangeEntry) : ∃ before behind, l = before ++ behind
    ∧ insertRange e l = before ++ e :: behind ∧ (∀ x ∈ before, x.first ≤ e.first)
    ∧ ∀ x, behind.head? = some x → e.first ≤ x.first := by
  induction l with
  | nil => exact ⟨[], [], rfl, rfl, by simp, by simp⟩
  | cons y l ih =>
    unfold insertRange
    split
    · next h =>
      refine ⟨[], y :: l, rfl, rfl, by simp, fun x hx => ?_⟩
      cases hx
      omega
    · next h =>
      obtain ⟨before, behind, hl, hp, hb, hh⟩ := ih
      refine ⟨y :: before, behind, by rw [hl]; rfl, by rw [hp]; rfl, List.forall_mem_cons.2 ⟨?_, hb⟩, hh⟩
      omega

/-! ### The requests -/

theorem openedSides_nil_iff : s.openedSides = [] ↔ ¬∃ n < 128, ∃ x, s.side n = some x ∧ x.state = .opened := by
  have hany (o : Option SideRecord) : o.any (·.state == .opened) = true ↔ ∃ x, o = some x ∧ x.state = .opened := by
    cases o <;> simp
  rw [State.openedSides, List.filter_eq_nil_iff]
  simp only [List.mem_range, hany, not_exists, not_and]

theorem nextRefusal_opened {v : Nat} (h : ∃ n < 128, ∃ x, s.side n = some x ∧ x.state = .opened) :
    s.nextRefusal v = some .wrongState := by
  have hne : s.openedSides ≠ [] := fun hn => openedSides_nil_iff.1 hn h
  simp [State.nextRefusal, hne]

/-- With no side OPEN, N_next is refused unless it is an instrument number above every range (R165). -/
theorem nextRefusal_closed {v : Nat} (h : ¬∃ n < 128, ∃ x, s.side n = some x ∧ x.state = .opened) : s.nextRefusal v =
    if 1 ≤ v ∧ v ≤ 99999999 ∧ ∀ e ∈ s.loc.ranges, e.last < v then none else some .badValue := by
  have ht : Config.topInstrument = 99999999 := rfl
  have hv : (v = 0 ∨ 99999999 < v ∨ s.loc.ranges.any (fun r => v ≤ r.last) = true)
      ↔ ¬(1 ≤ v ∧ v ≤ 99999999 ∧ ∀ e ∈ s.loc.ranges, e.last < v) := by
    have hr : s.loc.ranges.any (fun r => v ≤ r.last) = true ↔ ¬∀ e ∈ s.loc.ranges, e.last < v := by simp
    rw [hr, not_and_or, not_and_or, not_le, not_le, Nat.lt_one_iff]
  simp only [State.nextRefusal, openedSides_nil_iff.2 h, List.isEmpty_nil, Bool.not_true, Bool.false_eq_true, ↓reduceIte, ht,
    hv, ite_not]

/-- Settles O34: LOAD_RANGE by the checks of R60 in their order, the others by their own. -/
theorem rangesAndNextStored : Obligations.RangesAndNextStored := by
  intro s r t h
  refine ⟨fun ha e => ?load, fun ha => exec_managed rfl h ha (by decide) rfl, fun ha v => ?next⟩
  case load =>
    have refused (reason : Reason) (hr : s.rangeRefusal e = some reason) :
        exec (.loadRange r t e.first e.last e.side e.openFlag) s = .next (publish (reject r t 7 reason s)) :=
      exec_managed rfl h ha (by decide) (by rw [loadRangeTaken, hr, answer_refused])
    refine ⟨fun hv => refused _ ?_, fun hv hx => refused _ ?_, fun hv hx hp => refused _ ?_, fun hv hx hp hl => refused _ ?_,
      fun hv hx hp hl => ?_⟩
    · exact rangeRefusal_values hv
    · exact rangeRefusal_overlap hv hx
    · exact rangeRefusal_place hv hx hp
    · exact rangeRefusal_full hv hx hp hl
    · obtain ⟨before, behind, hs, hi, hb, hh⟩ := insertRange_split e s.loc.ranges
      refine ⟨before, behind, hs, hb, hh, exec_managed rfl h ha (by decide) ?_⟩
      have hlen : (before ++ e :: behind).length = s.loc.ranges.length + 1 := by
        rw [hs, List.length_append, List.length_append]
        rfl
      rw [loadRangeTaken, rangeRefusal_none_iff.2 ⟨hv, hx, hp, hl⟩, answer_accepted, hi, hlen]
  case next =>
    have refused (reason : Reason) (hr : s.nextRefusal v = some reason) :
        exec (.setNextInstrument r t v) s = .next (publish (reject r t 9 reason s)) :=
      exec_managed rfl h ha (by decide) (by rw [setNextTaken, hr, answer_refused])
    refine ⟨fun ho => refused _ ?_, fun ho hv => refused _ ?_, fun ho hv => exec_managed rfl h ha (by decide) ?_⟩
    · exact nextRefusal_opened ho
    · rw [nextRefusal_closed ho, if_neg hv]
    · rw [setNextTaken, nextRefusal_closed ho, if_pos hv, answer_accepted]

end Sys2Proof.Machine
end

section
/-! SUPPORT. The range table within its bounds (R59 to R61), and the length of the pending buffer (R63): what a LOAD_RANGE, an
opening, a commit, a close and the recovery do to them. -/

namespace Sys2Proof.Machine

variable {s : State} {e : RangeEntry} {n : Nat} {rs before behind : List RangeEntry}

/-! ### Rules of the table, entry by entry -/

/-- The rules do not ask where an entry stands. -/
theorem rangesKept_perm {l : List RangeEntry} (hp : rs.Perm l) (h : rangesKept rs) : rangesKept l := by
  obtain ⟨hlen, hdis, hone, htop⟩ := h
  refine ⟨hp.length_eq ▸ hlen, hp.pairwise hdis fun hab => (overlaps_comm ..).trans hab,
    (hp.filter _).length_eq ▸ hone, fun o ho hf x hx => htop o (hp.mem_iff.2 ho) hf x (hp.mem_iff.2 hx)⟩

/-- An entry that shares no instrument with the others and stands where R59 wants it joins them. -/
theorem rangesKept_cons (h : rangesKept rs) (hlen : rs.length < 512) (hdis : ∀ x ∈ rs, e.overlaps x = false)
    (hopen : e.openFlag = true → ∀ x ∈ rs, x.openFlag = false ∧ x.last < e.first)
    (hclosed : e.openFlag = false → ∀ x ∈ rs, x.openFlag = true → e.last < x.first) : rangesKept (e :: rs) := by
  obtain ⟨-, hd, hone, htop⟩ := h
  refine ⟨hlen, List.pairwise_cons.2 ⟨hdis, hd⟩, ?_, ?_⟩
  · by_cases he : e.openFlag = true
    · have hnone : rs.filter (·.openFlag) = [] := List.filter_eq_nil_iff.2 fun x hx => by simp [(hopen he x hx).1]
      simp [he, hnone]
    · simpa [he] using hone
  · simp only [List.forall_mem_cons]
    refine ⟨fun he => ⟨fun hf => absurd he (by simp [hf]), fun x hx _ => (hopen he x hx).2⟩,
      fun o ho hf => ⟨fun he => hclosed he o ho hf, htop o ho hf⟩⟩

theorem rangesKept_tail (h : rangesKept (e :: rs)) : rangesKept rs := by
  obtain ⟨hlen, hdis, hone, htop⟩ := h
  refine ⟨by rw [List.length_cons] at hlen; omega, (List.pairwise_cons.1 hdis).2,
    ((List.sublist_cons_self e rs).filter _).length_le.trans hone,
    fun o ho hf x hx => htop o (List.mem_cons_of_mem _ ho) hf x (List.mem_cons_of_mem _ hx)⟩

/-- The last of an entry may be any number when every other entry ends below its first, and none but it is open. -/
theorem rangesKept_setLast (last : Nat) (h : rangesKept (before ++ e :: behind))
    (hbelow : ∀ x ∈ before ++ behind, x.openFlag = false ∧ x.last < e.first) :
    rangesKept (before ++ { e with last := last } :: behind) := by
  have hcons := rangesKept_perm List.perm_middle h
  have hlen : (before ++ behind).length + 1 ≤ 512 := hcons.1
  refine rangesKept_perm List.perm_middle.symm (rangesKept_cons (rangesKept_tail hcons) (by omega) (fun x hx => ?_)
    (fun _ => hbelow) fun _ x hx hf => absurd hf (by simp [(hbelow x hx).1]))
  have := (hbelow x hx).2
  simp only [RangeEntry.overlaps, Bool.and_eq_false_iff, decide_eq_false_iff_not]
  omega

/-- The entries beside the open one are closed and end below it. -/
theorem rangesKept_beside_open (h : rangesKept (before ++ e :: behind)) (he : e.openFlag = true) :
    ∀ x ∈ before ++ behind, x.openFlag = false ∧ x.last < e.first := by
  obtain ⟨-, -, hone, htop⟩ := rangesKept_perm List.perm_middle h
  intro x hx
  have hnone : (before ++ behind).filter (·.openFlag) = [] := by
    rw [List.filter_cons_of_pos he, List.length_cons] at hone
    exact List.length_eq_zero_iff.1 (Nat.le_zero.1 (Nat.le_of_succ_le_succ hone))
  have hf : x.openFlag = false := by simpa using List.filter_eq_nil_iff.1 hnone x hx
  exact ⟨hf, htop e List.mem_cons_self he x (List.mem_cons_of_mem _ hx) hf⟩

/-- The open entry is the open range. -/
theorem openRange_eq (h : rangesKept s.loc.ranges) (he : e ∈ s.loc.ranges) (hf : e.openFlag = true) : s.openRange = some e := by
  obtain ⟨before, behind, hs⟩ := List.append_of_mem he
  rw [hs] at h
  have hnone : before.find? (·.openFlag) = none := List.find?_eq_none.2 fun x hx => by
    simp [(rangesKept_beside_open h hf x (List.mem_append_left _ hx)).1]
  rw [State.openRange, hs, List.find?_append, hnone, List.find?_cons_of_pos hf]
  rfl

/-! ### LOAD_RANGE and the opening -/

theorem rangesKept_insertRange (h : rangesKept s.loc.ranges) (hr : s.rangeRefusal e = none) :
    rangesKept (insertRange e s.loc.ranges) := by
  obtain ⟨-, hapart, ⟨-, hopen, hclosed⟩, hlen⟩ := rangeRefusal_none_iff.1 hr
  have hcons : rangesKept (e :: s.loc.ranges) := by
    have hdis (x : RangeEntry) (hx : x ∈ s.loc.ranges) : e.overlaps x = false := by
      simpa using List.any_eq_false.1 (rangeApart_iff.1 hapart) x hx
    refine rangesKept_cons h hlen hdis hopen fun he x hx hf => hclosed he x (openRange_eq h hx hf)
  obtain ⟨before, behind, hs, hi, -⟩ := insertRange_split e s.loc.ranges
  rw [hi]
  rw [hs] at hcons
  exact rangesKept_perm List.perm_middle.symm hcons

theorem openingOk_ranges (n : Nat) (s : State) : (openingOk n s).loc.ranges = s.loc.ranges ++
    [{ first := s.fil.nNext.getD 0, last := s.fil.nNext.getD 0 - 1, side := n, openFlag := true }] := by
  unfold openingOk
  extract_lets s1 s2 i
  have h2 : s2.loc = s.loc := by
    simp only [s2]
    split
    · rfl
    · exact raise_loc _ _
  rw [← h2]
  rfl

theorem rangesKept_openingOk {i : Nat} (h : rangesKept s.loc.ranges) (hi : s.fil.nNext = some i) (ho : s.openRange = none)
    (hlen : s.loc.ranges.length < 512) (hlast : ∀ x ∈ s.loc.ranges, x.last < i) : rangesKept (openingOk n s).loc.ranges := by
  rw [openingOk_ranges, hi, Option.getD_some]
  refine rangesKept_perm (List.perm_append_singleton _ _).symm (rangesKept_cons h hlen (fun x hx => ?_)
    (fun _ x hx => ⟨openRange_none_iff.1 ho x hx, hlast x hx⟩) fun hf => absurd hf (by simp))
  have := hlast x hx
  simp only [RangeEntry.overlaps, Bool.and_eq_false_iff, decide_eq_false_iff_not]
  omega

/-! ### The commit and the close -/

/-- The open range is the one the commit counts in (R61). -/
theorem rangesKept_commitLast (last : Nat) (h : rangesKept rs) :
    rangesKept (rs.map fun r => if r.openFlag then { r with last := last } else r) := by
  cases ho : rs.find? (·.openFlag) with
  | none =>
    rw [List.map_congr_left (g := id), List.map_id]
    · exact h
    · intro x hx
      exact if_neg (List.find?_eq_none.1 ho x hx)
  | some o =>
    obtain ⟨hf, before, behind, rfl, -⟩ := List.find?_eq_some_iff_append.1 ho
    have hbelow := rangesKept_beside_open h hf
    have hsame (l : List RangeEntry) (hl : ∀ x ∈ l, x ∈ before ++ behind) :
        l.map (fun r => if r.openFlag then { r with last := last } else r) = l := by
      refine (List.map_congr_left fun x hx => ?_).trans (List.map_id l)
      exact if_neg (by simp [(hbelow x (hl x hx)).1])
    rw [List.map_append, List.map_cons, if_pos hf, hsame before fun x hx => List.mem_append_left _ hx,
      hsame behind fun x hx => List.mem_append_right _ hx]
    exact rangesKept_setLast last h hbelow

theorem freeFiling_loc (f : Nat) (s : State) : (freeFiling f s).loc = s.loc := by
  obtain ⟨todo, he⟩ := freeFiling_eq f s
  rw [he]

/-- The locator's tables after a commit (R61, R63, R115). -/
theorem commit_loc {f : Nat} {r : SideRecord} (h : s.side n = some r) : ∃ i q, (commit f n s).loc = { s.loc with
    ranges := s.loc.ranges.map fun y => if y.openFlag then { y with last := i } else y
    entries := insertPending q s.loc.entries } := by
  unfold commit
  rw [h]
  dsimp only
  rw [freeFiling_loc]
  exact ⟨_, _, rfl⟩

theorem insertPending_length (q : PendingEntry) (l : List PendingEntry) : (insertPending q l).length = l.length + 1 := by
  obtain ⟨before, behind, hl, hi⟩ := insertPending_split q l
  rw [hi, hl, List.length_append, List.length_append]
  rfl

theorem rangesKept_commit {f : Nat} (h : rangesKept s.loc.ranges) : rangesKept (commit f n s).loc.ranges := by
  cases hs : s.side n with
  | none => simpa [commit, hs] using h
  | some r =>
    obtain ⟨i, q, hl⟩ := commit_loc (f := f) hs
    rw [hl]
    exact rangesKept_commitLast i h

theorem commit_entries_length {f : Nat} (h : s.side n ≠ none) :
    (commit f n s).loc.entries.length = s.loc.entries.length + 1 := by
  obtain ⟨r, hr⟩ := Option.ne_none_iff_exists'.1 h
  obtain ⟨i, q, hl⟩ := commit_loc (f := f) hr
  rw [hl]
  exact insertPending_length q _

theorem finishClose_ranges (n : Nat) (owed : SideState) (s : State) :
    (finishClose n owed s).loc.ranges = closeOpen s.loc.ranges := by
  unfold finishClose
  extract_lets s1 s2 s3 fil s4
  have h2 : s2.loc = s.loc := by
    simp only [s2]
    split
    · rfl
    · exact raise_loc _ _
  have h4 : s4.loc.ranges = closeOpen s.loc.ranges := by
    rw [← h2]
    rfl
  split <;> exact h4

theorem closeOpen_closed : ∀ x ∈ closeOpen rs, x.openFlag = false := by
  intro x hx
  obtain ⟨y, -, rfl⟩ := List.mem_map.1 hx
  cases hy : y.openFlag <;> simp [hy]

theorem rangesKept_closeOpen (h : rangesKept rs) : rangesKept (closeOpen rs) := by
  obtain ⟨hlen, hdis, -⟩ := h
  have hspan (y : RangeEntry) : (if y.openFlag then { y with openFlag := false } else y).first = y.first
      ∧ (if y.openFlag then { y with openFlag := false } else y).last = y.last := by split <;> exact ⟨rfl, rfl⟩
  have hnone : (closeOpen rs).filter (·.openFlag) = [] :=
    List.filter_eq_nil_iff.2 fun x hx => by simp [closeOpen_closed x hx]
  refine ⟨by rwa [closeOpen, List.length_map], List.pairwise_map.2 (hdis.imp fun {a b} hab => ?_), by simp [hnone],
    fun o ho hf => absurd hf (by simp [closeOpen_closed o ho])⟩
  simpa [RangeEntry.overlaps, hspan] using hab

/-! ### The recovery -/

/-- Of the entries that name a side, the last in the table is changed. -/
theorem changeLast_split (f : RangeEntry → RangeEntry) (before : List RangeEntry) (he : e.side = n)
    (hb : ∀ x ∈ behind, x.side ≠ n) : changeLast n f (before ++ e :: behind) = before ++ f e :: behind := by
  induction before with
  | nil => exact if_pos ⟨he, by simpa using hb⟩
  | cons y before ih =>
    rw [List.cons_append, changeLast, if_neg, ih, List.cons_append]
    rintro ⟨-, hall⟩
    exact absurd he (by simpa using List.all_eq_true.1 hall e (by simp))

/-- The range of a side is one entry of the table, and the last of that entry alone is raised (R176, R178). -/
theorem raiseLast_split {last : Nat} (h : s.rangeOf n = some e) : ∃ before behind, s.loc.ranges = before ++ e :: behind
    ∧ (raiseLast n last s).loc.ranges = before ++ { e with last := max e.last last } :: behind := by
  have h' : s.loc.ranges.reverse.find? (·.side == n) = some e := h
  obtain ⟨he, behind, before, hs, hnot⟩ := List.find?_eq_some_iff_append.1 h'
  have hranges : s.loc.ranges = before.reverse ++ e :: behind.reverse := by simpa using congrArg List.reverse hs
  refine ⟨before.reverse, behind.reverse, hranges, ?_⟩
  show changeLast n _ s.loc.ranges = _
  rw [hranges]
  exact changeLast_split _ _ (by simpa using he) fun x hx => by simpa using hnot x (List.mem_reverse.1 hx)

theorem rangesKept_raiseLast {last : Nat} (h : rangesKept s.loc.ranges) (he : s.rangeOf n = some e)
    (hbelow : ∀ x ∈ s.loc.ranges, x = e ∨ x.last < e.first) (ho : e.openFlag = true ∨ s.openRange = none) :
    rangesKept (raiseLast n last s).loc.ranges := by
  obtain ⟨before, behind, hs, hr⟩ := raiseLast_split (last := last) he
  rw [hr]
  rw [hs] at h hbelow
  refine rangesKept_setLast _ h fun x hx => ?_
  rcases ho with ho | ho
  · exact rangesKept_beside_open h ho x hx
  have hmem : x ∈ before ++ e :: behind := List.perm_middle.mem_iff.2 (List.mem_cons_of_mem _ hx)
  refine ⟨openRange_none_iff.1 ho x (hs ▸ hmem), ?_⟩
  rcases hbelow x hmem with rfl | hlt
  · have hself : x.overlaps x = false := (List.pairwise_cons.1 (rangesKept_perm List.perm_middle h).2.1).1 x hx
    simp only [RangeEntry.overlaps, Bool.and_eq_false_iff, decide_eq_false_iff_not] at hself
    omega
  · exact hlt

theorem walkRead_loc (n first : Nat) (s : State) : (walkRead n first s).loc = s.loc := by
  unfold walkRead
  split <;> rfl

/-- A finding leaves the pending entries (R179). -/
theorem recoveryFound_entries {f : RecoveryFinding} (hf : f ≠ .none) (s : State) :
    (recoveryFound f s).loc.entries = s.loc.entries := by
  obtain ⟨-, -, -, -, -, hloc, -⟩ := recoveryFound_ends (s := s) hf
  rw [hloc]

theorem walkEnded_entries (n k : Nat) (complete : Bool) (s : State) :
    (walkEnded n k complete s).loc.entries = s.loc.entries := by
  unfold walkEnded
  extract_lets reached s1
  have h1 : s1.loc.entries = s.loc.entries := by
    simp only [s1]
    split <;> rfl
  rw [← h1]
  split
  · exact recoveryFound_entries (by simp) _
  · rfl

theorem walkPosition_entries (n p k : Nat) (s : State) : (walkPosition n p k s).loc.entries = s.loc.entries := by
  unfold walkPosition
  split
  · rfl
  · split_ifs
    · exact walkEnded_entries _ _ _ _
    · exact walkEnded_entries _ _ _ _
    · rw [walkRead_loc]
      rfl

theorem addFound_bounded {w : Walk} {i body pages : Nat} (h : s.loc.entries.length ≤ 128) :
    (addFound w i body pages s).loc.entries.length ≤ 128 := by
  by_cases hl : s.loc.entries.length < 128
  · rw [addFound_room hl, walkPosition_entries]
    exact (insertPending_length _ _).trans_le hl
  · rw [addFound_full (by omega), recoveryFound_entries (by simp)]
    exact h

end Sys2Proof.Machine
end

section
/-! SUPPORT. The counts of the tally unit (R76, R137, R146): the in-flight counts of the accounts and the reference counts of
the slots, as one context changes and as the schedules are switched; with the settling of the rules of all the tables. -/

namespace Sys2Proof.Machine

variable {s t : State} {c : Nat} {x : Context} {o : Ending}

/-! ### One context changes -/

/-- The context counts on an account (R76, R137). -/
def Context.onAccount (x : Context) (n : Nat) : Bool := x.state.active && x.account == n

/-- The context holds a generation (R146). -/
def Context.holdsGeneration (x : Context) (g : Nat) : Bool := x.state.live && x.generation == some g

theorem onAccount_free {n : Nat} (h : x.state = .free) : x.onAccount n = false := by
  simp [Context.onAccount, h, CtxState.active]

theorem holdsGeneration_idle {g : Nat} (h : x.state.live = false) : x.holdsGeneration g = false := by
  simp [Context.holdsGeneration, h]

/-- A context written anew is read as written, every other as before. -/
theorem context_put (i : Nat) (y : Context) (h : c < s.ctx.length) :
    (s.modContext c fun _ => y).context i = if i = c then y else s.context i := by
  rw [context_modContext]
  by_cases hi : i = c
  · rw [if_pos ⟨hi.symm, hi ▸ h⟩, if_pos hi]
  · rw [if_neg fun hn => hi hn.1.symm, if_neg hi]

/-- Where one context alone changes, a count of contexts changes by what that context counts. -/
theorem contextsWhere_change (p : Context → Bool) (hc : c < 16) (h : ∀ i, i ≠ c → t.context i = s.context i) :
    (t.contextsWhere p).length + (p (s.context c)).toNat = (s.contextsWhere p).length + (p (t.context c)).toNat := by
  have hperm := List.perm_cons_erase (List.mem_range.2 hc)
  have hcount (u : State) : (u.contextsWhere p).length
      = ((List.range 16).erase c).countP (fun i => p (u.context i)) + (p (u.context c)).toNat := by
    unfold State.contextsWhere
    rw [← List.countP_eq_length_filter, hperm.countP_eq, List.countP_cons]
    cases p (u.context c) <;> rfl
  have hrest : ((List.range 16).erase c).countP (fun i => p (t.context i))
      = ((List.range 16).erase c).countP (fun i => p (s.context i)) := by
    refine List.countP_congr fun i hi => ?_
    rw [h i (List.nodup_range.mem_erase_iff.1 hi).1]
  rw [hcount t, hcount s, hrest]
  omega

/-- The counts agree still when each moves by what the one context that changes counts less or more. -/
theorem countsAgree_change (h : s.countsAgree) {y : Context} (hc : c < 16)
    (hctx : ∀ i, t.context i = if i = c then y else s.context i)
    (haccounts : ∀ b ∈ t.tal.accounts, ∃ a ∈ s.tal.accounts, b.number = a.number
      ∧ b.inFlight + ((s.context c).onAccount a.number).toNat = a.inFlight + (y.onAccount a.number).toNat)
    (hslots : ∀ z ∈ t.tal.slots, z.role ≠ .empty → ∃ w ∈ s.tal.slots, w.role ≠ .empty ∧ z.generation = w.generation
      ∧ z.refs + ((s.context c).holdsGeneration w.generation).toNat = w.refs + (y.holdsGeneration w.generation).toNat) :
    t.countsAgree := by
  have hsame (i : Nat) (hi : i ≠ c) : t.context i = s.context i := by rw [hctx, if_neg hi]
  have hnew : t.context c = y := by rw [hctx, if_pos rfl]
  refine ⟨fun b hb => ?_, fun z hz hr => ?_⟩
  · obtain ⟨a, ha, hn, he⟩ := haccounts b hb
    have hchange := contextsWhere_change (fun x => x.onAccount a.number) hc hsame
    rw [hnew] at hchange
    have hcount : a.inFlight = (s.contextsWhere fun x => x.onAccount a.number).length := h.1 a ha
    rw [hn]
    show _ = (t.contextsWhere fun x => x.onAccount a.number).length
    omega
  · obtain ⟨w, hw, hwe, hg, he⟩ := hslots z hz hr
    have hchange := contextsWhere_change (fun x => x.holdsGeneration w.generation) hc hsame
    rw [hnew] at hchange
    have hcount : w.refs = (s.contextsWhere fun x => x.holdsGeneration w.generation).length := h.2 w hw hwe
    rw [hg]
    show _ = (t.contextsWhere fun x => x.holdsGeneration w.generation).length
    omega

theorem contextsWhere_pos {p : Context → Bool} (hc : c < 16) (hp : p (s.context c) = true) :
    1 ≤ (s.contextsWhere p).length := List.length_pos_of_mem (mem_contextsWhere.2 ⟨hc, hp⟩)

/-! ### A FETCH takes a FREE context -/

/-- The context as a FETCH leaves it, with the hold of a link that is DOWN (R80, R92). -/
def State.taken (s : State) (x : Context) : Context :=
  if s.rli.link = .down then x.hold s.now s.mu.params.holdLimit true else x

theorem taken_counts (s : State) (x : Context) : (s.taken x).state = x.state ∧ (s.taken x).account = x.account
    ∧ (s.taken x).generation = x.generation := by
  unfold State.taken
  split <;> exact ⟨rfl, rfl, rfl⟩

theorem takeContext_context (i : Nat) (h : c < s.ctx.length) :
    (takeContext c x s).context i = if i = c then s.taken x else s.context i := by
  have hctx : (takeContext c x s).context i = (s.modContext c fun _ => s.taken x).context i := by
    unfold takeContext
    dsimp only
    split <;> rfl
  rw [hctx, context_put i _ h]

theorem takeContext_accounts (c : Nat) (x : Context) (s : State) : (takeContext c x s).tal.accounts
    = s.tal.accounts.map fun a => if a.number = x.account then { a with inFlight := a.inFlight + 1 } else a := by
  unfold takeContext
  dsimp only
  split <;> rfl

theorem takeContext_slots (c : Nat) (x : Context) (s : State) : (takeContext c x s).tal.slots
    = s.tal.slots.map fun y => if y.role ≠ .empty ∧ x.generation = some y.generation then { y with refs := y.refs + 1 }
        else y := by
  unfold takeContext
  dsimp only
  split
  · next hg => simp [hg]
  · next g hg => simp [hg, takeReference, eq_comm]

theorem takeContext_countsAgree (h : s.countsAgree) (hlen : s.ctx.length = 16) (hc : c < 16)
    (hf : (s.context c).state = .free) (hx : x.state = .mountWait) : (takeContext c x s).countsAgree := by
  obtain ⟨hs, ha, hg⟩ := taken_counts s x
  have haccount (n : Nat) : (s.taken x).onAccount n = (x.account == n) := by
    simp [Context.onAccount, hs, hx, ha, CtxState.active]
  have hgeneration (g : Nat) : (s.taken x).holdsGeneration g = (x.generation == some g) := by
    simp [Context.holdsGeneration, hs, hx, hg, CtxState.live]
  refine countsAgree_change h hc (fun i => takeContext_context i (hlen.symm ▸ hc)) (fun b hb => ?_) fun z hz hr => ?_
  · rw [takeContext_accounts] at hb
    obtain ⟨a, hm, rfl⟩ := List.mem_map.1 hb
    refine ⟨a, hm, by split <;> rfl, ?_⟩
    rw [onAccount_free hf, haccount]
    by_cases hn : a.number = x.account
    · simp [hn]
    · simp [hn, Ne.symm hn]
  · rw [takeContext_slots] at hz
    obtain ⟨y, hm, rfl⟩ := List.mem_map.1 hz
    by_cases hn : y.role ≠ .empty ∧ x.generation = some y.generation
    · rw [if_pos hn]
      refine ⟨y, hm, hn.1, rfl, ?_⟩
      simp [holdsGeneration_idle (congrArg CtxState.live hf), hgeneration, hn.2]
    · rw [if_neg hn] at hr ⊢
      refine ⟨y, hm, hr, rfl, ?_⟩
      have hno : x.generation ≠ some y.generation := fun e => hn ⟨hr, e⟩
      simp [holdsGeneration_idle (congrArg CtxState.live hf), hgeneration, hno]

/-! ### A live context ends -/

theorem post_slots (n q : Nat) (s : State) : (post n q s).tal.slots = s.tal.slots := by
  unfold post
  split
  · rfl
  · dsimp only
    split <;> simp

theorem releaseReference_slots (g : Option Nat) (s : State) : (releaseReference g s).tal.slots
    = s.tal.slots.map fun y => if y.role ≠ .empty ∧ g = some y.generation then y.release else y := by
  unfold releaseReference
  split
  · simp
  · simp [eq_comm]

/-- The ending of a live context settles its charge on the accounts and slots as they stand (R97). -/
theorem endContext_tal (hl : (s.context c).state.live = true) :
    ∃ v, endContext c o s = settleCharge (s.context c) o v ∧ v.tal = s.tal := by
  refine ⟨_, by rw [endContext, if_pos hl], ?_⟩
  simp [leaveOrders, detach, dropReads]

theorem settleCharge_slots (x : Context) (o : Ending) (s : State) : (settleCharge x o s).tal.slots
    = s.tal.slots.map fun y => if y.role ≠ .empty ∧ x.generation = some y.generation then y.release else y := by
  unfold settleCharge compose
  dsimp only
  rw [releaseReference_slots]
  split
  · rw [post_slots]
  · rfl

/-- A posting leaves number and in-flight count of an account (R132 to R134, R144). -/
theorem stopTest_postFigures (a : Account) (q : Nat) : (stopTest (postFigures a q)).number = a.number
    ∧ (stopTest (postFigures a q)).inFlight = a.inFlight := by
  unfold stopTest
  split <;> exact ⟨rfl, rfl⟩

/-- A slot that loses one of its references either counts it no more or becomes EMPTY (R146). -/
theorem release_refs {y : Slot} (h : y.release.role ≠ .empty) (hpos : 1 ≤ y.refs) :
    y.release.generation = y.generation ∧ y.release.refs + 1 = y.refs := by
  unfold Slot.release at h ⊢
  split
  · next hd => simp [hd, Slot.reset] at h
  · exact ⟨rfl, Nat.sub_add_cancel hpos⟩

theorem endContext_countsAgree (h : s.countsAgree) (hc : c < 16) : (endContext c o s).countsAgree := by
  by_cases hl : (s.context c).state.live = true
  case neg => rwa [endContext_idle (by simpa using hl)]
  obtain ⟨v, he, hv⟩ := endContext_tal (o := o) hl
  have hactive : (s.context c).state.active = true := by
    revert hl
    cases (s.context c).state <;> decide
  refine countsAgree_change h hc (fun i => context_endContext i hl) (fun b hb => ?_) fun z hz hr => ?_
  · rw [he, settleCharge_accounts, hv] at hb
    obtain ⟨a, hm, rfl⟩ := List.mem_map.1 hb
    have hsame : ((Context.close o (s.context c)).discard).onAccount a.number = (s.context c).onAccount a.number := by
      rw [Context.onAccount, Context.onAccount, hactive]
      rfl
    obtain ⟨hnumber, hflight⟩ := stopTest_postFigures a (v.chargeOf (s.context c) o)
    refine ⟨a, hm, ?_⟩
    rw [hsame]
    split
    · exact ⟨hnumber, by rw [hflight]⟩
    · exact ⟨rfl, rfl⟩
  · rw [he, settleCharge_slots, hv] at hz
    obtain ⟨y, hm, rfl⟩ := List.mem_map.1 hz
    have hgone : ((Context.close o (s.context c)).discard).holdsGeneration y.generation = false := rfl
    by_cases hn : y.role ≠ .empty ∧ (s.context c).generation = some y.generation
    · rw [if_pos hn] at hr ⊢
      have hheld : (s.context c).holdsGeneration y.generation = true := by simp [Context.holdsGeneration, hl, hn.2]
      have hpos : 1 ≤ y.refs := by
        rw [h.2 y hm hn.1]
        exact contextsWhere_pos hc hheld
      obtain ⟨hg, hrefs⟩ := release_refs hr hpos
      exact ⟨y, hm, hn.1, hg, by rw [hgone, hheld]; exact hrefs⟩
    · rw [if_neg hn] at hr ⊢
      have hno : (s.context c).generation ≠ some y.generation := fun e => hn ⟨hr, e⟩
      have hheld : (s.context c).holdsGeneration y.generation = false := by simp [Context.holdsGeneration, hno]
      exact ⟨y, hm, hr, rfl, by rw [hgone, hheld]⟩

/-! ### A context becomes FREE -/

theorem freeContext_idle (h : ¬((s.context c).state = .ending ∧ (s.context c).doneSent = true ∧ (s.context c).read = .none)) :
    freeContext c s = s := if_neg h

/-- A context in ENDING whose DONE is out and whose reads are back leaves the in-flight count of its account (R98, R137). -/
theorem freeContext_freed (he : (s.context c).state = .ending) (hd : (s.context c).doneSent = true)
    (hr : (s.context c).read = .none) : freeContext c s
      = (s.modAccount (s.context c).account fun a => { a with inFlight := a.inFlight - 1 }).modContext c
        fun _ => Context.reset :=
  if_pos ⟨he, hd, hr⟩

theorem freeContext_countsAgree (h : s.countsAgree) (hlen : s.ctx.length = 16) (hc : c < 16) :
    (freeContext c s).countsAgree := by
  by_cases hf : (s.context c).state = .ending ∧ (s.context c).doneSent = true ∧ (s.context c).read = .none
  case neg => rwa [freeContext_idle hf]
  obtain ⟨he, hd, hr⟩ := hf
  have hctx (i : Nat) : (freeContext c s).context i = if i = c then Context.reset else s.context i := by
    rw [freeContext_freed he hd hr, context_put i _ (hlen.symm ▸ hc)]
    rfl
  refine countsAgree_change h hc hctx (fun b hb => ?_) fun z hz hrole => ?_
  · rw [freeContext_freed he hd hr] at hb
    obtain ⟨a, hm, rfl⟩ := List.mem_map.1 hb
    refine ⟨a, hm, by split <;> rfl, ?_⟩
    rw [onAccount_free (x := Context.reset) rfl]
    by_cases hn : a.number = (s.context c).account
    · have hon : (s.context c).onAccount a.number = true := by simp [Context.onAccount, he, hn, CtxState.active]
      have hpos : 1 ≤ a.inFlight := by
        rw [h.1 a hm]
        exact contextsWhere_pos hc hon
      rw [if_pos hn, hon]
      exact Nat.sub_add_cancel hpos
    · have hon : (s.context c).onAccount a.number = false := by simp [Context.onAccount, Ne.symm hn]
      rw [if_neg hn, hon]
  · refine ⟨z, by rwa [freeContext_freed he hd hr] at hz, hrole, rfl, ?_⟩
    rw [holdsGeneration_idle (x := Context.reset) rfl, holdsGeneration_idle (congrArg CtxState.live he)]

/-! ### The switch of schedules -/

/-- A slot that is not EMPTY behind the switch keeps generation and count, and was not EMPTY before (R149). -/
theorem switched_counts {y : Slot} (h : y.switched.role ≠ .empty) : y.role ≠ .empty ∧ y.switched.generation = y.generation
    ∧ y.switched.refs = y.refs := by
  unfold Slot.switched at h ⊢
  split at h
  · next hr =>
    split at h
    · next hp => simp [hr, hp]
    · simp [Slot.reset] at h
  · next hr => simp [hr]
  · next hr => exact absurd hr h
  · next hr => simp [hr]

theorem switchSchedule_ctx_tal (s : State) : (switchSchedule s).ctx = s.ctx
    ∧ (switchSchedule s).tal = { s.tal with slots := s.tal.slots.map Slot.switched } := by
  unfold switchSchedule
  dsimp only
  split
  · exact ⟨rfl, rfl⟩
  · exact ⟨raise_ctx _ _, raise_tal _ _⟩

theorem switchSchedule_countsAgree (h : s.countsAgree) : (switchSchedule s).countsAgree := by
  obtain ⟨hctx, htal⟩ := switchSchedule_ctx_tal s
  have hcount (p : Context → Bool) : (switchSchedule s).contextsWhere p = s.contextsWhere p := by
    simp [State.contextsWhere, State.context, hctx]
  refine ⟨fun a ha => ?_, fun z hz hr => ?_⟩
  · rw [hcount]
    rw [htal] at ha
    exact h.1 a ha
  · rw [hcount]
    rw [htal] at hz
    obtain ⟨y, hy, rfl⟩ := List.mem_map.1 hz
    obtain ⟨hrole, hg, hrefs⟩ := switched_counts hr
    rw [hg, hrefs]
    exact h.2 y hy hrole

/-- Settles O39, table by table and operation by operation. -/
theorem tablesKept : Obligations.TablesKept := by
  refine ⟨fun s h => ⟨fun e => rangesKept_insertRange h, fun n i hi ho hl => rangesKept_openingOk h hi ho hl,
    fun f n => ⟨rangesKept_commit h, commit_entries_length⟩, fun n owed => ⟨?_, ?_⟩,
    fun n last e he hb ho => rangesKept_raiseLast h he hb ho, fun w i body pages hl => addFound_bounded hl⟩,
    fun s hlen h => ⟨fun c x hc hf hx => takeContext_countsAgree h hlen hc hf hx, fun c o hc => endContext_countsAgree h hc,
      fun c hc => freeContext_countsAgree h hlen hc, switchSchedule_countsAgree h⟩⟩
  · rw [finishClose_ranges]
    exact rangesKept_closeOpen h
  · rw [openRange_none_iff, finishClose_ranges]
    exact closeOpen_closed

end Sys2Proof.Machine
end

section
/-! SUPPORT. The locate of an attached context (R63, R65 to R70, R83): what its checks say, the cache and the order of the
pending buffer, the reads a locate places, what their results do, and their settling. -/

namespace Sys2Proof.Machine

variable {s u : State} {c d n j : Nat} {x : Context} {l l' : Locate} {r : SideRecord} {o : Ending}

/-! ### The checks of an entry and of a directory -/

theorem entryPasses_iff (e : IndexEntry) (i h : Nat) : entryPasses e i h = true ↔ e.valid = true ∧ e.instrument = i
    ∧ 1 ≤ e.pages ∧ e.pages ≤ 240 ∧ 2 ≤ e.body ∧ e.body ≤ 23041 ∧ 1 ≤ e.address ∧ e.address + e.body < h := by
  have hused : e.valid = true → e.marker ≠ 0 := by
    intro hv
    simp only [IndexEntry.valid, Bool.and_eq_true, beq_iff_eq] at hv
    omega
  simp only [entryPasses, Bool.and_eq_true, bne_iff_ne, beq_iff_eq, decide_eq_true_eq, and_assoc]
  exact ⟨fun ⟨_, h⟩ => h, fun h => ⟨hused h.1, h⟩⟩

theorem directoryPasses_iff (dir : DirectoryRead) (e : IndexEntry) (serial : Nat) : directoryPasses dir e serial = true ↔
    dir.serial = serial ∧ dir.body = e.body ∧ 1 ≤ dir.pages ∧ dir.pages = e.pages ∧ dir.list.length = dir.pages
      ∧ pagesRun 1 dir.body dir.list = true := by
  simp only [directoryPasses, Bool.and_eq_true, beq_iff_eq, decide_eq_true_eq, and_assoc]

/-! ### The cache -/

theorem fillCache_held {e : CacheEntry} (es : List IndexEntry) (h : s.cached n j = some e) :
    fillCache n j es s = touchCache e s := by simp [fillCache, h]

theorem fillCache_new (es : List IndexEntry) (h : s.cached n j = none) :
    (fillCache n j es s).loc.cache = { side := n, j := j, entries := es } :: s.loc.cache.take 31 := by
  simp [fillCache, h, Config.cacheLimit]

/-- The cache never grows past its 32 places (R65). -/
theorem fillCache_bounded (es : List IndexEntry) (h : s.loc.cache.length ≤ 32) :
    (fillCache n j es s).loc.cache.length ≤ 32 := by
  cases hc : s.cached n j with
  | none =>
    rw [fillCache_new es hc, List.length_cons, List.length_take]
    omega
  | some e =>
    rw [fillCache_held es hc]
    show (e :: s.loc.cache.erase e).length ≤ 32
    have hpos := List.length_pos_of_mem (cached_mem hc)
    rw [List.length_cons, List.length_erase_of_mem (cached_mem hc)]
    omega

/-! ### What leaves the locator's tables -/

theorem post_loc (n q : Nat) (s : State) : (post n q s).loc = s.loc := by
  unfold post
  split
  · rfl
  · dsimp only
    split
    · rfl
    · exact raise_loc _ _

theorem releaseReference_loc (g : Option Nat) (s : State) : (releaseReference g s).loc = s.loc := by
  unfold releaseReference
  split <;> rfl

theorem settleCharge_loc (x : Context) (o : Ending) (s : State) : (settleCharge x o s).loc = s.loc := by
  unfold settleCharge
  dsimp only
  refine (releaseReference_loc _ _).trans ?_
  split
  · exact post_loc _ _ _
  · rfl

theorem endContext_loc (c : Nat) (o : Ending) (s : State) : (endContext c o s).loc = s.loc := by
  unfold endContext
  split
  · exact (settleCharge_loc _ _ _).trans (reprioritise_loc _)
  · rfl

theorem endContexts_loc (cs : List Nat) (o : Ending) (s : State) : (endContexts cs o s).loc = s.loc :=
  foldl_kept (f := fun s c => endContext c o s) (P := fun t => t.loc = s.loc)
    (fun t c h => (endContext_loc c o t).trans h) cs rfl

theorem returnMarker_loc (s : State) : (returnMarker s).loc = s.loc := by
  unfold returnMarker
  split <;> rfl

theorem removeMount_loc (n : Nat) (s : State) : (removeMount n s).loc = s.loc := by
  have hdrop (o : Order) : (dropOrder o s).loc = s.loc := by
    rw [dropOrder_eq]
    split
    · exact (returnMarker_loc _).trans (endContexts_loc _ _ _)
    · exact endContexts_loc _ _ _
  unfold removeMount
  split
  · rfl
  · split
    · rfl
    · exact hdrop _

/-- A side that turns MISMATCH leaves the cache (R66). -/
theorem turnMismatch_cache (n : Nat) (s : State) :
    (turnMismatch n s).loc.cache = s.loc.cache.filter (·.side != n) := by
  have h (v : State) : (sideGone n true v).loc = (dropCache n v).loc := by
    unfold sideGone
    simp only [↓reduceIte]
    split
    · rw [setHalt_loc, removeMount_loc]
    · exact removeMount_loc _ _
  unfold turnMismatch
  rw [h]
  rfl

/-! ### The order of the pending buffer -/

/-- The order of side and k (R63). -/
def PendingEntry.before (a b : PendingEntry) : Prop := a.side < b.side ∨ (a.side = b.side ∧ a.k < b.k)

theorem mem_insertPending {q e : PendingEntry} {es : List PendingEntry} : e ∈ insertPending q es ↔ e = q ∨ e ∈ es := by
  obtain ⟨front, back, hs, hi⟩ := insertPending_split q es
  rw [hi, hs]
  simp only [List.mem_append, List.mem_cons]
  tauto

theorem insertPending_ordered {q : PendingEntry} {es : List PendingEntry} (h : es.Pairwise PendingEntry.before)
    (hnew : ∀ e ∈ es, ¬(e.side = q.side ∧ e.k = q.k)) : (insertPending q es).Pairwise PendingEntry.before := by
  induction es with
  | nil => exact List.pairwise_singleton _ _
  | cons y es ih =>
    obtain ⟨hy, hes⟩ := List.pairwise_cons.1 h
    obtain ⟨hyq, hesq⟩ := List.forall_mem_cons.1 hnew
    unfold insertPending
    split
    · next hq =>
      refine List.pairwise_cons.2 ⟨List.forall_mem_cons.2 ⟨hq, fun e he => ?_⟩, h⟩
      have := hy e he
      unfold PendingEntry.before at this ⊢
      omega
    · next hq =>
      refine List.pairwise_cons.2 ⟨fun e he => ?_, ih hes hesq⟩
      rcases mem_insertPending.1 he with rfl | he
      · unfold PendingEntry.before
        omega
      · exact hy e he

/-! ### The locate of an attached context -/

/-- Context `c`, which is `x`, stands in drive `d` and locates with `l` on a side of record `r`. -/
structure State.locates (s : State) (c d : Nat) (x : Context) (l : Locate) (r : SideRecord) : Prop where
  inTable : c < s.ctx.length
  context : s.context c = x
  attached : s.attachedTo c = some d
  state : x.state = .locating
  locate : x.locate = some l
  same : l.side = x.side
  side : s.side x.side = some r

theorem locates_live (h : s.locates c d x l r) : (s.context c).state.live = true := by
  rw [h.context, h.state]
  rfl

theorem attached_drive_lt (h : s.attachedTo c = some d) : d < s.drives.length := by
  by_contra hd
  have hmem : c ∈ (s.drive d).attached := by simpa using List.find?_some h
  have hreset : s.drive d = Drive.reset := by
    simp [State.drive, List.getD_eq_getElem?_getD, List.getElem?_eq_none (Nat.le_of_not_lt hd)]
  rw [hreset] at hmem
  cases hmem

/-- From `s` to `u` the locate of `c`, now `l'`, places its read of one sector in drive `d` (R68, R70). -/
def State.locateReads (s : State) (c d : Nat) (x : Context) (u : State) (l' : Locate) (first : Nat) : Prop :=
  u.context c = { x with locate := some l', read := .queued, filling := 1 }
    ∧ (∀ i, i ≠ c → u.context i = s.context i) ∧ (∀ i, i ≠ d → u.drive i = s.drive i)
    ∧ u.drive d = { s.drive d with queue := (s.drive d).queue ++ [{ issuer := .locate c, op := .read, first := first
                                                                    count := 1, data := [], priority := x.priority
                                                                    age := s.now, retries := 0, notReady := 0
                                                                    have_ := 0 }] }

/-- The context ends LOCATE-FAILED. -/
def State.locateFails (u : State) (c : Nat) : Prop := (u.context c).state = .ending ∧ (u.context c).outcome = some .locateFailed

theorem endContext_ends (hl : (s.context c).state.live = true) :
    ((endContext c o s).context c).state = .ending ∧ ((endContext c o s).context c).outcome = some o := by
  rw [context_endContext c hl, if_pos rfl]
  exact ⟨rfl, rfl⟩

/-- The state in which the locate of a context has become `l'`. -/
def locateSet (c : Nat) (l' : Locate) (s : State) : State := s.modContext c fun x => { x with locate := some l' }

theorem locateSet_context (h : s.locates c d x l r) : (locateSet c l' s).context c = { x with locate := some l' } := by
  rw [locateSet, context_modContext, if_pos ⟨rfl, h.inTable⟩, h.context]

theorem locateSet_eq (h : s.locates c d x l r) (f : Locate → Locate) :
    (s.modContext c fun x => { x with locate := x.locate.map f }) = locateSet c (f l) s := by
  refine modContext_congr ?_
  rw [h.context, h.locate]
  rfl

/-! ### The reads it places -/

theorem placeLocateRead_attached {first : Nat} (h : s.attachedTo c = some d) : placeLocateRead c first s =
    (pushCommand d (newEntry s (.locate c) .read first 1 (s.context c).priority []) s).modContext c
      fun x => { x with read := .queued, filling := 1 } := by
  unfold placeLocateRead
  rw [h]

/-- The read of a locate is queued behind the commands of its drive (R31, R68, R70). -/
theorem placeLocateRead_reads (h : s.locates c d x l r) (l' : Locate) (first : Nat) :
    s.locateReads c d x (placeLocateRead c first (locateSet c l' s)) l' first := by
  have hset := locateSet_context (l' := l') h
  have hin : c < (locateSet c l' s).ctx.length := by simpa [locateSet] using h.inTable
  have hpush (i : Nat) (e : QueueEntry) : (pushCommand d e (locateSet c l' s)).context i = (locateSet c l' s).context i := rfl
  rw [placeLocateRead_attached (show (locateSet c l' s).attachedTo c = some d from h.attached), hset]
  refine ⟨?_, fun i hi => ?_, fun i hi => ?_, ?_⟩
  · rw [context_modContext, if_pos ⟨rfl, hin⟩, hpush, hset]
  · rw [context_modContext, if_neg fun hn => hi hn.1.symm, hpush, locateSet, context_modContext,
      if_neg fun hn => hi hn.1.symm]
  · show (s.modDrive d _).drive i = _
    rw [drive_modDrive, if_neg fun hn => hi hn.1.symm]
  · show (s.modDrive d _).drive d = _
    rw [drive_modDrive, if_pos ⟨rfl, attached_drive_lt h.attached⟩]
    rfl

/-- The read owed at INDEX-READ (R68). -/
theorem oweLocateRead_index (h : s.locates c d x l r) (hr : x.read = .none) (hs : l'.step = .indexRead) :
    oweLocateRead c (locateSet c l' s) = placeLocateRead c (r.indexPosition l'.j) (locateSet c l' s) := by
  have hside : (locateSet c l' s).side x.side = some r := h.side
  unfold oweLocateRead
  rw [locateSet_context h]
  simp only [hr, hside, hs]

/-- The read owed at DIRECTORY-READ (R70). -/
theorem oweLocateRead_directory {e : IndexEntry} (h : s.locates c d x l r) (hr : x.read = .none)
    (hs : l'.step = .directoryRead) (he : l'.entry = some e) :
    oweLocateRead c (locateSet c l' s) = placeLocateRead c e.address (locateSet c l' s) := by
  have hside : (locateSet c l' s).side x.side = some r := h.side
  unfold oweLocateRead
  rw [locateSet_context h]
  simp only [hr, hside, hs, he]

theorem entryFound_reads (h : s.locates c d x l r) (hr : x.read = .none) (e : IndexEntry) :
    s.locateReads c d x (entryFound c e s) { l with entry := some e, step := .directoryRead } e.address := by
  unfold entryFound
  rw [locateSet_eq h, oweLocateRead_directory h hr rfl rfl]
  exact placeLocateRead_reads h _ _

/-! ### A slot put to use -/

/-- A slot that passes the checks of R69 has its directory read; one that does not ends the context. -/
def State.slotUsed (s : State) (c d : Nat) (x : Context) (l : Locate) (r : SideRecord) (u : State) (e : IndexEntry) : Prop :=
  (entryPasses e x.instrument r.dataHigh = true →
    s.locateReads c d x u { l with entry := some e, step := .directoryRead } e.address)
    ∧ (entryPasses e x.instrument r.dataHigh = false → u.locateFails c)

theorem useSlot_eq (h : s.locates c d x l r) (es : List IndexEntry) : useSlot c es s =
    if entryPasses (es.getD l.slot emptySlot) x.instrument r.dataHigh then entryFound c (es.getD l.slot emptySlot) s
    else endContext c .locateFailed s := by
  unfold useSlot
  rw [h.context]
  simp only [h.locate, h.side]

theorem useSlot_uses (h : s.locates c d x l r) (hr : x.read = .none) (es : List IndexEntry) :
    s.slotUsed c d x l r (useSlot c es s) (es.getD l.slot emptySlot) := by
  rw [useSlot_eq h]
  constructor
  · intro hp
    rw [if_pos hp]
    exact entryFound_reads h hr _
  · intro hp
    rw [if_neg (ne_true_of_eq_false hp)]
    exact endContext_ends (locates_live h)

theorem placeLocateRead_loc (c first : Nat) (s : State) : (placeLocateRead c first s).loc = s.loc := by
  unfold placeLocateRead
  split <;> rfl

theorem oweLocateRead_loc (c : Nat) (s : State) : (oweLocateRead c s).loc = s.loc := by
  unfold oweLocateRead
  dsimp only
  split
  · split
    · exact placeLocateRead_loc _ _ _
    · exact placeLocateRead_loc _ _ _
    · rfl
  · rfl

theorem useSlot_loc (c : Nat) (es : List IndexEntry) (s : State) : (useSlot c es s).loc = s.loc := by
  unfold useSlot
  dsimp only
  split
  · split
    · exact oweLocateRead_loc _ _
    · exact endContext_loc _ _ _
  · rfl

/-! ### ENTRY -/

theorem locateEntry_pending {q : PendingEntry} (h : s.locates c d x l r)
    (hq : s.loc.entries.find? (fun p => p.side == l.side && p.k == l.k) = some q) :
    locateEntry c s = entryFound c q.entry s := by
  unfold locateEntry
  rw [h.context]
  simp only [h.locate, h.side, hq]

theorem locateEntry_cached {e : CacheEntry} (h : s.locates c d x l r)
    (hq : s.loc.entries.find? (fun p => p.side == l.side && p.k == l.k) = none)
    (hj : l.j < r.written) (he : s.cached l.side l.j = some e) :
    locateEntry c s = useSlot c e.entries (touchCache e s) := by
  unfold locateEntry
  rw [h.context]
  simp only [h.locate, h.side, hq, if_pos hj, he]

theorem locateEntry_index (h : s.locates c d x l r)
    (hq : s.loc.entries.find? (fun p => p.side == l.side && p.k == l.k) = none)
    (hj : r.written ≤ l.j ∨ s.cached l.side l.j = none) :
    locateEntry c s = oweLocateRead c (locateSet c { l with step := .indexRead } s) := by
  have hnone : (if l.j < r.written then s.cached l.side l.j else none) = none := by
    rcases hj with hj | hj
    · exact if_neg (Nat.not_lt.2 hj)
    · rw [hj, ite_self]
  unfold locateEntry
  rw [h.context]
  simp only [h.locate, h.side, hq, hnone, locateSet_eq h]

/-- The pending entry of a side and k is found when no other has them (R63). -/
theorem find_pending {es : List PendingEntry} {q : PendingEntry} {k : Nat} (hq : q ∈ es) (hside : q.side = n) (hk : q.k = k)
    (hone : ∀ q' ∈ es, q'.side = n → q'.k = k → q' = q) : es.find? (fun p => p.side == n && p.k == k) = some q := by
  have hsome : (es.find? fun p => p.side == n && p.k == k).isSome = true :=
    List.find?_isSome.2 ⟨q, hq, by simp [hside, hk]⟩
  obtain ⟨q', hq'⟩ := Option.isSome_iff_exists.1 hsome
  have hkey := List.find?_some hq'
  simp only [Bool.and_eq_true, beq_iff_eq] at hkey
  rw [hq', hone q' (List.mem_of_find?_eq_some hq') hkey.1 hkey.2]

theorem find_pending_none {es : List PendingEntry} {k : Nat} (h : ∀ q ∈ es, ¬(q.side = n ∧ q.k = k)) :
    es.find? (fun p => p.side == n && p.k == k) = none :=
  List.find?_eq_none.2 fun q hq => by simpa using h q hq

/-! ### Results -/

/-- The state in which the read of a context is outstanding no more, and its frame free (R68, R70). -/
def readEnded (c : Nat) (s : State) : State := s.modContext c fun x => { x with read := .none, filling := 0 }

theorem readEnded_locates (h : s.locates c d x l r) :
    (readEnded c s).locates c d { x with read := .none, filling := 0 } l r where
  inTable := by simpa [readEnded] using h.inTable
  context := by rw [readEnded, context_modContext, if_pos ⟨rfl, h.inTable⟩, h.context]
  attached := h.attached
  state := h.state
  locate := h.locate
  same := h.same
  side := h.side

/-- A read placed behind the end of the one before it, seen from the state before that end. -/
theorem locateReads_of_readEnded {first : Nat}
    (h : (readEnded c s).locateReads c d { x with read := .none, filling := 0 } u l' first) :
    s.locateReads c d x u l' first := by
  obtain ⟨hctx, hother, hdrives, hdrive⟩ := h
  refine ⟨hctx, fun i hi => ?_, hdrives, hdrive⟩
  rw [hother i hi, readEnded, context_modContext, if_neg fun hn => hi hn.1.symm]

theorem readEnded_context (h : s.locates c d x l r) :
    (s.modContext c fun x => { x with read := .none, filling := 0 }).context c = { x with read := .none, filling := 0 } :=
  (readEnded_locates h).context

/-- Every result but OK ends the context (R68, R70; log 11). -/
theorem locateResult_failed {res : DriveResult} {got : List Sector} (h : s.locates c d x l r) (hres : res ≠ .ok) :
    locateResult c res got s = endContext c .locateFailed (readEnded c s) := by
  unfold locateResult
  simp only [readEnded_context h, h.state, h.locate]
  cases res with
  | ok => exact absurd rfl hres
  | blank _ | mediaError _ | verifyFailed _ | notReady | noCartridge => rfl

theorem locateResult_index {data : Sector} (h : s.locates c d x l r) (hs : l.step = .indexRead) :
    locateResult c .ok [data] s = indexReadOk c l data (readEnded c s) := by
  unfold locateResult
  simp only [readEnded_context h, h.state, h.locate, hs]
  rfl

theorem locateResult_directory {data : Sector} (h : s.locates c d x l r) (hs : l.step = .directoryRead) :
    locateResult c .ok [data] s = directoryReadOk c l data (readEnded c s) := by
  unfold locateResult
  simp only [readEnded_context h, h.state, h.locate, hs]
  rfl

/-- The cache behind an index read: filled when the sector counts as written (R66, R68). -/
def indexCached (l : Locate) (r : SideRecord) (data : Sector) (s : State) : State :=
  if l.j < r.written then fillCache l.side l.j (readIndex data) s else s

theorem indexReadOk_eq {data : Sector} (h : s.locates c d x l r) :
    indexReadOk c l data s = useSlot c (readIndex data) (indexCached l r data s) := by
  have hside : s.side l.side = some r := h.same ▸ h.side
  simp only [indexReadOk, hside, Option.any_some, decide_eq_true_eq]
  rfl

/-- The cache apart, nothing has changed. -/
theorem indexCached_eq (l : Locate) (r : SideRecord) (data : Sector) (s : State) :
    ∃ es, indexCached l r data s = { s with loc.cache := es } := by
  unfold indexCached
  split
  · exact fillCache_eq
  · exact ⟨s.loc.cache, rfl⟩

/-- The cache is not read by the locate of a context that stands in a drive. -/
theorem locates_withCache (h : s.locates c d x l r) (es : List CacheEntry) :
    ({ s with loc.cache := es } : State).locates c d x l r := ⟨h.1, h.2, h.3, h.4, h.5, h.6, h.7⟩

/-- An index read that ends OK has its slot used, and the cache filled where its sector counts as written (R66, R68, R69). -/
theorem locateResult_index_uses {data : Sector} (h : s.locates c d x l r) (hs : l.step = .indexRead) :
    s.slotUsed c d x l r (locateResult c .ok [data] s) ((readIndex data).getD l.slot emptySlot) := by
  have hended := readEnded_locates h
  obtain ⟨es, he⟩ := indexCached_eq l r data (readEnded c s)
  obtain ⟨hreads, hfails⟩ := useSlot_uses (locates_withCache hended es) rfl (readIndex data)
  rw [locateResult_index h hs, indexReadOk_eq hended, he]
  exact ⟨fun hp => locateReads_of_readEnded (hreads hp), hfails⟩

theorem locateResult_index_cache {data : Sector} (h : s.locates c d x l r) (hs : l.step = .indexRead) :
    (r.written ≤ l.j → (locateResult c .ok [data] s).loc.cache = s.loc.cache)
      ∧ (l.j < r.written → s.cached l.side l.j = none → (locateResult c .ok [data] s).loc.cache
        = { side := l.side, j := l.j, entries := readIndex data } :: s.loc.cache.take 31) := by
  rw [locateResult_index h hs, indexReadOk_eq (readEnded_locates h), useSlot_loc, indexCached]
  refine ⟨fun hj => ?_, fun hj hc => ?_⟩
  · rw [if_neg (Nat.not_lt.2 hj)]
    rfl
  · rw [if_pos hj]
    exact fillCache_new (s := readEnded c s) _ hc

/-! ### The directory -/

theorem directoryReadOk_unreadable {data : Sector} (hd : readDirectory data = none) :
    directoryReadOk c l data s = endContext c .locateFailed s := by simp [directoryReadOk, hd]

theorem directoryReadOk_read {data : Sector} {dir : DirectoryRead} {e : IndexEntry} (h : s.locates c d x l r)
    (he : l.entry = some e) (hd : readDirectory data = some dir) : directoryReadOk c l data s =
      if directoryPasses dir e r.serial then handDirectory c { address := e.address, pages := dir.list } s
      else endContext c .locateFailed s := by
  have hside : s.side l.side = some r := h.same ▸ h.side
  simp only [directoryReadOk, hd, he, hside]

/-- An empty selection ends the context COMPLETE (R83). -/
theorem handDirectory_empty {dir : Directory} (h : s.locates c d x l r)
    (hn : clampSelection x.selection dir.pages.length = []) :
    ((handDirectory c dir s).context c).state = .ending ∧ ((handDirectory c dir s).context c).outcome = some .complete := by
  have hlive : ((s.modContext c fun x => { x with directory := some dir, locate := none }).context c).state.live = true := by
    rw [context_modContext, if_pos ⟨rfl, h.inTable⟩]
    exact locates_live h
  unfold handDirectory
  rw [h.context, hn, List.isEmpty_nil, if_pos rfl]
  exact endContext_ends hlive

/-- The first selected page is the next to read and to deliver (R83). -/
theorem handDirectory_streams {dir : Directory} {p : Nat} {ps : List Nat} (h : s.locates c d x l r)
    (hp : clampSelection x.selection dir.pages.length = p :: ps) : (handDirectory c dir s).context c = { x with
      locate := none, directory := some dir, chosen := p :: ps, state := .streaming, nextRead := some (p, 0)
      nextPage := some p, nextSend := 0, primed := false } := by
  unfold handDirectory
  rw [h.context, hp, List.isEmpty_cons, if_neg Bool.false_ne_true, context_modContext, if_pos ⟨rfl, h.inTable⟩, h.context]
  unfold Context.resolve
  rw [hp]
  rfl

/-- Settles O21: ENTRY by where the entry is found, each read by its result, then the checks and the two tables. -/
theorem locatesGoOn : Obligations.LocatesGoOn := by
  refine ⟨?locate, entryPasses_iff, directoryPasses_iff,
    fun s n j es => ⟨fun e he => ?_, fillCache_new es, fillCache_bounded es, fun e => ?_⟩, ?order⟩
  case locate =>
    intro s c d x l r hc hx ha hst hl hs hr
    have h : s.locates c d x l r := ⟨hc, hx, ha, hst, hl, hs, hr⟩
    have hended := readEnded_locates h
    refine ⟨fun hread => ⟨fun q hq hside hk hone => ?_, fun hnone => ⟨fun e hj he => ⟨?_, ?_⟩, fun hj => ?_⟩⟩,
      fun res got hres => ?_, fun data hstep => ⟨locateResult_index_uses h hstep, locateResult_index_cache h hstep⟩,
      fun data e hstep he => ⟨fun hd => ?_, fun dir hd => ⟨fun hp => ?_, fun hp => ⟨fun hn => ?_, fun p ps hps => ?_⟩⟩⟩⟩
    · rw [locateEntry_pending h (find_pending hq hside hk hone)]
      exact entryFound_reads h hread _
    · rw [locateEntry_cached h (find_pending_none hnone) hj he]
      exact useSlot_uses (s := touchCache e s) (locates_withCache h _) hread _
    · rw [locateEntry_cached h (find_pending_none hnone) hj he, useSlot_loc]
      rfl
    · rw [locateEntry_index h (find_pending_none hnone) hj, oweLocateRead_index h hread rfl]
      exact placeLocateRead_reads h _ _
    · rw [locateResult_failed h hres]
      exact endContext_ends (locates_live hended)
    · rw [locateResult_directory h hstep, directoryReadOk_unreadable hd]
      exact endContext_ends (locates_live hended)
    · rw [locateResult_directory h hstep, directoryReadOk_read hended he hd, if_neg (ne_true_of_eq_false hp)]
      exact endContext_ends (locates_live hended)
    · rw [locateResult_directory h hstep, directoryReadOk_read hended he hd, if_pos hp]
      exact handDirectory_empty hended hn
    · rw [locateResult_directory h hstep, directoryReadOk_read hended he hd, if_pos hp]
      exact (handDirectory_streams hended hps).trans (by rw [← hps])
  case order =>
    intro q es before ho hn
    exact ⟨insertPending_ordered ho hn, fun e => mem_insertPending⟩
  · rw [fillCache_held es he]
    rfl
  · rw [turnMismatch_cache]
    simp

end Sys2Proof.Machine
end

section
/-! SUPPORT. The line (R92, R155, R156), and HOLD, RESUME and CANCEL at the live context they name (R89 to R91, R93), with
their settling. -/

namespace Sys2Proof.Machine

variable {s : State} {r t c : Nat} {x : Context}

/-! ### Holds -/

theorem live_iff {x : CtxState} : x.live = true ↔ x = .mountWait ∨ x = .locating ∨ x = .streaming := by
  cases x <;> decide

theorem held_iff : x.held = true ↔ x.heldByHold = true ∨ x.heldByLink = true := Bool.or_eq_true_iff

/-- The timer of a context that gets a hold cause: it starts when there was none (R91). -/
def Context.heldTimer (x : Context) (now limit : Nat) : Option Timer :=
  if x.heldByHold = true ∨ x.heldByLink = true then x.timer else some { start := now, limit := limit }

theorem hold_link (now limit : Nat) (x : Context) :
    x.hold now limit true = { x with heldByLink := true, timer := x.heldTimer now limit } := by
  simp [Context.hold, Context.heldTimer, held_iff]

theorem hold_request (now limit : Nat) (x : Context) :
    x.hold now limit false = { x with heldByHold := true, timer := x.heldTimer now limit } := by
  simp [Context.hold, Context.heldTimer, held_iff]

theorem unhold_link (x : Context) :
    x.unhold true = { x with heldByLink := false, timer := if x.heldByHold = true then x.timer else none } := by
  simp [Context.unhold, Context.held]

theorem unhold_request (x : Context) :
    x.unhold false = { x with heldByHold := false, timer := if x.heldByLink = true then x.timer else none } := by
  simp [Context.unhold, Context.held]

/-! ### The line -/

/-- The cause LINK is set or removed on the live contexts, and on no other (R92). -/
theorem linkHolds_eq (f : Context → Context) (s : State) : linkHolds f s = { s with
    ctx := s.ctx.map fun x => if x.state = .mountWait ∨ x.state = .locating ∨ x.state = .streaming then f x else x } := by
  simp only [linkHolds, live_iff]

theorem lineDown_up (h : s.rli.link = .up) : lineDown s = linkHolds (Context.hold s.now s.mu.params.holdLimit true)
    { s with rli.link := .down, rli.downs := min (s.rli.downs + 1) 65535 } := if_neg (by simp [h])

theorem lineUp_down (h : s.rli.link = .down) :
    lineUp s = settle (linkHolds (Context.unhold true) { s with rli.link := .up }) := if_neg (by simp [h])

theorem frameFinished_sending (h : s.rli.link = .up) (ht : s.rli.transmitter.isSome = true) :
    frameFinished s = settle { s with rli.transmitter := none } := by
  have hno : ¬(s.rli.link = .down ∨ s.rli.transmitter.isNone = true) := by
    rintro (hl | hn)
    · simp [h] at hl
    · simp [Option.isNone_iff_eq_none.1 hn] at ht
  exact if_neg hno

/-- Settles O15, event by event. -/
theorem lineEvents_hold : Obligations.LineEvents := by
  intro s
  refine ⟨fun hup => congrArg Host.Outcome.next ?_, fun hdown => congrArg Host.Outcome.next ?_,
    fun hup ht => congrArg Host.Outcome.next (frameFinished_sending hup ht)⟩
  · rw [lineDown_up hup, linkHolds_eq]
    simp only [hold_link]
    rfl
  · rw [lineUp_down hdown, linkHolds_eq]
    simp only [unhold_link]

/-! ### The context a request names -/

/-- A request command whose meaning is handed on, and what its block does (R154). -/
theorem exec_handed {i : Instr} {act : State → State} {u : State} (he : exec i s = .next (handOn i act s)) (h : s.handsOn)
    (hu : act s = u) : exec i s = .next u := by
  rw [he, handOn_taken h, hu]

/-- Context `c` is live, and of requester `r` and tag `t` (R89). -/
def State.namesLive (s : State) (r t c : Nat) : Prop :=
  (s.context c).state.live = true ∧ (s.context c).requester = r ∧ (s.context c).tag = t

theorem namesLive_iff : ((s.context c).state.live && (s.context c).requester == r && (s.context c).tag == t) = true
    ↔ s.namesLive r t c := by
  simp only [Bool.and_eq_true, beq_iff_eq, and_assoc, State.namesLive]

theorem liveContext_only (hc : c < 16) (h : s.namesLive r t c) (ho : ∀ i < 16, i ≠ c → ¬s.namesLive r t i) :
    s.liveContext r t = some c :=
  find_range_lowest hc (namesLive_iff.2 h) fun i hi =>
    Bool.eq_false_iff.2 fun hn => ho i (hi.trans hc) hi.ne (namesLive_iff.1 hn)

theorem liveContext_none (h : ∀ i < 16, ¬s.namesLive r t i) : s.liveContext r t = none :=
  List.find?_eq_none.2 fun i hi hn => h i (List.mem_range.1 hi) (namesLive_iff.1 hn)

theorem holdTaken_named (h : s.liveContext r t = some c) :
    holdTaken r t s = s.modContext c (Context.hold s.now s.mu.params.holdLimit false) := by simp [holdTaken, h]

theorem resumeTaken_named (h : s.liveContext r t = some c) :
    resumeTaken r t s = settle (s.modContext c (Context.unhold false)) := by simp [resumeTaken, h]

theorem cancelTaken_named (h : s.liveContext r t = some c) :
    cancelTaken r t s = settle (endContext c .cancelled s) := by simp [cancelTaken, h]

/-- Settles O19: the one context that is named is the one found, and none is found where none is named. -/
theorem liveContextRequests : Obligations.LiveContextRequests := by
  intro s r t h
  refine ⟨fun c hc hn ho => ?_, fun hno => ?_⟩
  · have hfound : s.liveContext r t = some c := liveContext_only hc hn ho
    refine ⟨exec_handed rfl h ?_, exec_handed rfl h ?_, exec_handed rfl h (cancelTaken_named hfound)⟩
    · rw [holdTaken_named hfound, funext (hold_request _ _)]
      rfl
    · rw [resumeTaken_named hfound, funext unhold_request]
      rfl
  · have hnone : s.liveContext r t = none := liveContext_none hno
    exact ⟨exec_handed rfl h (by simp [holdTaken, hnone]), exec_handed rfl h (by simp [resumeTaken, hnone]),
      exec_handed rfl h (by simp [cancelTaken, hnone])⟩

end Sys2Proof.Machine
end

section
/-! SUPPORT. FETCH (R78 to R80, R92): its checks in their order, the context it takes, and its settling. -/

namespace Sys2Proof.Machine

variable {s : State} {r t c side k : Nat} {b : FetchBody} {q : Requester} {a : Account} {reason : Reason}

/-! ### The checks -/

/-- Check 2: the requester's right for the kind asked. -/
def State.fetchRight (s : State) (r : Nat) (b : FetchBody) : Bool :=
  (s.requester r).any fun q => if b.kind = 0 then q.rights.copy else q.rights.view

/-- Check 3: an active context of the requester has the tag. -/
def State.fetchSame (s : State) (r t : Nat) : Bool :=
  (List.range 16).any fun c => (s.context c).state != .free && (s.context c).requester == r && (s.context c).tag == t

/-- Check 4: the requester has as many active contexts as it may. -/
def State.fetchFull (s : State) (r : Nat) : Bool :=
  decide (((s.requester r).map (·.contextLimit)).getD 0 ≤ s.activeOf r)

/-- Check 5: no context is FREE. -/
def State.fetchBusy (s : State) : Bool := (List.range 16).all fun c => (s.context c).state != .free

theorem fetchKind_copy : fetchKind b = .copy ↔ b.kind = 0 := by simp [fetchKind]

theorem grants_fetchKind (q : Requester) (b : FetchBody) :
    q.grants (fetchKind b) = if b.kind = 0 then q.rights.copy else q.rights.view := by
  unfold fetchKind
  split <;> rfl

theorem active_eq (x : CtxState) : x.active = (x != .free) := by cases x <;> rfl

theorem contextsWhere_isEmpty (s : State) (p : Context → Bool) :
    (s.contextsWhere p).isEmpty = (List.range 16).all fun c => !p (s.context c) := by
  rw [Bool.eq_iff_iff, List.isEmpty_iff, State.contextsWhere, List.filter_eq_nil_iff, List.all_eq_true]
  simp only [Bool.not_eq_true, Bool.not_eq_true']

theorem fetchSame_eq (s : State) (r t : Nat) : (!(s.contextsWhere fun c => c.state.active && c.requester == r
    && c.tag == t).isEmpty) = s.fetchSame r t := by
  simp only [contextsWhere_isEmpty, active_eq, State.fetchSame, List.not_all_eq_any_not, Bool.not_not]

theorem fetchBusy_eq (s : State) : (s.contextsWhere (·.state == .free)).isEmpty = s.fetchBusy :=
  contextsWhere_isEmpty _ _

theorem fetchBarred_eq (s : State) (r t : Nat) (b : FetchBody) : s.fetchBarred r t b =
    if fetchValid b = false then some .badValue else if s.mu.service ≠ .serving then some .notServing
    else if s.fetchRight r b = false then some .noRight else if s.fetchSame r t = true then some .duplicateTag
    else if s.fetchFull r = true then some .requesterLimit else if s.fetchBusy = true then some .busy else none := by
  simp only [State.fetchBarred, fetchSame_eq, fetchBusy_eq, grants_fetchKind, State.fetchRight, State.fetchFull,
    decide_eq_true_eq, Bool.not_eq_true']

theorem fetchBarred_value (hv : fetchValid b = false) : s.fetchBarred r t b = some .badValue := by
  simp [fetchBarred_eq, hv]

theorem fetchBarred_service (hv : fetchValid b = true) (hs : s.mu.service ≠ .serving) :
    s.fetchBarred r t b = some .notServing := by simp [fetchBarred_eq, hv, hs]

theorem fetchBarred_right (hv : fetchValid b = true) (hs : s.mu.service = .serving) (hr : s.fetchRight r b = false) :
    s.fetchBarred r t b = some .noRight := by simp [fetchBarred_eq, hv, hs, hr]

theorem fetchBarred_tag (hv : fetchValid b = true) (hs : s.mu.service = .serving) (hr : s.fetchRight r b = true)
    (ht : s.fetchSame r t = true) : s.fetchBarred r t b = some .duplicateTag := by simp [fetchBarred_eq, hv, hs, hr, ht]

theorem fetchBarred_limit (hv : fetchValid b = true) (hs : s.mu.service = .serving) (hr : s.fetchRight r b = true)
    (ht : s.fetchSame r t = false) (hf : s.fetchFull r = true) : s.fetchBarred r t b = some .requesterLimit := by
  simp [fetchBarred_eq, hv, hs, hr, ht, hf]

theorem fetchBarred_busy (hv : fetchValid b = true) (hs : s.mu.service = .serving) (hr : s.fetchRight r b = true)
    (ht : s.fetchSame r t = false) (hf : s.fetchFull r = false) (hn : s.fetchBusy = true) :
    s.fetchBarred r t b = some .busy := by simp [fetchBarred_eq, hv, hs, hr, ht, hf, hn]

/-- The checks 1 to 5 of R79 all pass, and the values of R78 are good. -/
structure State.fetchOpen (s : State) (r t : Nat) (b : FetchBody) : Prop where
  valid : fetchValid b = true
  serving : s.mu.service = .serving
  right : s.fetchRight r b = true
  fresh : s.fetchSame r t = false
  room : s.fetchFull r = false
  free : s.fetchBusy = false

theorem fetchBarred_none (h : s.fetchOpen r t b) : s.fetchBarred r t b = none := by
  simp [fetchBarred_eq, h.valid, h.serving, h.right, h.fresh, h.room, h.free]

theorem fetchRefusal_barred (h : s.fetchBarred r t b = some reason) : s.fetchRefusal r t b = some reason := by
  simp [State.fetchRefusal, h]

theorem fetchRefusal_noAccount (h : s.fetchBarred r t b = none) (ha : s.account b.account = none) :
    s.fetchRefusal r t b = some .noAccount := by simp [State.fetchRefusal, h, ha]

theorem fetchRefusal_stopped (h : s.fetchBarred r t b = none) (ha : s.account b.account = some a) (hk : b.kind = 0)
    (hs : a.state = .stopped) : s.fetchRefusal r t b = some .accountStopped := by
  simp [State.fetchRefusal, h, ha, fetchKind_copy, hk, hs]

/-- Check 7 passes: the account is OPEN, or the delivery is a VIEW. -/
theorem not_stopped_copy (ho : b.kind ≠ 0 ∨ a.state = .opened) : ¬(fetchKind b = .copy ∧ a.state = .stopped) := by
  rintro ⟨hk, hs⟩
  rcases ho with ho | ho
  · exact ho (fetchKind_copy.1 hk)
  · cases hs.symm.trans ho

theorem fetchRefusal_notFound (h : s.fetchBarred r t b = none) (ha : s.account b.account = some a)
    (ho : b.kind ≠ 0 ∨ a.state = .opened) (hl : s.lookup b.instrument = none) :
    s.fetchRefusal r t b = some .notFound := by
  simp [State.fetchRefusal, h, ha, not_stopped_copy ho, hl]

theorem fetchRefusal_found (h : s.fetchBarred r t b = none) (ha : s.account b.account = some a)
    (ho : b.kind ≠ 0 ∨ a.state = .opened) (hl : s.lookup b.instrument = some (side, k)) :
    s.fetchRefusal r t b = if s.answerNeed side true = .unavailable then some .unavailable else none := by
  simp only [State.fetchRefusal, h, ha, if_neg (not_stopped_copy ho), hl]

theorem exec_fetch_refused (h : s.handsOn) (hr : s.fetchRefusal r t b = some reason) :
    exec (.fetch r t b) s = .next (publish (refuse r t reason 1 s)) :=
  exec_handed rfl h (by simp [fetchTaken, hr])

/-- Settles O18, check by check. -/
theorem fetchRefused : Obligations.FetchRefused := by
  intro s r t b h right same full none_
  have barred {reason : Reason} (hb : s.fetchBarred r t b = some reason) :=
    exec_fetch_refused h (fetchRefusal_barred hb)
  refine ⟨fun hv => barred (fetchBarred_value hv), fun hv => ⟨fun hs => barred (fetchBarred_service hv hs), fun hs =>
    ⟨fun hr => barred (fetchBarred_right hv hs hr), fun hr => ⟨fun ht => barred (fetchBarred_tag hv hs hr ht),
      fun ht hf => barred (fetchBarred_limit hv hs hr ht hf), fun ht hf hn => barred (fetchBarred_busy hv hs hr ht hf hn),
      fun ht hf hn => ?_⟩⟩⟩⟩
  have hopen : s.fetchBarred r t b = none := fetchBarred_none ⟨hv, hs, hr, ht, hf, hn⟩
  exact ⟨fun ha => exec_fetch_refused h (fetchRefusal_noAccount hopen ha), fun a ha =>
    ⟨fun hk hst => exec_fetch_refused h (fetchRefusal_stopped hopen ha hk hst), fun ho =>
      ⟨fun hl => exec_fetch_refused h (fetchRefusal_notFound hopen ha ho hl), fun side k hl hu =>
        exec_fetch_refused h ((fetchRefusal_found hopen ha ho hl).trans (if_pos hu))⟩⟩⟩

/-! ### The context taken -/

theorem freeContextNumber_eq (hc : c < 16) (hf : (s.context c).state = .free)
    (hl : ∀ i < c, (s.context i).state ≠ .free) : s.freeContextNumber = c := by
  have hfind : (List.range 16).find? (fun i => (s.context i).state == .free) = some c :=
    find_range_lowest hc (by simp [hf]) fun i hi => by simp [hl i hi]
  rw [State.freeContextNumber, State.contextsWhere, List.head?_filter, hfind]
  rfl

theorem fetchTaken_accepted (h : s.fetchRefusal r t b = none) (hl : s.lookup b.instrument = some (side, k))
    (hc : s.freeContextNumber = c) :
    fetchTaken r t b s = settle (applyAnswer c side (takeContext c (s.newContext r t b side k) s)) := by
  simp only [fetchTaken, h, acceptFetch, hl, hc]

/-- A FETCH writes the contexts, the accounts and the slots alone. -/
theorem takeContext_rest (c : Nat) (x : Context) (s : State) :
    { takeContext c x s with ctx := s.ctx, tal.accounts := s.tal.accounts, tal.slots := s.tal.slots } = s := by
  unfold takeContext
  dsimp only
  split <;> rfl

theorem takeContext_ctx (c : Nat) (x : Context) (s : State) : (takeContext c x s).ctx
    = s.ctx.modify c fun _ => s.taken x := by
  unfold takeContext
  dsimp only
  split <;> rfl

theorem taken_newContext (hq : s.requester r = some q) (ha : s.account b.account = some a) :
    s.taken (s.newContext r t b side k) = { Context.reset with
      state := .mountWait, requester := r, tag := t, kind := if b.kind = 0 then .copy else .view
      certified := b.certified, account := b.account, feeClass := a.cls
      generation := if b.kind = 0 then s.activeSlot.map (·.generation) else none
      priority := min b.priority q.maxPriority, instrument := b.instrument, side := side, k := k
      selection := b.places.take b.rangeCount
      heldByLink := s.rli.link == .down
      timer := if s.rli.link = .down then some { start := s.now, limit := s.mu.params.holdLimit } else none } := by
  simp only [State.taken, State.newContext, hq, ha, fetchKind_copy]
  cases s.rli.link <;> rfl

theorem newContext_generation (s : State) (r t : Nat) (b : FetchBody) (side k : Nat) :
    (s.newContext r t b side k).generation = if b.kind = 0 then s.activeSlot.map (·.generation) else none := by
  simp only [State.newContext, fetchKind_copy]

/-- Settles O17: the checks pass, the lowest FREE context is the one taken, and what it takes is read table by table. -/
theorem fetchAccepted : Obligations.FetchAccepted := by
  intro s r t b q a c side k h hv hs hq hright hsame hroom hc hf hlow ha hst hl hn
  have hopen : s.fetchOpen r t b :=
    { valid := hv, serving := hs
      right := by rw [State.fetchRight, hq]; exact hright
      fresh := by simpa [State.fetchSame] using hsame
      room := by simpa [State.fetchFull, hq] using hroom
      free := by
        rw [State.fetchBusy, List.all_eq_false]
        exact ⟨c, List.mem_range.2 hc, by simp [hf]⟩ }
  have hnone : s.fetchRefusal r t b = none := by
    rw [fetchRefusal_found (fetchBarred_none hopen) ha (or_iff_not_imp_left.2 fun hk => hst (not_not.1 hk)) hl]
    exact if_neg hn
  refine ⟨takeContext c (s.newContext r t b side k) s, exec_handed rfl h (fetchTaken_accepted hnone hl
    (freeContextNumber_eq hc hf hlow)), takeContext_rest _ _ _, takeContext_accounts _ _ _, fun hg => ?_,
    fun y hk hy => ?_, ?_⟩
  · have hgen : (s.newContext r t b side k).generation = none := by
      rw [newContext_generation]
      rcases hg with hk | hnone
      · exact if_neg hk
      · simp [hnone]
    rw [takeContext_slots, hgen]
    simp
  · have hgen : (s.newContext r t b side k).generation = some y.generation := by
      rw [newContext_generation, if_pos hk, hy]
      rfl
    rw [takeContext_slots, hgen]
    simp only [Option.some_inj, eq_comm]
  · rw [takeContext_ctx, taken_newContext hq ha]

end Sys2Proof.Machine
end

section
/-! SUPPORT. The ending of a live context and its release (R97, R98, R129, R143, R144, R146): the charge posted, the notice of a
stop, the reference given back and the DONE, with their settling. -/

namespace Sys2Proof.Machine

variable {s : State} {c n q : Nat} {x : Context} {o : Ending} {a : Account} {d : NoticeDetails} {cause : StopCause}

/-! ### The posting -/

theorem posts_iff : x.posts = true ↔ x.kind = .copy ∧ 1 ≤ x.delivered := by simp [Context.posts]

theorem not_posts (h : x.kind = .view ∨ x.delivered = 0) : x.posts = false := by
  rw [← Bool.not_eq_true, posts_iff]
  rintro ⟨hk, hd⟩
  rcases h with h | h
  · cases hk.symm.trans h
  · omega

theorem overBounds_cause (h : overBounds a = some cause) :
    cause = if 999999999999 ≤ a.charged then .ceiling else .limit := by
  unfold overBounds at h
  split at h
  · next hc => rw [if_pos (show 999999999999 ≤ a.charged from hc), ← Option.some_inj.1 h]
  · next hc =>
    rw [if_neg (show ¬999999999999 ≤ a.charged from hc)]
    split at h
    · exact (Option.some_inj.1 h).symm
    · cases h

/-- An account that the stop test stops is over its bounds, and a notice says so (R144). -/
theorem stopNotice_stopped (ho : a.state = .opened) (hs : (stopTest a).state = .stopped) : stopNotice a
    = some (.accountStopped a.number (if 999999999999 ≤ a.charged then .ceiling else .limit) a.charged a.limit) := by
  cases hb : overBounds a with
  | none =>
    have hsame : stopTest a = a := if_neg (by simp [hb])
    rw [hsame, ho] at hs
    cases hs
  | some cause => rw [stopNotice, if_pos ho, hb, ← overBounds_cause hb]; rfl

theorem post_stopped (ha : s.account n = some a) (hn : stopNotice (postFigures a q) = some d) :
    post n q s = raise_ d (s.modAccount n fun a => stopTest (postFigures a q)) := by
  simp only [post, ha, hn]

/-! ### The charge, the release and the DONE -/

theorem settleCharge_notices : (settleCharge x o s).rli.notices
    = if x.posts then (post x.account (s.chargeOf x o) s).rli.notices else s.rli.notices := by
  unfold settleCharge compose
  dsimp only
  rw [rel_rli]
  split <;> rfl

theorem account_congr {v : State} (h : v.tal = s.tal) (n : Nat) : v.account n = s.account n := by
  simp [State.account, h]

/-- The cents posted at an ending (R97 step 4). -/
def State.centsPosted (s : State) (x : Context) (o : Ending) : Nat :=
  if x.posts then s.centsFor x.account (s.chargeOf x o) else 0

/-- The DONE of an ending (R97 step 6). -/
def State.doneFrame (s : State) (x : Context) (o : Ending) : OutFrame :=
  { requester := x.requester, tag := x.tag
    body := .done o x.delivered (s.chargeOf x o) (s.centsPosted x o) x.generation }

theorem doneFrame_congr {v : State} (x : Context) (o : Ending) (h : v.tal = s.tal) : v.doneFrame x o = s.doneFrame x o := by
  simp [State.doneFrame, State.centsPosted, State.centsFor, account_congr h, chargeOf_congr x o v s h]

theorem settleCharge_done (x : Context) (o : Ending) (s : State) : ∃ n, (settleCharge x o s).rli.control
    = s.rli.control ++ [{ seq := n, frame := s.doneFrame x o }] := by
  refine ⟨_, congrArg (· ++ _) ?_⟩
  rw [rel_rli]
  split
  · exact post_control _ _ _
  · rfl

/-- The charge of an ending is settled on the accounts, the slots, the link and the manager as they stand (R97). -/
theorem endContext_charged (o : Ending) (hl : (s.context c).state.live = true) :
    ∃ v, endContext c o s = settleCharge (s.context c) o v ∧ v.tal = s.tal ∧ v.rli = s.rli ∧ v.mu = s.mu := by
  refine ⟨_, by rw [endContext, if_pos hl], ?_, ?_, ?_⟩ <;> simp [leaveOrders, detach, dropReads]

theorem endContext_done (o : Ending) (hl : (s.context c).state.live = true) : ∃ n, (endContext c o s).rli.control
    = s.rli.control ++ [{ seq := n, frame := s.doneFrame (s.context c) o }] := by
  obtain ⟨v, he, htal, hrli, -⟩ := endContext_charged o hl
  obtain ⟨n, hn⟩ := settleCharge_done (s.context c) o v
  exact ⟨n, by rw [he, hn, hrli, doneFrame_congr _ _ htal]⟩

/-- An ending whose posting stops its account raises ACCOUNT-STOPPED (R144). -/
theorem endContext_stops (hl : (s.context c).state.live = true) (hp : (s.context c).posts = true)
    (ha : s.account (s.context c).account = some a) (hd : stopNotice (postFigures a (s.chargeOf (s.context c) o)) = some d)
    (hm : s.mu.manager ≠ none) : ∃ n ∈ (endContext c o s).rli.notices, n.details = d := by
  obtain ⟨v, he, htal, -, hmu⟩ := endContext_charged o hl
  rw [he, settleCharge_notices, if_pos hp, chargeOf_congr _ _ _ _ htal, post_stopped ((account_congr htal _).trans ha) hd]
  exact raise_pending (by rwa [modAccount_mu, hmu])

/-- An ending that posts nothing raises nothing (R97 step 4). -/
theorem endContext_quiet (hl : (s.context c).state.live = true) (hp : (s.context c).posts = false) :
    (endContext c o s).rli.notices = s.rli.notices := by
  obtain ⟨v, he, -, hrli, -⟩ := endContext_charged o hl
  rw [he, settleCharge_notices, if_neg (ne_true_of_eq_false hp), hrli]

theorem endContext_accounts (o : Ending) (hl : (s.context c).state.live = true) : (endContext c o s).tal.accounts
    = s.tal.accounts.map fun a =>
      if (s.context c).kind = .copy ∧ 1 ≤ (s.context c).delivered ∧ a.number = (s.context c).account
      then stopTest (postFigures a (s.chargeOf (s.context c) o)) else a := by
  obtain ⟨v, he, htal, -⟩ := endContext_charged o hl
  rw [he, settleCharge_accounts, htal, chargeOf_congr _ _ _ _ htal]

theorem endContext_slots (o : Ending) (hl : (s.context c).state.live = true) : (endContext c o s).tal.slots
    = s.tal.slots.map fun y => if y.role ≠ .empty ∧ (s.context c).generation = some y.generation then y.release else y := by
  obtain ⟨v, he, htal, -⟩ := endContext_charged o hl
  rw [he, settleCharge_slots, htal]

/-! ### What the context leaves -/

theorem issued_iff {r : ReadStatus} : r.issued = true ↔ r = .offered ∨ r = .inFlight := by cases r <;> decide

theorem endContext_waiters (hl : (s.context c).state.live = true) {p : Order}
    (hp : p ∈ (endContext c o s).lib.orders) : c ∉ p.waiters := by
  obtain ⟨-, -, -, -, -, -, horders⟩ := endContext_spec (o := o) hl
  obtain ⟨p', -, hw⟩ := horders p hp
  simp [hw]

theorem endContext_leaves (hl : (s.context c).state.live = true) {d : Drive} (hd : d ∈ (endContext c o s).drives) :
    c ∉ d.attached ∧ c ∉ d.incoming ∧ ∀ e ∈ d.queue, e.issuer ≠ .page c ∧ e.issuer ≠ .locate c := by
  obtain ⟨-, hdrives, -⟩ := endContext_spec (o := o) hl
  rw [hdrives] at hd
  obtain ⟨d', -, rfl⟩ := List.mem_map.1 hd
  refine ⟨by simp, by simp, fun e he => ?_⟩
  have hother := (List.mem_filter.1 he).2
  simpa [Issuer.ofContext] using hother

/-- Settles O20: the ending table by table, then the release by whether the DONE is out and the reads are back. -/
theorem endingLeavesContext : Obligations.EndingLeavesContext := by
  refine ⟨?ending, ?release⟩
  case ending =>
    intro s c o hc hl x u q issued
    refine ⟨?context, fun i hi => ?others, fun p hp => endContext_waiters hl hp, fun d hd => endContext_leaves hl hd,
      endContext_accounts o hl, fun hg => ?ungoverned, fun g hg => ?reference, fun a hk hd ha ho => ?stop,
      fun h => endContext_quiet hl (not_posts h), ?done⟩
    case context =>
      rw [context_endContext c hl, if_pos rfl]
      simp only [Context.discard, Context.close, issued_iff]
      rfl
    case others => rw [context_endContext i hl, if_neg hi]
    case ungoverned =>
      rw [endContext_slots o hl, hg]
      simp
    case reference =>
      rw [endContext_slots o hl, hg]
      refine List.map_congr_left fun y _ => ?_
      by_cases hy : y.role = .empty ∨ y.generation ≠ g
      · rw [if_pos hy, if_neg]
        rintro ⟨hr, he⟩
        exact hy.elim hr fun hn => hn (Option.some_inj.1 he).symm
      · obtain ⟨hr, he⟩ := not_or.1 hy
        rw [if_neg hy, if_pos ⟨hr, by rw [not_not.1 he]⟩]
        rfl
    case stop =>
      intro b hs hm
      exact endContext_stops hl (posts_iff.2 ⟨hk, hd⟩) ha (stopNotice_stopped (a := b) ho hs) hm
    case done =>
      obtain ⟨n, hn⟩ := endContext_done o hl
      refine ⟨n, _, hn, fun h => if_neg (ne_true_of_eq_false (not_posts h)), fun a hk hd ha => ?_⟩
      rw [State.centsPosted, if_pos (posts_iff.2 ⟨hk, hd⟩), State.centsFor, ha]
      rfl
  case release =>
    intro s c hc he
    refine ⟨fun hd hr => ?_, fun h => freeContext_idle ?_, fun i hi => ?_⟩
    · rw [freeContext_freed he hd hr]
      exact ⟨(context_put c _ hc).trans (if_pos rfl), rfl⟩
    · rintro ⟨-, hd, hr⟩
      rcases h with h | h
      · cases hd.symm.trans h
      · exact h hr
    · by_cases hf : (s.context c).state = .ending ∧ (s.context c).doneSent = true ∧ (s.context c).read = .none
      · obtain ⟨-, hd, hr⟩ := hf
        rw [freeContext_freed he hd hr]
        exact (context_put i _ hc).trans (if_neg hi)
      · rw [freeContext_idle hf]

end Sys2Proof.Machine
end

section
/-! SUPPORT. Delivery (R77, R84, R86 to R88, R98, R156): the page read placed, priming, the RUN handed over, the page it
completes, and the DONE marked, with their settling. -/

namespace Sys2Proof.Machine

variable {s : State} {c d p off n : Nat} {x : Context} {dir : Directory}

/-! ### The page read -/

theorem pageRead_streaming (hs : x.state = .streaming) (hr : x.read = .none) (hn : x.nextRead = some (p, off))
    (hd : x.directory = some dir) : x.pageRead =
      if min 16 (runSectors (fun q => (x.item q).sectors) (x.chosen.filter (p ≤ ·)) off) ≤ 32 - x.filling - x.holding.length
      then some ((p, off), dir.address + (x.item p).offset + off, min (min 16 (32 - x.filling - x.holding.length))
        (runSectors (fun q => (x.item q).sectors) (x.chosen.filter (p ≤ ·)) off))
      else none := by
  unfold Context.pageRead
  rw [hs, hr, hn, hd]
  rfl

theorem placePageRead_none (h : (s.context c).pageRead = none) : placePageRead c s = s := by
  unfold placePageRead
  rw [h]
  cases s.attachedTo c <;> rfl

/-- The context once its page read is placed (R84). -/
def Context.reading (x : Context) (p off n : Nat) : Context :=
  { x with read := .queued, readStart := some (p, off), filling := x.filling + n
           nextRead := advanceRead (fun q => (x.item q).sectors) (x.pagesFrom p) off n }

theorem placePageRead_some {first : Nat} (ha : s.attachedTo c = some d)
    (h : (s.context c).pageRead = some ((p, off), first, n)) : placePageRead c s =
      (pushCommand d (newEntry s (.page c) .read first n (s.context c).priority []) s).modContext c
        fun x => x.reading p off n := by
  unfold placePageRead
  rw [h, ha]
  rfl

/-- A command placed in a drive for a context: that drive and that context change, and no other (R31). -/
theorem pushCommand_modContext (e : QueueEntry) (f : Context → Context) (hc : c < s.ctx.length)
    (hd : d < s.drives.length) : let u := (pushCommand d e s).modContext c f
    u.context c = f (s.context c) ∧ (∀ i, i ≠ c → u.context i = s.context i) ∧ (∀ i, i ≠ d → u.drive i = s.drive i)
      ∧ u.drive d = { s.drive d with queue := (s.drive d).queue ++ [e] } := by
  have hpush (i : Nat) : (pushCommand d e s).context i = s.context i := rfl
  refine ⟨?_, fun i hi => ?_, fun i hi => ?_, ?_⟩
  · rw [context_modContext, if_pos ⟨rfl, hc⟩, hpush]
  · rw [context_modContext, if_neg fun hn => hi hn.1.symm, hpush]
  · show (s.modDrive d _).drive i = _
    rw [drive_modDrive, if_neg fun hn => hi hn.1.symm]
  · show (s.modDrive d _).drive d = _
    rw [drive_modDrive, if_pos ⟨rfl, hd⟩]

/-- What fits of the next page read is placed behind the commands of the drive (R84). -/
theorem placePageRead_placed {first : Nat} (hc : c < s.ctx.length) (ha : s.attachedTo c = some d) (hx : s.context c = x)
    (h : x.pageRead = some ((p, off), first, n)) : let u := placePageRead c s
    u.context c = x.reading p off n ∧ (∀ i, i ≠ c → u.context i = s.context i) ∧ (∀ i, i ≠ d → u.drive i = s.drive i)
      ∧ u.drive d = { s.drive d with
        queue := (s.drive d).queue ++ [newEntry s (.page c) .read first n x.priority []] } := by
  subst hx
  rw [placePageRead_some ha h]
  exact pushCommand_modContext _ _ hc (attached_drive_lt ha)

/-! ### Priming and candidates -/

theorem holdingOfPage_eq (h : x.nextPage = some p) :
    x.holdingOfPage = min x.holding.length ((x.item p).sectors - x.nextSend) := by simp only [Context.holdingOfPage, h]

theorem ready_iff (h : x.nextPage = some p) : x.ready = true ↔ x.nextSend + x.holdingOfPage = (x.item p).sectors
    ∨ 16 ≤ x.holdingOfPage := by
  simp only [Context.ready, h, Bool.or_eq_true, beq_iff_eq, decide_eq_true_eq]

theorem candidate_iff : x.candidate = true ↔ x.state = .streaming ∧ x.heldByHold = false ∧ x.heldByLink = false
    ∧ x.primed = true ∧ 1 ≤ x.holdingOfPage := by
  simp only [Context.candidate, Context.held, Bool.and_eq_true, beq_iff_eq, Bool.not_eq_true', Bool.or_eq_false_iff,
    decide_eq_true_eq, and_assoc]

/-! ### The RUN -/

theorem runBody_eq (h : x.nextPage = some p) : x.runBody = .run p x.nextSend
    (if x.nextSend = 0 then (x.item p).format else 0) (if x.nextSend = 0 then (x.item p).sectors else 0)
    (x.holding.take (min 8 x.holdingOfPage)) := by simp only [Context.runBody, h]

theorem pageDone_iff (h : x.nextPage = some p) : x.pageDone = true ↔ (x.item p).sectors ≤ x.nextSend := by
  simp only [Context.pageDone, h, decide_eq_true_eq]

/-- The state in which the RUN of a context is in the transmitter, and its frames are free (R87, R156). -/
def runSent (c : Nat) (s : State) : State :=
  ({ s with
    rli.transmitter := some
      { requester := (s.context c).requester, tag := (s.context c).tag, body := (s.context c).runBody }
    rli.lastServed := c } : State).modContext c Context.afterRun

theorem runSent_context (i : Nat) (hc : c < s.ctx.length) :
    (runSent c s).context i = if i = c then (s.context c).afterRun else s.context i := by
  by_cases hi : i = c
  · subst hi
    rw [runSent, context_modContext, if_pos ⟨rfl, hc⟩, if_pos rfl]
    rfl
  · rw [runSent, context_modContext, if_neg fun hn => hi hn.1.symm, if_neg hi]
    rfl

/-! ### The page completed -/

/-- The state in which the page of a context counts as delivered (R88, R126, R127). -/
def pageCounted (c : Nat) (s : State) : State :=
  let s1 := s.modContext c (Context.completePage (s.priceOfPage (s.context c)))
  if (s.context c).kind = .copy then
    s1.modAccount (s.context c).account fun a => { a with dayPages := countMade a.dayPages }
  else s1

theorem completePage_eq (c : Nat) (s : State) : completePage c s =
    if ((pageCounted c s).context c).nextPage.isNone then endContext c .complete (pageCounted c s)
    else pageCounted c s := rfl

theorem pageCounted_context (i : Nat) (hc : c < s.ctx.length) : (pageCounted c s).context i
    = if i = c then (s.context c).completePage (s.priceOfPage (s.context c)) else s.context i := by
  have hctx : (pageCounted c s).context i
      = (s.modContext c (Context.completePage (s.priceOfPage (s.context c)))).context i := by
    unfold pageCounted
    dsimp only
    split <;> rfl
  rw [hctx]
  by_cases hi : i = c
  · subst hi
    rw [context_modContext, if_pos ⟨rfl, hc⟩, if_pos rfl]
  · rw [context_modContext, if_neg fun hn => hi hn.1.symm, if_neg hi]

theorem pageCounted_rli (c : Nat) (s : State) : (pageCounted c s).rli = s.rli := by
  unfold pageCounted
  dsimp only
  split <;> rfl

/-- What a completed page leaves of its context: it goes on at the next selected page, which is primed when it is ready. -/
theorem completePage_fields (price : Nat) (h : x.nextPage = some p) :
    (x.completePage price).nextPage = x.chosen.find? (p < ·)
      ∧ (x.completePage price).nextSend = 0 ∧ (x.completePage price).delivered = x.delivered + 1
      ∧ (x.completePage price).holding = x.holding ∧ (x.completePage price).state = x.state
      ∧ (x.completePage price).requester = x.requester ∧ (x.completePage price).tag = x.tag
      ∧ (x.completePage price).generation = x.generation := by
  simp [Context.completePage, Context.prime, h]

/-- The next page is primed at once when it is wholly read, or 16 of its sectors are holding (R86). -/
theorem completePage_primed {p' : Nat} (price : Nat) (h : (x.completePage price).nextPage = some p') :
    (x.completePage price).primed = true ↔ (x.item p').sectors ≤ x.holding.length
      ∨ 16 ≤ min x.holding.length (x.item p').sectors := by
  have hready : (x.completePage price).primed = (x.completePage price).ready := Bool.false_or _
  have hhere : (x.completePage price).holdingOfPage = min x.holding.length ((x.item p').sectors - 0) := holdingOfPage_eq h
  rw [hready, ready_iff h, hhere]
  show 0 + _ = (x.item p').sectors ∨ _ ↔ _
  omega

theorem completePage_next {p' : Nat} (hc : c < s.ctx.length) (h : (s.context c).nextPage = some p)
    (hn : (s.context c).chosen.find? (p < ·) = some p') : completePage c s = pageCounted c s := by
  obtain ⟨hnext, -⟩ := completePage_fields (s.priceOfPage (s.context c)) h
  rw [completePage_eq, pageCounted_context c hc, if_pos rfl, hnext, hn]
  rfl

theorem completePage_last (hc : c < s.ctx.length) (h : (s.context c).nextPage = some p)
    (hn : (s.context c).chosen.find? (p < ·) = none) : completePage c s = endContext c .complete (pageCounted c s) := by
  obtain ⟨hnext, -⟩ := completePage_fields (s.priceOfPage (s.context c)) h
  rw [completePage_eq, pageCounted_context c hc, if_pos rfl, hnext, hn]
  rfl

/-- A RUN that does not end its page does no more; one that does completes it (R88). -/
theorem handRun_eq (hc : c < s.ctx.length) (h : (s.context c).nextPage = some p) : handRun c s =
    if ((s.context c).item p).sectors ≤ (s.context c).afterRun.nextSend then completePage c (runSent c s)
    else runSent c s := by
  have hdone : ((runSent c s).context c).pageDone = true
      ↔ ((s.context c).item p).sectors ≤ (s.context c).afterRun.nextSend := by
    rw [runSent_context c hc, if_pos rfl]
    exact pageDone_iff (x := (s.context c).afterRun) h
  have hcut : handRun c s = if ((runSent c s).context c).pageDone then completePage c (runSent c s) else runSent c s := rfl
  rw [hcut]
  exact if_congr hdone rfl rfl

/-- Behind the last page the context ends COMPLETE, with the page counted in its DONE (R88, R97). -/
theorem completePage_ends (hc : c < s.ctx.length) (hx : s.context c = x) (hl : x.state.live = true)
    (h : x.nextPage = some p) (hn : x.chosen.find? (p < ·) = none) : let u := completePage c s
    (u.context c).state = .ending ∧ (u.context c).outcome = some .complete ∧ (u.context c).delivered = x.delivered + 1
      ∧ ∃ e q cents, u.rli.control = s.rli.control ++ [{ seq := e, frame :=
        { requester := x.requester, tag := x.tag
          body := .done .complete (x.delivered + 1) q cents x.generation } }] := by
  subst hx
  obtain ⟨-, -, hdelivered, -, hstate, hrequester, htag, hgeneration⟩ :=
    completePage_fields (s.priceOfPage (s.context c)) h
  have hctx : (pageCounted c s).context c = (s.context c).completePage (s.priceOfPage (s.context c)) := by
    rw [pageCounted_context c hc, if_pos rfl]
  have hlive : ((pageCounted c s).context c).state.live = true := by rwa [hctx, hstate]
  obtain ⟨hend, houtcome⟩ := endContext_ends (o := .complete) hlive
  obtain ⟨e, hdone⟩ := endContext_done .complete hlive
  rw [completePage_last hc h hn]
  refine ⟨hend, houtcome, ?_, e, (pageCounted c s).chargeOf ((pageCounted c s).context c) .complete,
    (pageCounted c s).centsPosted ((pageCounted c s).context c) .complete, ?_⟩
  · rw [context_endContext c hlive, if_pos rfl, hctx]
    exact hdelivered
  · rw [hdone, pageCounted_rli, State.doneFrame, hctx, hrequester, htag, hdelivered, hgeneration]

theorem endContext_others {o : Ending} {i : Nat} (hi : i ≠ c) : (endContext c o s).context i = s.context i := by
  by_cases hl : (s.context c).state.live = true
  · rw [context_endContext i hl, if_neg hi]
  · rw [endContext_idle (Bool.not_eq_true _ ▸ hl)]

theorem completePage_others {i : Nat} (hc : c < s.ctx.length) (hi : i ≠ c) :
    (completePage c s).context i = s.context i := by
  have hcounted : (pageCounted c s).context i = s.context i := by rw [pageCounted_context i hc, if_neg hi]
  rw [completePage_eq]
  split
  · rw [endContext_others hi, hcounted]
  · exact hcounted

/-- A context with a further selected page goes on at it (R88). -/
theorem completePage_streams {p' : Nat} (hc : c < s.ctx.length) (hx : s.context c = x) (h : x.nextPage = some p)
    (hn : x.chosen.find? (p < ·) = some p') : let y := (completePage c s).context c
    y.state = x.state ∧ y.nextPage = some p' ∧ y.nextSend = 0 ∧ y.delivered = x.delivered + 1 ∧ y.holding = x.holding
      ∧ (y.primed = true ↔ (x.item p').sectors ≤ x.holding.length ∨ 16 ≤ min x.holding.length (x.item p').sectors) := by
  subst hx
  obtain ⟨hnext, hsend, hdelivered, hholding, hstate, -⟩ := completePage_fields (s.priceOfPage (s.context c)) h
  rw [completePage_next hc h hn, pageCounted_context c hc, if_pos rfl]
  exact ⟨hstate, hnext.trans hn, hsend, hdelivered, hholding, completePage_primed _ (hnext.trans hn)⟩

theorem handRun_others {i : Nat} (hc : c < s.ctx.length) (h : (s.context c).nextPage = some p) (hi : i ≠ c) :
    (handRun c s).context i = s.context i := by
  have hsent : (runSent c s).context i = s.context i := by rw [runSent_context i hc, if_neg hi]
  rw [handRun_eq hc h]
  split
  · rw [completePage_others (by simpa [runSent] using hc) hi, hsent]
  · exact hsent

/-! ### The DONE handed over -/

theorem markDone_lowest {r t : Nat} (hc : c < 16)
    (h : (s.context c).state = .ending ∧ (s.context c).requester = r ∧ (s.context c).tag = t)
    (hl : ∀ i < c, ¬((s.context i).state = .ending ∧ (s.context i).requester = r ∧ (s.context i).tag = t)) :
    markDone r t s = s.modContext c fun x => { x with doneSent := true } := by
  have hfind : (List.range 16).find? (fun i => (s.context i).state == .ending && (s.context i).requester == r
      && (s.context i).tag == t) = some c := by
    refine find_range_lowest hc (by simp [h]) fun i hi => ?_
    simpa [Bool.and_assoc] using hl i hi
  simp only [markDone, hfind]

theorem handControl_done {f : ControlFrame} {o : Ending} {q cents : Nat} {g : Option Nat}
    (h : f.frame.body = .done o n q cents g) : handControl f s = markDone f.frame.requester f.frame.tag
      { s with rli.control := s.rli.control.drop 1, rli.transmitter := some f.frame } := by
  simp only [handControl, h]

/-- Settles O22, stage by stage. -/
theorem deliveryGoesOn : Obligations.DeliveryGoesOn := by
  refine ⟨?reads, ?primes, ?runs, ?dones⟩
  case reads =>
    intro s c d p off x dir hc hx ha hs hr hn hd sectors from_ left free n
    have hread : x.pageRead = if min 16 left ≤ free
        then some ((p, off), dir.address + (x.item p).offset + off, n) else none := pageRead_streaming hs hr hn hd
    refine ⟨fun hf => placePageRead_none ?_, fun hf => ?_⟩
    · rw [hx, hread]
      exact if_neg (Nat.not_le.2 hf)
    · exact placePageRead_placed hc ha hx (hread.trans (if_pos hf))
  case primes =>
    intro x p hp here
    have hhere : x.holdingOfPage = here := holdingOfPage_eq hp
    refine ⟨?_, rfl, by rw [candidate_iff, hhere]⟩
    rw [← hhere, ← ready_iff hp]
    exact Bool.or_eq_true_iff
  case runs =>
    intro s c p x hc hx hcand hp hle n u sent run
    subst hx
    have hhere : min 8 (s.context c).holdingOfPage = n := by rw [holdingOfPage_eq hp]
    have hafter : (s.context c).afterRun = sent := by rw [Context.afterRun, hhere]
    have hbody : (s.context c).runBody = run := by rw [runBody_eq hp, hhere]
    have hsent : (runSent c s).context c = sent := by rw [runSent_context c hc, if_pos rfl, hafter]
    have hin : c < (runSent c s).ctx.length := by simpa [runSent] using hc
    have hrun : u = if ((s.context c).item p).sectors ≤ (s.context c).nextSend + n then completePage c (runSent c s)
        else runSent c s := (handRun_eq hc hp).trans (by rw [hafter])
    obtain ⟨hstream, -⟩ := candidate_iff.1 hcand
    obtain ⟨htrans, hserved⟩ := handRun_sending c s
    refine ⟨by rw [htrans, hbody], hserved, fun i hi => handRun_others hc hp hi, fun hlt => ?_,
      fun hwhole => ⟨fun p' hn => ?_, fun hn => ?_⟩⟩
    · rw [hrun, if_neg (Nat.not_le.2 hlt)]
      exact ⟨hsent, rfl⟩
    · obtain ⟨hstate, hgoes⟩ := completePage_streams hin hsent hp hn
      rw [hrun, if_pos hwhole.ge]
      exact ⟨hstate.trans hstream, hgoes⟩
    · have hends := completePage_ends hin hsent (congrArg CtxState.live hstream) hp hn
      rw [hrun, if_pos hwhole.ge]
      exact hends
  case dones =>
    intro s f c o n q cents g hc hlen hf named hn hl
    exact (handControl_done hf).trans (markDone_lowest hc hn hl)

end Sys2Proof.Machine
end

section
/-! SUPPORT. LOAD_ACCOUNT, SET_ACCOUNT_STATE and CLOSE_ACCOUNT (R137, R139, R141, R142, R165): their refusals in order, the place
of a new record, the record that goes, and their settling. -/

namespace Sys2Proof.Machine

variable {s : State} {r t n cls limit code : Nat} {reset : Bool} {asked : Option AccountState} {a : Account}
  {reason : Reason} {before behind : List Account}

/-! ### Refusals -/

/-- A number that an account can have (R137). -/
def accountNumbered (n : Nat) : Prop := 1 ≤ n ∧ n ≤ 999999

theorem accountNumbered_iff : accountNumbered n ↔ ¬(n = 0 ∨ 999999 < n) := by
  unfold accountNumbered
  omega

theorem accountStateOfCode_eq (code : Nat) : accountStateOfCode code =
    if code = 0 then some .opened else if code = 1 then some .stopped else none := by
  match code with
  | 0 | 1 => rfl
  | _ + 2 => rfl

theorem accountStateOfCode_none : accountStateOfCode code = none ↔ 1 < code := by
  rw [accountStateOfCode_eq]
  split_ifs <;> simp <;> omega

/-- The values of a LOAD_ACCOUNT are in range (R165). -/
def accountValues (n cls limit code : Nat) : Prop :=
  accountNumbered n ∧ cls ≤ 7 ∧ limit ≤ 999999999999 ∧ code ≤ 1

theorem accountValues_iff : accountValues n cls limit code ↔ ¬(n = 0 ∨ 999999 < n ∨ 7 < cls
    ∨ Config.chargedCeiling < limit ∨ accountStateOfCode code = none) := by
  rw [accountStateOfCode_none, accountValues, accountNumbered, Config.chargedCeiling]
  omega

theorem accountRefusal_values (h : ¬accountValues n cls limit code) :
    s.accountRefusal n cls limit (accountStateOfCode code) = some .badValue :=
  if_pos (not_not.1 (mt accountValues_iff.2 h))

theorem accountRefusal_new (h : accountValues n cls limit code) (ha : s.account n = none) :
    s.accountRefusal n cls limit (accountStateOfCode code)
      = if 1024 ≤ s.tal.accounts.length then some .tableFull else none := by
  rw [State.accountRefusal, if_neg (accountValues_iff.1 h), ha]
  simp [Config.accountLimit]

theorem accountStateRefusal_number (h : ¬accountNumbered n) : s.accountStateRefusal n asked = some .badValue :=
  if_pos (not_not.1 (mt accountNumbered_iff.2 h))

theorem accountStateRefusal_noAccount (h : accountNumbered n) (ha : s.account n = none) :
    s.accountStateRefusal n asked = some .noAccount := by
  rw [State.accountStateRefusal, if_neg (accountNumbered_iff.1 h), ha]
  rfl

theorem accountStateRefusal_state (h : accountNumbered n) (ha : s.account n ≠ none) :
    s.accountStateRefusal n none = some .badValue := by
  rw [State.accountStateRefusal, if_neg (accountNumbered_iff.1 h), if_neg (by simpa using ha), if_pos rfl]

theorem closeRefusal_number (h : ¬accountNumbered n) : s.closeRefusal n = some .badValue :=
  if_pos (not_not.1 (mt accountNumbered_iff.2 h))

theorem closeRefusal_noAccount (h : accountNumbered n) (ha : s.account n = none) : s.closeRefusal n = some .noAccount := by
  rw [State.closeRefusal, if_neg (accountNumbered_iff.1 h), ha]

theorem closeRefusal_found (h : accountNumbered n) (ha : s.account n = some a) :
    s.closeRefusal n = if 0 < a.inFlight then some .inUse else none := by
  rw [State.closeRefusal, if_neg (accountNumbered_iff.1 h), ha]

theorem loadAccountTaken_refused (h : s.accountRefusal n cls limit (accountStateOfCode code) = some reason) :
    loadAccountTaken r t n cls limit code reset s = publish (reject r t 10 reason s) := by
  rw [loadAccountTaken, h, answer_refused]

theorem setAccountStateTaken_refused (h : s.accountStateRefusal n (accountStateOfCode code) = some reason) :
    setAccountStateTaken r t n code s = publish (reject r t 11 reason s) := by
  rw [setAccountStateTaken, h, answer_refused]

theorem closeAccountTaken_refused (h : s.closeRefusal n = some reason) :
    closeAccountTaken r t n s = publish (reject r t 12 reason s) := by
  rw [closeAccountTaken, h, answer_refused]

/-! ### A new record -/

/-- A record takes its place in front of the first of a greater number (R137). -/
theorem insertAccount_split (a : Account) (l : List Account) : ∃ before behind, l = before ++ behind
    ∧ insertAccount a l = before ++ a :: behind ∧ (∀ x ∈ before, x.number ≤ a.number)
    ∧ ∀ x, behind.head? = some x → a.number < x.number := by
  induction l with
  | nil => exact ⟨[], [], rfl, rfl, by simp, by simp⟩
  | cons b l ih =>
    unfold insertAccount
    split
    · next hlt => exact ⟨[], b :: l, rfl, rfl, by simp, by simpa using hlt⟩
    · next hge =>
      obtain ⟨before, behind, hl, hi, hbefore, hbehind⟩ := ih
      exact ⟨b :: before, behind, by rw [hl]; rfl, by rw [hi]; rfl,
        List.forall_mem_cons.2 ⟨Nat.not_lt.1 hge, hbefore⟩, hbehind⟩

/-- A new record has every figure 0, and the class, limit and state asked: with nothing charged the open test holds (R139,
R140). -/
theorem load_freshAccount (h : code ≤ 1) :
    (freshAccount n).load cls limit ((accountStateOfCode code).getD .opened) reset
      = { number := n, cls := cls, state := if code = 0 then .opened else .stopped, limit := limit, charged := 0
          residue := 0, dayPages := 0, dayCents := 0, dayDeeds := 0, prevPages := 0, prevCents := 0, prevDeeds := 0
          inFlight := 0 } := by
  have hopen : limit = 0 ∨ 0 < limit := Nat.eq_zero_or_pos limit
  obtain rfl | rfl : code = 0 ∨ code = 1 := by omega
  · simp [accountStateOfCode, Account.load, freshAccount, openTest, hopen, Config.chargedCeiling]
  · simp [accountStateOfCode, Account.load, freshAccount, openTest]

/-- A record in a place that no other of its number takes is the one found. -/
theorem account_placed (hl : s.tal.accounts = before ++ a :: behind) (hn : ∀ x ∈ before, x.number ≠ a.number) :
    s.account a.number = some a := by
  have hno : before.find? (·.number == a.number) = none := List.find?_eq_none.2 fun x hx => by simpa using hn x hx
  rw [State.account, hl, List.find?_append, hno, List.find?_cons_of_pos (by simp)]
  rfl

/-- A LOAD_ACCOUNT that passes its checks puts the new record in its place, and the reply carries it (R139). -/
theorem loadAccountTaken_new (h : accountValues n cls limit code) (hn : s.account n = none)
    (hroom : s.tal.accounts.length < 1024)
    (ha : (freshAccount n).load cls limit ((accountStateOfCode code).getD .opened) reset = a)
    (hl : s.tal.accounts = before ++ behind) (hi : insertAccount a s.tal.accounts = before ++ a :: behind) :
    loadAccountTaken r t n cls limit code reset s
      = publish (accept r t 10 (a.bytes ++ flagByte true) { s with tal.accounts := before ++ a :: behind }) := by
  have hnumber : a.number = n := by rw [← ha]; rfl
  have hstored : storeAccount n cls limit ((accountStateOfCode code).getD .opened) reset s
      = { s with tal.accounts := before ++ a :: behind } := by
    simp only [storeAccount, hn, ha, hi]
  have hothers : ∀ x ∈ before, x.number ≠ a.number := fun x hx => by
    rw [hnumber]
    exact account_none hn x (hl ▸ List.mem_append_left _ hx)
  have hfound : ({ s with tal.accounts := before ++ a :: behind } : State).account n = some a := by
    rw [← hnumber]
    exact account_placed rfl hothers
  rw [loadAccountTaken, accountRefusal_new h hn, if_neg (Nat.not_le.2 hroom), answer_accepted, hstored,
    accountReply_found hfound, hn]
  rfl

/-! ### A record that goes -/

/-- The state in which the record of a number is gone (R142). -/
def accountDropped (n : Nat) (s : State) : State := { s with tal.accounts := s.tal.accounts.filter (·.number != n) }

theorem accountDropped_gone (n : Nat) (s : State) : (accountDropped n s).account n = none :=
  List.find?_eq_none.2 fun x hx => by simpa using (List.mem_filter.1 hx).2

theorem accountDropped_shorter (h : s.account n = some a) :
    (accountDropped n s).tal.accounts.length < s.tal.accounts.length := by
  refine List.length_filter_lt_length_iff_exists.2 ⟨a, List.mem_of_find?_eq_some h, ?_⟩
  simpa using List.find?_some h

/-- A CLOSE_ACCOUNT that passes its checks: the record goes, and the reply carries its figures (R142). -/
theorem closeAccountTaken_found (h : accountNumbered n) (ha : s.account n = some a) (hf : a.inFlight = 0) :
    closeAccountTaken r t n s = publish (accept r t 12 a.figureBytes (accountDropped n s)) := by
  have hreply : finalReply n s = a.figureBytes := by simp only [finalReply, ha]
  rw [closeAccountTaken, closeRefusal_found h ha, hf, if_neg (Nat.lt_irrefl 0), answer_accepted, hreply]
  rfl

/-- A FETCH behind the close finds no account; what its checks 1 to 5 read is as it was (R79). -/
theorem fetch_accountDropped {b : FetchBody} (h : s.handsOn) (hb : b.account = n) (hbar : s.fetchBarred r t b = none) :
    exec (.fetch r t b) (accountDropped n s) = .next (publish (refuse r t .noAccount 1 (accountDropped n s))) := by
  have hopen : (accountDropped n s).fetchBarred r t b = none := hbar
  have hhands : (accountDropped n s).handsOn := h
  exact exec_fetch_refused hhands (fetchRefusal_noAccount hopen (by rw [hb]; exact accountDropped_gone n s))

/-- Settles O36, request by request. -/
theorem accountsMadeAndRemoved : Obligations.AccountsMadeAndRemoved := by
  intro s r t n h numbered
  refine ⟨fun ha cls limit code reset => ?load, fun ha code => ?state, fun ha => ?close⟩
  case load =>
    have exec_load {u : State} (hu : loadAccountTaken r t n cls limit code reset s = u) :
        exec (.loadAccount r t n cls limit code reset) s = .next u := exec_managed rfl h ha (by decide) hu
    intro good i
    refine ⟨fun hg => exec_load (loadAccountTaken_refused (accountRefusal_values hg)), fun hg hn hfull =>
      exec_load (loadAccountTaken_refused ((accountRefusal_new hg hn).trans (if_pos hfull))), fun hg hn hroom => ?_⟩
    have hvalues : accountValues n cls limit code := hg
    obtain ⟨-, -, -, hcode⟩ := hg
    have hnew := load_freshAccount (n := n) (cls := cls) (limit := limit) (reset := reset) hcode
    obtain ⟨before, behind, hl, hi, hbefore, hbehind⟩ := insertAccount_split
      ((freshAccount n).load cls limit ((accountStateOfCode code).getD .opened) reset) s.tal.accounts
    refine ⟨before, behind, hl, hbefore, hbehind, fun a he => exec_load ?_⟩
    have hload := hnew.trans he.symm
    exact loadAccountTaken_new hvalues hn hroom hload hl (hload ▸ hi)
  case state =>
    have exec_set {u : State} (hu : setAccountStateTaken r t n code s = u) :
        exec (.setAccountState r t n code) s = .next u := exec_managed rfl h ha (by decide) hu
    intro i
    refine ⟨fun hn => exec_set (setAccountStateTaken_refused (accountStateRefusal_number hn)), fun hn hno =>
      exec_set (setAccountStateTaken_refused (accountStateRefusal_noAccount hn hno)), fun hn hsome hcode =>
      exec_set (setAccountStateTaken_refused ?_)⟩
    rw [accountStateOfCode_none.2 hcode]
    exact accountStateRefusal_state hn hsome
  case close =>
    have exec_close {u : State} (hu : closeAccountTaken r t n s = u) :
        exec (.closeAccount r t n) s = .next u := exec_managed rfl h ha (by decide) hu
    intro i
    exact ⟨fun hn => exec_close (closeAccountTaken_refused (closeRefusal_number hn)), fun hn hno =>
      exec_close (closeAccountTaken_refused (closeRefusal_noAccount hn hno)), fun a hn hsome => ⟨fun huse =>
      exec_close (closeAccountTaken_refused ((closeRefusal_found hn hsome).trans (if_pos huse))), fun hidle =>
      ⟨exec_close (closeAccountTaken_found hn hsome hidle), accountDropped_gone n s, accountDropped_shorter hsome,
        fun r' t' b hb hbar => fetch_accountDropped h hb hbar⟩⟩⟩

end Sys2Proof.Machine
end

section
/-! SUPPORT. The requests of a filing (R101 to R107, R121, R122, R164): the record a request names, the pages of a record, the
checks of each request in order, what an accepted one and a discarded filing leave behind, and their settling. -/

namespace Sys2Proof.Machine

variable {s : State} {r t f count : Nat} {b : PageBody} {q : Requester} {x : Filing} {ps : List FilingPage} {p : FilingPage}
  {reason : Reason} {cause : FileCause}

/-! ### The record a request names -/

/-- Record `f` is in a state that meets a condition, and of requester `r` and tag `t`. -/
def State.namesFiling (s : State) (c : FilingState → Bool) (r t f : Nat) : Prop :=
  c (s.filing f).state = true ∧ (s.filing f).requester = r ∧ (s.filing f).tag = t

theorem namesFiling_gathering : s.namesFiling (· == .gathering) r t f
    ↔ (s.filing f).state = .gathering ∧ (s.filing f).requester = r ∧ (s.filing f).tag = t := by
  simp [State.namesFiling]

theorem namesFiling_used : s.namesFiling (· != .free) r t f
    ↔ (s.filing f).state ≠ .free ∧ (s.filing f).requester = r ∧ (s.filing f).tag = t := by
  simp [State.namesFiling]

theorem filingOf_none {c : FilingState → Bool} : s.filingOf c r t = none ↔ ∀ f < 8, ¬s.namesFiling c r t f := by
  simp [State.filingOf, State.namesFiling, and_assoc]

theorem filingOf_lowest {c : FilingState → Bool} (hf : f < 8) (h : s.namesFiling c r t f)
    (hl : ∀ i < f, ¬s.namesFiling c r t i) : s.filingOf c r t = some f := by
  refine find_range_lowest hf ?_ fun i hi => ?_
  · simpa [State.namesFiling, and_assoc] using h
  · simpa [State.namesFiling, and_assoc] using hl i hi

theorem filingOf_gathering_none
    (h : ∀ f < 8, ¬((s.filing f).state = .gathering ∧ (s.filing f).requester = r ∧ (s.filing f).tag = t)) :
    s.filingOf (· == .gathering) r t = none :=
  filingOf_none.2 fun f hf => mt namesFiling_gathering.1 (h f hf)

theorem filingOf_gathering_lowest (hf : f < 8)
    (h : (s.filing f).state = .gathering ∧ (s.filing f).requester = r ∧ (s.filing f).tag = t)
    (hl : ∀ i < f, ¬((s.filing i).state = .gathering ∧ (s.filing i).requester = r ∧ (s.filing i).tag = t)) :
    s.filingOf (· == .gathering) r t = some f :=
  filingOf_lowest hf (namesFiling_gathering.2 h) fun i hi => mt namesFiling_gathering.1 (hl i hi)

theorem filingOf_used_none
    (h : ∀ f < 8, ¬((s.filing f).state ≠ .free ∧ (s.filing f).requester = r ∧ (s.filing f).tag = t)) :
    s.filingOf (· != .free) r t = none :=
  filingOf_none.2 fun f hf => mt namesFiling_used.1 (h f hf)

theorem filingOf_used_lowest (hf : f < 8)
    (h : (s.filing f).state ≠ .free ∧ (s.filing f).requester = r ∧ (s.filing f).tag = t)
    (hl : ∀ i < f, ¬((s.filing i).state ≠ .free ∧ (s.filing i).requester = r ∧ (s.filing i).tag = t)) :
    s.filingOf (· != .free) r t = some f :=
  filingOf_lowest hf (namesFiling_used.2 h) fun i hi => mt namesFiling_used.1 (hl i hi)

theorem filingOf_used_found
    (h : ∃ f < 8, (s.filing f).state ≠ .free ∧ (s.filing f).requester = r ∧ (s.filing f).tag = t) :
    (s.filingOf (· != .free) r t).isSome = true := by
  obtain ⟨f, hf, hn⟩ := h
  rw [Option.isSome_iff_ne_none]
  exact fun hnone => filingOf_none.1 hnone f hf (namesFiling_used.2 hn)

/-- Two changes that agree on the filing record held make one state. -/
theorem modFiling_congr {g g' : Filing → Filing} (h : g (s.filing f) = g' (s.filing f)) :
    s.modFiling f g = s.modFiling f g' := by
  have e : s.fil.records.modify f g = s.fil.records.modify f g' :=
    modify_congr (fun x hx => by simp [State.filing, List.getD_eq_getElem?_getD, hx]) h
  unfold State.modFiling
  rw [e]

/-! ### The pages of a filing -/

theorem complete_iff : p.complete = true ↔ p.received = p.sectors := beq_iff_eq

theorem filter_complete (h : ∀ p ∈ ps, p.received = p.sectors) : ps.filter FilingPage.complete = ps :=
  List.filter_eq_self.2 fun p hp => complete_iff.2 (h p hp)

theorem completePages_whole (h : ∀ p ∈ x.pages, p.received = p.sectors) : x.completePages = x.pages.length := by
  rw [Filing.completePages, filter_complete h]

theorem completePages_partial (hx : x.pages = ps ++ [p]) (h : ∀ q ∈ ps, q.received = q.sectors)
    (hp : p.received ≠ p.sectors) : x.completePages = ps.length := by
  have hlast : [p].filter FilingPage.complete = [] := List.filter_eq_nil_iff.2 fun q hq => by
    obtain rfl := List.mem_singleton.1 hq
    exact mt complete_iff.1 hp
  rw [Filing.completePages, hx, List.filter_append, filter_complete h, hlast, List.append_nil]

/-- Behind whole pages the next one is expected, from its start (R103). -/
theorem expected_whole (h : ∀ p ∈ x.pages, p.received = p.sectors) : x.expected = (x.pages.length + 1, 0) := by
  unfold Filing.expected
  cases hl : x.pages.getLast? with
  | none => rw [List.getLast?_eq_none_iff.1 hl]; rfl
  | some p => exact if_pos (complete_iff.2 (h p (List.mem_of_getLast? hl)))

/-- A page begun is expected to go on where it stands (R103). -/
theorem expected_partial (hx : x.pages = ps ++ [p]) (hp : p.received ≠ p.sectors) :
    x.expected = (ps.length + 1, p.received) := by
  have hc : ¬p.complete = true := mt complete_iff.1 hp
  simp [Filing.expected, hc, hx]

/-- A page goes on with the format and the sectors it began with. -/
def Filing.alike (x : Filing) (b : PageBody) : Prop :=
  b.offset = 0 ∨ ∃ p, x.pages.getLast? = some p ∧ p.format = b.format ∧ p.sectors = b.sectors

theorem inOrder_iff : x.inOrder b = true ↔ x.expected = (b.page, b.offset) ∧ x.alike b := by
  simp [Filing.inOrder, Filing.alike, Option.any_eq_true]

theorem modify_last {α : Type} (g : α → α) (l : List α) (a : α) : (l ++ [a]).modify l.length g = l ++ [g a] := by
  induction l with
  | nil => rfl
  | cons b l ih => simpa using ih

theorem takePage_begun (tm : Timer) (x : Filing) (hb : b.offset = 0) : x.takePage b tm = { x with
    pages := x.pages ++ [{ format := b.format, sectors := b.sectors, received := b.data.length }]
    frames := x.frames ++ b.data, timer := some tm } := by
  simp [Filing.takePage, hb, modify_last]

theorem takePage_further (tm : Timer) (hb : b.offset ≠ 0) (hx : x.pages = ps ++ [p]) : x.takePage b tm = { x with
    pages := ps ++ [{ p with received := p.received + b.data.length }], frames := x.frames ++ b.data, timer := some tm } := by
  simp [Filing.takePage, hb, hx, modify_last]

/-! ### FILE_OPEN -/

theorem exec_fileOpen {u : State} (h : s.handsOn) (hu : openFiling r t s = u) :
    exec (.fileOpen r t) s = .next (publish u) := exec_handed rfl h (congrArg publish hu)

theorem openFiling_service (hs : s.mu.service ≠ .serving) : openFiling r t s = refuse r t .notServing 5 s := if_pos hs

theorem openFiling_right (hs : s.mu.service = .serving) (hr : (s.requester r).any (·.rights.file) = false) :
    openFiling r t s = refuse r t .noRight 5 s := by
  simp [openFiling, hs, hr]

theorem openFiling_tag (hs : s.mu.service = .serving) (hr : (s.requester r).any (·.rights.file) = true)
    (hd : (s.filingOf (· != .free) r t).isSome = true) : openFiling r t s = refuse r t .duplicateTag 5 s := by
  rw [openFiling, if_neg (not_not.2 hs), hr, if_neg (by decide), if_pos hd]

theorem openFiling_busy (hs : s.mu.service = .serving) (hr : (s.requester r).any (·.rights.file) = true)
    (ht : s.filingOf (· != .free) r t = none) (hb : ∀ f < 8, (s.filing f).state ≠ .free) :
    openFiling r t s = refuse r t .busy 5 s := by
  have hfind : ((List.range 8).find? fun f => (s.filing f).state == .free) = none :=
    List.find?_eq_none.2 fun f hf => by simpa using hb f (List.mem_range.1 hf)
  rw [openFiling, if_neg (not_not.2 hs), hr, ht, hfind]
  rfl

theorem openFiling_lowest (hs : s.mu.service = .serving) (hr : (s.requester r).any (·.rights.file) = true)
    (ht : s.filingOf (· != .free) r t = none) (hf : f < 8) (hfree : (s.filing f).state = .free)
    (hl : ∀ i < f, (s.filing i).state ≠ .free) : openFiling r t s = s.modFiling f fun _ =>
      { Filing.reset with state := .gathering, requester := r, tag := t, timer := some s.gatherTimer } := by
  have hfind : ((List.range 8).find? fun f => (s.filing f).state == .free) = some f :=
    find_range_lowest hf (by simp [hfree]) fun i hi => by simp [hl i hi]
  rw [openFiling, if_neg (not_not.2 hs), hr, ht, hfind]
  rfl

/-! ### PAGE -/

theorem exec_page {u : State} (h : s.handsOn) (hu : filePage r t b s = u) :
    exec (.page r t b) s = .next (publish u) := exec_handed rfl h (congrArg publish hu)

theorem filePage_value (hv : pageValid b = false) : filePage r t b s = refuse r t .badValue 6 s := by
  simp [filePage, hv]

theorem filePage_noFiling (hv : pageValid b = true) (hf : s.filingOf (· == .gathering) r t = none) :
    filePage r t b s = refuse r t .noFiling 6 s := by
  simp [filePage, hv, hf]

/-- The checks of R103 behind the values and the filing. -/
theorem filePage_found (hv : pageValid b = true) (hf : s.filingOf (· == .gathering) r t = some f) :
    filePage r t b s = if b.page ≤ (s.filing f).completePages then refuse r t .duplicatePage 6 s
      else if ¬(s.filing f).inOrder b = true then refuse r t .order 6 s
      else if Config.filingShare < s.filingFrames + b.data.length then refuse r t .poolFull 6 s
      else s.modFiling f (Filing.takePage b s.gatherTimer) := by
  simp [filePage, hv, hf]

theorem filePage_order (hv : pageValid b = true) (hf : s.filingOf (· == .gathering) r t = some f)
    (hw : (s.filing f).completePages < b.page) (ho : ¬((s.filing f).expected = (b.page, b.offset) ∧ (s.filing f).alike b)) :
    filePage r t b s = refuse r t .order 6 s := by
  rw [filePage_found hv hf, if_neg (Nat.not_le.2 hw), if_pos (mt inOrder_iff.1 ho)]

/-- A PAGE that is the next expected is taken as far as the frames of the filing share go (R103, R104). -/
theorem filePage_expected (hv : pageValid b = true) (hf : s.filingOf (· == .gathering) r t = some f)
    (hw : (s.filing f).completePages < b.page) (he : (s.filing f).expected = (b.page, b.offset))
    (ha : (s.filing f).alike b) : filePage r t b s =
      if Config.filingShare < s.filingFrames + b.data.length then refuse r t .poolFull 6 s
      else s.modFiling f (Filing.takePage b s.gatherTimer) := by
  rw [filePage_found hv hf, if_neg (Nat.not_le.2 hw), if_neg (not_not.2 (inOrder_iff.2 ⟨he, ha⟩))]

theorem filePage_begun (hv : pageValid b = true) (hf : s.filingOf (· == .gathering) r t = some f)
    (hroom : s.filingFrames + b.data.length ≤ Config.filingShare)
    (hw : ∀ p ∈ (s.filing f).pages, p.received = p.sectors) (hp : b.page = (s.filing f).pages.length + 1)
    (ho : b.offset = 0) : filePage r t b s = s.modFiling f fun x => { x with
      pages := x.pages ++ [{ format := b.format, sectors := b.sectors, received := b.data.length }]
      frames := x.frames ++ b.data, timer := some s.gatherTimer } := by
  have he : (s.filing f).expected = (b.page, b.offset) := by rw [expected_whole hw, hp, ho]
  have hnew : (s.filing f).completePages < b.page := by rw [completePages_whole hw, hp]; exact Nat.lt_succ_self _
  rw [filePage_expected hv hf hnew he (.inl ho), if_neg (Nat.not_lt.2 hroom)]
  exact modFiling_congr (takePage_begun _ _ ho)

theorem filePage_further (hv : pageValid b = true) (hf : s.filingOf (· == .gathering) r t = some f)
    (hroom : s.filingFrames + b.data.length ≤ Config.filingShare) (hx : (s.filing f).pages = ps ++ [p])
    (hw : ∀ q ∈ ps, q.received = q.sectors) (hpart : p.received ≠ p.sectors) (hb : b.page = ps.length + 1)
    (hpos : 1 ≤ b.offset) (ho : b.offset = p.received) (hform : b.format = p.format) (hsect : b.sectors = p.sectors) :
    filePage r t b s = s.modFiling f fun x => { x with
      pages := ps ++ [{ p with received := p.received + b.data.length }]
      frames := x.frames ++ b.data, timer := some s.gatherTimer } := by
  have he : (s.filing f).expected = (b.page, b.offset) := by rw [expected_partial hx hpart, hb, ho]
  have hnew : (s.filing f).completePages < b.page := by
    rw [completePages_partial hx hw hpart, hb]
    exact Nat.lt_succ_self _
  have ha : (s.filing f).alike b := .inr ⟨p, by rw [hx, List.getLast?_concat], hform.symm, hsect.symm⟩
  rw [filePage_expected hv hf hnew he ha, if_neg (Nat.not_lt.2 hroom)]
  exact modFiling_congr (takePage_further _ (by omega) hx)

/-! ### FILE_END -/

theorem exec_fileEnd {u : State} (h : s.handsOn) (hu : endFiling r t count s = u) :
    exec (.fileEnd r t count) s = .next (settle u) := exec_handed rfl h (congrArg settle hu)

theorem endFiling_value (hc : 240 < count) : endFiling r t count s = refuse r t .badValue 7 s := if_pos hc

theorem endFiling_noFiling (hc : count ≤ 240) (hf : s.filingOf (· == .gathering) r t = none) :
    endFiling r t count s = refuse r t .noFiling 7 s := by
  rw [endFiling, if_neg (Nat.not_lt.2 hc), hf]

/-- A filing joins the queue at its tail (R105). -/
def filingQueued (f : Nat) (s : State) : State := { s with
  todo.readiness := s.todo.readiness || s.fil.queue.isEmpty
  fil.queue := s.fil.queue ++ [f]
  fil.records := s.fil.records.modify f fun x =>
    { x with state := .queued, timer := none, body := some (1 + (x.pages.map (·.sectors)).sum) } }

/-- The checks of R105 behind the count and the filing. -/
theorem endFiling_found (hc : count ≤ 240) (hf : s.filingOf (· == .gathering) r t = some f) :
    endFiling r t count s = if (s.filing f).completePages = 0 then refuse r t .empty 7 s
      else if count ≠ (s.filing f).completePages ∨ (s.filing f).pages.length ≠ (s.filing f).completePages then
        refuse r t .incomplete 7 s
      else filingQueued f s := by
  simp only [endFiling, if_neg (Nat.not_lt.2 hc), hf, filingQueued]
  cases s.fil.queue.isEmpty
  · rw [Bool.or_false]
    rfl
  · rw [Bool.or_true]
    rfl

theorem endFiling_whole (hf : s.filingOf (· == .gathering) r t = some f) (hne : (s.filing f).pages ≠ [])
    (hw : ∀ p ∈ (s.filing f).pages, p.received = p.sectors) (hlen : (s.filing f).pages.length ≤ 240) :
    endFiling r t (s.filing f).pages.length s = filingQueued f s := by
  rw [endFiling_found hlen hf, completePages_whole hw, if_neg (mt List.eq_nil_of_length_eq_zero hne), if_neg (by simp)]

/-! ### FILE_ABORT and the gather idle timer -/

theorem exec_fileAbort {u : State} (h : s.handsOn) (hu : abortFiling r t s = u) :
    exec (.fileAbort r t) s = .next (settle u) := exec_handed rfl h (congrArg settle hu)

theorem exec_gatherIdleExpiry {f : Fin 8} {u : State} (hu : gatherExpired f s = u) :
    exec (.gatherIdleExpiry f) s = .next (settle u) := by
  rw [← hu]
  rfl

theorem abortFiling_noFiling (hf : s.filingOf (· != .free) r t = none) :
    abortFiling r t s = refuse r t .noFiling 8 s := by
  rw [abortFiling, hf]

theorem abortFiling_found (hf : s.filingOf (· != .free) r t = some f) : abortFiling r t s =
    if (s.filing f).state = .writing then refuse r t .inProgress 8 s
    else markerIfNeeded (discardFiling f .aborted s) := by
  rw [abortFiling, hf]

theorem gatherExpired_gathering {tm : Timer} (hs : (s.filing f).state = .gathering) (ht : (s.filing f).timer = some tm) :
    gatherExpired f s = discardFiling f .expired (s.reach (tm.start + tm.limit)) := by
  simp only [gatherExpired, hs, ht]

/-- Filing `f` of requester `r` and tag `t` is gone: its record is FREE, the queue is without it, and FILE-FAILED is
composed (R106, R107, R122). -/
structure FilingGone (r t f : Nat) (cause : FileCause) (s u : State) : Prop where
  freed : u.filing f = Filing.reset
  others : ∀ i, i ≠ f → u.filing i = s.filing i
  queue : u.fil.queue = s.fil.queue.filter (· != f)
  told : u.rli.control = s.rli.control
    ++ [{ seq := s.seq, frame := { requester := r, tag := t, body := .fileFailed cause none 0 } }]

theorem fileFailed_told (h : cause ≠ .writeFailed) : fileFailed f cause s
    = compose (s.filing f).requester (s.filing f).tag (.fileFailed cause none 0) s := by
  simp [fileFailed, h]

theorem filingGone_discardFiling (hr : (s.filing f).requester = r) (ht : (s.filing f).tag = t)
    (hc : cause ≠ .writeFailed) : FilingGone r t f cause s (discardFiling f cause s) := by
  obtain ⟨todo, he⟩ := freeFiling_eq f (fileFailed f cause s)
  have hrec (k : Nat) : (discardFiling f cause s).filing k = if k = f then Filing.reset else s.filing k :=
    freeFiling_filing f k _
  refine { freed := (hrec f).trans (if_pos rfl), others := fun i hi => (hrec i).trans (if_neg hi), queue := ?_, told := ?_ }
  · rw [discardFiling, he]
    rfl
  · rw [discardFiling, he, fileFailed_told hc, hr, ht]
    rfl

/-- The marker withdrawn behind an emptied queue is none of what a discarded filing leaves. -/
theorem FilingGone.markerIfNeeded {u : State} (h : FilingGone r t f cause s u) :
    FilingGone r t f cause s (markerIfNeeded u) := by
  unfold Machine.markerIfNeeded
  split
  · have hrec (k : Nat) : (withdrawMarker u).filing k = u.filing k := by simp [State.filing]
    exact { freed := (hrec f).trans h.freed, others := fun i hi => (hrec i).trans (h.others i hi)
            queue := by simpa using h.queue, told := by simpa using h.told }
  · exact h

theorem discardFiling_now : (discardFiling f cause s).now = s.now := by
  obtain ⟨todo, he⟩ := freeFiling_eq f (fileFailed f cause s)
  rw [discardFiling, he]
  rfl

/-! ### The statements -/

/-- Settles O23: each request accepted, then the two ways a filing is discarded. -/
theorem filingRequestsTaken : Obligations.FilingRequestsTaken := by
  refine ⟨fun s r t f h hf => ⟨fun q hs hq hright hfresh hfree hl => ?opened, fun hg hr ht hl => ?gathering⟩, ?discarded⟩
  case opened =>
    have hnone : s.filingOf (· != .free) r t = none :=
      filingOf_used_none fun i hi hn => hfresh i hi hn.1 hn.2
    exact exec_fileOpen h (openFiling_lowest hs (by rw [hq]; exact hright) hnone hf hfree hl)
  case gathering =>
    have hfound : s.filingOf (· == .gathering) r t = some f := filingOf_gathering_lowest hf ⟨hg, hr, ht⟩ hl
    refine ⟨fun b hv hroom => ⟨fun hw hp ho => ?_, fun ps p hx hw hpart hpos hb ho hform hsect => ?_⟩, fun hne hw hn => ?_⟩
    · exact exec_page h (filePage_begun hv hfound hroom hw hp ho)
    · exact exec_page h (filePage_further hv hfound hroom hx hw hpart hb hpos ho hform hsect)
    · exact exec_fileEnd h (endFiling_whole hfound hne hw hn)
  case discarded =>
    intro s f r t hr ht _ gone
    refine ⟨fun h hst hl => ?aborted, fun tm hg htm => ?expired⟩
    case aborted =>
      have hused : (s.filing f).state ≠ .free ∧ (s.filing f).state ≠ .writing := by
        rcases hst with e | e <;> simp [e]
      have hfound : s.filingOf (· != .free) r t = some f.val := filingOf_used_lowest f.isLt ⟨hused.1, hr, ht⟩ hl
      obtain ⟨freed, others, queue, told⟩ :=
        (filingGone_discardFiling (cause := .aborted) hr ht (by decide)).markerIfNeeded
      exact ⟨_, exec_fileAbort h ((abortFiling_found hfound).trans (if_neg hused.2)), freed, others, queue, told⟩
    case expired =>
      obtain ⟨freed, others, queue, told⟩ := filingGone_discardFiling (s := s.reach (tm.start + tm.limit)) (f := f)
        (cause := .expired) hr ht (by decide)
      exact ⟨_, exec_gatherIdleExpiry (gatherExpired_gathering hg htm), ⟨freed, others, queue, told⟩, discardFiling_now⟩

/-- Settles O24, request by request. -/
theorem filingRequestsRefused : Obligations.FilingRequestsRefused := by
  intro s r t count b h
  refine ⟨fun hs => exec_fileOpen h (openFiling_service hs), fun hs hr => exec_fileOpen h (openFiling_right hs hr),
    fun hs hr => ⟨fun hdup => exec_fileOpen h (openFiling_tag hs hr (filingOf_used_found hdup)),
      fun hall => exec_fileOpen h (openFiling_busy hs hr ?_ fun f hf => (hall f hf).1)⟩,
    fun hv => exec_page h (filePage_value hv), fun hc => exec_fileEnd h (endFiling_value hc), fun hno => ?_,
    fun hno => exec_fileAbort h (abortFiling_noFiling (filingOf_used_none hno)), fun f hf hst hr ht hl => ?_,
    fun f hf hg hr ht hl => ?gathering⟩
  · exact filingOf_used_none fun f hf hn => (hall f hf).2 hn.2
  · have hnone := filingOf_gathering_none hno
    exact ⟨fun hv => exec_page h (filePage_noFiling hv hnone), fun hc => exec_fileEnd h (endFiling_noFiling hc hnone)⟩
  · have hfound := filingOf_used_lowest hf ⟨by simp [hst], hr, ht⟩ hl
    exact exec_fileAbort h ((abortFiling_found hfound).trans (if_pos hst))
  case gathering =>
    have hfound : s.filingOf (· == .gathering) r t = some f := filingOf_gathering_lowest hf ⟨hg, hr, ht⟩ hl
    intro whole refused alike
    refine ⟨fun hv => ⟨fun hp => ?_, fun hw ho => ?_, fun hw he ha hfull => ?_⟩,
      fun hc hempty => ?_, fun hc hsome hcount => ?_⟩
    · exact exec_page h ((filePage_found hv hfound).trans (if_pos hp))
    · exact exec_page h (filePage_order hv hfound hw fun hn => ho.elim (fun he => he hn.1) fun ha => ha hn.2)
    · exact exec_page h ((filePage_expected hv hfound hw he ha).trans (if_pos hfull))
    · exact exec_fileEnd h ((endFiling_found hc hfound).trans (if_pos hempty))
    · exact exec_fileEnd h ((endFiling_found hc hfound).trans ((if_neg hsome).trans (if_pos hcount)))

/-! ### FILING_RESUME -/

theorem runReadiness_uncalled (h : s.todo.readiness = false) : runReadiness s = s := by
  simp [runReadiness, h]

theorem retestHalt_none (h : s.fil.halt = none) : retestHalt s = s := by
  simp only [retestHalt, h]

theorem retestHalt_some {c : Halt} (h : s.fil.halt = some c) : retestHalt s =
    if s.haltHolds c = true then s else { s with fil.halt := none, todo.readiness := true } := by
  simp only [retestHalt, h]
  rfl

/-- An admitted FILING_RESUME answers with the halt that stands behind the re-test and the readiness test (R121, R164). -/
theorem exec_filingResume {u : State} (h : s.handsOn) (ha : s.admits r t 18) (hu : runReadiness (retestHalt s) = u) :
    exec (.filingResume r t) s = .next (settle (publish (accept r t 18 (number 1 (haltCode u.fil.halt)) u))) := by
  refine exec_managed rfl h ha (by decide) ?_
  rw [filingResumeTaken, answer_accepted, hu]

/-- Settles O42, by what the re-test finds. -/
theorem filingResumeRetests : Obligations.FilingResumeRetests := by
  intro s r t h ha hready answered
  have stays (hu : retestHalt s = s) : answered s s :=
    exec_filingResume h ha (by rw [hu, runReadiness_uncalled hready])
  refine ⟨fun hn => stays (retestHalt_none hn), fun c hc => ⟨fun hh => stays ?_, fun hh => ?_⟩⟩
  · rw [retestHalt_some hc, if_pos hh]
  · exact exec_filingResume h ha (by rw [retestHalt_some hc, if_neg (by simp [hh])])

end Sys2Proof.Machine
end

section
/-! SUPPORT. The fee arithmetic (R126, R129, R130, R132 to R135, R144): the deed charge in its steps, what a posting adds and
carries, the stop test, and the price of a completed page. -/

namespace Sys2Proof.Machine

variable {s : State} {c p : Nat} {a : Account} {x : Context}

/-! ### The deed charge -/

/-- The subtotal with the deed fee, cut to the cap where there is one, then raised to the minimum (R130 steps 1 to 3). -/
theorem cappedCharge_eq (f : ClassFigures) (subtotal : Nat) : cappedCharge f subtotal =
    let t1 := f.deedFee + subtotal
    let t2 := if f.cap ≠ 0 ∧ f.cap < t1 then f.cap else t1
    if t2 < f.minimum then f.minimum else t2 := by
  unfold cappedCharge
  dsimp only
  rw [max_def_lt]

/-- A VIEW, and a COPY that delivered no page, cost nothing (R129). -/
theorem deedCharge_nothing {f : ClassFigures} {kind : Delivery} {k subtotal : Nat} {cert : Bool} {o : Ending}
    (h : kind = .view ∨ k = 0) : deedCharge f kind k subtotal cert o = 0 := if_pos h

theorem deedCharge_copy {f : ClassFigures} {k subtotal : Nat} {cert : Bool} {o : Ending} (hk : 1 ≤ k) :
    deedCharge f .copy k subtotal cert o
      = cappedCharge f subtotal + if cert = true ∧ o = .complete then f.certFee else 0 := by
  have hpages : k ≠ 0 := Nat.one_le_iff_ne_zero.1 hk
  exact if_neg (by simp [hpages])

/-! ### Postings -/

/-- The cents of a posting and the residue behind it hold every mill of the charge and of the residue before it (R132). -/
theorem centsPosted_residue (a : Account) (q : Nat) :
    10 * centsPosted a q + (postFigures a q).residue = q + a.residue := Nat.div_add_mod _ 10

theorem postFigures_residue_le (a : Account) (q : Nat) : (postFigures a q).residue ≤ 9 :=
  Nat.le_of_lt_succ (Nat.mod_lt _ (by decide))

/-- A second posting writes what one posting of both charges writes, but for the further deed (R132 to R134). -/
theorem postFigures_postFigures (a : Account) (q q' : Nat) : postFigures (postFigures a q) q'
    = { postFigures a (q + q') with dayDeeds := min (a.dayDeeds + 2) Config.dayCeiling } := by
  have hcents : centsPosted a q + centsPosted (postFigures a q) q' = centsPosted a (q + q') := by
    simp only [centsPosted, postFigures]
    omega
  have hresidue : (q' + (q + a.residue) % 10) % 10 = (q + q' + a.residue) % 10 := by omega
  have hcapped (n m x y : Nat) : min (min (n + x) m + y) m = min (n + (x + y)) m := by omega
  show { a with
      residue := (q' + (q + a.residue) % 10) % 10
      charged := min (min (a.charged + centsPosted a q) _ + centsPosted (postFigures a q) q') _
      dayCents := min (min (a.dayCents + centsPosted a q) _ + centsPosted (postFigures a q) q') _
      dayDeeds := min (min (a.dayDeeds + 1) _ + 1) _ } = _
  rw [hresidue, hcapped, hcapped, hcapped, hcents]
  rfl

/-- The order of two postings does not show in the figures (R135). -/
theorem postFigures_comm (a : Account) (q q' : Nat) :
    postFigures (postFigures a q) q' = postFigures (postFigures a q') q := by
  rw [postFigures_postFigures, postFigures_postFigures, Nat.add_comm]

/-! ### The stop test -/

theorem overBounds_iff : (overBounds a).isSome = true
    ↔ Config.chargedCeiling ≤ a.charged ∨ (a.limit ≠ 0 ∧ a.limit ≤ a.charged) := by
  unfold overBounds
  by_cases hceiling : Config.chargedCeiling ≤ a.charged
  · simp [hceiling]
  · by_cases hlimit : a.limit ≠ 0 ∧ a.limit ≤ a.charged <;> simp [hceiling, hlimit]

/-- A STOPPED account stays so, and an OPEN one becomes so over its bounds (R144). -/
theorem stopTest_state (a : Account) : (stopTest a).state
    = if a.state = .stopped ∨ Config.chargedCeiling ≤ a.charged ∨ (a.limit ≠ 0 ∧ a.limit ≤ a.charged)
      then .stopped else .opened := by
  unfold stopTest
  simp only [overBounds_iff]
  cases hstate : a.state with
  | opened =>
    by_cases hover : Config.chargedCeiling ≤ a.charged ∨ (a.limit ≠ 0 ∧ a.limit ≤ a.charged)
    · rw [if_pos ⟨rfl, hover⟩, if_pos (.inr hover)]
    · rw [if_neg fun h => hover h.2, if_neg (by simpa using hover), hstate]
  | stopped => rw [if_neg (by simp), if_pos (.inl rfl), hstate]

/-! ### The price of a completed page -/

/-- A COPY pays the page to deliver by the count it makes in its account (R126). -/
theorem priceOfPage_copy (hk : x.kind = .copy) (h : x.nextPage = some p) (ha : s.account x.account = some a) :
    s.priceOfPage x = pagePrice (s.figures x.generation x.feeClass) (x.item p).format (countMade a.dayPages) := by
  simp only [State.priceOfPage, hk, ha, h, Option.getD_some]

theorem pageCounted_accounts (hk : (s.context c).kind = .copy) : (pageCounted c s).tal.accounts
    = s.tal.accounts.map fun b => if b.number = (s.context c).account then { b with dayPages := countMade b.dayPages }
      else b := by
  unfold pageCounted
  dsimp only
  rw [if_pos hk]
  rfl

theorem completePage_subtotal (price : Nat) (x : Context) : (x.completePage price).subtotal = x.subtotal + price := rfl

/-- Settles O58: the deed charge, a posting, two postings, the page of a COPY. -/
theorem feeArithmetic : Obligations.FeeArithmetic := by
  refine ⟨fun f k subtotal cert o => ⟨deedCharge_nothing (.inl rfl), deedCharge_nothing (.inr rfl), fun hk => ?charge⟩,
    fun a q => ⟨centsPosted_residue a q, postFigures_residue_le a q, rfl, rfl, rfl, stopTest_state _⟩,
    postFigures_comm, ?page⟩
  case charge => rw [deedCharge_copy hk, cappedCharge_eq]
  case page =>
    intro s c p p' a x hc hx hk h hn ha
    subst hx
    obtain ⟨hnext, -, hdelivered, -⟩ := completePage_fields (s.priceOfPage (s.context c)) h
    rw [completePage_next hc h hn, pageCounted_context c hc, if_pos rfl]
    refine ⟨?_, hdelivered, hnext.trans hn, pageCounted_accounts hk⟩
    rw [completePage_subtotal, priceOfPage_copy hk h ha]
    rfl

end Sys2Proof.Machine
end

section
/-! SUPPORT. The tally unit's records written by their own requests alone (R138 to R142, R145, R148): which of them each command
may write, and `KeepsTally` between the states before and after, for each operation that a command calls. -/

namespace Sys2Proof.Machine

/-- The parts of the tally unit that few commands write. -/
inductive TallyPart where
  | feeDay | generation | standings
  deriving DecidableEq

variable {s t u : State} {w : List TallyPart}

/-- A part of the tally unit reads in `b` as it does in `a`, the account records but for what deliveries write. -/
def TallyPart.kept (a b : Tal) : TallyPart → Prop
  | .feeDay => b.feeDay = a.feeDay
  | .generation => b.nextGeneration = a.nextGeneration
  | .standings => List.Forall₂ AccountFollows a.accounts b.accounts

/-- The parts a command may write. -/
def writtenParts : Instr → List TallyPart
  | .loadSchedule _ _ _ _ => [.generation]
  | .loadAccount _ _ _ _ _ _ _ | .setAccountState _ _ _ _ | .closeAccount _ _ _ => [.standings]
  | .dayClose _ _ _ => [.feeDay, .standings]
  | _ => []

/-- Every part of the tally unit but those of a list is kept. -/
def KeepsTally (w : List TallyPart) (s t : State) : Prop := ∀ k, k ∉ w → k.kept s.tal t.tal

/-! ### How the relation is made -/

theorem KeepsTally.of_eq (e : t.tal = s.tal) : KeepsTally w s t := by
  intro k _
  rw [e]
  cases k
  exacts [rfl, rfl, (Basic.refl s).accounts]

theorem KeepsTally.refl (s : State) : KeepsTally w s s := .of_eq rfl

theorem KeepsTally.trans (h : KeepsTally w s t) (g : KeepsTally w t u) : KeepsTally w s u := by
  intro k hk
  have h1 := h k hk
  have g1 := g k hk
  cases k
  exacts [Eq.trans g1 h1, Eq.trans g1 h1, forall₂_trans (r := AccountFollows) (fun _ _ _ => AccountFollows.trans) h1 g1]

/-- What follows an event writes neither the fee day nor the generation to come, and an account as deliveries do. -/
theorem Follows.keepsTally (h : Follows s t) : KeepsTally w s t := by
  have hf := h.fixed
  simp only [State.fixed, Prod.mk.injEq] at hf
  obtain ⟨-, -, -, -, -, -, -, -, -, -, feeDay, generation, -⟩ := hf
  intro k _
  cases k
  exacts [feeDay, generation, h.accounts]

/-- A change outside the tally unit, and what follows it. -/
theorem KeepsTally.from (h : KeepsTally w u t) (e : u.tal = s.tal) : KeepsTally w s t := (KeepsTally.of_eq e).trans h

theorem KeepsTally.settle (h : KeepsTally w s t) : KeepsTally w s (settle t) := h.trans (Follows.refl t).settle.keepsTally

theorem KeepsTally.publish (h : KeepsTally w s t) : KeepsTally w s (publish t) := h.trans (Follows.refl t).publish.keepsTally

theorem KeepsTally.settled (e : u.tal = s.tal) : KeepsTally w s (Machine.settle u) := (KeepsTally.of_eq e).settle

theorem KeepsTally.published (e : u.tal = s.tal) : KeepsTally w s (Machine.publish u) := (KeepsTally.of_eq e).publish

theorem KeepsTally.of_next (h : (.next u : Out) = .next t) (g : KeepsTally w s u) : KeepsTally w s t :=
  Host.Outcome.next.inj h ▸ g

/-! ### Requests -/

theorem KeepsTally.handOn {i : Instr} {act : State → State} (h : ∀ v, KeepsTally w v (act v)) :
    KeepsTally w s (handOn i act s) := by
  rcases handOn_cases i act s with ⟨-, -, e⟩ | ⟨qs, -, -, e⟩ | ⟨l, e, -⟩ <;> rw [e]
  · exact h s
  · exact (h { s with rli.inbound := qs }).from rfl
  · exact .of_eq rfl

/-- A management request handed on. -/
theorem KeepsTally.managed {i : Instr} {r g code : Nat} {act : State → State} (h : ∀ v, KeepsTally w v (act v)) :
    KeepsTally w s (Machine.handOn i (Machine.manage r g code act) s) := .handOn fun v => by
  rcases manage_cases r g code act v with e | ⟨reason, e⟩ <;> rw [e]
  · exact h v
  · exact .published rfl

theorem KeepsTally.answer {r g code : Nat} {refusal : Option Reason} {effect : State → State} {data : State → List Byte}
    (h : KeepsTally w s (effect s)) : KeepsTally w s (answer r g code refusal effect data s) := by
  unfold Machine.answer
  split
  · exact .published rfl
  · exact .publish (h.trans (.of_eq rfl))

theorem KeepsTally.answerLater {r g code : Nat} {k : LateKind} {refusal : Option Reason} {effect : State → State}
    (h : ∀ v, KeepsTally w v (effect v)) : KeepsTally w s (answerLater r g code k refusal effect s) := by
  unfold Machine.answerLater
  split
  · exact .published rfl
  · exact ((h (awaitReply k r g s)).from rfl).settle

theorem KeepsTally.query {r g code : Nat} {refusal : Option Reason} {data : State → List Byte} :
    KeepsTally w s (query r g code refusal data s) := .answer (.refl s)

theorem KeepsTally.pickerEvent {e : PickerEvent} {act : Motion → State → State} (h : ∀ m v, KeepsTally w v (act m v)) :
    KeepsTally w s (pickerEvent e act s) := by
  rcases pickerEvent_cases e act s with e1 | e1 | ⟨m, -, -, -, e1⟩ <;> rw [e1]
  · exact .refl s
  · exact (Follows.refl s).pickerFaulted.settle.keepsTally
  · exact (h m _).from rfl

/-! ### Operations that leave the tally unit -/

@[simp] theorem changeService_tal {n : Service} {c : ChangeCause} : (changeService n c s).tal = s.tal := raise_tal _ _

theorem discardFiling_tal {f : Nat} {c : FileCause} : (discardFiling f c s).tal = s.tal := by
  unfold discardFiling freeFiling
  dsimp only
  split <;> rfl

theorem handOrder_tal {d : Nat} {m : Motion} : (handOrder d m s).tal = s.tal := by
  unfold handOrder
  split <;> rfl

theorem scheduleHold_tal : (scheduleHold s).tal = s.tal := by
  unfold scheduleHold
  dsimp only
  split <;> rfl

theorem admitFrame_tal {bs : List Byte} : (admitFrame bs s).tal = s.tal := by
  unfold admitFrame
  split
  · rfl
  · split <;> rfl

theorem lineDown_tal : (lineDown s).tal = s.tal := by
  unfold lineDown
  split <;> rfl

theorem openFiling_tal {r g : Nat} : (openFiling r g s).tal = s.tal := by
  unfold openFiling
  split_ifs
  iterate 3 rfl
  split <;> rfl

theorem filePage_tal {r g : Nat} {b : PageBody} : (filePage r g b s).tal = s.tal := by
  unfold filePage
  split
  · rfl
  · split
    · rfl
    · dsimp only
      split_ifs <;> rfl

theorem endFiling_tal {r g n : Nat} : (endFiling r g n s).tal = s.tal := by
  unfold endFiling
  split
  · rfl
  · split
    · rfl
    · dsimp only
      split_ifs <;> rfl

theorem beginHold_tal : (beginHold s).tal = s.tal := by
  unfold beginHold
  dsimp only
  split
  · rfl
  · split
    · rfl
    · split <;> rfl
    · rfl

theorem storeSide_tal {l : SideLoad} : (storeSide l s).tal = s.tal := by
  cases l <;> rfl

/-! ### Part and line -/

theorem keepsTally_startUp : KeepsTally w s (startUp s) := by
  have home : KeepsTally w s (startHome { s with memory := .passed }) := (Follows.refl _).startHome.keepsTally.from rfl
  have owed := home.trans (KeepsTally.of_eq (t := (startHome { s with memory := .passed }).modPicker fun p =>
    { p with inventoryOwed := true }) rfl)
  exact owed.trans (Follows.fold _ (fun v _ => (Follows.refl v).startProbe) _ (Follows.refl _)).keepsTally

theorem keepsTally_memoryCheckDone {f : Option Nat} (h : execMemoryCheckDone f s = .next t) : KeepsTally w s t := by
  unfold execMemoryCheckDone at h
  split at h
  · exact .of_next h (.refl s)
  · split at h
    · exact .of_next h (.settled changeService_tal)
    · exact .of_next h keepsTally_startUp.settle

theorem keepsTally_lineUp : KeepsTally w s (lineUp s) := by
  unfold lineUp
  split
  · exact .refl s
  · exact .settled rfl

theorem keepsTally_frameFinished : KeepsTally w s (frameFinished s) := by
  unfold frameFinished
  split
  · exact .refl s
  · exact .settled rfl

/-! ### Contexts -/

/-- A FETCH counts its delivery on the account, and writes nothing else that is kept (R76, R80). -/
theorem keepsTally_takeContext {c : Nat} {x : Context} : KeepsTally w s (takeContext c x s) := by
  have counted (v : State) : KeepsTally w v (v.modAccount x.account fun a => { a with inFlight := a.inFlight + 1 }) :=
    (Follows.modAccount (fun _ => by constructor <;> simp) (Follows.refl v)).keepsTally
  have referred (v : State) (g : Nat) : KeepsTally w v (takeReference g v) := by
    intro k _
    cases k
    exacts [rfl, rfl, (Basic.refl v).accounts]
  unfold takeContext
  dsimp only
  split
  · exact (counted _).from rfl
  · exact ((referred _ _).from rfl).trans (counted _)

theorem keepsTally_fetchTaken {r g : Nat} {b : FetchBody} : KeepsTally w s (fetchTaken r g b s) := by
  unfold fetchTaken
  split
  · exact .published rfl
  · unfold acceptFetch
    split
    · exact .refl s
    · exact .settle (keepsTally_takeContext.trans (Follows.refl _).applyAnswer.keepsTally)

theorem keepsTally_holdTaken {r g : Nat} : KeepsTally w s (holdTaken r g s) := by
  unfold holdTaken
  split
  · exact .published rfl
  · exact .of_eq rfl

theorem keepsTally_resumeTaken {r g : Nat} : KeepsTally w s (resumeTaken r g s) := by
  unfold resumeTaken
  split
  · exact .published rfl
  · exact .settled rfl

theorem keepsTally_cancelTaken {r g : Nat} : KeepsTally w s (cancelTaken r g s) := by
  unfold cancelTaken
  split
  · exact .published rfl
  · exact (Follows.refl s).endContext.settle.keepsTally

theorem keepsTally_holdExpired {c : Nat} : KeepsTally w s (holdExpired c s) := by
  unfold holdExpired
  split
  · exact .refl s
  · split
    · exact .settle ((Follows.refl (s.reach _)).endContext.keepsTally.from rfl)
    · exact .refl s

/-! ### Filings -/

theorem keepsTally_abortFiling {r g : Nat} : KeepsTally w s (abortFiling r g s) := by
  unfold abortFiling
  split
  · exact .of_eq rfl
  · split
    · exact .of_eq rfl
    · exact (Follows.refl _).markerIfNeeded.keepsTally.from discardFiling_tal

theorem keepsTally_gatherExpired {f : Nat} : KeepsTally w s (gatherExpired f s) := by
  unfold gatherExpired
  split
  · exact .of_eq discardFiling_tal
  · exact .refl s

/-! ### Service states -/

theorem keepsTally_beginDrain {b : Bool} : KeepsTally w s (beginDrain b s) := by
  unfold beginDrain
  have h : KeepsTally w s (changeService .draining .setState { s with mu.drain := some .plain }) := .of_eq changeService_tal
  split
  · exact h.trans (Follows.refl _).abortWork.keepsTally
  · exact h

theorem keepsTally_enterOpening : KeepsTally w s (enterOpening s) := by
  unfold enterOpening
  extract_lets opened m1 l1 r1 s1 s2
  have entered : KeepsTally w s s1 := .of_eq changeService_tal
  exact entered.trans (Follows.refl s1).beginIdentify.keepsTally

theorem keepsTally_enterStandby {c : ChangeCause} : KeepsTally w s (enterStandby c s) :=
  (Follows.refl _).standbyEntry.keepsTally.from changeService_tal

theorem keepsTally_setStateTaken {r g n : Nat} {b : Bool} : KeepsTally w s (setStateTaken r g n b s) := by
  unfold setStateTaken
  split
  · exact .answerLater fun _ => keepsTally_enterOpening
  · exact .answer (.of_eq changeService_tal)
  · exact .answerLater fun _ => keepsTally_beginDrain
  · split
    · exact .answerLater fun _ => (Follows.refl _).abortWork.keepsTally.from changeService_tal
    · exact .published rfl
  · exact (KeepsTally.answer keepsTally_enterStandby).settle
  iterate 3 exact .published rfl

theorem keepsTally_restartWork : KeepsTally w s (restartWork s) := by
  unfold restartWork
  extract_lets s1 m1 s2 s3
  have stopped : KeepsTally w s s1 := (Follows.refl s).stopRecovery.keepsTally
  have draining : KeepsTally w s s2 := stopped.trans (.of_eq changeService_tal)
  exact draining.trans (Follows.fold _ (fun v _ => (Follows.refl v).restartQueue) _
    (Follows.refl s2).endAllContexts.restartLibrary.stopFiling).keepsTally

/-! ### Management -/

theorem keepsTally_accounts {l : List Account} : KeepsTally [.standings] s { s with tal.accounts := l } := by
  intro k hk
  cases k with
  | standings => exact absurd (List.mem_singleton.2 rfl) hk
  | _ => rfl

theorem keepsTally_storeAccount {n c l : Nat} {a : AccountState} {b : Bool} :
    KeepsTally [.standings] s (storeAccount n c l a b s) := by
  unfold storeAccount
  split <;> exact keepsTally_accounts

theorem keepsTally_schedule {l : List Slot} {g : Nat} :
    KeepsTally [.generation] s { s with tal.slots := l, tal.nextGeneration := g } := by
  intro k hk
  cases k with
  | generation => exact absurd (List.mem_singleton.2 rfl) hk
  | feeDay => rfl
  | standings => exact (Basic.refl s).accounts

theorem keepsTally_storeSchedule {e : Nat} {fs : List ClassFigures} : KeepsTally [.generation] s (storeSchedule e fs s) := by
  unfold storeSchedule
  split
  · exact .refl s
  · dsimp only
    split
    · exact keepsTally_schedule.trans (.of_eq (raise_tal _ _))
    · exact keepsTally_schedule

/-- A change of day leaves the generation to come (R148, R149). -/
theorem keepsTally_turnDay {d : Nat} : KeepsTally [.feeDay, .standings] s (turnDay d s) := by
  intro k hk
  cases k with
  | feeDay | standings => exact absurd (by simp) hk
  | generation =>
    unfold turnDay
    dsimp only
    split
    · exact (congrArg Tal.nextGeneration (switchSchedule_ctx_tal _).2).trans rfl
    · rfl

theorem keepsTally_takeOffline {d : Nat} : KeepsTally w s (takeOffline d s) := by
  have home : KeepsTally w s (newUnmount d true (s.modDrive d fun x => { x with offlinePending := true })) :=
    (Follows.refl _).newUnmount.keepsTally.from rfl
  have atOnce : KeepsTally w s (haltIfOpenIn d (s.modDrive d Drive.offlineNow)) :=
    (Follows.refl _).haltIfOpenIn.keepsTally.from rfl
  unfold takeOffline
  dsimp only
  split
  · exact atOnce
  · exact home
  · exact home
  · split
    · exact home
    · exact atOnce
  iterate 5 exact .refl s

theorem keepsTally_clearFaultWork : KeepsTally w s (clearFaultWork s) := by
  unfold clearFaultWork
  split
  · exact (Follows.refl s).startHome.keepsTally.trans (.of_eq rfl)
  · exact .of_eq rfl

/-! ### Drives -/

theorem keepsTally_driveWaitingToSend {d : Fin 4} (h : execDriveWaitingToSend d s = .next t) : KeepsTally w s t := by
  unfold execDriveWaitingToSend at h
  split at h
  · exact .of_next h (.of_eq rfl)
  · exact .of_next h (Follows.refl s).offerTaken.keepsTally
  · exact .of_next h (Follows.refl s).channelFault.settle.keepsTally

theorem keepsTally_dataBlock {d : Fin 4} {b : Sector} (h : execDataBlock d b s = .next t) : KeepsTally w s t := by
  unfold execDataBlock at h
  split at h
  · exact .of_next h (.of_eq rfl)
  · exact .of_next h (Follows.refl s).blockTaken.publish.keepsTally
  · exact .of_next h (Follows.refl s).channelFault.settle.keepsTally

theorem keepsTally_result {d : Fin 4} {res : DriveResult} (h : execResult d res s = .next t) : KeepsTally w s t := by
  unfold execResult at h
  split at h
  · exact .of_next h (.of_eq rfl)
  · exact .of_next h (Follows.refl s).resultTaken.settle.keepsTally
  · exact .of_next h (Follows.refl s).channelFault.settle.keepsTally

theorem keepsTally_channelStall {d : Fin 4} (h : execChannelStall d s = .next t) : KeepsTally w s t := by
  unfold execChannelStall at h
  split at h
  · exact .of_next h (.refl s)
  · exact .of_next h (.settle ((Follows.refl (s.reach _)).channelFault.keepsTally.from rfl))

theorem keepsTally_idleTimerExpiry {d : Fin 4} (h : execIdleTimerExpiry d s = .next t) : KeepsTally w s t := by
  unfold execIdleTimerExpiry at h
  split at h
  · exact .of_next h (.refl s)
  · exact .of_next h (.settle ((Follows.refl _).newUnmount.keepsTally.from rfl))

/-! ### Picker and quiet holds -/

theorem keepsTally_insertedInto {m : Motion} : KeepsTally w s (insertedInto m s) := by
  unfold insertedInto
  split
  · extract_lets s1 s2 s3
    have placed : KeepsTally w s s3 := .of_eq (handOrder_tal.trans (scheduleHold_tal.trans rfl))
    split
    · exact placed
    · exact placed.trans (Follows.refl s3).dismissIncoming.haltIfOpenIn.keepsTally
  · exact .refl s

theorem keepsTally_insertedThen {m : Motion} : KeepsTally w s (insertedThen m s) := by
  unfold insertedThen
  split
  · exact keepsTally_insertedInto
  · exact keepsTally_insertedInto.settle

theorem keepsTally_ejectedFrom {m : Motion} : KeepsTally w s (ejectedFrom m s) := by
  unfold ejectedFrom
  split
  · exact .of_eq (scheduleHold_tal.trans rfl)
  · exact .refl s

theorem keepsTally_placedThen {m : Motion} : KeepsTally w s (placedThen m s) := by
  unfold placedThen
  split
  · exact (Follows.refl s).placedHome.settle.keepsTally
  · exact (Follows.refl s).placedHome.keepsTally

theorem keepsTally_pickerFault : KeepsTally w s (if s.lib.picker.state = .fault then s else settle (pickerReportsFault s)) := by
  split
  · exact .refl s
  · exact (Follows.refl s).pickerReportsFault.settle.keepsTally

theorem keepsTally_endHold : KeepsTally w s (endHold s) := by
  unfold endHold
  dsimp only
  split
  · exact .of_eq rfl
  · split
    · exact (Follows.refl _).queuePass.keepsTally.from rfl
    · exact .of_eq rfl

theorem keepsTally_holdBegins : KeepsTally w s (holdBegins s) := by
  unfold holdBegins
  split
  · exact .refl s
  · split
    · exact .refl s
    · exact .of_eq beginHold_tal

theorem keepsTally_holdEnds : KeepsTally w s (holdEnds s) := by
  unfold holdEnds
  split
  · exact .refl s
  · split
    · exact keepsTally_endHold.from rfl
    · exact .refl s

/-! ### Every command -/

/-- Every command but POWER_ON_RESET keeps the parts of the tally unit that are not its own. -/
theorem exec_keepsTally {i : Instr} (h : exec i s = .next t) (hp : i ≠ .powerOnReset) : KeepsTally (writtenParts i) s t := by
  cases i with
  | powerOnReset => exact absurd rfl hp
  | memoryCheckDone f => exact keepsTally_memoryCheckDone h
  | frameAdmission bs => exact .of_next h (.of_eq admitFrame_tal)
  | linkDown => exact .of_next h (.of_eq lineDown_tal)
  | linkUp => exact .of_next h keepsTally_lineUp
  | frameSent => exact .of_next h keepsTally_frameFinished
  | fetch r g b => exact .of_next h (.handOn fun _ => keepsTally_fetchTaken)
  | hold r g => exact .of_next h (.handOn fun _ => keepsTally_holdTaken)
  | resume r g => exact .of_next h (.handOn fun _ => keepsTally_resumeTaken)
  | cancel r g => exact .of_next h (.handOn fun _ => keepsTally_cancelTaken)
  | fileOpen r g => exact .of_next h (.handOn fun _ => .published openFiling_tal)
  | page r g b => exact .of_next h (.handOn fun _ => .published filePage_tal)
  | fileEnd r g n => exact .of_next h (.handOn fun _ => .settled endFiling_tal)
  | fileAbort r g => exact .of_next h (.handOn fun _ => keepsTally_abortFiling.settle)
  | bind r g => exact .of_next h (.managed fun _ => .answer (.of_eq rfl))
  | setState r g n b => exact .of_next h (.managed fun _ => keepsTally_setStateTaken)
  | setParams r g v => exact .of_next h (.managed fun _ => .settle (.answer (.of_eq (reprioritise_tal _))))
  | loadRequester r g n x p l => exact .of_next h (.managed fun _ => .answer (.of_eq rfl))
  | dropRequester r g n => exact .of_next h (.managed fun _ => .answer (.of_eq rfl))
  | loadSide r g l => exact .of_next h (.managed fun _ => .answer (.of_eq storeSide_tal))
  | loadRange r g a b n o => exact .of_next h (.managed fun _ => .answer (.of_eq rfl))
  | clearRanges r g => exact .of_next h (.managed fun _ => .answer (.of_eq rfl))
  | setNextInstrument r g v => exact .of_next h (.managed fun _ => .answer (.of_eq rfl))
  | loadAccount r g n c l x b => exact .of_next h (.managed fun _ => .answer keepsTally_storeAccount)
  | setAccountState r g n x => exact .of_next h (.managed fun _ => .answer keepsTally_accounts)
  | closeAccount r g n => exact .of_next h (.managed fun _ => .answer keepsTally_accounts)
  | loadSchedule r g e fs => exact .of_next h (.managed fun _ => .answer keepsTally_storeSchedule)
  | dayClose r g d => exact .of_next h (.managed fun _ => .answer keepsTally_turnDay)
  | driveOffline r g d => exact .of_next h (.managed fun _ => (KeepsTally.answer keepsTally_takeOffline).settle)
  | driveRetry r g d => exact .of_next h (.managed fun _ => .answerLater fun v => (Follows.refl v).startProbe.keepsTally)
  | clearPicker r g => exact .of_next h (.managed fun _ => .answerLater fun v => (Follows.refl v).startHome.keepsTally)
  | filingResume r g =>
    exact .of_next h (.managed fun v => (KeepsTally.answer (Follows.refl v).retestHalt.runReadiness.keepsTally).settle)
  | restart r g => exact .of_next h (.managed fun _ => .answerLater fun _ => keepsTally_restartWork)
  | clearFault r g => exact .of_next h (.managed fun _ => .answerLater fun _ => keepsTally_clearFaultWork)
  | queryStatus r g => exact .of_next h (.managed fun _ => .query)
  | queryAccount r g n => exact .of_next h (.managed fun _ => .query)
  | querySide r g n => exact .of_next h (.managed fun _ => .query)
  | queryDrive r g d => exact .of_next h (.managed fun _ => .query)
  | queryContexts r g => exact .of_next h (.managed fun _ => .query)
  | queryFilings r g => exact .of_next h (.managed fun _ => .query)
  | querySchedules r g => exact .of_next h (.managed fun _ => .query)
  | driveWaitingToSend d => exact keepsTally_driveWaitingToSend h
  | dataBlock d b => exact keepsTally_dataBlock h
  | result d res => exact keepsTally_result h
  | channelStall d => exact keepsTally_channelStall h
  | takenFromSlot => exact .of_next h (.pickerEvent fun _ v => (Follows.refl v).taken.keepsTally)
  | emptySlot => exact .of_next h (.pickerEvent fun _ v => (Follows.refl v).slotEmpty.settle.keepsTally)
  | inserted => exact .of_next h (.pickerEvent fun _ _ => keepsTally_insertedThen)
  | ejected => exact .of_next h (.pickerEvent fun _ _ => keepsTally_ejectedFrom)
  | placed => exact .of_next h (.pickerEvent fun _ _ => keepsTally_placedThen)
  | motionDone => exact .of_next h (.pickerEvent fun _ v => (Follows.refl v).motionDone.settle.keepsTally)
  | occupancy l => exact .of_next h (.pickerEvent fun _ _ => .of_eq rfl)
  | pickerFault => exact .of_next h keepsTally_pickerFault
  | holdBegun => exact .of_next h keepsTally_holdBegins.settle
  | holdEnded => exact .of_next h keepsTally_holdEnds.settle
  | idleTimerExpiry d => exact keepsTally_idleTimerExpiry h
  | holdTimerExpiry c => exact .of_next h keepsTally_holdExpired
  | gatherIdleExpiry f => exact .of_next h keepsTally_gatherExpired.settle

/-! ### The commands that write a part -/

/-- The commands that may write a part of the tally unit, as the statement names them. -/
def TallyPart.writer (i : Instr) : TallyPart → Prop
  | .feeDay => ∃ r g d, i = .dayClose r g d
  | .generation => ∃ r g e fs, i = .loadSchedule r g e fs
  | .standings => (∃ r g n c l x b, i = .loadAccount r g n c l x b) ∨ (∃ r g n x, i = .setAccountState r g n x)
      ∨ (∃ r g n, i = .closeAccount r g n) ∨ ∃ r g d, i = .dayClose r g d

theorem partWriter_of_written {i : Instr} {k : TallyPart} (h : k ∈ writtenParts i) : k.writer i := by
  unfold writtenParts at h
  split at h
  case h_6 => cases h
  all_goals
    simp only [List.mem_cons, List.not_mem_nil, or_false] at h
    rcases h with rfl | rfl <;> simp [TallyPart.writer]

/-- Settles O8: a part that a command does not keep is one that it writes. -/
theorem accountStandingWrittenOnlyByItsRequests : Obligations.AccountStandingWrittenOnlyByItsRequests := by
  intro i s t h hp
  have kept_or (k : TallyPart) : k.kept s.tal t.tal ∨ k.writer i := by
    by_cases hk : k ∈ writtenParts i
    · exact .inr (partWriter_of_written hk)
    · exact .inl (exec_keepsTally h hp k hk)
  refine ⟨kept_or .feeDay, kept_or .generation, (kept_or .standings).imp_left fun accounts => accounts.imp fun a b g => ?_⟩
  exact ⟨g.number, g.cls, g.limit, g.prevPages, g.prevCents, g.prevDeeds, g.stopped⟩

end Sys2Proof.Machine
end

section
/-! SUPPORT. The open test in LOAD_ACCOUNT and SET_ACCOUNT_STATE (R139 to R141), with its settling. -/

namespace Sys2Proof.Machine

variable {s : State} {r t n cls limit code : Nat} {reset : Bool} {a : Account}

/-- The account state that a code asks for, OPEN for a code that names none. -/
def askedState (code : Nat) : AccountState := (accountStateOfCode code).getD .opened

/-- The open test by the code of the state asked (R140). -/
theorem openTest_askedState (h : code ≤ 1) (a : Account) : openTest (askedState code) a =
    if code = 0 ∧ (a.limit = 0 ∨ a.charged < a.limit) ∧ a.charged < 999999999999 then .opened else .stopped := by
  obtain rfl | rfl : code = 0 ∨ code = 1 := by omega
  · exact if_congr (by simp [Config.chargedCeiling]) rfl rfl
  · exact (if_neg (by simp)).symm

/-- The record as the open test leaves it (R140). -/
def Account.tested (code : Nat) (a : Account) : Account := { a with state := openTest (askedState code) a }

/-- The record of a number, after a change of it that keeps the number. -/
theorem account_modAccount {f : Account → Account} (hf : ∀ x, (f x).number = x.number) :
    (s.modAccount n f).account n = (s.account n).map f := by
  have hnumber : ((fun x : Account => x.number == n) ∘ fun x => if x.number = n then f x else x) = fun x => x.number == n := by
    funext x
    by_cases hx : x.number = n <;> simp [hx, hf]
  rw [State.account, State.modAccount, List.find?_map, hnumber]
  refine Option.map_congr fun x hx => if_pos ?_
  simpa using List.find?_some hx

theorem accountStateRefusal_found (hn : accountNumbered n) (ha : s.account n = some a) (h : code ≤ 1) :
    s.accountStateRefusal n (accountStateOfCode code) = none := by
  have hstate : accountStateOfCode code ≠ none := mt accountStateOfCode_none.1 (by omega)
  rw [State.accountStateRefusal, if_neg (accountNumbered_iff.1 hn), ha, if_neg (by simp), if_neg hstate]

theorem accountRefusal_found (h : accountValues n cls limit code) (ha : s.account n = some a) :
    s.accountRefusal n cls limit (accountStateOfCode code) = none := by
  rw [State.accountRefusal, if_neg (accountValues_iff.1 h), ha]
  exact if_neg (by simp)

theorem setAccountStateTaken_eq : setAccountStateTaken r t n code s =
    answer r t 11 (s.accountStateRefusal n (accountStateOfCode code)) (fun s => s.modAccount n (Account.tested code))
      (accountStateReply n) s := rfl

theorem loadAccountTaken_eq : loadAccountTaken r t n cls limit code reset s =
    answer r t 10 (s.accountRefusal n cls limit (accountStateOfCode code))
      (storeAccount n cls limit (askedState code) reset) (fun u => accountReply n u ++ flagByte (s.account n).isNone) s := rfl

/-- A SET_ACCOUNT_STATE that passes its checks: the open test decides, and the reply carries what it gave (R140, R141). -/
theorem setAccountStateTaken_found (hn : accountNumbered n) (ha : s.account n = some a) (h : code ≤ 1) :
    (s.modAccount n (Account.tested code)).account n = some (a.tested code)
      ∧ setAccountStateTaken r t n code s = publish (accept r t 11
        (number 1 (a.tested code).state.code ++ number 6 a.charged ++ number 6 a.limit)
        (s.modAccount n (Account.tested code))) := by
  have hfound : (s.modAccount n (Account.tested code)).account n = some (a.tested code) := by
    rw [account_modAccount (f := Account.tested code) (fun _ => rfl), ha, Option.map_some]
  refine ⟨hfound, ?_⟩
  rw [setAccountStateTaken_eq, accountStateRefusal_found hn ha h, answer_accepted, accountStateReply, hfound]
  rfl

/-- A LOAD_ACCOUNT of a record that is there and that passes its checks: the record takes the values, the open test decides,
and the reply carries the record (R139, R140). -/
theorem loadAccountTaken_found (h : accountValues n cls limit code) (ha : s.account n = some a) :
    (s.modAccount n (Account.load cls limit (askedState code) reset)).account n
        = some (a.load cls limit (askedState code) reset)
      ∧ loadAccountTaken r t n cls limit code reset s = publish (accept r t 10
        ((a.load cls limit (askedState code) reset).bytes ++ flagByte false)
        (s.modAccount n (Account.load cls limit (askedState code) reset))) := by
  have hfound : (s.modAccount n (Account.load cls limit (askedState code) reset)).account n
      = some (a.load cls limit (askedState code) reset) := by
    rw [account_modAccount (f := Account.load cls limit (askedState code) reset) (fun _ => rfl), ha, Option.map_some]
  have hstored : storeAccount n cls limit (askedState code) reset s
      = s.modAccount n (Account.load cls limit (askedState code) reset) := by simp only [storeAccount, ha]
  refine ⟨hfound, ?_⟩
  rw [loadAccountTaken_eq, accountRefusal_found h ha, answer_accepted, hstored, accountReply_found hfound, ha]
  rfl

/-- Settles O35, request by request: each leaves the record as the open test on its figures gives it. -/
theorem openTestDecides : Obligations.OpenTestDecides := by
  intro s r t n a code h hfound hlow hhigh hcode test
  have htest : test = openTest (askedState code) := funext fun x => (openTest_askedState hcode x).symm
  clear_value test
  subst htest
  refine ⟨?set, ?load⟩
  case set =>
    intro ha u
    obtain ⟨hrecord, htaken⟩ := setAccountStateTaken_found (r := r) (t := t) ⟨hlow, hhigh⟩ hfound hcode
    exact ⟨hrecord, rfl, exec_managed rfl h ha (by decide) htaken⟩
  case load =>
    intro ha cls limit reset hcls hlimit loaded after u
    obtain ⟨hrecord, htaken⟩ := loadAccountTaken_found (r := r) (t := t) (reset := reset)
      ⟨⟨hlow, hhigh⟩, hcls, hlimit, hcode⟩ hfound
    exact ⟨hrecord, rfl, exec_managed rfl h ha (by decide) htaken⟩

end Sys2Proof.Machine
end

section
/-! SUPPORT. LOAD_SCHEDULE (R145, R147) and DAY_CLOSE (R148, R149): the slot and the generation a schedule takes, the generations
passed over, the turn of the fee day and the switch of schedules, with their settling. -/

namespace Sys2Proof.Machine

variable {s : State} {r t day e j g n : Nat} {fs : List ClassFigures} {held : List Nat} {x : Slot}

/-! ### The generation to come -/

/-- The generation behind another, 1 behind 65,535 (R145). -/
def generationBehind (g : Nat) : Nat := if g = 65535 then 1 else g + 1

/-- The search takes the first generation behind `g` that is not held, unless its bound is spent (R145). -/
theorem generationAfter_iterate (held : List Nat) (n g : Nat) :
    ∃ m ≤ n, generationAfter held n g = generationBehind^[m + 1] g ∧ (∀ k < m, generationBehind^[k + 1] g ∈ held)
      ∧ (m < n → generationBehind^[m + 1] g ∉ held) := by
  induction n generalizing g with
  | zero => exact ⟨0, le_refl 0, rfl, fun k hk => absurd hk k.not_lt_zero, fun h => absurd h (lt_irrefl 0)⟩
  | succ n ih =>
    by_cases hheld : generationBehind g ∈ held
    · obtain ⟨m, hm, hnext, hpassed, hfree⟩ := ih (generationBehind g)
      refine ⟨m + 1, Nat.succ_le_succ hm, (if_pos hheld).trans hnext, fun k hk => ?_, fun h =>
        hfree (Nat.lt_of_succ_lt_succ h)⟩
      cases k with
      | zero => exact hheld
      | succ k => exact hpassed k (Nat.lt_of_succ_lt_succ hk)
    · exact ⟨0, Nat.zero_le _, if_neg hheld, fun k hk => absurd hk k.not_lt_zero, fun _ => hheld⟩

theorem iterate_generationBehind (h1 : 1 ≤ g) (h2 : g ≤ 65535) (k : Nat) :
    generationBehind^[k] g = (g - 1 + k) % 65535 + 1 := by
  induction k with
  | zero =>
    show g = (g - 1 + 0) % 65535 + 1
    omega
  | succ k ih =>
    rw [Function.iterate_succ_apply', ih, generationBehind]
    split <;> omega

/-- Generations come again after 65,535 steps alone. -/
theorem generations_nodup (h1 : 1 ≤ g) (h2 : g ≤ 65535) (hn : n ≤ 65535) :
    ((List.range n).map fun k => generationBehind^[k] g).Nodup := by
  refine List.Nodup.map_on (fun i hi k hk he => ?_) List.nodup_range
  rw [iterate_generationBehind h1 h2, iterate_generationBehind h1 h2] at he
  rw [List.mem_range] at hi hk
  omega

/-- With `g` held and at most `n` generations held in all, the search finds one that is free: `g` and the `n` behind it are
too many to be held. -/
theorem generationAfter_free (h1 : 1 ≤ g) (h2 : g ≤ 65535) (hn : n < 65535) (hg : g ∈ held) (hl : held.length ≤ n) :
    ∃ m, generationAfter held n g = generationBehind^[m + 1] g ∧ generationAfter held n g ∉ held
      ∧ ∀ k < m, generationBehind^[k + 1] g ∈ held := by
  obtain ⟨m, hm, hnext, hpassed, hfree⟩ := generationAfter_iterate held n g
  have hbound : m < n := by
    refine lt_of_le_of_ne hm fun he => ?_
    have hall : ((List.range (n + 1)).map fun k => generationBehind^[k] g) ⊆ held := by
      intro v hv
      obtain ⟨k, hk, rfl⟩ := List.mem_map.1 hv
      cases k with
      | zero => exact hg
      | succ k => exact hpassed k (by rw [List.mem_range] at hk; omega)
    have hlength := (List.subperm_of_subset (generations_nodup h1 h2 hn) hall).length_le
    rw [List.length_map, List.length_range] at hlength
    omega
  exact ⟨m, hnext, hnext ▸ hfree hbound, hpassed⟩

/-! ### The slots -/

/-- The generations that slots hold (R145). -/
def heldGenerations (l : List Slot) : List Nat := (l.filter (·.role != .empty)).map (·.generation)

theorem heldGenerations_length (l : List Slot) : (heldGenerations l).length ≤ l.length := by
  rw [heldGenerations, List.length_map]
  exact List.length_filter_le _ _

/-- The generations held once a slot is written: its own, and those of the others. -/
theorem mem_heldGenerations_set {l : List Slot} (hj : j < l.length) (hx : x.role ≠ .empty) :
    g ∈ heldGenerations (l.set j x) ↔ g = x.generation ∨ ∃ i < l.length, i ≠ j
      ∧ (l.getD i Slot.reset).role ≠ .empty ∧ (l.getD i Slot.reset).generation = g := by
  have hget {i : Nat} (hi : i < l.length) : l.getD i Slot.reset = l[i] := List.getD_eq_getElem l Slot.reset hi
  simp only [heldGenerations, List.mem_map, List.mem_filter, bne_iff_ne]
  simp only [List.mem_iff_getElem?, List.getElem?_set, hj, if_true]
  constructor
  · rintro ⟨y, ⟨⟨i, hi⟩, hrole⟩, rfl⟩
    split at hi
    · exact .inl (by rw [Option.some.inj hi])
    · next hji =>
      obtain ⟨hlt, rfl⟩ := List.getElem?_eq_some_iff.1 hi
      exact .inr ⟨i, hlt, Ne.symm hji, by rwa [hget hlt], by rw [hget hlt]⟩
  · rintro (rfl | ⟨i, hi, hij, hrole, rfl⟩)
    · exact ⟨x, ⟨⟨j, if_pos rfl⟩, hx⟩, rfl⟩
    · rw [hget hi] at hrole ⊢
      exact ⟨l[i], ⟨⟨i, by rw [if_neg (Ne.symm hij), List.getElem?_eq_getElem hi]⟩, hrole⟩, rfl⟩

theorem findRole_none {l : List Slot} {role : Role} (h : ∀ x ∈ l, x.role ≠ role) :
    l.findIdx? (·.role == role) = none :=
  List.findIdx?_eq_none_iff.2 fun x hx => by simpa using h x hx

/-- The first slot of a role is the one found. -/
theorem findRole_first {l : List Slot} {role : Role} (hj : j < l.length) (h : (l.getD j Slot.reset).role = role)
    (hfirst : ∀ i < j, (l.getD i Slot.reset).role ≠ role) : l.findIdx? (·.role == role) = some j := by
  rw [List.getD_eq_getElem l Slot.reset hj] at h
  refine List.findIdx?_eq_some_iff_getElem.2 ⟨hj, beq_iff_eq.2 h, fun i hi => ?_⟩
  rw [← List.getD_eq_getElem l Slot.reset (hi.trans hj), beq_iff_eq]
  exact hfirst i hi

theorem scheduleSlot_waiting (h : s.tal.slots.findIdx? (·.role == .waiting) = some j) : s.scheduleSlot = some j := by
  rw [State.scheduleSlot, h]

theorem scheduleSlot_noWaiting (h : s.tal.slots.findIdx? (·.role == .waiting) = none) :
    s.scheduleSlot = s.tal.slots.findIdx? (·.role == .empty) := by
  rw [State.scheduleSlot, h]

theorem activeSlot_isNone (s : State) : s.activeSlot.isNone = s.tal.slots.all (·.role != .active) := by
  rw [Bool.eq_iff_iff, Option.isNone_iff_eq_none, State.activeSlot, List.find?_eq_none, List.all_eq_true]
  simp only [beq_iff_eq, bne_iff_ne]

/-! ### LOAD_SCHEDULE -/

/-- The values of a LOAD_SCHEDULE are in range (R147). -/
def scheduleValues (e : Nat) (fs : List ClassFigures) : Prop := 1 ≤ e ∧ e ≤ 65535 ∧ ∀ f ∈ fs, figuresGood f = true

theorem scheduleValues_iff : scheduleValues e fs ↔ ¬(e = 0 ∨ 65535 < e ∨ fs.all figuresGood = false) := by
  rw [scheduleValues, not_or, not_or, Nat.not_lt, Bool.not_eq_false, List.all_eq_true, Nat.one_le_iff_ne_zero]

theorem scheduleRefusal_values (h : ¬scheduleValues e fs) : s.scheduleRefusal e fs = some .badValue :=
  if_pos (not_not.1 (mt scheduleValues_iff.2 h))

theorem scheduleRefusal_slot (h : scheduleValues e fs) :
    s.scheduleRefusal e fs = if s.scheduleSlot.isNone then some .noSlot else none := if_neg (scheduleValues_iff.1 h)

theorem loadScheduleTaken_refused {reason : Reason} (h : s.scheduleRefusal e fs = some reason) :
    loadScheduleTaken r t e fs s = publish (reject r t 13 reason s) := by
  rw [loadScheduleTaken, h, answer_refused]

/-- The role a schedule takes: ACTIVE when no slot is, PENDING otherwise (R147). -/
def State.roleTaken (s : State) : Role := if s.activeSlot.isNone then .active else .waiting

theorem roleTaken_ne_empty (s : State) : s.roleTaken ≠ .empty := by
  unfold State.roleTaken
  split <;> simp

/-- The slot that a schedule fills (R145, R147). -/
def State.slotFilled (s : State) (e : Nat) (fs : List ClassFigures) : Slot :=
  { role := s.roleTaken, generation := s.tal.nextGeneration, effective := e, refs := 0, figures := fs }

/-- The state with a schedule in slot `j` and the next generation `g` (R147). -/
def scheduleStored (e : Nat) (fs : List ClassFigures) (j g : Nat) (s : State) : State :=
  { s with tal.slots := s.tal.slots.set j (s.slotFilled e fs), tal.nextGeneration := g }

theorem storeSchedule_found (h : s.scheduleSlot = some j)
    (hg : generationAfter (heldGenerations (s.tal.slots.set j (s.slotFilled e fs))) 3 s.tal.nextGeneration = g) :
    storeSchedule e fs s = if s.roleTaken = .active
      then raise_ (.scheduleActivated s.tal.nextGeneration s.tal.feeDay) (scheduleStored e fs j g s)
      else scheduleStored e fs j g s := by
  subst hg
  unfold storeSchedule
  rw [h]
  cases hactive : s.activeSlot.isNone <;>
    simp [scheduleStored, State.slotFilled, State.roleTaken, heldGenerations, hactive]

/-- A LOAD_SCHEDULE that passes its checks (R147). -/
theorem loadScheduleTaken_found (hv : scheduleValues e fs) (h : s.scheduleSlot = some j) :
    loadScheduleTaken r t e fs s = publish (accept r t 13
      (number 1 j ++ number 2 s.tal.nextGeneration ++ number 1 s.roleTaken.code) (storeSchedule e fs s)) := by
  rw [loadScheduleTaken, scheduleRefusal_slot hv, h]
  rfl

/-- Settles O37: the checks in their order, then the slot by its role and the generation to come by those held. -/
theorem loadScheduleTakesSlot : Obligations.LoadScheduleTakesSlot := by
  intro s r t e fs h ha good i
  have exec_load {v : State} (hv : loadScheduleTaken r t e fs s = v) : exec (.loadSchedule r t e fs) s = .next v :=
    exec_managed rfl h ha (by decide) hv
  refine ⟨fun hbad => exec_load (loadScheduleTaken_refused (scheduleRefusal_values hbad)), fun hgood hnone => ?full, ?taken⟩
  case full =>
    have hslot : s.scheduleSlot = none := by
      rw [scheduleSlot_noWaiting (findRole_none fun x hx => (hnone x hx).1)]
      exact findRole_none fun x hx => (hnone x hx).2
    refine exec_load (loadScheduleTaken_refused ((scheduleRefusal_slot hgood).trans ?_))
    rw [hslot]
    rfl
  case taken =>
    intro j hj hgood hlen h1 h2 hslot role behind held
    have hrole : role = s.roleTaken := by rw [State.roleTaken, activeSlot_isNone]
    have hfound : s.scheduleSlot = some j := by
      rcases hslot with ⟨hwaiting, hfirst⟩ | ⟨hno, hempty, hfirst⟩
      · exact scheduleSlot_waiting (findRole_first (hlen ▸ hj) hwaiting hfirst)
      · exact (scheduleSlot_noWaiting (findRole_none hno)).trans (findRole_first (hlen ▸ hj) hempty hfirst)
    have hheld (g : Nat) : g ∈ heldGenerations (s.tal.slots.set j (s.slotFilled e fs)) ↔ held g := by
      have hmem := mem_heldGenerations_set (g := g) (x := s.slotFilled e fs) (hlen ▸ hj) (roleTaken_ne_empty s)
      rwa [hlen] at hmem
    have hcount : (heldGenerations (s.tal.slots.set j (s.slotFilled e fs))).length ≤ 3 :=
      (heldGenerations_length _).trans (by rw [List.length_set, hlen])
    obtain ⟨m, hnext, hfree, hpassed⟩ :=
      generationAfter_free h1 h2 (by decide) ((hheld s.tal.nextGeneration).2 (.inl rfl)) hcount
    refine ⟨m, _, hnext, mt (hheld _).2 hfree, fun k hk => (hheld _).1 (hpassed k hk), fun u hu => exec_load ?_⟩
    clear_value role
    subst hrole hu
    rw [loadScheduleTaken_found hgood hfound, storeSchedule_found hfound rfl]
    rfl

/-! ### The day close -/

/-- The state on the new fee day, before a schedule switch (R148 steps 1 and 2). -/
def dayTurned (day : Nat) (s : State) : State :=
  { s with tal.accounts := s.tal.accounts.map closeDay, tal.feeDay := day }

/-- Behind the switch the schedule that is ACTIVE is announced (R149). -/
theorem switchSchedule_announced (hx : (s.tal.slots.map Slot.switched).find? (·.role == .active) = some x) :
    switchSchedule s = raise_ (.scheduleActivated x.generation s.tal.feeDay)
      { s with tal.slots := s.tal.slots.map Slot.switched } := by
  simp only [switchSchedule, State.activeSlot, hx]

theorem turnDay_noSwitch (h : s.switchDue day = false) : turnDay day s = dayTurned day s := by
  rw [turnDay, h]
  rfl

theorem turnDay_switch (h : s.switchDue day = true)
    (hx : (s.tal.slots.map Slot.switched).find? (·.role == .active) = some x) :
    turnDay day s = raise_ (.scheduleActivated x.generation day)
      { dayTurned day s with tal.slots := s.tal.slots.map Slot.switched } := by
  have hswitch : turnDay day s = switchSchedule (dayTurned day s) := if_pos h
  exact hswitch.trans (switchSchedule_announced (s := dayTurned day s) hx)

theorem dayCloseTaken_refused (h : day = 0 ∨ 65535 < day ∨ day ≤ s.tal.feeDay) :
    dayCloseTaken r t day s = publish (reject r t 14 .badValue s) := by
  rw [dayCloseTaken, State.dayRefusal, if_pos h, answer_refused]

theorem dayCloseTaken_accepted (h1 : 1 ≤ day) (h2 : day ≤ 65535) (h3 : s.tal.feeDay < day) :
    dayCloseTaken r t day s = publish (accept r t 14 (number 2 (turnDay day s).tal.feeDay ++ flagByte (s.switchDue day)
      ++ optionalNumber 2 ((turnDay day s).activeSlot.map (·.generation))) (turnDay day s)) := by
  rw [dayCloseTaken, State.dayRefusal, if_neg (by omega), answer_accepted]

/-- Settles O38, by the day's range and by whether a schedule is due. -/
theorem dayCloseTurnsDay : Obligations.DayCloseTurnsDay := by
  intro s r t day h ha due u
  have exec_day {v : State} (hv : dayCloseTaken r t day s = v) : exec (.dayClose r t day) s = .next v :=
    exec_managed rfl h ha (by decide) hv
  refine ⟨fun hbad => exec_day (dayCloseTaken_refused hbad), fun h1 h2 h3 => ⟨fun hdue => ?early, fun hdue => ?switch⟩⟩
  case early =>
    have hnone : s.switchDue day = false := hdue
    refine exec_day ((dayCloseTaken_accepted h1 h2 h3).trans ?_)
    rw [turnDay_noSwitch hnone, hnone]
    rfl
  case switch =>
    intro slots g hg
    have hsome : s.switchDue day = true := hdue
    have hslots : slots = s.tal.slots.map Slot.switched := List.map_congr_left fun x _ => by
      obtain ⟨role, _, _, _, _⟩ := x
      cases role <;> rfl
    clear_value slots
    subst hslots
    obtain ⟨x, hx, rfl⟩ := Option.map_eq_some_iff.1 hg
    have hactive : (turnDay day s).activeSlot = some x := by
      rw [turnDay_switch hsome hx, State.activeSlot, raise_tal]
      exact hx
    refine exec_day ((dayCloseTaken_accepted h1 h2 h3).trans ?_)
    rw [hactive, hsome, turnDay_switch hsome hx, raise_tal]
    rfl

end Sys2Proof.Machine
end

section
/-! SUPPORT. The power-on values (R168), and every command keeps an orderly state orderly. -/

namespace Sys2Proof.Machine

variable {s t u : State}

/-! ### Power-on reset -/

/-- Settles O5: the reset state is the power-on state of a line that is UP, with no command waiting. -/
theorem resetIsOrderly : Obligations.ResetIsOrderly := orderly_powerOn _ _

theorem drive_powerOn {l : LinkState} {p : List Instr} {d : Nat} : (State.powerOn l p).drive d = Drive.reset := by
  simp only [State.drive, State.powerOn, List.getD_eq_getElem?_getD, List.getElem?_replicate]
  split <;> rfl

/-- Settles O4: the power-on state, read field by field. -/
theorem powerOnResetValues : Obligations.PowerOnResetValues := by
  intro s
  refine ⟨State.powerOn s.rli.link s.pending, rfl, rfl, ⟨rfl, rfl, rfl, rfl, rfl, rfl, rfl, rfl⟩,
    ⟨rfl, rfl, rfl, rfl, rfl, rfl, rfl, rfl⟩, ⟨rfl, rfl, rfl, rfl, rfl, rfl, rfl⟩, fun d _ => ?_, ⟨rfl, rfl, rfl⟩,
    fun c _ => ?_, ⟨rfl, rfl, rfl, rfl, rfl, rfl, rfl, rfl, fun f _ => ?_⟩, ⟨rfl, rfl, rfl, rfl, fun x hx => ?_⟩⟩
  · rw [drive_powerOn]
    exact ⟨rfl, rfl, rfl, rfl, rfl, rfl, rfl, rfl⟩
  · rw [context_powerOn]
    rfl
  · rw [filing_powerOn]
    rfl
  · rw [List.eq_of_mem_replicate hx]
    rfl

/-! ### Requests that keep an orderly state orderly -/

theorem State.orderly.of_next (e : (.next u : Out) = .next t) (h : u.orderly) : t.orderly := Host.Outcome.next.inj e ▸ h

/-- A management request handed on keeps an orderly state orderly when its block does. -/
theorem State.orderly.managed {i : Instr} {r g code : Nat} {act : State → State} (h : s.orderly)
    (ha : ∀ v : State, v.orderly → v.reservations < Config.controlLimit → (act v).orderly) :
    (Machine.handOn i (Machine.manage r g code act) s).orderly := h.handOn fun v hv hr => hv.manage hr (ha v hv hr)

/-- An answer at once, of an effect that follows an event. -/
theorem State.orderly.answerFollows {r g code : Nat} {refusal : Option Reason} {effect : State → State}
    {data : State → List Byte} (h : s.orderly) (hr : s.reservations < Config.controlLimit) (he : Follows s (effect s)) :
    (Machine.answer r g code refusal effect data s).orderly :=
  h.answer hr fun _ => ⟨h.follows he, reservations_follows h he⟩

/-- A query. -/
theorem State.orderly.query {r g code : Nat} {refusal : Option Reason} {data : State → List Byte} (h : s.orderly)
    (hr : s.reservations < Config.controlLimit) : (Machine.query r g code refusal data s).orderly :=
  h.answerFollows hr (.refl s)

/-! ### Contexts -/

theorem State.orderly.holdTaken {r g : Nat} (h : s.orderly) (hr : s.reservations < Config.controlLimit) :
    (holdTaken r g s).orderly := by
  unfold Machine.holdTaken
  split
  · exact (h.compose hr).publish
  · exact h.modContext fun _ => rfl

theorem State.orderly.resumeTaken {r g : Nat} (h : s.orderly) (hr : s.reservations < Config.controlLimit) :
    (resumeTaken r g s).orderly := by
  unfold Machine.resumeTaken
  split
  · exact (h.compose hr).publish
  · exact .settle (h.modContext fun _ => rfl)

theorem State.orderly.cancelTaken {r g : Nat} (h : s.orderly) (hr : s.reservations < Config.controlLimit) :
    (cancelTaken r g s).orderly := by
  unfold Machine.cancelTaken
  split
  · exact (h.compose hr).publish
  · exact h.follows (Follows.refl s).endContext.settle

theorem State.orderly.holdExpired {c : Nat} (h : s.orderly) : (holdExpired c s).orderly := by
  unfold Machine.holdExpired
  split
  · exact h
  · split
    · exact h.reach.follows (Follows.refl _).endContext.settle
    · exact h

/-! ### Service states -/

theorem stopIdle_sane {x : Drive} (h : x.sane) : x.stopIdle.sane := by
  unfold Drive.stopIdle
  split <;> exact h

theorem State.orderly.stopIdle (h : s.orderly) : ({ s with drives := s.drives.map Drive.stopIdle } : State).orderly :=
  h.follows (.mapDrives (fun _ => stopIdle_sane) (.refl s))

theorem changeService_reservations {n : Service} {c : ChangeCause} : (changeService n c s).reservations = s.reservations :=
  raise_reservations ..

theorem enterQuiescent_reservations : (enterQuiescent s).reservations = s.reservations := changeService_reservations

theorem State.orderly.enterQuiescent (h : s.orderly) : (enterQuiescent s).orderly := h.stopIdle.changeService

theorem enterStandby_reservations {c : ChangeCause} (h : s.orderly) :
    (enterStandby c s).reservations ≤ s.reservations :=
  calc (enterStandby c s).reservations
    _ ≤ (changeService .standby c { s with mu.drain := none }).reservations :=
        reservations_follows h.drainMode.changeService (Follows.refl _).standbyEntry
    _ = s.reservations := changeService_reservations

theorem State.orderly.setStateTaken {r g n : Nat} {b : Bool} (h : s.orderly) (hr : s.reservations < Config.controlLimit) :
    (setStateTaken r g n b s).orderly := by
  have refused (reason : Reason) : (Machine.publish (reject r g 2 reason s)).orderly := (h.compose hr).publish
  unfold Machine.setStateTaken
  split
  · exact h.answerLater hr fun _ hv => hv.enterOpening
  · exact h.answer hr fun _ => ⟨h.enterQuiescent, enterQuiescent_reservations.le⟩
  · exact h.answerLater hr fun _ hv => hv.beginDrain
  · split
    · exact h.answerLater hr fun _ hv => hv.changeService.abortWork
    · exact refused _
  · exact .settle (h.answer hr fun _ => ⟨h.enterStandby, enterStandby_reservations h⟩)
  · exact refused _
  · exact refused _
  · exact refused _

/-! ### Tables of the management unit -/

theorem State.orderly.setParamsTaken {r g : Nat} {v : ParamValues} (h : s.orderly)
    (hr : s.reservations < Config.controlLimit) : (setParamsTaken r g v s).orderly :=
  State.orderly.settle <| h.answer hr fun _ =>
    have taken : ({ s with mu.params := s.mu.params.taking v } : State).orderly := h.taking
    have fewer := reservations_follows taken (Follows.refl _).reprioritise
    ⟨taken.follows (Follows.refl _).reprioritise, fewer⟩

theorem accounts_room {n cls limit : Nat} {asked : Option AccountState} (h : s.accountRefusal n cls limit asked = none)
    (hn : s.account n = none) : s.tal.accounts.length < Config.accountLimit := by
  unfold State.accountRefusal at h
  split_ifs at h with _ full
  exact Nat.lt_of_not_le fun hle => full ⟨by simp [hn], hle⟩

theorem State.orderly.loadAccountTaken {r g n cls limit state : Nat} {reset : Bool} (h : s.orderly)
    (hr : s.reservations < Config.controlLimit) : (loadAccountTaken r g n cls limit state reset s).orderly := by
  unfold Machine.loadAccountTaken
  exact h.answer hr fun ha => ⟨h.storeAccount (accounts_room ha), (reservations_storeAccount ..).le⟩

theorem State.orderly.setAccountStateTaken {r g n state : Nat} (h : s.orderly)
    (hr : s.reservations < Config.controlLimit) : (setAccountStateTaken r g n state s).orderly := by
  unfold Machine.setAccountStateTaken
  exact h.answer hr fun _ => ⟨h.modAccount (fun _ => rfl) (fun _ hb => hb), le_refl _⟩

theorem State.orderly.closeAccountTaken {r g n : Nat} (h : s.orderly)
    (hr : s.reservations < Config.controlLimit) : (closeAccountTaken r g n s).orderly :=
  h.answer hr fun _ => ⟨h.dropAccount, le_refl _⟩

theorem Follows.takeOffline {d : Nat} (h : Follows s t) : Follows s (takeOffline d t) := by
  have home : Follows s (Machine.newUnmount d true (t.modDrive d fun x => { x with offlinePending := true })) :=
    .newUnmount (.modDrive (fun _ hx => hx) h)
  have atOnce : Follows s (Machine.haltIfOpenIn d (t.modDrive d Drive.offlineNow)) :=
    .haltIfOpenIn (.modDrive (fun _ hx => hx) h)
  unfold Machine.takeOffline
  dsimp only
  split
  · exact atOnce
  · exact home
  · exact home
  · split
    · exact home
    · exact atOnce
  iterate 5 exact h

theorem Follows.clearFaultWork (h : Follows s t) : Follows s (clearFaultWork t) := by
  unfold Machine.clearFaultWork
  split
  · exact h.startHome.modPicker id
  · exact h.modPicker id

/-! ### Events -/

theorem State.orderly.startUp (h : s.orderly) : (startUp s).orderly := by
  have h1 : ({ s with memory := .passed } : State).orderly := { h with }
  exact h1.follows <| Follows.fold _ (fun v _ => (Follows.refl v).startProbe) _ ((Follows.refl _).startHome.modPicker id)

theorem State.orderly.memoryCheckDone {f : Option Nat} (h : s.orderly) (e : execMemoryCheckDone f s = .next t) : t.orderly := by
  unfold execMemoryCheckDone at e
  split at e
  · exact .of_next e h
  · split at e
    · next n =>
      have h1 : ({ s with memory := .failed, mu.startFinding := .memory n } : State).orderly := { h with }
      exact .of_next e h1.changeService.settle
    · exact .of_next e h.startUp.settle

theorem State.orderly.driveWaitingToSend {d : Fin 4} (h : s.orderly) (e : execDriveWaitingToSend d s = .next t) :
    t.orderly := by
  unfold execDriveWaitingToSend at e
  split at e
  · exact .of_next e (h.follows (.modDrive (fun _ hx => hx) (.refl s)))
  · exact .of_next e (h.follows (Follows.refl s).offerTaken)
  · exact .of_next e (h.follows (Follows.refl s).channelFault.settle)

theorem State.orderly.dataBlock {d : Fin 4} {b : Sector} (h : s.orderly) (e : execDataBlock d b s = .next t) :
    t.orderly := by
  unfold execDataBlock at e
  split at e
  · exact .of_next e (h.follows (.modDrive (fun _ hx => hx) (.refl s)))
  · exact .of_next e (h.follows (Follows.refl s).blockTaken.publish)
  · exact .of_next e (h.follows (Follows.refl s).channelFault.settle)

theorem State.orderly.result {d : Fin 4} {res : DriveResult} (h : s.orderly) (e : execResult d res s = .next t) :
    t.orderly := by
  unfold execResult at e
  split at e
  · exact .of_next e (h.follows (.modDrive (fun _ hx => hx) (.refl s)))
  · exact .of_next e (h.follows (Follows.refl s).resultTaken.settle)
  · exact .of_next e (h.follows (Follows.refl s).channelFault.settle)

theorem State.orderly.channelStall {d : Fin 4} (h : s.orderly) (e : execChannelStall d s = .next t) : t.orderly := by
  unfold execChannelStall at e
  split at e
  · exact .of_next e h
  · exact .of_next e (h.reach.follows (Follows.refl _).channelFault.settle)

theorem State.orderly.idleTimerExpiry {d : Fin 4} (h : s.orderly) (e : execIdleTimerExpiry d s = .next t) :
    t.orderly := by
  unfold execIdleTimerExpiry at e
  split at e
  · exact .of_next e h
  · exact .of_next e (h.reach.follows (.settle (.newUnmount (.modDrive (fun _ hx => hx) (.refl _)))))

theorem State.orderly.pickerFault (h : s.orderly) :
    (if s.lib.picker.state = .fault then s else Machine.settle (pickerReportsFault s)).orderly := by
  split
  · exact h
  · exact h.follows (Follows.refl s).pickerReportsFault.settle

/-! ### Every command -/

/-- Every command, in every state, keeps the part orderly. -/
theorem exec_orderly {i : Instr} (h : s.orderly) (e : exec i s = .next t) : t.orderly := by
  cases i with
  | powerOnReset => exact .of_next e (orderly_powerOn _ _)
  | memoryCheckDone f => exact h.memoryCheckDone e
  | frameAdmission bs => exact .of_next e h.admitFrame
  | linkDown => exact .of_next e h.lineDown
  | linkUp => exact .of_next e h.lineUp
  | frameSent => exact .of_next e h.frameFinished
  | fetch r g b => exact .of_next e (h.handOn fun _ hv hr => hv.fetchTaken hr)
  | hold r g => exact .of_next e (h.handOn fun _ hv hr => hv.holdTaken hr)
  | resume r g => exact .of_next e (h.handOn fun _ hv hr => hv.resumeTaken hr)
  | cancel r g => exact .of_next e (h.handOn fun _ hv hr => hv.cancelTaken hr)
  | fileOpen r g => exact .of_next e (h.handOn fun _ hv hr => (hv.openFiling hr).publish)
  | page r g b => exact .of_next e (h.handOn fun _ hv hr => (hv.filePage hr).publish)
  | fileEnd r g n => exact .of_next e (h.handOn fun _ hv hr => (hv.endFiling hr).settle)
  | fileAbort r g => exact .of_next e (h.handOn fun _ hv hr => (hv.abortFiling hr).settle)
  | bind r g => exact .of_next e (h.managed fun _ hv hr => hv.answer hr fun _ => ⟨hv.manager, le_refl _⟩)
  | setState r g n b => exact .of_next e (h.managed fun _ hv hr => hv.setStateTaken hr)
  | setParams r g v => exact .of_next e (h.managed fun _ hv hr => hv.setParamsTaken hr)
  | loadRequester r g n x p l =>
    exact .of_next e (h.managed fun _ hv hr => hv.answer hr fun _ => ⟨hv.requesters, le_refl _⟩)
  | dropRequester r g n => exact .of_next e (h.managed fun _ hv hr => hv.answer hr fun _ => ⟨hv.requesters, le_refl _⟩)
  | loadSide r g l =>
    exact .of_next e (h.managed fun _ hv hr => hv.answer hr fun _ => ⟨hv.storeSide, (reservations_storeSide ..).le⟩)
  | loadRange r g a b n o => exact .of_next e (h.managed fun _ hv hr => hv.answer hr fun _ => ⟨hv.ranges, le_refl _⟩)
  | clearRanges r g => exact .of_next e (h.managed fun _ hv hr => hv.answer hr fun _ => ⟨hv.ranges, le_refl _⟩)
  | setNextInstrument r g v => exact .of_next e (h.managed fun _ hv hr => hv.answer hr fun _ => ⟨hv.next, le_refl _⟩)
  | loadAccount r g n c l x b => exact .of_next e (h.managed fun _ hv hr => hv.loadAccountTaken hr)
  | setAccountState r g n x =>
    exact .of_next e (h.managed fun _ hv hr => hv.setAccountStateTaken hr)
  | closeAccount r g n => exact .of_next e (h.managed fun _ hv hr => hv.closeAccountTaken hr)
  | loadSchedule r g d fs =>
    exact .of_next e (h.managed fun _ hv hr => hv.answer hr fun _ =>
      ⟨hv.storeSchedule, (reservations_storeSchedule ..).le⟩)
  | dayClose r g d =>
    exact .of_next e (h.managed fun _ hv hr => hv.answer hr fun _ => ⟨hv.turnDay, (reservations_turnDay ..).le⟩)
  | driveOffline r g d =>
    exact .of_next e (h.managed fun v hv hr => (hv.answerFollows hr (Follows.refl v).takeOffline).settle)
  | driveRetry r g d =>
    exact .of_next e (h.managed fun _ hv hr => hv.answerLater hr fun w hw => hw.follows (Follows.refl w).startProbe)
  | clearPicker r g =>
    exact .of_next e (h.managed fun _ hv hr => hv.answerLater hr fun w hw => hw.follows (Follows.refl w).startHome)
  | filingResume r g =>
    exact .of_next e (h.managed fun v hv hr => (hv.answerFollows hr (Follows.refl v).retestHalt.runReadiness).settle)
  | restart r g => exact .of_next e (h.managed fun _ hv hr => hv.answerLater hr fun _ hw => hw.restartWork)
  | clearFault r g =>
    exact .of_next e (h.managed fun _ hv hr => hv.answerLater hr fun w hw => hw.follows (Follows.refl w).clearFaultWork)
  | queryStatus r g => exact .of_next e (h.managed fun _ hv hr => hv.query hr)
  | queryAccount r g n => exact .of_next e (h.managed fun _ hv hr => hv.query hr)
  | querySide r g n => exact .of_next e (h.managed fun _ hv hr => hv.query hr)
  | queryDrive r g d => exact .of_next e (h.managed fun _ hv hr => hv.query hr)
  | queryContexts r g => exact .of_next e (h.managed fun _ hv hr => hv.query hr)
  | queryFilings r g => exact .of_next e (h.managed fun _ hv hr => hv.query hr)
  | querySchedules r g => exact .of_next e (h.managed fun _ hv hr => hv.query hr)
  | driveWaitingToSend d => exact h.driveWaitingToSend e
  | dataBlock d b => exact h.dataBlock e
  | result d res => exact h.result e
  | channelStall d => exact h.channelStall e
  | takenFromSlot => exact .of_next e (h.pickerEvent fun _ v hv => hv.follows (Follows.refl v).taken)
  | emptySlot => exact .of_next e (h.pickerEvent fun _ v hv => hv.follows (Follows.refl v).slotEmpty.settle)
  | inserted => exact .of_next e (h.pickerEvent fun _ _ hv => hv.insertedThen)
  | ejected => exact .of_next e (h.pickerEvent fun _ _ hv => hv.ejectedFrom)
  | placed => exact .of_next e (h.pickerEvent fun _ _ hv => hv.placedThen)
  | motionDone => exact .of_next e (h.pickerEvent fun _ v hv => hv.follows (Follows.refl v).motionDone.settle)
  | occupancy l => exact .of_next e (h.pickerEvent fun _ v hv => hv.follows (Follows.refl v).takeOccupancy)
  | pickerFault => exact .of_next e h.pickerFault
  | holdBegun => exact .of_next e h.holdBegins.settle
  | holdEnded => exact .of_next e h.holdEnds.settle
  | idleTimerExpiry d => exact h.idleTimerExpiry e
  | holdTimerExpiry c => exact .of_next e h.holdExpired
  | gatherIdleExpiry f => exact .of_next e h.gatherExpired.settle

/-! ### Every step -/

theorem State.orderly.tick (h : s.orderly) : (tick s).orderly := { h with }

theorem State.orderly.manageUnknown {r g code : Nat} {qs : List Request} (h : s.orderly)
    (hr : s.reservations < Config.controlLimit)
    (hl : s.rli.inbound.length ≤ Config.inboundLimit → qs.length ≤ Config.inboundLimit) :
    (manageUnknown r g code { s with rli.inbound := qs }).orderly :=
  ((h.inbound hl).compose hr).publish

theorem idle_orderly (h : s.orderly) (e : idle s = .next t) : t.orderly := by
  unfold idle at e
  split at e
  · exact .of_next e h.tick
  · next q qs hq =>
    split at e
    · next hr =>
      cases q with
      | known i => exact exec_orderly h e
      | unknown r g code =>
        refine .of_next e (h.manageUnknown hr fun hl => ?_)
        rw [hq, List.length_cons] at hl
        omega
    · exact .of_next e h.tick

/-- A step of the part keeps an orderly state orderly. -/
theorem step_orderly (h : s.orderly) (e : step s = .next t) : t.orderly := by
  unfold step at e
  split at e
  · exact idle_orderly h e
  · next c rest _ =>
    have h1 : ({ s with pending := rest } : State).orderly := { h with }
    exact exec_orderly h1 e

/-- Settles O6. The list of control frames is a part of the reservations. -/
theorem orderlyKept : Obligations.OrderlyKept := by
  intro s t h e
  have ht : t.orderly := step_orderly h e
  have hle : t.rli.control.length ≤ t.reservations := by
    rw [reservations_eq]
    omega
  exact ⟨ht, hle.trans ht.reserved⟩

end Sys2Proof.Machine
end

section
/-! SUPPORT. The service state (R162, R169, R170, R180, R183): what leaves it, what follows an event, and the three commands
that change it. -/

namespace Sys2Proof.Machine

variable {s t u : State}

/-! ### How the relation is made -/

/-- The service state stays, or start-up, an OPENING or a drain comes to its end. -/
def Drifts (s t : State) : Prop := serviceFollows s.mu.service t.mu.service

theorem Drifts.of_eq (e : t.mu.service = s.mu.service) : Drifts s t := .inl e

theorem Drifts.refl (s : State) : Drifts s s := .of_eq rfl

theorem Drifts.trans (h : Drifts s t) (g : Drifts t u) : Drifts s u := serviceFollows_trans h g

theorem Follows.drifts (h : Follows s t) : Drifts s t := h.service

theorem Drifts.from (h : Drifts u t) (e : u.mu.service = s.mu.service) : Drifts s t := (Drifts.of_eq e).trans h

theorem Drifts.settle (h : Drifts s t) : Drifts s (settle t) := h.trans (Follows.refl t).settle.drifts

theorem Drifts.publish (h : Drifts s t) : Drifts s (publish t) := h.trans (Follows.refl t).publish.drifts

theorem Drifts.settled (e : u.mu.service = s.mu.service) : Drifts s (Machine.settle u) := (Drifts.of_eq e).settle

theorem Drifts.published (e : u.mu.service = s.mu.service) : Drifts s (Machine.publish u) := (Drifts.of_eq e).publish

theorem Drifts.of_next (h : (.next u : Out) = .next t) (g : Drifts s u) : Drifts s t := Host.Outcome.next.inj h ▸ g

theorem Drifts.handOn {i : Instr} {act : State → State} (h : ∀ v, Drifts v (act v)) : Drifts s (handOn i act s) := by
  rcases handOn_cases i act s with ⟨-, -, e⟩ | ⟨qs, -, -, e⟩ | ⟨l, e, -⟩ <;> rw [e]
  · exact h s
  · exact (h { s with rli.inbound := qs }).from rfl
  · exact .of_eq rfl

theorem Drifts.managed {i : Instr} {r g code : Nat} {act : State → State} (h : ∀ v, Drifts v (act v)) :
    Drifts s (Machine.handOn i (Machine.manage r g code act) s) :=
  .handOn fun v => by
    rcases manage_cases r g code act v with e | ⟨reason, e⟩ <;> rw [e]
    · exact h v
    · exact .published rfl

theorem Drifts.answer {r g code : Nat} {refusal : Option Reason} {effect : State → State} {data : State → List Byte}
    (h : Drifts s (effect s)) : Drifts s (answer r g code refusal effect data s) := by
  unfold Machine.answer
  split
  · exact .published rfl
  · exact .publish (h.trans (.of_eq rfl))

theorem Drifts.answerLater {r g code : Nat} {k : LateKind} {refusal : Option Reason} {effect : State → State}
    (h : ∀ v, Drifts v (effect v)) : Drifts s (answerLater r g code k refusal effect s) := by
  unfold Machine.answerLater
  split
  · exact .published rfl
  · exact ((h (awaitReply k r g s)).from rfl).settle

theorem Drifts.query {r g code : Nat} {refusal : Option Reason} {data : State → List Byte} :
    Drifts s (query r g code refusal data s) := .answer (.refl s)

theorem Drifts.pickerEvent {e : PickerEvent} {act : Motion → State → State} (h : ∀ m v, Drifts v (act m v)) :
    Drifts s (pickerEvent e act s) := by
  rcases pickerEvent_cases e act s with e1 | e1 | ⟨m, -, -, -, e1⟩ <;> rw [e1]
  · exact .refl s
  · exact (Follows.refl s).pickerFaulted.settle.drifts
  · exact (h m _).from rfl

/-! ### Operations that leave the management unit -/

theorem takeContext_mu {c : Nat} {x : Context} : (takeContext c x s).mu = s.mu := by
  unfold takeContext
  dsimp only
  split <;> rfl

theorem freeFiling_mu {f : Nat} : (freeFiling f s).mu = s.mu := by
  unfold freeFiling
  dsimp only
  split <;> rfl

theorem discardFiling_mu {f : Nat} {c : FileCause} : (discardFiling f c s).mu = s.mu := freeFiling_mu

theorem handOrder_mu {d : Nat} {m : Motion} : (handOrder d m s).mu = s.mu := by
  unfold handOrder
  split <;> rfl

theorem scheduleHold_mu : (scheduleHold s).mu = s.mu := by
  unfold scheduleHold
  dsimp only
  split <;> rfl

theorem admitFrame_mu {bs : List Byte} : (admitFrame bs s).mu = s.mu := by
  unfold admitFrame
  split
  · rfl
  · split <;> rfl

theorem lineDown_mu : (lineDown s).mu = s.mu := by
  unfold lineDown
  split <;> rfl

theorem openFiling_mu {r g : Nat} : (openFiling r g s).mu = s.mu := by
  unfold openFiling
  split_ifs
  iterate 3 rfl
  split <;> rfl

theorem filePage_mu {r g : Nat} {b : PageBody} : (filePage r g b s).mu = s.mu := by
  unfold filePage
  split
  · rfl
  · split
    · rfl
    · dsimp only
      split_ifs <;> rfl

theorem endFiling_mu {r g n : Nat} : (endFiling r g n s).mu = s.mu := by
  unfold endFiling
  split
  · rfl
  · split
    · rfl
    · dsimp only
      split_ifs <;> rfl

theorem gatherExpired_mu {f : Nat} : (gatherExpired f s).mu = s.mu := by
  unfold gatherExpired
  split
  · exact discardFiling_mu
  · rfl

theorem beginHold_mu : (beginHold s).mu = s.mu := by
  unfold beginHold
  dsimp only
  split
  · rfl
  · split
    · rfl
    · split <;> rfl
    · rfl

theorem holdBegins_mu : (holdBegins s).mu = s.mu := by
  unfold holdBegins
  split
  · rfl
  · split
    · rfl
    · exact beginHold_mu

theorem storeSide_mu {l : SideLoad} : (storeSide l s).mu = s.mu := by
  cases l <;> rfl

theorem storeAccount_mu {n c l : Nat} {a : AccountState} {b : Bool} : (storeAccount n c l a b s).mu = s.mu := by
  unfold storeAccount
  split <;> rfl

theorem storeSchedule_mu {e : Nat} {fs : List ClassFigures} : (storeSchedule e fs s).mu = s.mu := by
  unfold storeSchedule
  split
  · rfl
  · dsimp only
    split
    · exact raise_mu _
    · rfl

theorem turnDay_mu {d : Nat} : (turnDay d s).mu = s.mu := by
  unfold turnDay switchSchedule
  dsimp only
  split
  · split
    · rfl
    · exact raise_mu _
  · rfl

/-! ### Part, line and contexts -/

theorem drifts_startUp : Drifts s (startUp s) :=
  have home : Follows { s with memory := .passed } _ := (Follows.refl _).startHome.modPicker id
  (Follows.fold _ (fun v _ => (Follows.refl v).startProbe) _ home).drifts.from rfl

theorem drifts_lineUp : Drifts s (lineUp s) := by
  unfold lineUp
  split
  · exact .refl s
  · exact .settled rfl

theorem drifts_frameFinished : Drifts s (frameFinished s) := by
  unfold frameFinished
  split
  · exact .refl s
  · exact .settled rfl

theorem drifts_fetchTaken {r g : Nat} {b : FetchBody} : Drifts s (fetchTaken r g b s) := by
  unfold fetchTaken
  split
  · exact .published rfl
  · unfold acceptFetch
    split
    · exact .refl s
    · exact .settle ((Follows.refl _).applyAnswer.drifts.from (congrArg Mu.service takeContext_mu))

theorem drifts_holdTaken {r g : Nat} : Drifts s (holdTaken r g s) := by
  unfold holdTaken
  split
  · exact .published rfl
  · exact .of_eq rfl

theorem drifts_resumeTaken {r g : Nat} : Drifts s (resumeTaken r g s) := by
  unfold resumeTaken
  split
  · exact .published rfl
  · exact .settled rfl

theorem drifts_cancelTaken {r g : Nat} : Drifts s (cancelTaken r g s) := by
  unfold cancelTaken
  split
  · exact .published rfl
  · exact (Follows.refl s).endContext.settle.drifts

theorem drifts_holdExpired {c : Nat} : Drifts s (holdExpired c s) := by
  unfold holdExpired
  split
  · exact .refl s
  · split
    · exact (Follows.refl (s.reach _)).endContext.settle.drifts.from rfl
    · exact .refl s

theorem drifts_abortFiling {r g : Nat} : Drifts s (abortFiling r g s) := by
  unfold abortFiling
  split
  · exact .of_eq rfl
  · split
    · exact .of_eq rfl
    · exact (Follows.refl _).markerIfNeeded.drifts.from (congrArg Mu.service discardFiling_mu)

theorem drifts_setParamsTaken {r g : Nat} {v : ParamValues} : Drifts s (setParamsTaken r g v s) :=
  .settle (.answer ((Follows.refl _).reprioritise.drifts.from rfl))

/-! ### Drives -/

theorem drifts_driveWaitingToSend {d : Fin 4} (h : execDriveWaitingToSend d s = .next t) : Drifts s t := by
  unfold execDriveWaitingToSend at h
  split at h
  · exact .of_next h (.of_eq rfl)
  · exact .of_next h (Follows.refl s).offerTaken.drifts
  · exact .of_next h (Follows.refl s).channelFault.settle.drifts

theorem drifts_dataBlock {d : Fin 4} {b : Sector} (h : execDataBlock d b s = .next t) : Drifts s t := by
  unfold execDataBlock at h
  split at h
  · exact .of_next h (.of_eq rfl)
  · exact .of_next h (Follows.refl s).blockTaken.publish.drifts
  · exact .of_next h (Follows.refl s).channelFault.settle.drifts

theorem drifts_result {d : Fin 4} {res : DriveResult} (h : execResult d res s = .next t) : Drifts s t := by
  unfold execResult at h
  split at h
  · exact .of_next h (.of_eq rfl)
  · exact .of_next h (Follows.refl s).resultTaken.settle.drifts
  · exact .of_next h (Follows.refl s).channelFault.settle.drifts

theorem drifts_channelStall {d : Fin 4} (h : execChannelStall d s = .next t) : Drifts s t := by
  unfold execChannelStall at h
  split at h
  · exact .of_next h (.refl s)
  · exact .of_next h ((Follows.refl (s.reach _)).channelFault.settle.drifts.from rfl)

theorem drifts_idleTimerExpiry {d : Fin 4} (h : execIdleTimerExpiry d s = .next t) : Drifts s t := by
  unfold execIdleTimerExpiry at h
  split at h
  · exact .of_next h (.refl s)
  · exact .of_next h ((Follows.refl _).newUnmount.settle.drifts.from rfl)

/-! ### Picker and quiet holds -/

theorem drifts_insertedInto {m : Motion} : Drifts s (insertedInto m s) := by
  unfold insertedInto
  split
  · next d c _ _ =>
    extract_lets s1 s2 s3
    have h3 : Drifts s s3 := .of_eq (congrArg Mu.service (handOrder_mu.trans scheduleHold_mu))
    split
    · exact h3
    · exact h3.trans (Follows.refl s3).dismissIncoming.haltIfOpenIn.drifts
  · exact .refl s

theorem drifts_insertedThen {m : Motion} : Drifts s (insertedThen m s) := by
  unfold insertedThen
  split
  · exact drifts_insertedInto
  · exact drifts_insertedInto.settle

theorem drifts_ejectedFrom {m : Motion} : Drifts s (ejectedFrom m s) := by
  unfold ejectedFrom
  split
  · exact .of_eq (congrArg Mu.service scheduleHold_mu)
  · exact .refl s

theorem drifts_placedThen {m : Motion} : Drifts s (placedThen m s) := by
  unfold placedThen
  split
  · exact (Follows.refl s).placedHome.settle.drifts
  · exact (Follows.refl s).placedHome.drifts

theorem drifts_pickerFault : Drifts s (if s.lib.picker.state = .fault then s else settle (pickerReportsFault s)) := by
  split
  · exact .refl s
  · exact (Follows.refl s).pickerReportsFault.settle.drifts

theorem drifts_endHold : Drifts s (endHold s) := by
  unfold endHold
  dsimp only
  split
  · exact .of_eq rfl
  · split
    · exact (Follows.refl _).queuePass.drifts.from rfl
    · exact .of_eq rfl

theorem drifts_holdEnds : Drifts s (holdEnds s) := by
  unfold holdEnds
  split
  · exact .refl s
  · split
    · exact drifts_endHold.from rfl
    · exact .refl s

/-! ### The commands that change the service state -/

/-- The changes of service state that a command may bring about itself, its own ending of a drain or of an OPENING counted
(R162, R170, R183). -/
def serviceCommanded : Instr → Service → Service → Prop
  | .memoryCheckDone (some _), a, b => a = .startup ∧ b = .fault
  | .setState _ _ _ _, a, b =>
    (a = .standby ∧ (b = .opening ∨ b = .serving ∨ b = .quiescent)) ∨ (a = .serving ∧ (b = .draining ∨ b = .standby))
      ∨ (a = .quiescent ∧ b = .standby)
  | .restart _ _, a, b => (a = .standby ∨ a = .opening ∨ a = .serving) ∧ (b = .draining ∨ b = .standby)
  | _, _, _ => False

/-- The service state drifts, or the command changes it. -/
def ServiceMoves (i : Instr) (s t : State) : Prop := Drifts s t ∨ serviceCommanded i s.mu.service t.mu.service

/-- A management request is refused, or accepted in a service state that admits it (R160, R161). -/
theorem manage_accepted (r g code : Nat) (act : State → State) (s : State) :
    (codeAccepted code s.mu.service = true ∧ manage r g code act s = act s)
      ∨ ∃ reason, manage r g code act s = publish (reject r g code reason s) := by
  unfold manage
  split
  · exact .inr ⟨_, rfl⟩
  · next h =>
    unfold State.manageRefusal at h
    split at h
    · cases h
    · split_ifs at h with _ ha
      exact .inl ⟨ha, rfl⟩

theorem ServiceMoves.managed {i : Instr} {r g code : Nat} {act : State → State}
    (h : ∀ v : State, codeAccepted code v.mu.service = true → ServiceMoves i v (act v)) :
    ServiceMoves i s (handOn i (manage r g code act) s) := by
  have taken (v : State) : ServiceMoves i v (manage r g code act v) := by
    rcases manage_accepted r g code act v with ⟨ha, e⟩ | ⟨reason, e⟩ <;> rw [e]
    · exact h v ha
    · exact .inl (.published rfl)
  rcases handOn_cases i (manage r g code act) s with ⟨-, -, e⟩ | ⟨qs, -, -, e⟩ | ⟨l, e, -⟩ <;> rw [e]
  · exact taken s
  · exact taken { s with rli.inbound := qs }
  · exact .inl (.of_eq rfl)

theorem ServiceMoves.answerLater {i : Instr} {r g code : Nat} {k : LateKind} {refusal : Option Reason}
    {effect : State → State} (h : ServiceMoves i s (Machine.settle (effect (awaitReply k r g s)))) :
    ServiceMoves i s (answerLater r g code k refusal effect s) := by
  unfold Machine.answerLater
  split
  · exact .inl (.published rfl)
  · exact h

theorem changeService_service {n : Service} {c : ChangeCause} : (changeService n c s).mu.service = n :=
  congrArg Mu.service (raise_mu _)

/-! #### What follows a service state -/

theorem serviceFollows_opening {b : Service} (h : serviceFollows .opening b) : b = .opening ∨ b = .standby ∨ b = .serving := by
  rcases h with h | ⟨h, -⟩ | ⟨h, -⟩ <;> simp [h]

theorem serviceFollows_draining {b : Service} (h : serviceFollows .draining b) : b = .draining ∨ b = .standby := by
  rcases h with h | ⟨h, -⟩ | ⟨-, h⟩
  · exact .inl h
  · exact .inr h
  · cases h

/-- STANDBY, SERVING, QUIESCENT and FAULT are left by a command alone. -/
theorem serviceFollows_stays {a b : Service} (ha : a = .standby ∨ a = .serving ∨ a = .quiescent ∨ a = .fault)
    (h : serviceFollows a b) : b = a := by
  rcases h with h | ⟨-, h⟩ | ⟨-, h⟩
  · exact h
  · rcases ha with rfl | rfl | rfl | rfl <;> simp at h
  · rcases ha with rfl | rfl | rfl | rfl <;> cases h

/-- What follows an event in service state `n`. -/
theorem Follows.leaves {n : Service} (h : Follows s t) (hn : s.mu.service = n) : serviceFollows n t.mu.service :=
  hn ▸ h.service

theorem Drifts.from_service {n : Service} (hn : s.mu.service = n) (h : serviceFollows n t.mu.service) : Drifts s t := by
  subst hn
  exact h

theorem beginDrain_drifts {b : Bool} : serviceFollows .draining (beginDrain b s).mu.service := by
  unfold beginDrain
  extract_lets m1 s1
  have h : s1.mu.service = .draining := changeService_service
  split
  · exact (Follows.refl _).abortWork.leaves h
  · exact .inl h

theorem enterOpening_drifts : serviceFollows .opening (enterOpening s).mu.service := by
  unfold enterOpening
  extract_lets opened m1 l1 r1 s1 s2
  have h : s1.mu.service = .opening := changeService_service
  exact Follows.leaves (s := s1) (.beginIdentify (.refl s1)) h

theorem enterStandby_drifts {c : ChangeCause} : serviceFollows .standby (enterStandby c s).mu.service := by
  have h : (changeService .standby c { s with mu.drain := none }).mu.service = .standby := changeService_service
  unfold enterStandby
  exact (Follows.refl _).standbyEntry.leaves h

theorem restartWork_drifts : serviceFollows .draining (restartWork s).mu.service := by
  unfold restartWork
  extract_lets s1 m1 s2 s3
  have h : s2.mu.service = .draining := changeService_service
  exact (Follows.fold _ (fun v _ => (Follows.refl v).restartQueue) _
    (Follows.refl s2).endAllContexts.restartLibrary.stopFiling).leaves h

/-- A service state that an effect leads to, and the work that follows it. -/
theorem serviceFollows_settle {n : Service} (h : serviceFollows n s.mu.service) : serviceFollows n (settle s).mu.service :=
  serviceFollows_trans h (Follows.refl s).settle.drifts

theorem serviceFollows_answer {n : Service} {r g code : Nat} {effect : State → State} {data : State → List Byte}
    (h : serviceFollows n (effect s).mu.service) : serviceFollows n (answer r g code none effect data s).mu.service :=
  serviceFollows_trans h (Drifts.published (s := effect s) rfl)

theorem moves_memoryCheckDone {f : Option Nat} (h : execMemoryCheckDone f s = .next t) :
    ServiceMoves (.memoryCheckDone f) s t := by
  unfold execMemoryCheckDone at h
  split at h
  · exact .inl (.of_next h (.refl s))
  · next hs =>
    simp only [ne_eq, not_or, not_not] at hs
    split at h
    · obtain rfl := Host.Outcome.next.inj h
      refine .inr ⟨hs.2, serviceFollows_stays (by simp) (serviceFollows_settle ?_)⟩
      exact .inl changeService_service
    · exact .inl (.of_next h drifts_startUp.settle)

theorem moves_setStateTaken {r g n : Nat} {b : Bool} : ServiceMoves (.setState r g n b) s (setStateTaken r g n b s) := by
  unfold setStateTaken
  split
  · next hs _ =>
    refine .answerLater ?_
    have opened := serviceFollows_settle (enterOpening_drifts (s := awaitReply .setState r g s))
    rcases serviceFollows_opening opened with e | e | e
    · exact .inr (.inl ⟨hs, .inl e⟩)
    · exact .inl (.of_eq (e.trans hs.symm))
    · exact .inr (.inl ⟨hs, .inr (.inl e)⟩)
  · next hs _ =>
    refine .inr (.inl ⟨hs, .inr (.inr (serviceFollows_stays (by simp) (serviceFollows_answer ?_)))⟩)
    exact .inl changeService_service
  · next hs _ =>
    refine .answerLater (.inr (.inr (.inl ⟨hs, ?_⟩)))
    exact serviceFollows_draining (serviceFollows_settle beginDrain_drifts)
  · next hs _ =>
    split
    · refine .answerLater (.inl (.settle ?_))
      have h : Drifts s (changeService .draining .setState (awaitReply .setState r g s)) :=
        .of_eq (changeService_service.trans hs.symm)
      exact h.trans (Follows.refl _).abortWork.drifts
    · exact .inl (.published rfl)
  · next hs _ =>
    refine .inr (.inr (.inr ⟨hs, ?_⟩))
    exact serviceFollows_stays (by simp) (serviceFollows_settle (serviceFollows_answer enterStandby_drifts))
  · exact .inl (.published rfl)
  · exact .inl (.published rfl)
  · exact .inl (.published rfl)

theorem working_cases {a : Service} (h : a.working = true) :
    (a = .standby ∨ a = .opening ∨ a = .serving) ∨ a = .draining := by
  cases a <;> simp [Service.working] at h ⊢

theorem moves_restartTaken {r g : Nat} (ha : codeAccepted 19 s.mu.service = true) :
    ServiceMoves (.restart r g) s (restartTaken r g s) := by
  have ends : serviceFollows .draining (settle (restartWork (awaitReply .restart r g s))).mu.service :=
    serviceFollows_settle restartWork_drifts
  refine .answerLater ?_
  rcases working_cases ha with hs | hs
  · exact .inr ⟨hs, serviceFollows_draining ends⟩
  · exact .inl (.from_service hs ends)

/-! ### Every command -/

/-- Three commands change the service state; under every other it drifts. -/
theorem exec_serviceMoves {i : Instr} (h : exec i s = .next t) (hp : i ≠ .powerOnReset) : ServiceMoves i s t := by
  cases i with
  | powerOnReset => exact absurd rfl hp
  | memoryCheckDone f => exact moves_memoryCheckDone h
  | setState r g n b =>
    obtain rfl := Host.Outcome.next.inj h
    exact .managed fun _ _ => moves_setStateTaken
  | restart r g =>
    obtain rfl := Host.Outcome.next.inj h
    exact .managed fun _ => moves_restartTaken
  | loadSide r g l => exact .inl (.of_next h (.managed fun _ => .answer (.of_eq (congrArg Mu.service storeSide_mu))))
  | frameAdmission bs => exact .inl (.of_next h (.of_eq (congrArg Mu.service admitFrame_mu)))
  | linkDown => exact .inl (.of_next h (.of_eq (congrArg Mu.service lineDown_mu)))
  | linkUp => exact .inl (.of_next h drifts_lineUp)
  | frameSent => exact .inl (.of_next h drifts_frameFinished)
  | fetch r g b => exact .inl (.of_next h (.handOn fun _ => drifts_fetchTaken))
  | hold r g => exact .inl (.of_next h (.handOn fun _ => drifts_holdTaken))
  | resume r g => exact .inl (.of_next h (.handOn fun _ => drifts_resumeTaken))
  | cancel r g => exact .inl (.of_next h (.handOn fun _ => drifts_cancelTaken))
  | fileOpen r g => exact .inl (.of_next h (.handOn fun _ => .published (congrArg Mu.service openFiling_mu)))
  | page r g b => exact .inl (.of_next h (.handOn fun _ => .published (congrArg Mu.service filePage_mu)))
  | fileEnd r g n => exact .inl (.of_next h (.handOn fun _ => .settled (congrArg Mu.service endFiling_mu)))
  | fileAbort r g => exact .inl (.of_next h (.handOn fun _ => drifts_abortFiling.settle))
  | bind r g => exact .inl (.of_next h (.managed fun _ => .answer (.of_eq rfl)))
  | setParams r g v => exact .inl (.of_next h (.managed fun _ => drifts_setParamsTaken))
  | loadRequester r g n x p l => exact .inl (.of_next h (.managed fun _ => .answer (.of_eq rfl)))
  | dropRequester r g n => exact .inl (.of_next h (.managed fun _ => .answer (.of_eq rfl)))
  | loadRange r g a b n o => exact .inl (.of_next h (.managed fun _ => .answer (.of_eq rfl)))
  | clearRanges r g => exact .inl (.of_next h (.managed fun _ => .answer (.of_eq rfl)))
  | setNextInstrument r g v => exact .inl (.of_next h (.managed fun _ => .answer (.of_eq rfl)))
  | loadAccount r g n c l x b =>
    exact .inl (.of_next h (.managed fun _ => .answer (.of_eq (congrArg Mu.service storeAccount_mu))))
  | setAccountState r g n x => exact .inl (.of_next h (.managed fun _ => .answer (.of_eq rfl)))
  | closeAccount r g n => exact .inl (.of_next h (.managed fun _ => .answer (.of_eq rfl)))
  | loadSchedule r g e fs =>
    exact .inl (.of_next h (.managed fun _ => .answer (.of_eq (congrArg Mu.service storeSchedule_mu))))
  | dayClose r g d => exact .inl (.of_next h (.managed fun _ => .answer (.of_eq (congrArg Mu.service turnDay_mu))))
  | driveOffline r g d =>
    exact .inl (.of_next h (.managed fun v => (Drifts.answer (Follows.refl v).takeOffline.drifts).settle))
  | driveRetry r g d =>
    exact .inl (.of_next h (.managed fun _ => .answerLater fun v => (Follows.refl v).startProbe.drifts))
  | clearPicker r g =>
    exact .inl (.of_next h (.managed fun _ => .answerLater fun v => (Follows.refl v).startHome.drifts))
  | filingResume r g =>
    exact .inl (.of_next h (.managed fun v => (Drifts.answer (Follows.refl v).retestHalt.runReadiness.drifts).settle))
  | clearFault r g =>
    exact .inl (.of_next h (.managed fun _ => .answerLater fun v => (Follows.refl v).clearFaultWork.drifts))
  | queryStatus r g => exact .inl (.of_next h (.managed fun _ => .query))
  | queryAccount r g n => exact .inl (.of_next h (.managed fun _ => .query))
  | querySide r g n => exact .inl (.of_next h (.managed fun _ => .query))
  | queryDrive r g d => exact .inl (.of_next h (.managed fun _ => .query))
  | queryContexts r g => exact .inl (.of_next h (.managed fun _ => .query))
  | queryFilings r g => exact .inl (.of_next h (.managed fun _ => .query))
  | querySchedules r g => exact .inl (.of_next h (.managed fun _ => .query))
  | driveWaitingToSend d => exact .inl (drifts_driveWaitingToSend h)
  | dataBlock d b => exact .inl (drifts_dataBlock h)
  | result d res => exact .inl (drifts_result h)
  | channelStall d => exact .inl (drifts_channelStall h)
  | takenFromSlot => exact .inl (.of_next h (.pickerEvent fun _ v => (Follows.refl v).taken.drifts))
  | emptySlot => exact .inl (.of_next h (.pickerEvent fun _ v => (Follows.refl v).slotEmpty.settle.drifts))
  | inserted => exact .inl (.of_next h (.pickerEvent fun _ _ => drifts_insertedThen))
  | ejected => exact .inl (.of_next h (.pickerEvent fun _ _ => drifts_ejectedFrom))
  | placed => exact .inl (.of_next h (.pickerEvent fun _ _ => drifts_placedThen))
  | motionDone => exact .inl (.of_next h (.pickerEvent fun _ v => (Follows.refl v).motionDone.settle.drifts))
  | occupancy l => exact .inl (.of_next h (.pickerEvent fun _ v => (Follows.refl v).takeOccupancy.drifts))
  | pickerFault => exact .inl (.of_next h drifts_pickerFault)
  | holdBegun => exact .inl (.of_next h (.settled (congrArg Mu.service holdBegins_mu)))
  | holdEnded => exact .inl (.of_next h drifts_holdEnds.settle)
  | idleTimerExpiry d => exact .inl (drifts_idleTimerExpiry h)
  | holdTimerExpiry c => exact .inl (.of_next h drifts_holdExpired)
  | gatherIdleExpiry f => exact .inl (.of_next h (.settled (congrArg Mu.service gatherExpired_mu)))

/-- Settles O11: a change that no command brings about is an ending that follows an event. -/
theorem serviceChangesOnlyAsListed : Obligations.ServiceChangesOnlyAsListed := by
  intro i s t h hp hne
  rcases exec_serviceMoves h hp with (same | ended | opened) | commanded
  · exact absurd same hne
  · exact .inl ended
  · exact .inr (.inl opened)
  · unfold serviceCommanded at commanded
    split at commanded
    · next f => exact .inr (.inr (.inl ⟨commanded.2, commanded.1, f, rfl⟩))
    · exact .inr (.inr (.inr (.inl ⟨⟨_, _, _, _, rfl⟩, commanded⟩)))
    · exact .inr (.inr (.inr (.inr ⟨⟨_, _, rfl⟩, commanded⟩)))
    · exact commanded.elim

end Sys2Proof.Machine
end

section
/-! SUPPORT. Frames off the line (R152), the inbound buffer and the hand-on of its oldest frame (R154), and the passing of time
with no command waiting. -/

namespace Sys2Proof.Machine

variable {s : State}

/-! ### Admission -/

/-- Kinds 1 to 9 alone have a body, of at most 4 + 8 × 1,024 bytes (R185). -/
theorem bodyLengthAllowed_bounds {kind n : Nat} (h : bodyLengthAllowed kind n = true) : 1 ≤ kind ∧ kind ≤ 9 ∧ n ≤ 8196 := by
  unfold bodyLengthAllowed at h
  split at h <;> simp at h <;> omega

/-- What a frame that is read has passed (R152). -/
theorem readFrame_passes {bytes : List Byte} {q : Request} (h : readFrame bytes = some q) :
    (crc16 (bytes.take (bytes.length - 2))).toNat = fieldAt bytes (bytes.length - 2) 2
      ∧ bodyLengthAllowed (fieldAt bytes 0 1) (fieldAt bytes 4 2) = true ∧ fieldAt bytes 1 1 ≤ 31 := by
  unfold readFrame at h
  extract_lets n covered bodyLength kind r at h
  split at h
  · next passed =>
    obtain ⟨-, -, check, allowed, requester⟩ := passed
    exact ⟨check, allowed, requester⟩
  · cases h

theorem admitFrame_admitted {bytes : List Byte} {q : Request} (hup : s.rli.link = .up)
    (hroom : s.rli.inbound.length < Config.inboundLimit) (hq : readFrame bytes = some q) :
    admitFrame bytes s = { s with rli.inbound := s.rli.inbound ++ [q] } := by
  rw [admitFrame, if_neg (by simp [hup, hroom]), hq]

theorem admitFrame_counted {bytes : List Byte} (hup : s.rli.link = .up)
    (hroom : s.rli.inbound.length < Config.inboundLimit) (hno : readFrame bytes = none) :
    admitFrame bytes s = { s with rli.errors := min (s.rli.errors + 1) 65535 } := by
  rw [admitFrame, if_neg (by simp [hup, hroom]), hno]
  rfl

/-- Settles O13, by what the checks make of the bytes. -/
theorem framesAdmittedOrCounted : Obligations.FramesAdmittedOrCounted := by
  intro s bytes hup hroom
  refine ⟨fun q hq => congrArg Host.Outcome.next (admitFrame_admitted hup hroom hq),
    fun hno => congrArg Host.Outcome.next (admitFrame_counted hup hroom hno), fun hbad => ?_⟩
  by_contra hsome
  obtain ⟨q, hq⟩ := Option.ne_none_iff_exists'.1 hsome
  obtain ⟨check, allowed, requester⟩ := readFrame_passes hq
  obtain ⟨kindLow, kindHigh, short⟩ := bodyLengthAllowed_bounds allowed
  rcases hbad with h | h | h | h | h | h
  · exact h check
  · omega
  · omega
  · omega
  · omega
  · rw [allowed] at h
    cases h

/-! ### Hand-on -/

/-- A request command is handed on to its block (R154). -/
theorem exec_request {i : Instr} {h : Nat × Nat} (hi : requestHeader i = some h) :
    ∃ act, ∀ s, exec i s = .next (handOn i act s) := by
  cases i with
  | powerOnReset | memoryCheckDone | frameAdmission | linkDown | linkUp | frameSent | driveWaitingToSend | dataBlock
  | result | channelStall | takenFromSlot | emptySlot | inserted | ejected | placed | motionDone | occupancy | pickerFault
  | holdBegun | holdEnded | idleTimerExpiry | holdTimerExpiry | gatherIdleExpiry => cases hi
  | _ => exact ⟨_, fun _ => rfl⟩

theorem handOn_joins {i : Instr} {act : State → State} {q : Request} {qs : List Request} (hq : s.rli.inbound = q :: qs)
    (hne : q ≠ .known i) (hroom : s.rli.inbound.length < Config.inboundLimit) :
    handOn i act s = { s with rli.inbound := s.rli.inbound ++ [.known i] } := by
  unfold handOn
  rw [hq] at hroom ⊢
  exact (if_neg hne).trans (if_pos hroom)

theorem handOn_waits {i : Instr} {act : State → State} {qs : List Request} (hq : s.rli.inbound = .known i :: qs)
    (hfull : Config.controlLimit ≤ s.reservations) : handOn i act s = s := by
  unfold handOn
  rw [hq]
  simp [hfull]

/-- Settles O16, by what stands at the head of the inbound buffer. -/
theorem requestsWaitTheirTurn : Obligations.RequestsWaitTheirTurn := by
  intro i s q qs h hi hq
  obtain ⟨act, hexec⟩ := exec_request hi
  refine ⟨fun hne hroom => ?joins, fun heq hr hqs => ?alone, fun heq hfull => ?waits⟩
  case joins => rw [hexec, handOn_joins hq hne hroom]
  case alone =>
    subst heq hqs
    have taken : handOn i act { s with rli.inbound := [] } = act { s with rli.inbound := [] } := handOn_taken ⟨rfl, hr⟩
    rw [hexec, hexec, handOn_oldest hq hr, taken]
  case waits =>
    subst heq
    rw [hexec, handOn_waits hq hfull]

/-! ### No command waiting -/

theorem step_idle (h : s.pending = []) : step s = idle s := by
  unfold step
  rw [h]

theorem idle_hands {q : Request} {qs : List Request} (hq : s.rli.inbound = q :: qs)
    (hr : s.reservations < Config.controlLimit) : idle s = handFrame q qs s := by
  unfold idle
  rw [hq]
  exact if_pos hr

theorem idle_ticks (h : s.rli.inbound = [] ∨ Config.controlLimit ≤ s.reservations) : idle s = .next (tick s) := by
  unfold idle
  split
  · rfl
  · next q qs hq =>
    have hfull : Config.controlLimit ≤ s.reservations := h.resolve_left (by simp [hq])
    exact if_neg (Nat.not_lt.2 hfull)

/-- An unknown code from the manager is refused BAD-VALUE (R160 check 4). -/
theorem manageUnknown_bound {r t code : Nat} (hc : code ≠ 1) (hm : s.mu.manager = some r) :
    manageUnknown r t code s = publish (reject r t code .badValue s) := by
  simp [manageUnknown, State.binding, hm, hc]

/-- Settles O2, by what waits in the inbound buffer. -/
theorem idleStepHandsOnOrTicks : Obligations.IdleStepHandsOnOrTicks := by
  intro s hp
  refine ⟨fun hr => ⟨fun i qs hq => ?known, fun r t code qs hq hc hm => ?unknown⟩, fun hwait => ?tick⟩
  case known => exact (step_idle hp).trans (idle_hands hq hr)
  case unknown =>
    rw [step_idle hp, idle_hands hq hr]
    exact congrArg Host.Outcome.next (manageUnknown_bound hc hm)
  case tick => exact (step_idle hp).trans (idle_ticks hwait)

end Sys2Proof.Machine
end

section
/-! SUPPORT. The checks of a management request (R160, R161) and the binding. -/

namespace Sys2Proof.Machine

variable {s : State} {r t code : Nat}

/-! ### The service states that admit a request -/

theorem working_iff (st : Service) :
    st.working = true ↔ st = .standby ∨ st = .opening ∨ st = .serving ∨ st = .draining := by
  cases st <;> simp [Service.working]

/-- The table of R161, code by code. -/
theorem codeAccepted_table (st : Service) :
    (codeAccepted 1 st = true ↔ st ≠ .quiescent)
      ∧ (codeAccepted 2 st = true ↔ st = .standby ∨ st = .serving ∨ st = .draining ∨ st = .quiescent)
      ∧ (∀ code ∈ [3, 4, 5, 10, 11, 12, 13, 14, 19, 22, 23, 24, 25, 26, 27], codeAccepted code st = st.working)
      ∧ (∀ code ∈ [6, 7, 8, 9, 20], codeAccepted code st = true ↔ st = .standby)
      ∧ (∀ code ∈ [15, 16, 17], codeAccepted code st = true ↔ st = .standby ∨ st = .serving ∨ st = .draining)
      ∧ (codeAccepted 18 st = true ↔ st = .serving ∨ st = .draining) := by
  cases st <;> decide

/-! ### The first check that fails -/

/-- A management request is handed on to the checks of R160. -/
theorem exec_manage {i : Instr} (hi : requestHeader i = some (r, t)) (hc : manageCode i = some code) :
    ∃ act, ∀ s, exec i s = .next (handOn i (manage r t code act) s) := by
  cases i with
  | bind | setState | setParams | loadRequester | dropRequester | loadSide | loadRange | clearRanges | setNextInstrument
  | loadAccount | setAccountState | closeAccount | loadSchedule | dayClose | driveOffline | driveRetry | clearPicker
  | filingResume | restart | clearFault | queryStatus | queryAccount | querySide | queryDrive | queryContexts
  | queryFilings | querySchedules =>
    cases hi
    cases hc
    exact ⟨_, fun _ => rfl⟩
  | _ => cases hc

theorem exec_manage_refused {i : Instr} {reason : Reason} (hi : requestHeader i = some (r, t))
    (hc : manageCode i = some code) (h : s.handsOn) (hr : s.manageRefusal r t code = some reason) :
    exec i s = .next (publish (reject r t code reason s)) := by
  obtain ⟨act, hexec⟩ := exec_manage hi hc
  rw [hexec, handOn_taken h, manage_refused hr]

theorem manageRefusal_unbound (hc : code ≠ 1) (hm : s.mu.manager = none) :
    s.manageRefusal r t code = some .notBound := by
  simp [State.manageRefusal, State.binding, hm, hc]

theorem manageRefusal_stranger {m : Nat} (hc : code ≠ 1) (hm : s.mu.manager = some m) (hne : m ≠ r) :
    s.manageRefusal r t code = some .notManager := by
  simp [State.manageRefusal, State.binding, hm, hc, hne]

theorem manageRefusal_bindAgain (hm : s.mu.manager ≠ none) : s.manageRefusal r t 1 = some s.bindRefusal := by
  obtain ⟨m, hm⟩ := Option.ne_none_iff_exists'.1 hm
  simp [State.manageRefusal, State.binding, hm]

/-- The checks behind that of the binding: the tag, then the service state. -/
theorem manageRefusal_bound (h : (code = 1 ∧ s.mu.manager = none) ∨ (code ≠ 1 ∧ s.mu.manager = some r)) :
    s.manageRefusal r t code = if s.mu.late.any fun l => l.requester == r && l.tag == t then some .duplicateTag
      else if codeAccepted code s.mu.service then none else some .wrongState := by
  have hb : s.binding (code == 1) r = none := by
    rcases h with ⟨rfl, hm⟩ | ⟨hc, hm⟩
    · simp [State.binding, hm]
    · simp [State.binding, hm, hc]
  rw [State.manageRefusal, hb]

/-- Settles O28, check by check. -/
theorem manageRequestsChecked : Obligations.ManageRequestsChecked := by
  refine ⟨fun st => ?table, fun i s r t code hi hc h => ⟨fun hcode hm => ?unbound, fun hcode hm => ?bindAgain,
    fun hcode m hm hne => ?stranger, fun hb => ⟨fun hl => ?tag, fun hl hs => ?state⟩, fun hbind hm hq hl => ?bind⟩⟩
  case table =>
    intro working
    obtain ⟨bind, state, all, standby, library, filing⟩ := codeAccepted_table st
    exact ⟨rfl, bind, state, fun code hcode => by rw [all code hcode]; exact working_iff st, standby, library, filing⟩
  case unbound => exact exec_manage_refused hi hc h (manageRefusal_unbound hcode hm)
  case bindAgain =>
    subst hcode
    exact exec_manage_refused hi hc h (manageRefusal_bindAgain hm)
  case stranger => exact exec_manage_refused hi hc h (manageRefusal_stranger hcode hm hne)
  case tag => exact exec_manage_refused hi hc h ((manageRefusal_bound hb).trans (if_pos hl))
  case state =>
    refine exec_manage_refused hi hc h ((manageRefusal_bound hb).trans ?_)
    rw [if_neg (by simp [hl]), if_neg (by simp [hs])]
  case bind =>
    subst hbind
    have accepted : codeAccepted 1 s.mu.service = true := (codeAccepted_table _).1.2 hq
    have passes : s.manageRefusal r t 1 = none := by
      rw [manageRefusal_bound (.inl ⟨rfl, hm⟩), if_neg (by simp [hl]), if_pos accepted]
    have taken : manage r t 1 (bindTaken r t) s = bindTaken r t s := by rw [manage, passes]
    cases hc
    show Host.Outcome.next (handOn _ (manage r t 1 (bindTaken r t)) s) = _
    rw [handOn_taken h, taken]
    rfl

end Sys2Proof.Machine
end

section
/-! SUPPORT. SET_STATE: the pairings of R162 and the entry checks of R173. -/

namespace Sys2Proof.Machine

variable {s : State} {r t target : Nat} {ab : Bool}

/-! ### Pairings -/

/-- The pairings of a service state and the code of a target that R162 lists. -/
def Service.listed (a : Service) (target : Nat) : Prop :=
  (a = .standby ∧ (target = 3 ∨ target = 5)) ∨ ((a = .serving ∨ a = .draining ∨ a = .quiescent) ∧ target = 1)

theorem serviceOfCode_code (st : Service) : serviceOfCode st.code = some st := by cases st <;> rfl

theorem serviceOfCode_named (h : target ≤ 6) : ∃ st : Service, st.code = target := by
  have codes : ∀ n < 7,
      ∃ st ∈ [Service.startup, .standby, .opening, .serving, .draining, .quiescent, .fault], st.code = n := by decide
  obtain ⟨st, -, hst⟩ := codes target (by omega)
  exact ⟨st, hst⟩

theorem serviceOfCode_none (h : 6 < target) : serviceOfCode target = none := List.getElem?_eq_none h

theorem setStateTaken_unlisted (h6 : target ≤ 6) (h : ¬s.mu.service.listed target) :
    setStateTaken r t target ab s = publish (reject r t 2 .wrongState s) := by
  obtain ⟨st, rfl⟩ := serviceOfCode_named h6
  unfold setStateTaken
  rw [serviceOfCode_code]
  split
  case h_6 | h_7 => contradiction
  case h_8 => rfl
  all_goals
    next hs hst =>
      cases hst
      exact absurd (by simp [Service.listed, Service.code, hs]) h

theorem setStateTaken_unnamed (h : 6 < target) : setStateTaken r t target ab s
    = publish (reject r t 2 (if s.mu.service = .quiescent then .wrongState else .badValue) s) := by
  unfold setStateTaken
  rw [serviceOfCode_none h]
  split
  case h_6 hs _ => rw [if_pos hs]
  case h_7 hs => rw [if_neg hs]
  all_goals contradiction

theorem setStateTaken_drain (hs : s.mu.service = .draining) (h : ¬(ab = true ∧ s.mu.drain = some .plain)) :
    setStateTaken r t 1 ab s = publish (reject r t 2 .wrongState s) := by
  simp only [setStateTaken, hs, show serviceOfCode 1 = some .standby from rfl, if_neg h]

theorem setStateTaken_entry (hs : s.mu.service = .standby) :
    setStateTaken r t 3 ab s = answerLater r t 2 .setState s.servingRefusal enterOpening s := by
  simp only [setStateTaken, hs, show serviceOfCode 3 = some .serving from rfl]

/-! ### The entry checks -/

theorem activeSlot_none_iff : s.activeSlot.isNone = true ↔ ¬∃ x ∈ s.tal.slots, x.role = .active := by
  simp [State.activeSlot]

theorem mem_openedSides {n : Nat} : n ∈ s.openedSides ↔ n < 128 ∧ ∃ x, s.side n = some x ∧ x.state = .opened := by
  simp [State.openedSides, Option.any_eq_true]

theorem sides_none_iff (hlen : s.lib.sides.length = 128) :
    s.lib.sides.all (·.isNone) = true ↔ ¬∃ n < 128, s.side n ≠ none := by
  constructor
  · rintro h ⟨n, hn, hs⟩
    have hmem : s.side n ∈ s.lib.sides := by
      simp [State.side, List.getD_eq_getElem?_getD, hlen, hn]
    exact hs (by simpa using List.all_eq_true.1 h _ hmem)
  · intro h
    refine List.all_eq_true.2 fun x hx => ?_
    obtain ⟨n, hn, rfl⟩ := List.mem_iff_getElem.1 hx
    have hside : s.side n = s.lib.sides[n] := by simp [State.side, List.getD_eq_getElem?_getD, hn]
    by_contra hne
    exact h ⟨n, hlen ▸ hn, by simpa [hside] using hne⟩

theorem rangesHaveSides_iff : s.rangesHaveSides = true ↔ (∀ e ∈ s.loc.ranges, s.side e.side ≠ none)
    ∧ ∀ n < 128, ∀ x, s.side n = some x → x.incomplete = true → ∃ e ∈ s.loc.ranges, e.side = n := by
  have named (n : Nat) : (!(s.side n).any (·.incomplete) || (s.rangeOf n).isSome) = true
      ↔ ∀ x, s.side n = some x → x.incomplete = true → ∃ e ∈ s.loc.ranges, e.side = n := by
    cases hs : s.side n with
    | none => simp
    | some x => cases hi : x.incomplete <;> simp [State.rangeOf, hi]
  simp only [State.rangesHaveSides, Bool.and_eq_true, List.all_eq_true, List.mem_range, named, Option.isSome_iff_ne_none]

theorem openAgrees_iff : s.openAgrees = true ↔ (∀ e, s.openRange = some e → e.side ∈ s.openedSides)
    ∧ (s.openRange = none → s.openedSides = []) := by
  unfold State.openAgrees
  cases s.openRange <;> simp

theorem nextAbove_iff : s.nextAbove = true ↔ ∃ n, s.fil.nNext = some n ∧ ∀ e ∈ s.loc.ranges, e.last < n := by
  simp [State.nextAbove, Option.any_eq_true]

theorem nextMissing_iff : (s.openedSides.isEmpty = true ∧ s.nextAbove = false)
    ↔ ¬(s.openedSides ≠ [] ∨ ∃ n, s.fil.nNext = some n ∧ ∀ e ∈ s.loc.ranges, e.last < n) := by
  rw [← nextAbove_iff]
  simp

/-- Settles O30, pairing by pairing and entry check by entry check. -/
theorem setStateRefused : Obligations.SetStateRefused := by
  refine ⟨fun s r t target ab h ha => ?pairings, fun s hshaped => ?checks⟩
  case pairings =>
    intro refused
    have refuses {reason : Reason} (ht : setStateTaken r t target ab s = publish (reject r t 2 reason s)) : refused reason :=
      exec_managed rfl h ha (by decide) ht
    have unlisted (h6 : target ≤ 6) (hno : ¬s.mu.service.listed target) : refused .wrongState :=
      refuses (setStateTaken_unlisted h6 hno)
    refine ⟨fun hs h3 reason hr => ?entry, fun hs h6 h3 h5 => unlisted h6 (by simp [Service.listed, hs, h3, h5]),
      fun hs h6 h1 => unlisted h6 (by simp [Service.listed, hs, h1]), fun hs h6 hd => ?draining, fun hs h1 => ?quiescent,
      fun hs h6 => ?unnamed⟩
    case entry =>
      subst h3
      exact refuses (by rw [setStateTaken_entry hs, hr]; rfl)
    case draining =>
      by_cases h1 : target = 1
      · subst h1
        refine refuses (setStateTaken_drain hs ?_)
        rintro ⟨rfl, hplain⟩
        simp [hplain] at hd
      · exact unlisted h6 (by simp [Service.listed, hs, h1])
    case quiescent =>
      rcases Nat.lt_or_ge 6 target with h6 | h6
      · exact refuses (by rw [setStateTaken_unnamed h6, if_pos hs])
      · exact unlisted h6 (by simp [Service.listed, hs, h1])
    case unnamed =>
      refine refuses ((setStateTaken_unnamed h6).trans ?_)
      rw [if_neg (by rcases hs with hs | hs | hs <;> simp [hs])]
  case checks =>
    intro bound tariff day sides named oneOpen agrees next
    have hlen : s.lib.sides.length = 128 := by
      simp only [State.shaped, Bool.and_eq_true, beq_iff_eq] at hshaped
      exact hshaped.1.1.1.1.1
    have hbound : s.mu.manager.isNone = true ↔ ¬bound := by simp [bound]
    have htariff : s.activeSlot.isNone = true ↔ ¬tariff := activeSlot_none_iff
    have hday : s.tal.feeDay = 0 ↔ ¬day := by simp [day]
    have hsides : s.lib.sides.all (·.isNone) = true ↔ ¬sides := sides_none_iff hlen
    have hnamed : (!s.rangesHaveSides) = true ↔ ¬named := by
      rw [Bool.not_eq_true', ← Bool.not_eq_true]
      exact not_congr rangesHaveSides_iff
    have hone : 1 < s.openedSides.length ↔ ¬oneOpen := Nat.not_le.symm
    have hagrees : (!s.openAgrees) = true ↔ ¬agrees := by
      rw [Bool.not_eq_true', ← Bool.not_eq_true]
      exact not_congr openAgrees_iff
    have hnext : (s.openedSides.isEmpty = true ∧ s.nextAbove = false) ↔ ¬next := nextMissing_iff
    clear_value bound tariff day sides named oneOpen agrees next
    refine ⟨fun n => mem_openedSides, ?_⟩
    simp only [State.servingRefusal, hbound, htariff, hday, hsides, hnamed, hone, hagrees, hnext]
    refine ⟨fun h1 => ?_, fun h1 h2 => ?_, fun h1 h2 h3 => ?_, fun h1 h2 h3 h4 => ?_, fun h1 h2 h3 h4 h5 => ?_,
      fun h1 h2 h3 h4 h5 h6 => ?_, fun h1 h2 h3 h4 h5 h6 h7 => ?_, fun h1 h2 h3 h4 h5 h6 h7 h8 => ?_,
      fun h1 h2 h3 h4 h5 h6 h7 h8 => ?_⟩
    all_goals simp only [*, not_true_eq_false, not_false_eq_true, if_true, if_false]

end Sys2Proof.Machine
end

section
/-! SUPPORT. The parameters (R163) and the requester table (R158, R159). -/

namespace Sys2Proof.Machine

variable {s : State} {r t id : Nat}

/-! ### Parameters -/

/-- A value given is clamped into its range (R163). -/
theorem clamp_eq {low high v : Nat} (h : low ≤ high) :
    min (max v low) high = if v < low then low else if high < v then high else v := by
  split_ifs <;> omega

theorem setParamsTaken_eq (v : ParamValues) : setParamsTaken r t v s = settle (publish (accept r t 3
    (s.mu.params.taking v).bytes (reprioritise { s with mu.params := s.mu.params.taking v }))) := by
  have hmu : (reprioritise { s with mu.params := s.mu.params.taking v }).mu = { s.mu with params := s.mu.params.taking v } :=
    reprioritise_mu _
  rw [setParamsTaken, answer_accepted, hmu]

/-- Settles O31: each of the seven values as `takeParam` takes it. -/
theorem setParamsClampsAndRounds : Obligations.SetParamsClampsAndRounds := by
  refine ⟨rfl, fun s r t v h ha => ?_⟩
  intro take p p'
  have take_eq (low high step held : Nat) (given : Option Nat) (hle : low ≤ high) :
      take low high step held given = takeParam low high step held given := by
    cases given with
    | none => rfl
    | some g => exact congrArg (· / step * step) (clamp_eq hle).symm
  have taken : p' = s.mu.params.taking v := by
    simp only [p', p, Params.taking, take_eq, Nat.reduceLeDiff]
  clear_value p'
  subst taken
  exact ⟨exec_managed rfl h ha (by decide) (setParamsTaken_eq v), legal_taking⟩

/-! ### LOAD_REQUESTER -/

theorem requesterRefusal_value {p l : Nat} (h : 31 < id ∨ 3 < p ∨ l < 1 ∨ 16 < l) :
    s.requesterRefusal id p l = some .badValue := if_pos (by omega)

theorem requesterRefusal_inRange {p l : Nat} (h : ¬(31 < id ∨ 3 < p ∨ l < 1 ∨ 16 < l)) :
    s.requesterRefusal id p l = if l < s.activeOf id then some .inUse else none := if_neg (by omega)

theorem loadRequesterTaken_refused {x : Requester} {reason : Reason}
    (h : s.requesterRefusal id x.maxPriority x.contextLimit = some reason) :
    loadRequesterTaken r t id x s = publish (reject r t 4 reason s) := by
  rw [loadRequesterTaken, h, answer_refused]

theorem loadRequesterTaken_accepted {x : Requester} (h : s.requesterRefusal id x.maxPriority x.contextLimit = none) :
    loadRequesterTaken r t id x s = publish (accept r t 4 (requesterBytes id x)
      { s with mu.requesters := s.mu.requesters.set id (some x) }) := by
  rw [loadRequesterTaken, h, answer_accepted]

/-! ### DROP_REQUESTER -/

theorem active_iff {x : CtxState} : x.active = true ↔ x ≠ .free := by cases x <;> simp [CtxState.active]

/-- The requester has an active context, one in ENDING counted, or a filing that is not FREE (R159). -/
def State.requesterBusy (s : State) (id : Nat) : Prop :=
  (∃ c < 16, (s.context c).state ≠ .free ∧ (s.context c).requester = id)
    ∨ ∃ x ∈ s.fil.records, x.state ≠ .free ∧ x.requester = id

theorem activeOf_pos_iff : 0 < s.activeOf id ↔ ∃ c < 16, (s.context c).state ≠ .free ∧ (s.context c).requester = id := by
  rw [State.activeOf, List.length_pos_iff_exists_mem]
  simp only [mem_contextsWhere, Bool.and_eq_true, beq_iff_eq, active_iff]

theorem requesterBusy_iff : s.requesterBusy id
    ↔ 0 < s.activeOf id ∨ s.fil.records.any (fun x => x.state != .free && x.requester == id) = true := by
  simp [State.requesterBusy, activeOf_pos_iff]

theorem dropRefusal_value (h : 31 < id) : s.dropRefusal id = some .badValue := if_pos h

theorem dropRefusal_absent (h : id ≤ 31) (hn : s.requester id = none) : s.dropRefusal id = some .noRequester := by
  rw [State.dropRefusal, if_neg (Nat.not_lt.2 h), if_pos (by simp [hn])]

theorem dropRefusal_present (h : id ≤ 31) (hs : s.requester id ≠ none) [Decidable (s.requesterBusy id)] :
    s.dropRefusal id = if s.requesterBusy id then some .inUse else none := by
  rw [State.dropRefusal, if_neg (Nat.not_lt.2 h), if_neg (by simpa using hs)]
  simp only [requesterBusy_iff]

theorem dropRequesterTaken_refused {reason : Reason} (h : s.dropRefusal id = some reason) :
    dropRequesterTaken r t id s = publish (reject r t 5 reason s) := by
  rw [dropRequesterTaken, h, answer_refused]

theorem dropRequesterTaken_accepted (h : s.dropRefusal id = none) : dropRequesterTaken r t id s
    = publish (accept r t 5 [] { s with mu.requesters := s.mu.requesters.set id none }) := by
  rw [dropRequesterTaken, h, answer_accepted]

theorem requester_dropped (s : State) (id : Nat) :
    ({ s with mu.requesters := s.mu.requesters.set id none } : State).requester id = none := by
  simp only [State.requester, List.getD_eq_getElem?_getD, List.getElem?_set]
  split_ifs <;> simp_all

/-- A requester without a record has no right to a FETCH (R79 check 2). -/
theorem fetchRight_absent {b : FetchBody} (h : s.requester r = none) : s.fetchRight r b = false := by
  simp [State.fetchRight, h]

/-- Settles O32, request by request. -/
theorem requesterTableWritten : Obligations.RequesterTableWritten := by
  intro s r t id h
  refine ⟨fun ha p l x => ?load, fun ha => ?drop, fun u t' b hu hn hs hv => ?fetch⟩
  case load =>
    intro bad
    have loads {u : State} (hu : loadRequesterTaken r t id { rights := x, maxPriority := p, contextLimit := l } s = u) :
        exec (.loadRequester r t id x p l) s = .next u := exec_managed rfl h ha (by decide) hu
    refine ⟨fun hb => loads (loadRequesterTaken_refused (requesterRefusal_value hb)),
      fun hb hl => loads (loadRequesterTaken_refused ((requesterRefusal_inRange hb).trans (if_pos hl))),
      fun hb hl => loads (loadRequesterTaken_accepted ((requesterRefusal_inRange hb).trans (if_neg (Nat.not_lt.2 hl))))⟩
  case drop =>
    intro busy dropped
    classical
    have drops {u : State} (hu : dropRequesterTaken r t id s = u) : exec (.dropRequester r t id) s = .next u :=
      exec_managed rfl h ha (by decide) hu
    refine ⟨fun hi => drops (dropRequesterTaken_refused (dropRefusal_value hi)),
      fun hi hno => drops (dropRequesterTaken_refused (dropRefusal_absent hi hno)),
      fun hi hsome hb => drops (dropRequesterTaken_refused ((dropRefusal_present hi hsome).trans (if_pos hb))),
      fun hi hsome hb => ⟨drops (dropRequesterTaken_accepted ((dropRefusal_present hi hsome).trans (if_neg hb))),
        requester_dropped s id, rfl⟩⟩
  case fetch =>
    exact exec_fetch_refused hu (fetchRefusal_barred (fetchBarred_right hv hs (fetchRight_absent hn)))

end Sys2Proof.Machine
end

section
/-! SUPPORT. What the accepted pairings of SET_STATE do (R162, R172, R174, R180 to R182). -/

namespace Sys2Proof.Machine

variable {s : State} {r t : Nat} {ab : Bool}

/-! ### The entry to OPENING -/

theorem openedSides_head (s : State) :
    s.openedSides.head? = (List.range 128).find? fun n => (s.side n).any (·.state == .opened) := List.head?_filter

/-- The change of state at the entry to OPENING, with the pending buffer emptied and the finding cleared (R174). -/
def openingBegun (s : State) : State :=
  changeService .opening .setState { s with
    loc.entries := []
    mu.recoveryFinding := .none
    recovery := { Recovery.reset with phase := .identifying, openAtEntry := s.openedSides.head? } }

theorem enterOpening_eq (s : State) : enterOpening s = [0, 1, 2, 3].foldl (fun s d => identify d s)
    ((openingBegun s).modPicker fun p => { p with inventoryOwed := p.inventoryOwed || p.state != .fault }) := by
  unfold openingBegun
  rw [openedSides_head]
  rfl

theorem identify_rest (d : Nat) (s : State) : (identify d s).mu = s.mu ∧ (identify d s).loc = s.loc
    ∧ (identify d s).recovery = s.recovery ∧ (identify d s).lib = s.lib := by
  unfold identify
  split <;> exact ⟨rfl, rfl, rfl, rfl⟩

theorem enterOpening_rest (s : State) :
    let u := enterOpening s
    u.mu = { s.mu with recoveryFinding := .none, service := .opening } ∧ u.loc = { s.loc with entries := [] }
      ∧ u.recovery = { Recovery.reset with phase := .identifying, openAtEntry := s.openedSides.head? }
      ∧ u.lib.picker.inventoryOwed = (s.lib.picker.inventoryOwed || s.lib.picker.state != .fault) := by
  obtain ⟨hmu, hloc, -, hrec, hlib, -, -⟩ := changeService_rest .opening .setState { s with
    loc.entries := []
    mu.recoveryFinding := .none
    recovery := { Recovery.reset with phase := .identifying, openAtEntry := s.openedSides.head? } }
  rw [enterOpening_eq]
  refine foldl_kept (P := fun u => u.mu = { s.mu with recoveryFinding := .none, service := .opening }
    ∧ u.loc = { s.loc with entries := [] }
    ∧ u.recovery = { Recovery.reset with phase := .identifying, openAtEntry := s.openedSides.head? }
    ∧ u.lib.picker.inventoryOwed = (s.lib.picker.inventoryOwed || s.lib.picker.state != .fault))
    (fun u d hu => ?_) _ ⟨hmu, hloc, hrec, ?_⟩
  · obtain ⟨imu, iloc, irec, ilib⟩ := identify_rest d u
    rwa [imu, iloc, irec, ilib]
  · exact congrArg (fun l : Lib => l.picker.inventoryOwed || l.picker.state != .fault) hlib

/-! ### The drain with ABORT -/

/-- The end of the work at an ABORT (R124, R181). -/
theorem abortWork_ends (s : State) :
    let u := abortWork s
    u.mu = { s.mu with drain := some .abort }
      ∧ (∀ c < 16, (u.context c).state.live = false)
      ∧ (∀ c < 16, (s.context c).state.live = true → (u.context c).outcome = some .abandoned)
      ∧ ∀ f < 8, (u.filing f).state ≠ .free → s.attemptInFlight = true ∧ s.fil.queue.head? = some f := by
  let v : State := { s with mu.drain := some .abort }
  let w : State := endAllContexts .abandoned v
  obtain ⟨-, -, -, em, ef, -⟩ := endContexts_spec (v.contextsWhere (·.state.live)) .abandoned v
  have wmu : w.mu = v.mu := em
  have wfil : w.fil = s.fil := ef
  obtain ⟨fc, -, fm, -⟩ := stopFiling_kept w
  have hctx (c : Nat) : (stopFiling w).context c = w.context c := context_congr fc c
  refine ⟨fm.trans wmu, fun c hc => ?_, fun c hc hl => ?_, fun f hf hu => ?_⟩
  · exact (congrArg (·.state.live) (hctx c)).trans (endAllContexts_ends hc).1
  · exact (congrArg (·.outcome) (hctx c)).trans ((endAllContexts_ends (s := v) hc).2 hl)
  · have h := stopFiling_filing hf hu
    unfold State.attemptInFlight at h ⊢
    rwa [wfil] at h

/-- A drain with ABORT begins, or a PLAIN drain becomes one (R181). -/
def drainAborted (s : State) (r t : Nat) : State :=
  let v := awaitReply .setState r t s
  if s.mu.service = .serving then beginDrain true v else abortWork (changeService .draining .setState v)

/-- The part drains with ABORT in `u`, the work of `s` is ended, and these requests await their replies (R124, R181). -/
def State.abortedTo (s : State) (late : List Late) (u : State) : Prop :=
  u.mu.service = .draining ∧ u.mu.drain = some .abort ∧ u.mu.late = late
    ∧ (∀ c < 16, (u.context c).state.live = false)
    ∧ (∀ c < 16, (s.context c).state.live = true → (u.context c).outcome = some .abandoned)
    ∧ ∀ f < 8, (u.filing f).state ≠ .free → s.attemptInFlight = true ∧ s.fil.queue.head? = some f

theorem changeService_abort (s : State) : s.abortedTo s.mu.late (abortWork (changeService .draining .setState s)) := by
  obtain ⟨hmu, -, hfil, -⟩ := changeService_rest .draining .setState s
  have hctx : (changeService .draining .setState s).ctx = s.ctx := raise_ctx _ _
  obtain ⟨amu, live, outcome, used⟩ := abortWork_ends (changeService .draining .setState s)
  refine ⟨by rw [amu, hmu], by rw [amu], by rw [amu, hmu], live, fun c hc hl => outcome c hc ?_, ?_⟩
  · rwa [context_congr hctx]
  · unfold State.attemptInFlight at used ⊢
    rwa [hfil] at used

/-- It is told of the contexts and the filings alone. -/
theorem State.abortedTo.of_kept {v u : State} {late : List Late} (h : v.abortedTo late u) (hc : v.ctx = s.ctx)
    (hf : v.fil = s.fil) : s.abortedTo late u := by
  obtain ⟨service, drain, awaited, idle, outcome, used⟩ := h
  refine ⟨service, drain, awaited, idle, fun c hc' hl => outcome c hc' ?_, ?_⟩
  · rwa [context_congr hc]
  · unfold State.attemptInFlight at used ⊢
    rwa [hf] at used

theorem drainAborted_ends (s : State) (r t : Nat) :
    s.abortedTo (s.mu.late ++ [{ kind := .setState, requester := r, tag := t }]) (drainAborted s r t) := by
  unfold drainAborted
  split
  · exact (changeService_abort { awaitReply .setState r t s with mu.drain := some .plain }).of_kept rfl rfl
  · exact (changeService_abort (awaitReply .setState r t s)).of_kept rfl rfl

/-! ### The accepted pairings -/

theorem setStateTaken_quiescent (hs : s.mu.service = .standby) : setStateTaken r t 5 ab s =
    publish (accept r t 2 (number 1 (enterQuiescent s).mu.service.code) (enterQuiescent s)) := by
  simp only [setStateTaken, hs, show serviceOfCode 5 = some .quiescent from rfl, answer_accepted]

theorem setStateTaken_serving (hs : s.mu.service = .serving) : setStateTaken r t 1 ab s =
    settle (beginDrain ab (awaitReply .setState r t s)) := by
  simp only [setStateTaken, hs, show serviceOfCode 1 = some .standby from rfl, answerLater_begun]

theorem setStateTaken_aborts (h : s.mu.service = .serving ∨ (s.mu.service = .draining ∧ s.mu.drain = some .plain)) :
    setStateTaken r t 1 true s = settle (drainAborted s r t) := by
  rcases h with hs | ⟨hs, hd⟩
  · rw [setStateTaken_serving hs, drainAborted, if_pos hs]
  · rw [drainAborted, if_neg (by simp [hs])]
    simp only [setStateTaken, hs, hd, show serviceOfCode 1 = some .standby from rfl, and_self, if_true, answerLater_begun]

theorem setStateTaken_standby (hs : s.mu.service = .quiescent) : setStateTaken r t 1 ab s =
    settle (publish (accept r t 2 (number 1 (enterStandby .setState s).mu.service.code) (enterStandby .setState s))) := by
  simp only [setStateTaken, hs, show serviceOfCode 1 = some .standby from rfl, answer_accepted]

/-- Settles O29, pairing by pairing. -/
theorem setStateChanges : Obligations.SetStateChanges := by
  intro s r t ab h ha kept
  have takes {ab : Bool} {target : Nat} {u : State} (hu : setStateTaken r t target ab s = u) :
      exec (.setState r t target ab) s = .next u := exec_managed rfl h ha (by decide) hu
  refine ⟨fun hs hr => ?opening, fun hs => takes ?quiescent, fun hs => takes ?drain, fun hs => ?abort, fun hs => ?standby⟩
  case opening =>
    obtain ⟨hmu, hloc, hrec, howed⟩ := enterOpening_rest (awaitReply .setState r t s)
    refine ⟨_, takes ((setStateTaken_entry hs).trans (answerLater_begun hr)), by rw [hmu], ?_, by rw [hloc], by rw [hmu],
      by rw [hrec], by rw [hrec]; rfl, fun hp => ?_⟩
    · show _ = _
      rw [hmu]
      rfl
    · rw [howed]
      show (s.lib.picker.inventoryOwed || s.lib.picker.state != .fault) = true
      simp [hp]
  case quiescent =>
    have hmu : (enterQuiescent s).mu.service = .quiescent := changeService_service
    rw [setStateTaken_quiescent hs, hmu, enterQuiescent, changeService]
    rw [hs]
    rfl
  case drain =>
    rw [setStateTaken_serving hs, beginDrain]
    exact congrArg (fun a => settle (raise_ (.stateChanged a .draining .setState) _)) hs
  case abort =>
    exact ⟨_, takes (setStateTaken_aborts hs), drainAborted_ends s r t⟩
  case standby =>
    obtain ⟨hmu, hloc, -⟩ := enterStandby_rest .setState s
    refine ⟨_, takes ((setStateTaken_standby hs).trans ?_), by rw [hmu], by rw [hmu], by rw [hloc]⟩
    rw [hmu]
    rfl

end Sys2Proof.Machine
end

section
/-! SUPPORT. The end of the memory check (R23, R42, R170): the probes that start-up places, and the two outcomes. -/

namespace Sys2Proof.Machine

variable {s : State} {d : Nat}

/-! ### The probes of start-up -/

/-- A drive record once a probe is placed (R23, R36): its channel is reset and a LABEL stands behind its queue. -/
def Drive.probed (now : Nat) (x : Drive) : Drive :=
  { x.resetChannel with
    offlinePending := false
    queue := x.queue ++ [{ issuer := .probe, op := .label, first := 0, count := 1, data := [], priority := 0, age := now
                           retries := 0, notReady := 0, have_ := 0 }] }

theorem startProbe_probed (d : Nat) (s : State) : startProbe d s = s.modDrive d (Drive.probed s.now) := startProbe_eq d s

/-- Probes on the drives of a list, placed at one instant, change each of these drives once. -/
theorem foldl_startProbe_drive {l : List Nat} (hl : l.Nodup) (s : State) (hd : d < s.drives.length) :
    (l.foldl (fun s d => startProbe d s) s).drive d = if d ∈ l then (s.drive d).probed s.now else s.drive d := by
  induction l generalizing s with
  | nil => rfl
  | cons a l ih =>
    obtain ⟨ha, hl⟩ := List.nodup_cons.1 hl
    rw [List.foldl_cons, startProbe_probed, ih hl _ (by simpa using hd), drive_modDrive, modDrive_now]
    by_cases h : a = d
    · subst h
      simp [ha, hd]
    · simp [h, Ne.symm h]

/-- Probes leave the picker and the memory check alone. -/
theorem foldl_startProbe_rest (l : List Nat) (s : State) :
    (l.foldl (fun s d => startProbe d s) s).memory = s.memory ∧ (l.foldl (fun s d => startProbe d s) s).lib = s.lib :=
  foldl_kept (f := fun s d => startProbe d s) (P := fun t => t.memory = s.memory ∧ t.lib = s.lib) (fun _ _ h => h) l
    ⟨rfl, rfl⟩

/-! ### The start-up steps -/

theorem startUp_drive (hd : d < 4) (hl : d < s.drives.length) : (startUp s).drive d = (s.drive d).probed s.now := by
  have hmem : d ∈ [0, 1, 2, 3] := by simp; omega
  rw [startUp, foldl_startProbe_drive, if_pos hmem]
  · rfl
  · decide
  · exact hl

theorem startUp_rest (s : State) : (startUp s).memory = .passed
    ∧ (startUp s).lib = { s.lib with picker := { (startHome s).lib.picker with inventoryOwed := true } } :=
  foldl_startProbe_rest _ _

/-! ### The two outcomes -/

theorem settle_memory (s : State) : (settle s).memory = s.memory :=
  (KeepsBut.refl s).settle (w := []) .memory List.not_mem_nil

theorem settle_service_of_fault (h : s.mu.service = .fault) : (settle s).mu.service = .fault :=
  serviceFollows_stays (by simp) (serviceFollows_settle (.inl h))

theorem changeService_memory {n : Service} {c : ChangeCause} : (changeService n c s).memory = s.memory :=
  (KeepsBut.of_eq (w := []) changeService_tables) .memory List.not_mem_nil

theorem exec_memoryCheckFailed (hm : s.memory = .running) (hs : s.mu.service = .startup) (f : Nat) :
    exec (.memoryCheckDone (some f)) s = .next (settle (changeService .fault .startUp
      { s with memory := .failed, mu.startFinding := .memory f })) :=
  if_neg (by simp [hm, hs])

theorem exec_memoryCheckPassed (hm : s.memory = .running) (hs : s.mu.service = .startup) :
    exec (.memoryCheckDone none) s = .next (settle (startUp s)) :=
  if_neg (by simp [hm, hs])

/-- Settles O12: FAULT is left by a command alone, and `settle` does not write the memory check. -/
theorem memoryCheckEndsStartUp : Obligations.MemoryCheckEndsStartUp := by
  intro s hm hs
  refine ⟨fun f => ?failed, ?passed⟩
  case failed =>
    refine ⟨_, exec_memoryCheckFailed hm hs f, (settle_memory _).trans changeService_memory,
      settle_service_of_fault changeService_service, ?_⟩
    exact congrArg (fun a => settle (raise_ (.stateChanged a .fault .startUp) _)) hs
  case passed =>
    obtain ⟨hmem, hlib⟩ := startUp_rest s
    refine ⟨_, startUp s, exec_memoryCheckPassed hm hs, rfl, (settle_memory _).trans hmem, ?_, ?_, ?_, fun d hd hl => ?_⟩
    · rw [hlib]
      rfl
    · rw [hlib]
      rfl
    · rw [hlib]
    · rw [startUp_drive hd hl]
      exact ⟨rfl, rfl, rfl, rfl⟩

end Sys2Proof.Machine
end

section
/-! SUPPORT. A frame of the document server as R185 lays it out: its header, and what the checks of R152 read of it. -/

namespace Sys2Proof.Machine

theorem bigEndian_eq_number {w n : Nat} (h : n < 256 ^ w) : bigEndian w n = number w n := (if_pos h).symm

/-- The header of a frame (R185): kind, requester id, tag, and the length of the body. -/
def frameHeader (kind r t n : Nat) : List Byte := number 1 kind ++ (number 1 r ++ (number 2 t ++ number 2 n))

@[simp] theorem frameHeader_length (kind r t n : Nat) : (frameHeader kind r t n).length = 6 := by simp [frameHeader]

/-- Each field of the header is read back, whatever stands behind the header. -/
theorem fieldAt_frameHeader {kind r t n : Nat} (hk : kind < 256) (hr : r < 256) (ht : t < 65536) (hn : n < 65536)
    (rest : List Byte) :
    let bytes := frameHeader kind r t n ++ rest
    fieldAt bytes 0 1 = kind ∧ fieldAt bytes 1 1 = r ∧ fieldAt bytes 2 2 = t ∧ fieldAt bytes 4 2 = n := by
  simp only [frameHeader, List.append_assoc]
  refine ⟨fieldAt_number _ hk, fieldAt_middle (number_length 1 kind) hr, ?tag, ?bodyLength⟩
  case tag =>
    rw [← List.append_assoc, fieldAt_middle (by simp) ht]
  case bodyLength =>
    rw [← List.append_assoc, ← List.append_assoc, fieldAt_middle (by simp) hn]

/-- The request of a frame that passes the checks of R152. -/
theorem readFrame_of_passes {bytes : List Byte} (length : fieldAt bytes 4 2 + 8 = bytes.length)
    (check : (crc16 (bytes.take (bytes.length - 2))).toNat = fieldAt bytes (bytes.length - 2) 2)
    (allowed : bodyLengthAllowed (fieldAt bytes 0 1) (fieldAt bytes 4 2) = true) (requester : fieldAt bytes 1 1 ≤ 31) :
    readFrame bytes = some (readRequest (fieldAt bytes 0 1) (fieldAt bytes 1 1) (fieldAt bytes 2 2)
      ((bytes.take (bytes.length - 2)).drop 6)) :=
  if_pos ⟨by omega, length, check, allowed, requester⟩

/-- Two check bytes at the end part a frame into what they cover and the CRC they hold. -/
theorem checkBytes_part (covered : List Byte) :
    let bytes := covered ++ number 2 (crc16 covered).toNat
    bytes.take (bytes.length - 2) = covered ∧ fieldAt bytes (bytes.length - 2) 2 = (crc16 covered).toNat := by
  intro bytes
  have hlen : bytes.length - 2 = covered.length := by simp [bytes]
  rw [hlen]
  refine ⟨List.take_left, ?_⟩
  have hfield := fieldAt_middle (w := 2) (bs := covered) (rest := []) rfl (crc16 covered).isLt
  rwa [List.append_nil] at hfield

/-- A frame whose header and body stand before their CRC is read as the request of that header and body. -/
theorem readFrame_sealed {kind r t : Nat} {body : List Byte} (hr : r ≤ 31) (ht : t < 65536)
    (allowed : bodyLengthAllowed kind body.length = true) :
    let covered := frameHeader kind r t body.length ++ body
    readFrame (covered ++ number 2 (crc16 covered).toNat) = some (readRequest kind r t body) := by
  intro covered
  obtain ⟨-, hk, short⟩ := bodyLengthAllowed_bounds allowed
  obtain ⟨hcovered, hcheck⟩ := checkBytes_part covered
  have hlength : (covered ++ number 2 (crc16 covered).toNat).length = body.length + 8 := by simp [covered]; omega
  obtain ⟨kindRead, requesterRead, tagRead, lengthRead⟩ := fieldAt_frameHeader (kind := kind) (r := r) (t := t)
    (n := body.length) (by omega) (by omega) ht (by omega) (body ++ number 2 (crc16 covered).toNat)
  rw [← List.append_assoc] at kindRead requesterRead tagRead lengthRead
  rw [readFrame_of_passes (by rw [lengthRead, hlength]) (by rw [hcovered, hcheck]) (by rwa [kindRead, lengthRead])
    (by rwa [requesterRead]), kindRead, requesterRead, tagRead, hcovered, List.drop_left' (frameHeader_length ..)]

/-- Settles O14: each number of the header fits its field, and the check bytes are the CRC of all bytes before them. -/
theorem framesReadAsSent : Obligations.FramesReadAsSent := by
  rintro kind r t body - hk hr ht allowed covered rfl
  obtain ⟨-, -, short⟩ := bodyLengthAllowed_bounds allowed
  rw [bigEndian_eq_number (show kind < 256 ^ 1 by omega), bigEndian_eq_number (show r < 256 ^ 1 by omega),
    bigEndian_eq_number (show t < 256 ^ 2 from ht), bigEndian_eq_number (show body.length < 256 ^ 2 by omega),
    bigEndian_eq_number (BitVec.isLt _)]
  simpa only [frameHeader, List.append_assoc] using readFrame_sealed hr ht allowed

end Sys2Proof.Machine
end

section
/-! SUPPORT. The queue of the commands that wait: what leaves it as it is, and the outcome of every command. -/

namespace Sys2Proof.Machine

variable {s t : State}

/-! ### What follows an event -/

theorem Follows.pending (h : Follows s t) : t.pending = s.pending := by
  have hf := h.fixed
  simp only [State.fixed, Prod.mk.injEq] at hf
  obtain ⟨pending, -⟩ := hf
  exact pending

@[simp] theorem settle_pending : (settle s).pending = s.pending := (Follows.refl s).settle.pending

@[simp] theorem publish_pending : (publish s).pending = s.pending := (Follows.refl s).publish.pending

/-! ### Requests -/

theorem handOn_pending {i : Instr} {act : State → State} (h : ∀ v, (act v).pending = v.pending) :
    (handOn i act s).pending = s.pending := by
  rcases handOn_cases i act s with ⟨-, -, e⟩ | ⟨qs, -, -, e⟩ | ⟨l, e, -⟩ <;> rw [e]
  · exact h s
  · exact h { s with rli.inbound := qs }

/-- A management request handed on. -/
theorem managed_pending {i : Instr} {r g code : Nat} {act : State → State} (h : ∀ v, (act v).pending = v.pending) :
    (handOn i (manage r g code act) s).pending = s.pending :=
  handOn_pending fun v => by
    rcases manage_cases r g code act v with e | ⟨reason, e⟩ <;> rw [e]
    · exact h v
    · exact publish_pending

theorem answer_pending {r g code : Nat} {refusal : Option Reason} {effect : State → State} {data : State → List Byte}
    (h : (effect s).pending = s.pending) : (answer r g code refusal effect data s).pending = s.pending := by
  unfold answer
  split
  · exact publish_pending
  · exact publish_pending.trans h

theorem answerLater_pending {r g code : Nat} {k : LateKind} {refusal : Option Reason} {effect : State → State}
    (h : ∀ v, (effect v).pending = v.pending) : (answerLater r g code k refusal effect s).pending = s.pending := by
  unfold answerLater
  split
  · exact publish_pending
  · exact settle_pending.trans (h (awaitReply k r g s))

theorem query_pending {r g code : Nat} {refusal : Option Reason} {data : State → List Byte} :
    (query r g code refusal data s).pending = s.pending := answer_pending rfl

/-- An event of the picker line leaves the queue when its effect on the motion does. -/
theorem pickerEvent_pending {e : PickerEvent} {act : Motion → State → State}
    (h : ∀ m v, (act m v).pending = v.pending) : (pickerEvent e act s).pending = s.pending := by
  rcases pickerEvent_cases e act s with e1 | e1 | ⟨m, -, -, -, e1⟩ <;> rw [e1]
  · exact (Follows.refl s).pickerFaulted.settle.pending
  · exact h m _

/-! ### Part and line -/

@[simp] theorem changeService_pending {n : Service} {c : ChangeCause} : (changeService n c s).pending = s.pending :=
  (Follows.refl { s with mu.service := n }).raise.pending

theorem startUp_pending : (startUp s).pending = s.pending :=
  have home := (Follows.refl { s with memory := .passed }).startHome
  (Follows.fold _ (fun v _ => (Follows.refl v).startProbe) _ (home.modPicker id)).pending

theorem admitFrame_pending {bs : List Byte} : (admitFrame bs s).pending = s.pending := by
  unfold admitFrame
  split
  · rfl
  · split <;> rfl

theorem lineDown_pending : (lineDown s).pending = s.pending := by
  unfold lineDown
  split <;> rfl

theorem lineUp_pending : (lineUp s).pending = s.pending := by
  unfold lineUp
  split
  · rfl
  · exact settle_pending

theorem frameFinished_pending : (frameFinished s).pending = s.pending := by
  unfold frameFinished
  split
  · rfl
  · exact settle_pending

/-! ### Contexts -/

theorem takeContext_pending {c : Nat} {x : Context} : (takeContext c x s).pending = s.pending := by
  unfold takeContext
  dsimp only
  split <;> rfl

theorem acceptFetch_pending {r g : Nat} {b : FetchBody} : (acceptFetch r g b s).pending = s.pending := by
  unfold acceptFetch
  split
  · rfl
  · exact (Follows.refl _).applyAnswer.settle.pending.trans takeContext_pending

theorem fetchTaken_pending {r g : Nat} {b : FetchBody} : (fetchTaken r g b s).pending = s.pending := by
  unfold fetchTaken
  split
  · exact publish_pending
  · exact acceptFetch_pending

theorem holdTaken_pending {r g : Nat} : (holdTaken r g s).pending = s.pending := by
  unfold holdTaken
  split
  · exact publish_pending
  · rfl

theorem resumeTaken_pending {r g : Nat} : (resumeTaken r g s).pending = s.pending := by
  unfold resumeTaken
  split
  · exact publish_pending
  · exact settle_pending

theorem cancelTaken_pending {r g : Nat} : (cancelTaken r g s).pending = s.pending := by
  unfold cancelTaken
  split
  · exact publish_pending
  · exact (Follows.refl s).endContext.settle.pending

theorem holdExpired_pending {c : Nat} : (holdExpired c s).pending = s.pending := by
  unfold holdExpired
  split
  · rfl
  · split
    · exact (Follows.refl (s.reach _)).endContext.settle.pending
    · rfl

/-! ### Filings -/

theorem openFiling_pending {r g : Nat} : (openFiling r g s).pending = s.pending := by
  unfold openFiling
  split_ifs
  iterate 3 rfl
  split <;> rfl

theorem filePage_pending {r g : Nat} {b : PageBody} : (filePage r g b s).pending = s.pending := by
  unfold filePage
  split
  · rfl
  · split
    · rfl
    · dsimp only
      split_ifs <;> rfl

theorem endFiling_pending {r g n : Nat} : (endFiling r g n s).pending = s.pending := by
  unfold endFiling
  split
  · rfl
  · split
    · rfl
    · dsimp only
      split_ifs <;> rfl

theorem discardFiling_pending {f : Nat} {c : FileCause} : (discardFiling f c s).pending = s.pending := by
  unfold discardFiling freeFiling
  dsimp only
  split <;> rfl

theorem abortFiling_pending {r g : Nat} : (abortFiling r g s).pending = s.pending := by
  unfold abortFiling
  split
  · rfl
  · split
    · rfl
    · exact (Follows.refl _).markerIfNeeded.pending.trans discardFiling_pending

theorem gatherExpired_pending {f : Nat} : (gatherExpired f s).pending = s.pending := by
  unfold gatherExpired
  split
  · exact discardFiling_pending
  · rfl

/-! ### Service states -/

theorem enterStandby_pending {c : ChangeCause} : (enterStandby c s).pending = s.pending :=
  (Follows.refl _).standbyEntry.pending.trans changeService_pending

theorem enterOpening_pending : (enterOpening s).pending = s.pending := by
  unfold enterOpening
  extract_lets opened m1 l1 r1 s1 s2
  exact (Follows.refl s1).beginIdentify.pending.trans changeService_pending

theorem beginDrain_pending {b : Bool} : (beginDrain b s).pending = s.pending := by
  unfold beginDrain
  dsimp only
  split
  · exact (Follows.refl _).abortWork.pending.trans changeService_pending
  · exact changeService_pending

theorem setStateTaken_pending {r g n : Nat} {b : Bool} : (setStateTaken r g n b s).pending = s.pending := by
  unfold setStateTaken
  split
  · exact answerLater_pending fun _ => enterOpening_pending
  · exact answer_pending changeService_pending
  · exact answerLater_pending fun _ => beginDrain_pending
  · split
    · exact answerLater_pending fun _ => (Follows.refl _).abortWork.pending.trans changeService_pending
    · exact publish_pending
  · exact settle_pending.trans (answer_pending enterStandby_pending)
  iterate 3 exact publish_pending

theorem restartWork_pending : (restartWork s).pending = s.pending := by
  unfold restartWork
  extract_lets s1 m1 s2 s3
  have stopped : s1.pending = s.pending := (Follows.refl s).stopRecovery.pending
  have draining : s2.pending = s.pending := changeService_pending.trans stopped
  have filingStopped : Follows s2 s3 := (Follows.refl s2).endAllContexts.restartLibrary.stopFiling
  exact (Follows.fold _ (fun v _ => (Follows.refl v).restartQueue) _ filingStopped).pending.trans draining

/-! ### Management -/

theorem setParamsTaken_pending {r g : Nat} {v : ParamValues} : (setParamsTaken r g v s).pending = s.pending :=
  settle_pending.trans <| answer_pending <|
    (Follows.refl { s with mu.params := s.mu.params.taking v }).reprioritise.pending

theorem storeSide_pending {l : SideLoad} : (storeSide l s).pending = s.pending := by
  cases l <;> rfl

theorem storeAccount_pending {n c l : Nat} {a : AccountState} {b : Bool} :
    (storeAccount n c l a b s).pending = s.pending := by
  unfold storeAccount
  split <;> rfl

theorem storeSchedule_pending {e : Nat} {fs : List ClassFigures} : (storeSchedule e fs s).pending = s.pending := by
  unfold storeSchedule
  split
  · rfl
  · dsimp only
    split
    · exact (Follows.refl _).raise.pending
    · rfl

theorem switchSchedule_pending : (switchSchedule s).pending = s.pending := by
  unfold switchSchedule
  dsimp only
  split
  · rfl
  · exact (Follows.refl _).raise.pending

theorem turnDay_pending {d : Nat} : (turnDay d s).pending = s.pending := by
  unfold turnDay
  dsimp only
  split
  · exact switchSchedule_pending
  · rfl

/-! ### Picker and quiet holds -/

theorem scheduleHold_pending : (scheduleHold s).pending = s.pending := by
  unfold scheduleHold
  dsimp only
  split <;> rfl

theorem handOrder_pending {d : Nat} {m : Motion} : (handOrder d m s).pending = s.pending := by
  unfold handOrder
  split <;> rfl

theorem insertedInto_pending {m : Motion} : (insertedInto m s).pending = s.pending := by
  unfold insertedInto
  split
  · extract_lets s1 s2 s3
    have handed : s3.pending = s.pending := handOrder_pending.trans scheduleHold_pending
    split
    · exact handed
    · exact (Follows.refl s3).dismissIncoming.haltIfOpenIn.pending.trans handed
  · rfl

theorem insertedThen_pending {m : Motion} : (insertedThen m s).pending = s.pending := by
  unfold insertedThen
  split
  · exact insertedInto_pending
  · exact settle_pending.trans insertedInto_pending

theorem ejectedFrom_pending {m : Motion} : (ejectedFrom m s).pending = s.pending := by
  unfold ejectedFrom
  split
  · exact scheduleHold_pending
  · rfl

theorem placedThen_pending {m : Motion} : (placedThen m s).pending = s.pending := by
  unfold placedThen
  split
  · exact (Follows.refl s).placedHome.settle.pending
  · exact (Follows.refl s).placedHome.pending

theorem beginHold_pending : (beginHold s).pending = s.pending := by
  unfold beginHold
  dsimp only
  split
  · rfl
  · split
    · rfl
    · split <;> rfl
    · rfl

theorem endHold_pending : (endHold s).pending = s.pending := by
  unfold endHold
  dsimp only
  split
  · rfl
  · split
    · exact (Follows.refl _).queuePass.pending
    · rfl

theorem holdBegins_pending : (holdBegins s).pending = s.pending := by
  unfold holdBegins
  split
  · rfl
  · split
    · rfl
    · exact beginHold_pending

theorem holdEnds_pending : (holdEnds s).pending = s.pending := by
  unfold holdEnds
  split
  · rfl
  · split
    · exact endHold_pending
    · rfl

/-! ### The outcome of a command -/

/-- An outcome that is a next state, in which the same commands wait. -/
def GoesOn (s : State) (o : Out) : Prop := ∃ t, o = .next t ∧ t.pending = s.pending

theorem GoesOn.next (h : t.pending = s.pending) : GoesOn s (.next t) := ⟨t, rfl, h⟩

theorem GoesOn.memoryCheckDone {f : Option Nat} : GoesOn s (execMemoryCheckDone f s) := by
  unfold execMemoryCheckDone
  split
  · exact .next rfl
  · split
    · exact .next (settle_pending.trans changeService_pending)
    · exact .next (settle_pending.trans startUp_pending)

theorem GoesOn.driveWaitingToSend {d : Fin 4} : GoesOn s (execDriveWaitingToSend d s) := by
  unfold execDriveWaitingToSend
  split
  · exact .next rfl
  · exact .next (Follows.refl s).offerTaken.pending
  · exact .next (Follows.refl s).channelFault.settle.pending

theorem GoesOn.dataBlock {d : Fin 4} {b : Sector} : GoesOn s (execDataBlock d b s) := by
  unfold execDataBlock
  split
  · exact .next rfl
  · exact .next (Follows.refl s).blockTaken.publish.pending
  · exact .next (Follows.refl s).channelFault.settle.pending

theorem GoesOn.result {d : Fin 4} {res : DriveResult} : GoesOn s (execResult d res s) := by
  unfold execResult
  split
  · exact .next rfl
  · exact .next (Follows.refl s).resultTaken.settle.pending
  · exact .next (Follows.refl s).channelFault.settle.pending

theorem GoesOn.channelStall {d : Fin 4} : GoesOn s (execChannelStall d s) := by
  unfold execChannelStall
  split
  · exact .next rfl
  · exact .next (Follows.refl (s.reach _)).channelFault.settle.pending

theorem GoesOn.idleTimerExpiry {d : Fin 4} : GoesOn s (execIdleTimerExpiry d s) := by
  unfold execIdleTimerExpiry
  split
  · exact .next rfl
  · exact .next (Follows.refl ((s.reach _).modDrive d _)).newUnmount.settle.pending

theorem GoesOn.pickerFault : GoesOn s (execPickerFault s) := by
  unfold execPickerFault
  split
  · exact .next rfl
  · exact .next (Follows.refl s).pickerReportsFault.settle.pending

/-- Every command, in every state. -/
theorem exec_goesOn (i : Instr) (s : State) : GoesOn s (exec i s) := by
  cases i with
  | powerOnReset => exact .next rfl
  | memoryCheckDone f => exact .memoryCheckDone
  | frameAdmission bs => exact .next admitFrame_pending
  | linkDown => exact .next lineDown_pending
  | linkUp => exact .next lineUp_pending
  | frameSent => exact .next frameFinished_pending
  | fetch r g b => exact .next (handOn_pending fun _ => fetchTaken_pending)
  | hold r g => exact .next (handOn_pending fun _ => holdTaken_pending)
  | resume r g => exact .next (handOn_pending fun _ => resumeTaken_pending)
  | cancel r g => exact .next (handOn_pending fun _ => cancelTaken_pending)
  | fileOpen r g => exact .next (handOn_pending fun _ => publish_pending.trans openFiling_pending)
  | page r g b => exact .next (handOn_pending fun _ => publish_pending.trans filePage_pending)
  | fileEnd r g n => exact .next (handOn_pending fun _ => settle_pending.trans endFiling_pending)
  | fileAbort r g => exact .next (handOn_pending fun _ => settle_pending.trans abortFiling_pending)
  | bind | loadRequester | dropRequester | loadRange | clearRanges | setNextInstrument | setAccountState | closeAccount =>
    exact .next (managed_pending fun _ => answer_pending rfl)
  | setState r g n b => exact .next (managed_pending fun _ => setStateTaken_pending)
  | setParams r g v => exact .next (managed_pending fun _ => setParamsTaken_pending)
  | loadSide r g l => exact .next (managed_pending fun _ => answer_pending storeSide_pending)
  | loadAccount r g n c l x b => exact .next (managed_pending fun _ => answer_pending storeAccount_pending)
  | loadSchedule r g e fs => exact .next (managed_pending fun _ => answer_pending storeSchedule_pending)
  | dayClose r g d => exact .next (managed_pending fun _ => answer_pending turnDay_pending)
  | driveOffline r g d =>
    exact .next (managed_pending fun v =>
      settle_pending.trans (answer_pending (Follows.refl v).takeOffline.pending))
  | driveRetry r g d =>
    exact .next (managed_pending fun _ => answerLater_pending fun v => (Follows.refl v).startProbe.pending)
  | clearPicker r g =>
    exact .next (managed_pending fun _ => answerLater_pending fun v => (Follows.refl v).startHome.pending)
  | filingResume r g =>
    exact .next (managed_pending fun v =>
      settle_pending.trans (answer_pending (Follows.refl v).retestHalt.runReadiness.pending))
  | restart r g => exact .next (managed_pending fun _ => answerLater_pending fun _ => restartWork_pending)
  | clearFault r g =>
    exact .next (managed_pending fun _ => answerLater_pending fun v => (Follows.refl v).clearFaultWork.pending)
  | queryStatus | queryAccount | querySide | queryDrive | queryContexts | queryFilings | querySchedules =>
    exact .next (managed_pending fun _ => query_pending)
  | driveWaitingToSend d => exact .driveWaitingToSend
  | dataBlock d b => exact .dataBlock
  | result d res => exact .result
  | channelStall d => exact .channelStall
  | takenFromSlot => exact .next (pickerEvent_pending fun _ v => (Follows.refl v).taken.pending)
  | emptySlot => exact .next (pickerEvent_pending fun _ v => (Follows.refl v).slotEmpty.settle.pending)
  | inserted => exact .next (pickerEvent_pending fun _ _ => insertedThen_pending)
  | ejected => exact .next (pickerEvent_pending fun _ _ => ejectedFrom_pending)
  | placed => exact .next (pickerEvent_pending fun _ _ => placedThen_pending)
  | motionDone => exact .next (pickerEvent_pending fun _ v => (Follows.refl v).motionDone.settle.pending)
  | occupancy l => exact .next (pickerEvent_pending fun _ _ => rfl)
  | pickerFault => exact .pickerFault
  | holdBegun => exact .next (settle_pending.trans holdBegins_pending)
  | holdEnded => exact .next (settle_pending.trans holdEnds_pending)
  | idleTimerExpiry d => exact .idleTimerExpiry
  | holdTimerExpiry c => exact .next holdExpired_pending
  | gatherIdleExpiry f => exact .next (settle_pending.trans gatherExpired_pending)

/-- Settles O3, command by command. -/
theorem noCommandStops : Obligations.NoCommandStops := exec_goesOn

/-! ### The front of the queue -/

/-- Settles O1: a step is the meaning of the front command, by the definition of `step`. -/
theorem stepRunsFront : Obligations.StepRunsFront := by
  intro c rest s hp
  unfold step
  rw [hp]

end Sys2Proof.Machine
end
